-- ==== Sys2Proof/Word.lean ====
section
/-! DEFINITION. The plain number types of the Belpra 7G2 model.

A byte is a frame byte, an image byte or a clip sample as it comes from the phrase store.
A time is a count of ticks since the model's clock began. One tick is 1/24 µs, the longest
unit of which the bit time (1/19,200 s = 1,250 ticks), half of it, the sample period
(125 µs = 3,000 ticks), the port gap (500 ns = 12 ticks) and the millisecond are all whole
multiples. -/

namespace Sys2Proof

/-- A byte of a frame, of the image, or of clip data. -/
abbrev Byte := BitVec 8

/-- A moment, or a length of time, in ticks of 1/24 µs. -/
abbrev Time := Nat

end Sys2Proof
end

