-- ==== Sys2Proof/Config.lean ====
section
/-! DEFINITION. What is fixed for the part whatever it does: its capacities, and the values that the
spec or the commands leave open. Lengths of time stand in `Machine/Timing.lean`. -/

namespace Sys2Proof.Config

/-- The ticks of the model's clock in one second. -/
def ticksPerSecond : Nat := 24000000

/-- R94: the most items the prompt queue holds. -/
def queueCapacity : Nat := 8

/-- R131: the most entries the floor view holds. -/
def viewCapacity : Nat := 8

/-- R2: the most bytes of one reception that are stored. -/
def receptionCapacity : Nat := 15

/-- R126: the most entries of one utterance. -/
def entryCapacity : Nat := 32

/-- R126, R128: the greatest length of an utterance, in clip units. -/
def maxUtterance : Nat := 2550

/-- R155: the most samples the stream buffer holds. -/
def bufferCapacity : Nat := 256

/-- R155: the samples of a full refill. -/
def refillSize : Nat := 64

/-- R180: the size of the phrase store's address space. -/
def storeSize : Nat := 16777216

/-- FREE VALUE (R106, log 26): the minutes that an UNLOAD_REMINDER names at a moment when the DONE-since time
is absent. -/
opaque unknownMinutes : Time → Nat

end Sys2Proof.Config
end

