-- ==== Sys2Proof/Syntax.lean ====
section
/-! DEFINITION. The commands of the block: one constructor of `Instr` for each row of
`spec/opcode_table.json`.

The table names events and gives them no operands. Each constructor carries the moment `t` at
which the event happens and what the event brings with it from outside the part: the strap
levels, the bytes a phrase store read returned, the key, the quadrature pair, the byte on the
line. Everything else an event needs stands in the state. -/

namespace Sys2Proof

/-- R61: the keys of the panel. UP and DOWN exist on a STEP panel only (R52). -/
inductive Key where
  | select | back | start | help | up | down
  deriving DecidableEq, Repr

/-- R90: the 28 prompt classes, in the order of their class numbers. -/
inductive PromptClass where
  | faultCall | actionCall | partnerLost | actionNeeded | requestRefused | noAnswer
  | paymentDue | faultCleared | cycleDone | unloadReminder | started | paused | resumed
  | cancelled | timeCall | phaseChange | programName | optionState | confirmSummary
  | holdStartHint | reprompt | stateDescription | roomSummary | freeMachines | languageName
  | outOfService | welcome | pleaseWait
  deriving DecidableEq, Repr

/-- R102: the five call series. -/
inductive Series where
  | fault | actionFirst | actionSecond | payment | unload
  deriving DecidableEq, Repr

/-- R153, R155: what a sample period brings: its moment, and the bytes that the phrase store port has read of the
refill under way by then and that no command has brought yet, in their order (log 27). -/
structure SampleTick where
  moment : Time
  bytes  : List Byte
  deriving DecidableEq, Repr

/-- The commands. The first operand of each is, or holds, the moment of the event. -/
inductive Instr where
  /-- RESET (R188): power-on or a low level on RESET_N. -/
  | reset (t : Time)
  /-- RESET_RELEASE (R186): the eight strap levels, MN0..MN4 in bits 0..4, LG0..LG1 in bits 5..6, PT in bit 7. -/
  | resetRelease (t : Time) (straps : BitVec 8)
  /-- HEADER_READ_END (R182): the 32 bytes of the header read, and whether LRX is recessive at the moment,
  which is where LISTEN begins when the check fails (R18). -/
  | headerReadEnd (t : Time) (data : List Byte) (recessive : Bool)
  /-- IMAGE_READ_END (R183): the bytes of the cache read under way, and whether LRX is recessive at the
  moment, which is where LISTEN begins after the last read (R18). -/
  | imageReadEnd (t : Time) (data : List Byte) (recessive : Bool)
  /-- LAMP_TEST_END (R187). -/
  | lampTestEnd (t : Time)
  /-- LISTEN_END (R187): with the levels of PA and PB that the first sample of RUN finds (R55). -/
  | listenEnd (t : Time) (a b : Bool)
  /-- E1_WINDOW_END (R176). -/
  | e1WindowEnd (t : Time)
  /-- RECEPTION_CLOSE (R4). -/
  | receptionClose (t : Time)
  /-- LINE_HELD_SET (R8). -/
  | lineHeldSet (t : Time)
  /-- LINE_HELD_CLEAR (R8). -/
  | lineHeldClear (t : Time)
  /-- ATTEMPT_START (R13). -/
  | attemptStart (t : Time)
  /-- ATTEMPT_WITHDRAWN (R14): at the middle of a bit LRX reads the level that is not driven. -/
  | attemptWithdrawn (t : Time)
  /-- TRANSMISSION_COMPLETE (R14). -/
  | transmissionComplete (t : Time)
  /-- FRESHNESS_TIMEOUT (R24). -/
  | freshnessTimeout (t : Time)
  /-- REQUEST_DEADLINE (R36). -/
  | requestDeadline (t : Time)
  /-- ROSTER_ENTRY_EXPIRE (R45): the machine number of the entry. -/
  | rosterEntryExpire (t : Time) (machine : Nat)
  /-- KNOB_TRANSITION (R53): the levels of PA and PB in the sample. -/
  | knobTransition (t : Time) (a b : Bool)
  /-- KEY_PRESS_ACCEPTED (R61): the key, and how long its line has read low at every sample. -/
  | keyPressAccepted (t : Time) (k : Key) (steady : Time)
  /-- KEY_RELEASE_ACCEPTED (R61): the key, and how long its line has read high at every sample. -/
  | keyReleaseAccepted (t : Time) (k : Key) (steady : Time)
  /-- STEP_REPEAT (R56). -/
  | stepRepeat (t : Time)
  /-- SETTLE_TIMEOUT (R59). -/
  | settleTimeout (t : Time)
  /-- CANCEL_HOLD (R63). -/
  | cancelHold (t : Time)
  /-- START_HOLD (R64). -/
  | startHold (t : Time)
  /-- HELP_WINDOW_CLOSE (R65). -/
  | helpWindowClose (t : Time)
  /-- LANGUAGE_HOLD (R115). -/
  | languageHold (t : Time)
  /-- HUSH_TOGGLE (R110). -/
  | hushToggle (t : Time)
  /-- QUEUE_ITEM_EXPIRE (R98): the class of the queued item. -/
  | queueItemExpire (t : Time) (c : PromptClass)
  /-- CALL_TIMER_EXPIRE (R106): the series whose timer expires. -/
  | callTimerExpire (t : Time) (r : Series)
  /-- COMPOSER_READ_END (R116): the bytes of the read. -/
  | composerReadEnd (t : Time) (data : List Byte)
  /-- COMPOSITION_END (R138). -/
  | compositionEnd (t : Time)
  /-- CURRENT_ITEM_EXPIRE (R140). -/
  | currentItemExpire (t : Time)
  /-- VIEW_ENTRY_EXPIRE (R133): the claimant's address. -/
  | viewEntryExpire (t : Time) (addr : Nat)
  /-- CROWDED_CLEAR (R133). -/
  | crowdedClear (t : Time)
  /-- CLAIM_STANDS (R145): the claimant's address. -/
  | claimStands (t : Time) (addr : Nat)
  /-- CONTEST_WINDOW_END (R143). -/
  | contestWindowEnd (t : Time)
  /-- REFILL_END (R155): the bytes of the refill that no SAMPLE_PERIOD has brought. -/
  | refillEnd (t : Time) (data : List Byte)
  /-- ARBITER_GRANT (R181). -/
  | arbiterGrant (t : Time)
  /-- UTTERANCE_PLAYED_WHOLE (R147). -/
  | utterancePlayedWhole (t : Time)
  /-- CUT_COMPLETE (R159). -/
  | cutComplete (t : Time)
  /-- HARD_STOP_FADE (R160). -/
  | hardStopFade (t : Time)
  /-- HARD_STOP (R160). -/
  | hardStop (t : Time)
  /-- SPACING_END (R150). -/
  | spacingEnd (t : Time)
  /-- TONE_SOUND_END (R164). -/
  | toneSoundEnd (t : Time)
  /-- AMP_RELEASE_EXPIRE (R164). -/
  | ampReleaseExpire (t : Time)
  /-- DIM_TIMEOUT (R168). -/
  | dimTimeout (t : Time)
  /-- DARK_TIMEOUT (R169). -/
  | darkTimeout (t : Time)
  /-- REPROMPT_TIMEOUT (R171). -/
  | repromptTimeout (t : Time)
  /-- SAMPLE_PERIOD (R153, R155): the beginning of the period, and the bytes of a refill that have come in. -/
  | samplePeriod (t : SampleTick)
  /-- START_BIT_EDGE (R1): `glitch` is `some d` when the line is recessive again `d` ticks after the
  edge, before the middle of the bit; `none` for a start bit that reads dominant at its middle. -/
  | startBitEdge (t : Time) (glitch : Option Time)
  /-- BYTE_RECEIVED (R1, R2): the eight data bits, bit k read at 1.5 + k bit times from the leading edge, and
  whether the stop bit reads recessive at 9.5 bit times. `t` is that last moment. -/
  | byteReceived (t : Time) (b : Byte) (stop : Bool)
  /-- MULTIPLEX_SLOT (R173). -/
  | multiplexSlot (t : Time)
  deriving DecidableEq, Repr

end Sys2Proof
end

