-- ==== Sys2Proof/WellFormed.lean ====
section
/-! DEFINITION. Which commands could come about at all: the ranges of their operands.

A command that is not well formed names an event the hardware cannot meet (a header read of 31
bytes, a glitch longer than half a bit). The meanings are total all the same. -/

namespace Sys2Proof

/-- The operand ranges the spec gives each command. -/
def WellFormed : Instr → Bool
  -- R182: the header read is one transaction of 32 data bytes.
  | .headerReadEnd _ data _ => data.length == 32
  -- R191: the largest cached block is the program table block, 350 bytes; the least a language block's 9.
  | .imageReadEnd _ data _ => 9 ≤ data.length && data.length ≤ 350
  -- R41: a roster entry's key is a machine number 1..31.
  | .rosterEntryExpire _ m => 1 ≤ m && m ≤ 31
  -- R98: only a class with a lifetime has an expiry; the rest are held by condition alone.
  | .queueItemExpire _ c =>
    !(c == .faultCall || c == .actionCall || c == .partnerLost || c == .actionNeeded ||
      c == .paymentDue || c == .cycleDone || c == .unloadReminder)
  -- R181: a composer read is at most 32 data bytes, and no read is of no bytes.
  | .composerReadEnd _ data => 1 ≤ data.length && data.length ≤ 32
  -- R155: a refill is at most 64 samples.
  | .refillEnd _ data => data.length ≤ Config.refillSize
  | .samplePeriod p => p.bytes.length ≤ Config.refillSize
  -- R131: a view entry's key is a station address 33..63.
  | .viewEntryExpire _ a => 33 ≤ a && a ≤ 63
  | .claimStands _ a => 33 ≤ a && a ≤ 63
  -- R1: a glitch reads recessive at the middle of the start bit, 625 ticks after its edge.
  | .startBitEdge _ (some d) => 1 ≤ d && d ≤ 625
  | .startBitEdge _ none => true
  | .reset _ | .resetRelease _ _ | .lampTestEnd _ | .listenEnd _ _ _ | .e1WindowEnd _
  | .receptionClose _ | .lineHeldSet _ | .lineHeldClear _ | .attemptStart _ | .attemptWithdrawn _
  | .transmissionComplete _ | .freshnessTimeout _ | .requestDeadline _ | .knobTransition _ _ _
  | .keyPressAccepted _ _ _ | .keyReleaseAccepted _ _ _ | .stepRepeat _ | .settleTimeout _
  | .cancelHold _ | .startHold _ | .helpWindowClose _ | .languageHold _ | .hushToggle _
  | .callTimerExpire _ _ | .compositionEnd _ | .currentItemExpire _ | .crowdedClear _
  | .contestWindowEnd _ | .arbiterGrant _ | .utterancePlayedWhole _ | .cutComplete _
  | .hardStopFade _ | .hardStop _ | .spacingEnd _ | .toneSoundEnd _ | .ampReleaseExpire _
  | .dimTimeout _ | .darkTimeout _ | .repromptTimeout _
  | .byteReceived _ _ _ | .multiplexSlot _ => true

end Sys2Proof
end

