-- ==== Sys2Proof/Decode.lean ====
section
/-! DEFINITION. The commands that a word spells.

The block fetches no words and has no decoder: no row of `spec/opcode_table.json` gives bits, and
every row's list of fields is empty. No word therefore spells a command. -/

namespace Sys2Proof

/-- The command that a word of `nbits` bits spells by the table's bits: none, since the table gives
no row any bits. -/
def decodeTableWord (_nbits _w : Nat) : Option Instr := none

end Sys2Proof
end

