-- ==== Sys2Proof/Machine/State.lean ====
section
/-! DEFINITION. The state of the Belpra 7G2: one structure for each of its twelve blocks, the model's
clock, and the queue of waiting commands. Every field is plain data. Times are moments of the
model's clock. -/

namespace Sys2Proof.Machine

/-! ## Names -/

/-- R187, R188: the start-up phases, and the time RESET_N is held low. STRAPS begins and ends within
RESET_RELEASE, so no state between two commands is in it. -/
inductive Phase where
  | held | straps | image | listen | run | strapHalt
  deriving DecidableEq, Repr

/-- R52: the panel type. -/
inductive PanelType where
  | knob | step
  deriving DecidableEq, Repr

/-- R16: the line mode. -/
inductive LineMode where
  | normal | solo
  deriving DecidableEq, Repr

/-- R9: the kinds of frame the station sends. -/
inductive FrameKind where
  | claim | release | request
  deriving DecidableEq, Repr

/-- R12: the fate of an accepted frame. SENT carries the transmission end. -/
inductive Fate where
  | sent (ended : Time)
  | dropped
  | cancelled
  deriving DecidableEq, Repr

/-- R11: what has become of the list place of the frame being transmitted. -/
inductive TxPlace where
  | intact | removed | replaced
  deriving DecidableEq, Repr

/-- R20: the machine kind. -/
inductive MachineKind where
  | washer | dryer | washerDryer
  deriving DecidableEq, Repr

/-- R20: the state of a machine. -/
inductive MachineState where
  | free | awaitPayment | ready | running | paused | done | fault | outOfService
  deriving DecidableEq, Repr

/-- R20: the door. -/
inductive Door where
  | opened | closed | locked
  deriving DecidableEq, Repr

/-- R20: the phase of a machine's cycle. -/
inductive CyclePhase where
  | none | fill | wash | rinse | spin | dry | cool | anticrease
  deriving DecidableEq, Repr

/-- R32: the kinds of request. -/
inductive ReqKind where
  | start | pause | resume | cancel
  deriving DecidableEq, Repr

/-- R21: the result of an answer. -/
inductive AnswerResult where
  | none | accepted | refusedDoor | refusedPayment | refusedState | refusedProgram | refusedFault
  deriving DecidableEq, Repr

/-- R24: freshness of the partner record. -/
inductive Freshness where
  | none | fresh | lost
  deriving DecidableEq, Repr

/-- R43: the coarse state of a roster entry. -/
inductive CoarseState where
  | free | reserved | busy | done | unavailable
  deriving DecidableEq, Repr

/-- R71: the dialogue states. -/
inductive DialogueState where
  | view | browseProgram | browseOption | confirm | awaitAnswer
  deriving DecidableEq, Repr

/-- R71: the state a refused or unanswered request returns to. -/
inductive ReturnState where
  | view | confirm
  deriving DecidableEq, Repr

/-- R90: level of a prompt class and of a claim. -/
inductive Level where
  | urgent | routine
  deriving DecidableEq, Repr

/-- R89: reach. -/
inductive Reach where
  | loc | room
  deriving DecidableEq, Repr

/-- R89: the condition keys. -/
inductive CondKey where
  | none | payment | action | fault | done | lost | selecting
  deriving DecidableEq, Repr

/-- R101: the ends of a current item. -/
inductive ItemEnd where
  | said | returned | dropped
  deriving DecidableEq, Repr

/-- R136: the floor states. -/
inductive FloorState where
  | idle | waiting | claiming | contest | speaking | ending | spacing
  deriving DecidableEq, Repr

/-- R148: what a cut under way does with the item. -/
inductive CutEnd where
  | giveBack | discard
  deriving DecidableEq, Repr

/-- R168: the attention states. -/
inductive Attention where
  | active | dim | dark
  deriving DecidableEq, Repr

/-- R157, R161, R162: the sounds of the tone channel. -/
inductive ToneKind where
  | click | buzz
  deriving DecidableEq, Repr

/-- R181: the users of the phrase store port. -/
inductive PortUser where
  | image | refill | composer
  deriving DecidableEq, Repr

/-- R182, R183: the image reads of IMAGE, in their order. -/
inductive ImageRead where
  | header | profile | tables | language (k : Nat)
  deriving DecidableEq, Repr

/-- R174, R175: what one digit shows. The segments that form a character are the package's business;
the spec names the characters. -/
inductive Glyph where
  | blank | dash | digit (d : Nat)
  | letA | letC | letD | letE | letF | letN | letO | letP | letR | letT | letU | letY
  | allSegments
  deriving DecidableEq, Repr

/-! ## Line port (chapter 1) -/

/-- R9: one place of the transmit queue. `bytes` is the whole frame, built when it was queued (R3).
`reassert` marks a CLAIM queued by a re-assertion (R146), whose reports the floor controller
ignores. -/
structure Place where
  kind     : FrameKind
  bytes    : List Byte
  reassert : Bool
  attempts : Nat
  deriving DecidableEq, Repr

/-- R14: the attempt under way. `read` is the number of its bytes that have been read back as driven.
`noRetry` is set on a CLAIM that was being transmitted when SOLO began (R17). -/
structure Tx where
  kind     : FrameKind
  bytes    : List Byte
  reassert : Bool
  start    : Time
  read     : Nat
  place    : TxPlace
  noRetry  : Bool
  deriving DecidableEq, Repr

/-- R12: the report of one frame's fate. -/
structure Report where
  kind     : FrameKind
  bytes    : List Byte
  reassert : Bool
  fate     : Fate
  deriving DecidableEq, Repr

/-- R2: the open reception. `count` is the number of start bits accepted; `own` is set when the LP has
itself driven every bit of it (R5); `lastStop` is the end of its last stop bit. -/
structure Reception where
  bytes    : List Byte
  count    : Nat
  faulted  : Bool
  overlong : Bool
  own      : Bool
  lastStop : Time
  deriving DecidableEq, Repr

/-- The line port. `edge` is the leading edge of the byte under way, from which its bits are sampled (R1);
absent outside a byte. `idleSince` is the moment from which the access gap and the delimiter count, the end
of the last stop bit or of a dominant level after it (R2, R13), and `recessiveSince` the end of the last
dominant level itself, from which R8 counts; both are absent while the line is dominant or inside a byte.
`stopBitEnd` is the end of the last stop bit on LRX, whoever sent it and whatever it read (R2, R13).
`dominantSince` is the moment from which the line has been dominant without a break. All three are known
as far as the edges and the samples tell (log 7).
`armed` is set once the LP has seen the 4 bit times of recessive that R18 asks for before the first
reception. -/
structure LinePort where
  queue          : List Place
  tx             : Option Tx
  errCount       : Nat
  degraded       : Bool
  lineHeld       : Bool
  clash          : Bool
  claimOut       : Bool
  rx             : Option Reception
  edge           : Option Time
  armed          : Bool
  idleSince      : Option Time
  recessiveSince : Option Time
  dominantSince  : Option Time
  stopBitEnd     : Option Time
  deriving DecidableEq, Repr

/-! ## Partner monitor (chapter 2) -/

/-- R20, R21: the partner record. Minutes absent is UNKNOWN; answer kind absent is NONE. -/
structure Record where
  kind      : MachineKind
  state     : MachineState
  door      : Door
  program   : Nat
  phase     : CyclePhase
  minutes   : Option Nat
  credits   : Nat
  action    : Nat
  fault     : Nat
  options   : BitVec 8
  ansKind   : Option ReqKind
  ansMark   : Bool
  ansResult : AnswerResult
  deriving DecidableEq, Repr

/-- R32: the request in flight. -/
structure Request where
  kind     : ReqKind
  mark     : Bool
  program  : Nat
  options  : BitVec 8
  deadline : Time
  sent     : Bool
  deriving DecidableEq, Repr

/-- The partner monitor. `freshTimer` is the expiry of the 6 s freshness timer (R24). -/
structure PartnerMonitor where
  record     : Record
  freshness  : Freshness
  freshTimer : Option Time
  inFlight   : Option Request
  lastMark   : Bool
  deriving DecidableEq, Repr

/-! ## Room roster (chapter 3) -/

/-- R41: a roster entry. -/
structure RosterEntry where
  machine : Nat
  kind    : MachineKind
  coarse  : CoarseState
  minutes : Option Nat
  arrival : Time
  deriving DecidableEq, Repr

/-! ## Panel unit (chapter 4) -/

/-- R61: a key in the PU's view. `since` is the acceptance of its last press, and `freed` that of its last
release, absent before the first. `spent` is set on a press that makes no further event of its own: it has
made its hold event, it was consumed as a wake (R69), it belongs to a chord (R66), or it is a step key
silenced by the other (R57). -/
structure KeyState where
  down  : Bool
  since : Time
  freed : Option Time
  spent : Bool
  deriving DecidableEq, Repr

/-- R56: the repeat of a held step key; `up` tells UP from DOWN, `due` is its next repeat. -/
structure StepRepeat where
  up  : Bool
  due : Time
  deriving DecidableEq, Repr

/-- The panel unit. The hold timers of R63 to R65 run from `since` of the key. -/
structure PanelUnit where
  quarter    : Int
  refA       : Bool
  refB       : Bool
  listLen    : Option Nat
  position   : Nat
  snapshot   : Nat
  settle     : Option Time
  select     : KeyState
  back       : KeyState
  start      : KeyState
  help       : KeyState
  up         : KeyState
  down       : KeyState
  stepRepeat : Option StepRepeat
  helpCount  : Nat
  helpWindow : Option Time
  chord      : Bool
  chordTimer : Option Time
  chordFired : Bool
  deriving DecidableEq, Repr

/-! ## Dialogue controller (chapter 5) -/

/-- R71: the dialogue state, the selection record and the return state. Bit n − 1 of `options` is the
chosen flag of option n. -/
structure Dialogue where
  state   : DialogueState
  program : Nat
  options : BitVec 8
  cursor  : Nat
  ret     : Option ReturnState
  deriving DecidableEq, Repr

/-! ## Prompt queue (chapter 6) -/

/-- R91: the four parameters of an item. -/
structure Params where
  p0 : Nat
  p1 : Nat
  p2 : Nat
  p3 : Nat
  deriving DecidableEq, Repr

/-- R48: a roster answer, the machine list of an item with its free count. -/
structure FreeList where
  machines : List Nat
  count    : Nat
  deriving DecidableEq, Repr

/-- R89: a prompt item. -/
structure Item where
  cls      : PromptClass
  params   : Params
  machines : Option FreeList
  reach    : Reach
  expiry   : Option Time
  key      : CondKey
  enqueued : Time
  deriving DecidableEq, Repr

/-- R97: what the PQ keeps of the current item. -/
structure CurrentMark where
  cls        : PromptClass
  key        : CondKey
  superseded : Bool
  withdrawn  : Bool
  deriving DecidableEq, Repr

/-- R111: the last-completed record. -/
structure LastCompleted where
  cls    : PromptClass
  params : Params
  reach  : Reach
  deriving DecidableEq, Repr

/-- R102: one call series. -/
structure SeriesState where
  timer : Option Time
  count : Nat
  deriving DecidableEq, Repr

/-- The prompt queue. -/
structure PromptQueue where
  items        : List Item
  current      : Option CurrentMark
  hush         : Bool
  last         : Option LastCompleted
  fault        : SeriesState
  actionFirst  : SeriesState
  actionSecond : SeriesState
  payment      : SeriesState
  unload       : SeriesState
  doneSince    : Option Time
  deriving DecidableEq, Repr

/-! ## Composer (chapter 7) -/

/-- R118: an entry of an utterance. -/
inductive Entry where
  | clip (id addr len : Nat)
  | pause (len : Nat)
  deriving DecidableEq, Repr

/-- R130: an utterance, as the composer hands it over. `units` is U and `floor` is F. `gap` is the gap of
its language, which the voice player leaves between entries (R158). -/
structure Utterance where
  cls     : PromptClass
  level   : Level
  reach   : Reach
  lang    : Nat
  gap     : Nat
  entries : List Entry
  units   : Nat
  floor   : Nat
  deriving DecidableEq, Repr

/-- A piece of an expanded template that is still to be judged (R125): a clip, given as the clip ids to
try in order (two for ACTION, which has a substitute, R123), or a pause. -/
inductive Candidate where
  | clip (ids : List Nat)
  | pause (len : Nat)
  deriving DecidableEq, Repr

/-- R116: where a composition stands: its template read is out; a directory entry read is out, for clip
`id` with the substitutes left should it be bad; or it has its result, an utterance or EMPTY. -/
inductive Stage where
  | template
  | entry (id : Nat) (more : List Nat) (rest : List Candidate)
  | finished (result : Option Utterance)
  deriving DecidableEq, Repr

/-- R116: the composer's work area during one composition: its copy of the item and its readings. -/
structure Work where
  item     : Item
  level    : Level
  reach    : Reach
  kind     : MachineKind
  lang     : Nat
  gap      : Nat
  dirCount : Nat
  dirAddr  : Nat
  entries  : List Entry
  stage    : Stage
  deriving DecidableEq, Repr

/-- The composer. -/
structure Composer where
  defaultLang : Nat
  currentLang : Nat
  work        : Option Work
  deriving DecidableEq, Repr

/-! ## Floor controller (chapter 8) -/

/-- R131, R134: an entry of the floor view; `speaking` is set once its 80 ms of contest are over. -/
structure ViewEntry where
  addr     : Nat
  level    : Level
  arrival  : Time
  expiry   : Time
  speaking : Bool
  deriving DecidableEq, Repr

/-- R151: an item that tones-only mode ended SAID without a sound, and the prompt queue before and after its SAID.
The item is absent once it has been withdrawn in that moment (R99), as if it were still queued. -/
structure Said where
  item   : Option Item
  before : PromptQueue
  after  : PromptQueue
  deriving DecidableEq, Repr

/-- R150, R151: the moment at which the spacing timer last ran out, and what ended SAID without a sound in that
moment since, the latest first. -/
structure SpacingOver where
  moment : Time
  said   : List Said
  deriving DecidableEq, Repr

/-- R140: an item that gave way to a head that orders before it, the prompt queue before and after its return, and
the item that left a full queue for it, unless it has been withdrawn since (R99). -/
structure Swapped where
  item   : Item
  before : PromptQueue
  after  : PromptQueue
  gone   : Option Item
  deriving DecidableEq, Repr

/-- The floor controller. CROWDED is set when `crowded` holds its clearing time (R131). Three fields are the
model's own, by which an event of the same moment is known (log 24): `composed` is the moment at which a
composition's result was last taken (R138), `swapped` the item that gave way in that moment to a head that
orders before it (R140), and `spacingOver` tells of the spacing's end (R150). -/
structure Floor where
  view           : List ViewEntry
  crowded        : Option Time
  state          : FloorState
  item           : Option Item
  utterance      : Option Utterance
  playStart      : Option Time
  contestEnd     : Option Time
  reasserted     : List Nat
  releasePending : Bool
  cutOrder       : Option CutEnd
  spacing        : Option Time
  composed       : Option Time
  swapped        : Option Swapped
  spacingOver    : Option SpacingOver
  deriving DecidableEq, Repr

/-! ## Voice player (chapter 9) -/

/-- R155: a place in an utterance: an entry and an offset within its clip. -/
structure SamplePlace where
  entry  : Nat
  offset : Nat
  deriving DecidableEq, Repr

/-- R155: a buffered sample, with the byte read for it (R180). -/
structure Sample where
  place : SamplePlace
  value : Byte
  deriving DecidableEq, Repr

/-- R158, R163: what the stream channel sounds. -/
inductive Sound where
  | utterance (u : Utterance)
  | chime
  | alarm
  deriving DecidableEq, Repr

/-- R159, R160: an early end. The sound goes on as it is until `point`; from there it fades for 20 ms, and
the segment sounding at the order goes on into the fade until `segEnd`. `hard` marks the fade that
the hard stop began. -/
structure EarlyEnd where
  point  : Time
  segEnd : Time
  hard   : Bool
  deriving DecidableEq, Repr

/-- The stream channel's sound. `hardStop` is H of R160, absent for a tones-only rendering. -/
structure Stream where
  sound    : Sound
  gain     : Nat
  start    : Time
  early    : Option EarlyEnd
  hardStop : Option Time
  deriving DecidableEq, Repr

/-- R155: the outstanding refill; `arrived` of its samples have come to the buffer, and `discard` is set
when its sound has ended. -/
structure Refill where
  first   : SamplePlace
  size    : Nat
  arrived : Nat
  discard : Bool
  deriving DecidableEq, Repr

/-- The tone channel's sound. -/
structure Tone where
  kind  : ToneKind
  gain  : Nat
  start : Time
  deriving DecidableEq, Repr

/-- The voice player. `playPos` is the place of the next clip sample to come: every place before it has
passed (R156). `aout` is the value presented on AOUT, −128..127, and `periodStart` the beginning of
the sample period it was taken in (R153). -/
structure VoicePlayer where
  stream      : Option Stream
  buffer      : List Sample
  fetch       : Option SamplePlace
  playPos     : SamplePlace
  refill      : Option Refill
  tone        : Option Tone
  ampEn       : Bool
  ampRelease  : Option Time
  aout        : Int
  periodStart : Option Time
  deriving DecidableEq, Repr

/-! ## Attention unit and indicator driver (chapter 10) -/

/-- The attention unit. -/
structure AttentionUnit where
  state    : Attention
  dim      : Option Time
  dark     : Option Time
  reprompt : Option Time
  count    : Nat
  deriving DecidableEq, Repr

/-- One digit: its character and its decimal point. -/
structure Digit where
  glyph : Glyph
  point : Bool
  deriving DecidableEq, Repr

/-- R173: what a multiplex slot drives: nothing, a digit, or the LED group (bit 0 to 7 for SEGA to SEGG
and SEGDP, R177). -/
inductive SlotDrive where
  | off
  | digit (d : Digit)
  | leds (lit : BitVec 8)
  deriving DecidableEq, Repr

/-- The indicator driver. `flashStart` is the moment the flasher phases began (R178), absent before. `slot`
is the multiplex slot under way, 0..3 for DIG0..DIG3 and 4 for LEDCOM, absent before the first;
`drive` and `duty` (in percent) are what it drives. -/
structure Indicator where
  lampTest   : Bool
  flashStart : Option Time
  e1         : Bool
  slot       : Option Nat
  slotStart  : Time
  drive      : SlotDrive
  duty       : Nat
  deriving DecidableEq, Repr

/-! ## Phrase store port (chapter 11) -/

/-- R191: the cached image header. -/
structure Header where
  version    : Byte
  mask       : BitVec 4
  langAddr   : List Nat
  profileAdr : Nat
  tablesAdr  : Nat
  deriving DecidableEq, Repr

/-- R183, R191: the profile, its ten bytes as read. -/
structure Profile where
  tReprompt : Byte
  tDim      : Byte
  tDark     : Byte
  duty      : Byte
  gain      : Byte
  debounce  : Byte
  confirm   : Byte
  attention : Byte
  fault     : Byte
  flags     : Byte
  deriving DecidableEq, Repr

/-- R73: a program. The generic program has no name clip (R184). -/
structure Program where
  name     : Option Nat
  minutes  : Nat
  allowed  : BitVec 8
  defaults : BitVec 8
  deriving DecidableEq, Repr

/-- R73: a program table. -/
structure ProgramTable where
  count    : Nat
  dflt     : Nat
  programs : List Program
  deriving DecidableEq, Repr

/-- R183: the cached program table block. -/
structure Tables where
  washer      : ProgramTable
  dryer       : ProgramTable
  washerDryer : ProgramTable
  optionNames : List Nat
  phrases     : List Nat
  deriving DecidableEq, Repr

/-- R183: the cached fixed part of a language block. -/
structure LangBlock where
  gap      : Nat
  dirCount : Nat
  dirAddr  : Nat
  tmplAddr : Nat
  deriving DecidableEq, Repr

/-- R181: a read asked of the port. -/
structure ReadReq where
  addr : Nat
  size : Nat
  deriving DecidableEq, Repr

/-- R181: the port. `direct` is set on a read granted at once on an idle port. -/
inductive Port where
  | idle
  | reading (user : PortUser) (req : ReadReq) (ends : Time) (direct : Bool)
  | gap (ends : Time)
  deriving DecidableEq, Repr

/-- The phrase store port, which holds the phase and the straps (R186, R187). `profile` is the profile in
force, and `imageProfile` the one read from the image, which takes its place when IMAGE ends (R185). -/
structure PhraseStore where
  phase        : Phase
  tonesOnly    : Bool
  machine      : Nat
  strapLang    : Nat
  panel        : PanelType
  header       : Option Header
  profile      : Profile
  imageProfile : Option Profile
  tables       : Option Tables
  langs        : List (Option LangBlock)
  imageRead    : Option ImageRead
  port         : Port
  waitRefill   : Option ReadReq
  waitComposer : Option ReadReq
  listenStart  : Option Time
  runStart     : Option Time
  deriving DecidableEq, Repr

/-! ## The whole part -/

/-- The part: the model's clock, the waiting commands, and the twelve blocks. -/
structure State where
  now     : Time
  pending : List Instr
  psp     : PhraseStore
  lp      : LinePort
  pm      : PartnerMonitor
  roster  : List RosterEntry
  pu      : PanelUnit
  dc      : Dialogue
  pq      : PromptQueue
  cp      : Composer
  fc      : Floor
  vp      : VoicePlayer
  au      : AttentionUnit
  ind     : Indicator
  deriving DecidableEq, Repr

/-- The part never stops with a fault: the spec gives every event an effect in every state, if only that
nothing changes. The type has no constructor, so no meaning can raise one (safe). -/
inductive Fault where
  deriving DecidableEq, Repr

/-- The reasons a command can be refused. -/
inductive Refusal where
  /-- Raised by `exec` for a command whose meaning is not written yet, and by nothing else (safe). Every
  command has its meaning, so no arm raises it. -/
  | notModelled (mnemonic : String)
  deriving DecidableEq, Repr

/-! ## Reset -/

/-- R7, R9, R10, R16, R18: the line port in reset. -/
def LinePort.reset : LinePort :=
  { queue := [], tx := none, errCount := 0, degraded := false, lineHeld := false, clash := false,
    claimOut := false, rx := none, edge := none, armed := false, idleSince := none,
    recessiveSince := none, dominantSince := none, stopBitEnd := none }

/-- R23: the zero record. -/
def Record.zero : Record :=
  { kind := .washer, state := .free, door := .opened, program := 0, phase := .none, minutes := none,
    credits := 0, action := 0, fault := 0, options := 0, ansKind := none, ansMark := false,
    ansResult := .none }

/-- R23, R24, R32, R40: the partner monitor in reset. -/
def PartnerMonitor.reset : PartnerMonitor :=
  { record := .zero, freshness := .none, freshTimer := none, inFlight := none, lastMark := false }

/-- R61: a key that is up. -/
def KeyState.released : KeyState := { down := false, since := 0, freed := none, spent := false }

/-- R55, R58, R70: the panel unit in reset. DESIGN CHOICE (log 3): the reference pair, which R55 takes from
the first sample of RUN, is the pair of a knob at rest. -/
def PanelUnit.reset : PanelUnit :=
  { quarter := 0, refA := true, refB := true, listLen := none, position := 0, snapshot := 0,
    settle := none, select := .released, back := .released, start := .released, help := .released,
    up := .released, down := .released, stepRepeat := none, helpCount := 0, helpWindow := none,
    chord := false, chordTimer := none, chordFired := false }

/-- R71: the dialogue controller in reset. -/
def Dialogue.reset : Dialogue :=
  { state := .view, program := 0, options := 0, cursor := 0, ret := none }

/-- R102: a series that is stopped at count 0. -/
def SeriesState.stopped : SeriesState := { timer := none, count := 0 }

/-- R113: the prompt queue in reset. -/
def PromptQueue.reset : PromptQueue :=
  { items := [], current := none, hush := false, last := none, fault := .stopped,
    actionFirst := .stopped, actionSecond := .stopped, payment := .stopped, unload := .stopped,
    doneSince := none }

/-- R116: the composer in reset. DESIGN CHOICE (log 3): the two languages, which R114 fixes at the image
check, are 0. -/
def Composer.reset : Composer := { defaultLang := 0, currentLang := 0, work := none }

/-- R152: the floor controller in reset. -/
def Floor.reset : Floor :=
  { view := [], crowded := none, state := .idle, item := none, utterance := none, playStart := none,
    contestEnd := none, reasserted := [], releasePending := false, cutOrder := none, spacing := none,
    composed := none, swapped := none, spacingOver := none }

/-- R165: the voice player in reset. -/
def VoicePlayer.reset : VoicePlayer :=
  { stream := none, buffer := [], fetch := none, playPos := { entry := 0, offset := 0 }, refill := none,
    tone := none, ampEn := false, ampRelease := none, aout := 0, periodStart := none }

/-- R172: the attention unit in reset. -/
def AttentionUnit.reset : AttentionUnit :=
  { state := .active, dim := none, dark := none, reprompt := none, count := 0 }

/-- R179: the indicator driver in reset. -/
def Indicator.reset : Indicator :=
  { lampTest := false, flashStart := none, e1 := false, slot := none, slotStart := 0, drive := .off,
    duty := 0 }

/-- R185, R191: the default profile, in the coded form of its table. -/
def Profile.dflt : Profile :=
  { tReprompt := 0x15#8, tDim := 0x30#8, tDark := 0x92#8, duty := 0x2A#8, gain := 0xF8#8,
    debounce := 0x3F#8, confirm := 0x01#8, attention := 0x06#8, fault := 0x0B#8, flags := 0x00#8 }

/-- R188: the phrase store port in reset. DESIGN CHOICE (log 3): the machine number, the strapped
language and the panel type, which are read afresh at each release of reset, are 0, 0 and KNOB. -/
def PhraseStore.reset : PhraseStore :=
  { phase := .held, tonesOnly := false, machine := 0, strapLang := 0, panel := .knob, header := none,
    profile := .dflt, imageProfile := none, tables := none, langs := [none, none, none, none],
    imageRead := none, port := .idle, waitRefill := none, waitComposer := none, listenStart := none, runStart := none }

/-- R188: the part held in reset, every block in its reset state, no command waiting, the clock at 0. -/
def State.reset : State :=
  { now := 0, pending := [], psp := .reset, lp := .reset, pm := .reset, roster := [], pu := .reset,
    dc := .reset, pq := .reset, cp := .reset, fc := .reset, vp := .reset, au := .reset,
    ind := .reset }

end Sys2Proof.Machine
end

