-- ==== Sys2Proof/Machine/Timing.lean ====
section
/-! DEFINITION. Lengths of time, in ticks of 1/24 µs, and the model's clock. -/

namespace Sys2Proof.Machine

/-! ## Units -/

/-- R1: one bit time, 1/19,200 s. -/
def bitTime : Time := 1250

/-- R1: from the middle of a bit to its end. -/
def halfBit : Time := 625

/-- R1, R14: the middle of bit `k` counted from `start`, where the bit is sampled. -/
def midBit (start : Time) (k : Nat) : Time := start + k * bitTime + halfBit

/-- One microsecond. -/
def micro : Time := 24

/-- One millisecond. -/
def milli : Time := 24000

/-- One second. -/
def second : Time := 24000000

/-- R52: the panel's lines are sampled every 250 µs. -/
def panelSample : Time := 250 * micro

/-- R153: one sample period, 125 µs. -/
def samplePeriod : Time := 3000

/-- One clip unit, 10 ms. -/
def clipUnit : Time := 240000

/-- One floor unit, 100 ms. -/
def floorUnit : Time := 2400000

/-- The samples of one clip unit (R127). -/
def samplesPerUnit : Nat := 80

/-! ## The room line -/

/-- R2: the frame-end delimiter, 4 bit times. -/
def delimiter : Time := 4 * bitTime

/-- R2: the recessive time after which a start bit marks the reception faulted, 2 bit times. -/
def faultGap : Time := 2 * bitTime

/-- R8: a dominant level of 2 ms sets LINE_HELD. -/
def heldTime : Time := 2 * milli

/-- R8: a recessive level of 10 ms clears LINE_HELD. -/
def heldClearTime : Time := 10 * milli

/-- R15: the attempts one frame is given. -/
def maxAttempts : Nat := 16

/-- R13: the access gap of a frame kind, in bit times, before the station's skew. -/
def baseGap : FrameKind → Nat
  | .claim => 12
  | .release => 12
  | .request => 16

/-! ## Timers -/

/-- R24: the freshness timer. -/
def freshTime : Time := 6 * second

/-- R33: a request's deadline. -/
def requestTime : Time := 3 * second

/-- R45: the age at which a roster entry is removed. -/
def rosterTime : Time := 20 * second

/-- R59: the settle timer. -/
def settleTime : Time := 300 * milli

/-- R56: a step key's first repeat. -/
def firstRepeat : Time := 600 * milli

/-- R56: a step key's later repeats. -/
def nextRepeat : Time := 200 * milli

/-- R63, R65: the hold limit of BACK and of HELP. -/
def longHold : Time := 2000 * milli

/-- R64: the hold limit of START. -/
def startHoldTime : Time := 800 * milli

/-- R65: the HELP window. -/
def helpTime : Time := 700 * milli

/-- R66: the chord timer. -/
def chordTime : Time := 3000 * milli

/-- R61: the debounce time of a key whose profile bit is set. -/
def debounceTime : Time := 20 * milli

/-- R132: what a claim's expiry adds to its floor units. -/
def claimGrace : Time := 800 * milli

/-- R134, R142: the contest window. -/
def contestTime : Time := 80 * milli

/-- R144: what the hard stop adds to the floor units. -/
def hardStopGrace : Time := 200 * milli

/-- R150: the spacing. -/
def spacingTime : Time := 600 * milli

/-- R159: the longest a cut lets a clip go on. -/
def cutBound : Time := 1500 * milli

/-- R159: the fade, 160 sample periods. -/
def fadeTime : Time := 20 * milli

/-- R164: the amplifier's release timer. -/
def ampTime : Time := 20 * milli

/-- R187: the lamp test. -/
def lampTime : Time := 500 * milli

/-- R187: the length of LISTEN. -/
def listenTime : Time := 1000 * milli

/-- R176: the E1 window after RUN began. -/
def e1Time : Time := 3000 * milli

/-- R173: a multiplex slot. -/
def slotTime : Time := 2 * milli

/-- R180: one FSCK period at 4 MHz. -/
def portBit : Time := 6

/-- R180: one byte at the port, eight FSCK periods. -/
def portByte : Time := 2 * micro

/-- R180: FCS_N stays high 500 ns between transactions. -/
def portGap : Time := 12

/-- R180: a transaction of n data bytes takes 4 + n bytes. -/
def readTime (n : Nat) : Time := (4 + n) * portByte

/-! ## The clock -/

/-- The clock stands at the moment of the event. DESIGN CHOICE (log 1): a command whose moment lies before
the clock is taken at the clock, so the clock never runs back. -/
def State.advance (t : Time) (s : State) : State := { s with now := max s.now t }

/-- A timer that is running and has run out at `now`. A timer runs out at the moment of its expiry, so it
is due from that moment on. -/
def due (timer : Option Time) (now : Time) : Bool :=
  match timer with
  | some e => decide (e ≤ now)
  | none => false

/-- A time that began at `start` is behind by at least `d`. -/
def elapsed (start : Option Time) (d now : Time) : Bool := due (start.map (· + d)) now

/-- The quotient rounded up. -/
def ceilDiv (a b : Nat) : Nat := (a + b - 1) / b

end Sys2Proof.Machine
end

