-- ==== Sys2Proof/Machine/Operands.lean ====
section
/-! DEFINITION. What the bytes from outside mean: the CRC, the frames (chapter 12, section 1) and the
image (section 2), read and written field by field. -/

namespace Sys2Proof.Machine

/-! ## Bytes -/

/-- Byte `i` of a read. Flash that does not answer reads FFh, and a byte that is not there reads so
(log 4). -/
def byteAt (data : List Byte) (i : Nat) : Nat := (data.getD i 0xFF#8).toNat

/-- A two-byte value, least significant byte first. -/
def word16 (data : List Byte) (i : Nat) : Nat := byteAt data i + 256 * byteAt data (i + 1)

/-- A 24-bit address, least significant byte first. -/
def word24 (data : List Byte) (i : Nat) : Nat :=
  byteAt data i + 256 * byteAt data (i + 1) + 65536 * byteAt data (i + 2)

/-- Bits `lo`..`lo + width − 1` of a value. -/
def bits (v lo width : Nat) : Nat := v / 2 ^ lo % 2 ^ width

/-! ## The CRC-8 (R3) -/

/-- One doubling of the check value. -/
def crcShift (c : Byte) : Byte := if c.msb then (c <<< 1) ^^^ 0x31#8 else c <<< 1

/-- One byte taken into the check value. -/
def crcByte (c b : Byte) : Byte :=
  crcShift (crcShift (crcShift (crcShift (crcShift (crcShift (crcShift (crcShift (c ^^^ b))))))))

/-- R3: the check value of a list of bytes. -/
def crc8 (bytes : List Byte) : Byte := bytes.foldl crcByte 0#8

/-! ## Frames (R189) -/

/-- R189: the header byte of a kind, with its payload length. -/
def frameHeader : FrameKind → Byte
  | .claim => 0x22#8
  | .release => 0x30#8
  | .request => 0x43#8

/-- R186: the station's own address, 32 plus the machine number. -/
def stationAddress (machine : Nat) : Nat := 32 + machine

/-- R3, R190: a frame as the LP builds it when it is queued. -/
def buildFrame (kind : FrameKind) (own : Nat) (payload : List Byte) : List Byte :=
  let body := frameHeader kind :: BitVec.ofNat 8 own :: payload
  body ++ [crc8 body]

/-- R189, R190: the payload of a CLAIM. Bits not used are 0. -/
def claimPayload (level : Level) (reach : Reach) (units : Nat) : List Byte :=
  [BitVec.ofNat 8 ((if level = .urgent then 1 else 0) + (if reach = .room then 2 else 0)),
   BitVec.ofNat 8 units]

/-- R91, R189: the code of a request kind. -/
def reqCode : ReqKind → Nat
  | .start => 1
  | .pause => 2
  | .resume => 3
  | .cancel => 4

/-- R189, R190: the payload of a REQUEST. -/
def requestPayload (kind : ReqKind) (mark : Bool) (program : Nat) (options : BitVec 8) : List Byte :=
  [BitVec.ofNat 8 (reqCode kind + (if mark then 8 else 0)), BitVec.ofNat 8 (program % 16), options]

/-- R1: the ten bits of a byte on the line: a dominant start bit, the data least significant bit first, a
recessive stop bit. `true` is recessive. -/
def byteBits (b : Byte) : List Bool :=
  false :: (List.range 8).map (fun i => b.getLsbD i) ++ [true]

/-- R1: the bits of a frame, its bytes back to back. -/
def frameBits (bytes : List Byte) : List Bool := bytes.flatMap byteBits

/-- R34: the mark that a REQUEST frame carries: bit 3 of its first payload byte. -/
def requestMark (frame : List Byte) : Bool := bits (byteAt frame 2) 3 1 == 1

/-! ### A STATUS, clamped (R20, R21) -/

/-- R20: machine kind, code 3 taken as WASHER_DRYER. -/
def kindOf : Nat → MachineKind
  | 0 => .washer
  | 1 => .dryer
  | _ => .washerDryer

/-- R20: state, codes 8..15 taken as OUT_OF_SERVICE. -/
def stateOf : Nat → MachineState
  | 0 => .free
  | 1 => .awaitPayment
  | 2 => .ready
  | 3 => .running
  | 4 => .paused
  | 5 => .done
  | 6 => .fault
  | _ => .outOfService

/-- R91: the code of a state, 0 FREE to 7 OUT_OF_SERVICE. -/
def stateCode : MachineState → Nat
  | .free => 0
  | .awaitPayment => 1
  | .ready => 2
  | .running => 3
  | .paused => 4
  | .done => 5
  | .fault => 6
  | .outOfService => 7

/-- R20: door, code 3 taken as LOCKED. -/
def doorOf : Nat → Door
  | 0 => .opened
  | 1 => .closed
  | _ => .locked

/-- R20: phase, codes 8..15 taken as NONE. -/
def phaseOf : Nat → CyclePhase
  | 1 => .fill
  | 2 => .wash
  | 3 => .rinse
  | 4 => .spin
  | 5 => .dry
  | 6 => .cool
  | 7 => .anticrease
  | _ => .none

/-- R91: the code of a phase. -/
def phaseCode : CyclePhase → Nat
  | .none => 0
  | .fill => 1
  | .wash => 2
  | .rinse => 3
  | .spin => 4
  | .dry => 5
  | .cool => 6
  | .anticrease => 7

/-- R20: minutes remaining, 1000..1022 clamped to 999 and 1023 UNKNOWN. -/
def minutesOf (code : Nat) : Option Nat := if code = 1023 then none else some (min code 999)

/-- R91: a minutes value as a parameter, UNKNOWN as 1023. -/
def minutesParam (m : Option Nat) : Nat := m.getD 1023

/-- R21: answer kind, codes 5..7 taken as NONE. -/
def answerKindOf : Nat → Option ReqKind
  | 1 => some .start
  | 2 => some .pause
  | 3 => some .resume
  | 4 => some .cancel
  | _ => none

/-- R21: answer result, codes 7..15 taken as REFUSED_STATE. -/
def answerResultOf : Nat → AnswerResult
  | 0 => .none
  | 1 => .accepted
  | 2 => .refusedDoor
  | 3 => .refusedPayment
  | 5 => .refusedProgram
  | 6 => .refusedFault
  | _ => .refusedState

/-- R91: the result code of an answer. -/
def resultCode : AnswerResult → Nat
  | .none => 0
  | .accepted => 1
  | .refusedDoor => 2
  | .refusedPayment => 3
  | .refusedState => 4
  | .refusedProgram => 5
  | .refusedFault => 6

/-- R20, R21, R189: the record that a STATUS payload gives, every field clamped. -/
def recordOf (payload : List Byte) : Record :=
  let b (i : Nat) := byteAt payload i
  { kind      := kindOf (bits (b 0) 6 2)
    state     := stateOf (bits (b 0) 0 4)
    door      := doorOf (bits (b 0) 4 2)
    program   := bits (b 1) 0 4
    phase     := phaseOf (bits (b 1) 4 4)
    minutes   := minutesOf (b 2 + 256 * bits (b 3) 0 2)
    credits   := min (b 4) 99
    action    := bits (b 3) 2 4
    fault     := b 5
    options   := payload.getD 6 0xFF#8
    ansKind   := answerKindOf (bits (b 7) 0 3)
    ansMark   := bits (b 7) 3 1 == 1
    ansResult := answerResultOf (bits (b 7) 4 4) }

/-! ### A CLAIM (R132, R189) -/

/-- R189: the level of a received CLAIM. -/
def claimLevel (payload : List Byte) : Level := if bits (byteAt payload 0) 0 1 = 1 then .urgent else .routine

/-- R132: the floor units of a received CLAIM, 0 taken as 1. -/
def claimUnits (payload : List Byte) : Nat := max 1 (byteAt payload 1)

/-! ## The image (R191, R192) -/

/-- R191: the magic. -/
def magic : List Byte := [0x42#8, 0x50#8, 0x37#8, 0x47#8]

/-- R191: the fixed parts tested against the end of the address space. -/
def profileSize : Nat := 10

/-- R191: the size of the program table block. -/
def tablesSize : Nat := 350

/-- R191: the size of a language block's fixed part. -/
def langSize : Nat := 9

/-- R191: the image header read from its 32 bytes. -/
def headerOf (data : List Byte) : Header :=
  { version    := data.getD 4 0xFF#8
    mask       := BitVec.ofNat 4 (byteAt data 5)
    langAddr   := [word24 data 6, word24 data 9, word24 data 12, word24 data 15]
    profileAdr := word24 data 18
    tablesAdr  := word24 data 21 }

/-- R114: language `k` is present when its flag of the mask is set. -/
def Header.present (h : Header) (k : Nat) : Bool := h.mask.getLsbD k

/-- R191: the address of the block of language `k`. -/
def Header.addrOf (h : Header) (k : Nat) : Nat := h.langAddr.getD k 0

/-- R182: the four tests of the header check, made together. -/
def headerPasses (data : List Byte) : Bool :=
  let h := headerOf data
  data.take 4 == magic
    && (crc8 (data.take 31)).toNat == byteAt data 31
    && h.mask != 0#4
    && decide (h.profileAdr + profileSize ≤ Config.storeSize)
    && decide (h.tablesAdr + tablesSize ≤ Config.storeSize)
    && (List.range 4).all fun k => !h.present k || decide (h.addrOf k + langSize ≤ Config.storeSize)

/-- R191: the profile, its bytes kept as read (R183). -/
def profileOf (data : List Byte) : Profile :=
  let b (i : Nat) := data.getD i 0xFF#8
  { tReprompt := b 0, tDim := b 1, tDark := b 2, duty := b 3, gain := b 4, debounce := b 5,
    confirm := b 6, attention := b 7, fault := b 8, flags := b 9 }

/-- R192: a clip id is read from the low 10 bits of its field. -/
def clipIdAt (data : List Byte) (i : Nat) : Nat := word16 data i % 1024

/-- R191, R192: a program entry. -/
def programOf (data : List Byte) (i : Nat) : Program :=
  { name := some (clipIdAt data i), minutes := word16 data (i + 2) % 1024,
    allowed := data.getD (i + 4) 0xFF#8, defaults := data.getD (i + 5) 0xFF#8 }

/-- R184: the generic program. -/
def genericProgram : Program := { name := none, minutes := 1023, allowed := 0, defaults := 0 }

/-- R184: the generic program table. -/
def genericTable : ProgramTable := { count := 1, dflt := 0, programs := [genericProgram] }

/-- R183: the program table of the kind in place `k` (0 WASHER, 1 DRYER, 2 WASHER_DRYER): a count of 0
gives the generic table, and a count above 16 is taken as 16. -/
def tableOf (data : List Byte) (k : Nat) : ProgramTable :=
  let n := byteAt data (2 * k)
  if n = 0 then genericTable
  else
    { count := min n 16, dflt := byteAt data (2 * k + 1),
      programs := (List.range (min n 16)).map fun j => programOf data (62 + 96 * k + 6 * j) }

/-- R191: the program table block. -/
def tablesOf (data : List Byte) : Tables :=
  { washer := tableOf data 0, dryer := tableOf data 1, washerDryer := tableOf data 2,
    optionNames := (List.range 8).map fun j => clipIdAt data (6 + 2 * j),
    phrases := (List.range 20).map fun j => clipIdAt data (22 + 2 * j) }

/-- R114, R191: the fixed part of a language block, with the gap and the directory count clamped. -/
def langBlockOf (data : List Byte) : LangBlock :=
  { gap := min (byteAt data 0) 25, dirCount := min (word16 data 1) 1024,
    dirAddr := word24 data 3, tmplAddr := word24 data 6 }

/-- R125, R191: a clip directory entry read from its 5 bytes: the clip's address and its length. -/
def dirEntryOf (data : List Byte) : Nat × Nat := (word24 data 0, word16 data 3)

/-- R118: the kinds of template item. -/
inductive TemplateItem where
  | done
  | clip (id : Nat)
  | ownNumber
  | number (p : Nat)
  | digits (p : Nat)
  | minutes (p : Nat)
  | program (p : Nat)
  | option (p : Nat)
  | phase (p : Nat)
  | action (p : Nat)
  | machines
  | pause (n : Nat)
  deriving DecidableEq, Repr

/-- R192, R193: a template item from its 16-bit value. Codes 12..15 are read as END (R118). -/
def templateItemOf (w : Nat) : TemplateItem :=
  let p := bits w 0 2
  match bits w 12 4 with
  | 1 => .clip (bits w 0 10)
  | 2 => .ownNumber
  | 3 => .number p
  | 4 => .digits p
  | 5 => .minutes p
  | 6 => .program p
  | 7 => .option p
  | 8 => .phase p
  | 9 => .action p
  | 10 => .machines
  | 11 => .pause (bits w 0 8)
  | _ => .done

/-- R118, R192: the items of a template up to the first END. Items not wholly read count as END, so
`size` bytes hold `size / 2` items. -/
def templateOf (data : List Byte) (size : Nat) : List TemplateItem :=
  ((List.range (min size 32 / 2)).map fun j => templateItemOf (word16 data (2 * j))).takeWhile (· != .done)

/-! ## The profile's codes -/

/-- R166: the value of a coded timer: the prescaler times ten tens plus ones, ones over 9 taken as 9. -/
def timerValue (code : Byte) : Time :=
  let c := code.toNat
  (if bits c 7 1 = 1 then 10 else 1) * (10 * bits c 4 3 + min (bits c 0 4) 9) * second

/-- R173: the duty of a code, in percent. -/
def dutyOf (code : Nat) : Nat := if code = 0 then 5 else min (10 * code) 100

/-- R178: the period of a flasher pattern. -/
def patternPeriod (code : Byte) : Time :=
  match bits code.toNat 0 2 with
  | 0 => 2000 * milli
  | 1 => 1000 * milli
  | 2 => 500 * milli
  | _ => 250 * milli

/-- R178: the coded on-time of a flasher pattern, 62.5 ms and 31.25 ms included. -/
def patternCoded (code : Byte) : Time :=
  match bits code.toNat 2 2 with
  | 0 => 250 * milli
  | 1 => 125 * milli
  | 2 => 1500000
  | _ => 750000

/-- R178: the on-time of a flasher pattern. An on-time that is not less than half the period is taken as
the largest legal one: 125 ms at 2 Hz, 62.5 ms at 4 Hz. -/
def patternOn (code : Byte) : Time :=
  let p := patternPeriod code
  let c := patternCoded code
  if 2 * c < p then c else if p = 500 * milli then 125 * milli else 1500000

end Sys2Proof.Machine
end

