-- ==== Sys2Proof/Machine/Flags.lean ====
section
/-! DEFINITION. What one block reads of another: the line mode, the machine conditions, SELECTING, the
attributes of the prompt classes and series, the profile's settings, and the program table in
force. Nothing here changes a state. -/

namespace Sys2Proof.Machine

/-! ## Line (R16, R17) -/

/-- R16: the line mode. -/
def LinePort.mode (lp : LinePort) : LineMode :=
  if lp.degraded || lp.lineHeld || lp.clash then .solo else .normal

/-- R18: the LP receives in LISTEN and RUN. -/
def State.receiving (s : State) : Bool := s.psp.phase == .listen || s.psp.phase == .run

/-- R187: the part is in RUN. -/
def State.running (s : State) : Bool := s.psp.phase == .run

/-- R5: the station's own address. -/
def State.ownAddress (s : State) : Nat := stationAddress s.psp.machine

/-- R13: the access gap of a frame kind: its base and the skew of the own address mod 8, in bit times. -/
def accessGap (own : Nat) (k : FrameKind) : Time := (baseGap k + own % 8) * bitTime

/-! ## Partner (R23) -/

/-- R23: the freshness is FRESH. -/
def PartnerMonitor.isFresh (pm : PartnerMonitor) : Bool := pm.freshness == .fresh

/-- R23: whether a record shows a machine condition, the freshness aside. -/
def Record.shows (r : Record) : CondKey → Bool
  | .payment => r.state == .awaitPayment
  | .action => r.action != 0
  | .fault => r.fault != 0
  | .done => r.state == .done
  | _ => false

/-- R71: a dialogue state in which SELECTING holds. -/
def DialogueState.selecting : DialogueState → Bool
  | .browseProgram | .browseOption | .confirm => true
  | .view | .awaitAnswer => false

/-- R23, R89: whether a condition holds. -/
def State.holds (s : State) : CondKey → Bool
  | .none => true
  | .lost => s.pm.freshness == .lost
  | .selecting => s.dc.state.selecting
  | k => s.pm.isFresh && s.pm.record.shows k

/-- R75, R83, R86: the partner is FRESH and FREE or READY. -/
def State.selectable (s : State) : Bool :=
  s.pm.isFresh && (s.pm.record.state == .free || s.pm.record.state == .ready)

/-- R23, R103: the four machine conditions, in the order of R27. -/
def machineConditions : List CondKey := [.payment, .action, .fault, .done]

/-! ## Prompt classes (R90) -/

/-- R90: rank, which equals the class number. -/
def rank : PromptClass → Nat
  | .faultCall => 0
  | .actionCall => 1
  | .partnerLost => 2
  | .actionNeeded => 3
  | .requestRefused => 4
  | .noAnswer => 5
  | .paymentDue => 6
  | .faultCleared => 7
  | .cycleDone => 8
  | .unloadReminder => 9
  | .started => 10
  | .paused => 11
  | .resumed => 12
  | .cancelled => 13
  | .timeCall => 14
  | .phaseChange => 15
  | .programName => 16
  | .optionState => 17
  | .confirmSummary => 18
  | .holdStartHint => 19
  | .reprompt => 20
  | .stateDescription => 21
  | .roomSummary => 22
  | .freeMachines => 23
  | .languageName => 24
  | .outOfService => 25
  | .welcome => 26
  | .pleaseWait => 27

/-- R90: level. -/
def classLevel : PromptClass → Level
  | .faultCall | .actionCall => .urgent
  | _ => .routine

/-- R90: base reach. -/
def baseReach : PromptClass → Reach
  | .faultCall | .actionCall | .cycleDone | .unloadReminder => .room
  | _ => .loc

/-- R90: lifetime, absent for a class held by condition alone. -/
def lifetime : PromptClass → Option Time
  | .faultCall | .actionCall | .partnerLost | .actionNeeded | .paymentDue | .cycleDone
  | .unloadReminder => none
  | .requestRefused | .noAnswer | .phaseChange | .confirmSummary | .reprompt | .stateDescription
  | .roomSummary | .outOfService => some (10 * second)
  | .faultCleared | .timeCall | .freeMachines => some (30 * second)
  | .started | .paused | .resumed | .cancelled => some (15 * second)
  | .programName | .optionState | .holdStartHint | .languageName | .welcome => some (5 * second)
  | .pleaseWait => some (3 * second)

/-- R90: condition key. -/
def classKey : PromptClass → CondKey
  | .faultCall => .fault
  | .actionCall | .actionNeeded => .action
  | .partnerLost => .lost
  | .paymentDue => .payment
  | .cycleDone | .unloadReminder => .done
  | .programName | .optionState | .confirmSummary | .reprompt => .selecting
  | _ => .none

/-! ## Call series (R102) -/

/-- R102: the series that speaks a class. -/
def seriesOf : PromptClass → Option Series
  | .faultCall => some .fault
  | .actionCall => some .actionSecond
  | .actionNeeded => some .actionFirst
  | .paymentDue => some .payment
  | .unloadReminder => some .unload
  | _ => none

/-- R102: the class a series speaks. -/
def seriesClass : Series → PromptClass
  | .fault => .faultCall
  | .actionFirst => .actionNeeded
  | .actionSecond => .actionCall
  | .payment => .paymentDue
  | .unload => .unloadReminder

/-- R102: the condition of a series. -/
def seriesKey : Series → CondKey
  | .fault => .fault
  | .actionFirst | .actionSecond => .action
  | .payment => .payment
  | .unload => .done

/-- R102: the interval of a series. -/
def seriesInterval : Series → Time
  | .fault => 60 * second
  | .actionFirst => 20 * second
  | .actionSecond => 60 * second
  | .payment => 30 * second
  | .unload => 300 * second

/-- R102: the limit of sayings of a series. -/
def seriesLimit : Series → Nat
  | .fault => 5
  | _ => 3

/-- R102: a series of the queue. -/
def PromptQueue.series (pq : PromptQueue) : Series → SeriesState
  | .fault => pq.fault
  | .actionFirst => pq.actionFirst
  | .actionSecond => pq.actionSecond
  | .payment => pq.payment
  | .unload => pq.unload

/-- R97: an item of the class waits in the queue. -/
def PromptQueue.queued (pq : PromptQueue) (c : PromptClass) : Bool := pq.items.any (·.cls == c)

/-- R97: the current item is of the class. -/
def PromptQueue.isCurrent (pq : PromptQueue) (c : PromptClass) : Bool :=
  match pq.current with
  | some m => m.cls == c
  | none => false

/-- R138: the current item has been marked superseded or withdrawn. -/
def PromptQueue.marked (pq : PromptQueue) : Bool :=
  match pq.current with
  | some m => m.superseded || m.withdrawn
  | none => false

/-! ## Precedence (R135) -/

/-- R135: a claim of level `l` and address `a` precedes one of level `l'` and address `a'`. -/
def precedes (l : Level) (a : Nat) (l' : Level) (a' : Nat) : Bool :=
  (l == .urgent && l' == .routine) || (l == l' && decide (a < a'))

/-! ## The profile in force (R183, R185) -/

/-- R166: T_REPROMPT, absent when its stage is disabled. -/
def Profile.reprompt (p : Profile) : Option Time :=
  if timerValue p.tReprompt = 0 then none else some (timerValue p.tReprompt)

/-- R166: T_DARK, absent when its stage is disabled. -/
def Profile.dark (p : Profile) : Option Time :=
  if timerValue p.tDark = 0 then none else some (timerValue p.tDark)

/-- R166: T_DIM, absent when its stage is disabled: by a value of 0, or by a T_DARK that is enabled and at
most T_DIM. -/
def Profile.dim (p : Profile) : Option Time :=
  let m := timerValue p.tDim
  let k := timerValue p.tDark
  if m = 0 ∨ (k ≠ 0 ∧ k ≤ m) then none else some m

/-- R173: the ACTIVE duty. -/
def Profile.activeDuty (p : Profile) : Nat := dutyOf (bits p.duty.toNat 0 4)

/-- R173: the DIM duty, the ACTIVE duty where its code gives more. -/
def Profile.dimDuty (p : Profile) : Nat := min (dutyOf (bits p.duty.toNat 4 4)) p.activeDuty

/-- R154: the LOCAL gain. -/
def Profile.localGain (p : Profile) : Nat := bits p.gain.toNat 0 4

/-- R154: the ROOM gain. -/
def Profile.roomGain (p : Profile) : Nat := bits p.gain.toNat 4 4

/-- R191: the bit of a key in the debounce byte. -/
def keyBit : Key → Nat
  | .select => 0
  | .back => 1
  | .start => 2
  | .help => 3
  | .up => 4
  | .down => 5

/-- R61: the debounce time of a key, 0 or 20 ms. -/
def Profile.debounceOf (p : Profile) (k : Key) : Time :=
  if p.debounce.getLsbD (keyBit k) then debounceTime else 0

/-- R92: the phase-announce flag. -/
def Profile.phaseAnnounce (p : Profile) : Bool := p.flags.getLsbD 0

/-! ## Program tables (R73, R74, R184) -/

/-- R73, R183, R184: the program table of a machine kind: the cached one, or the generic table when there is
none. -/
def PhraseStore.tableFor (psp : PhraseStore) (k : MachineKind) : ProgramTable :=
  match psp.tables with
  | some t =>
    match k with
    | .washer => t.washer
    | .dryer => t.dryer
    | .washerDryer => t.washerDryer
  | none => genericTable

/-- R73: the program table of the partner's kind. -/
def State.table (s : State) : ProgramTable := s.psp.tableFor s.pm.record.kind

/-- R73: program `p` of a table. -/
def ProgramTable.program (t : ProgramTable) (p : Nat) : Program := t.programs.getD p genericProgram

/-- R73: the default program, index 0 where the table's is at or past its count. -/
def ProgramTable.first (t : ProgramTable) : Nat := if t.dflt < t.count then t.dflt else 0

/-- R73: the default options of program `p`: those of its default set that it allows. -/
def ProgramTable.defaults (t : ProgramTable) (p : Nat) : BitVec 8 :=
  (t.program p).defaults &&& (t.program p).allowed

/-- R74: the numbers of the options in a set, ascending. -/
def optionsIn (set : BitVec 8) : List Nat := ((List.range 8).filter fun j => set.getLsbD j).map (· + 1)

/-- R91: whether option `n` is in a set. -/
def hasOption (set : BitVec 8) (n : Nat) : Bool := 1 ≤ n && set.getLsbD (n - 1)

/-- R80: option `n` of a set inverted. -/
def toggleOption (set : BitVec 8) (n : Nat) : BitVec 8 := set ^^^ BitVec.ofNat 8 (2 ^ (n - 1))

/-- R74: the options the selected program allows, ascending. -/
def State.optionList (s : State) : List Nat := optionsIn (s.table.program s.dc.program).allowed

/-- R91: the dialogue state as a parameter. -/
def dialogueCode : DialogueState → Nat
  | .view => 0
  | .browseProgram => 1
  | .browseOption => 2
  | .confirm => 3
  | .awaitAnswer => 4

end Sys2Proof.Machine
end

