-- ==== Sys2Proof/Machine/Ops.lean ====
section
/-! DEFINITION. The named operations within one block: keyed sets in order, the transmit queue and the
error count of the line port, the arbiter of the phrase store port, the floor view, the roster, and
the queue of prompt items. None of them reaches another block. -/

namespace Sys2Proof.Machine

/-! ## Keyed sets, held in ascending order of their key -/

/-- `x` put at the place its key gives, in place of an element of the same key. -/
def putBy {α : Type} (key : α → Nat) (x : α) : List α → List α
  | [] => [x]
  | y :: ys =>
    if key x < key y then x :: y :: ys
    else if key x = key y then x :: ys
    else y :: putBy key x ys

/-- The elements of a key other than `k`. -/
def dropKey {α : Type} (key : α → Nat) (k : Nat) (xs : List α) : List α := xs.filter fun x => key x != k

/-- The element of key `k`. -/
def findKey {α : Type} (key : α → Nat) (k : Nat) (xs : List α) : Option α := xs.find? fun x => key x == k

/-! ## The receive error count (R7) -/

/-- R7: the count set, with DEGRADED by its thresholds. -/
def LinePort.setCount (lp : LinePort) (c : Nat) : LinePort :=
  { lp with errCount := c, degraded := if 24 ≤ c then true else if c ≤ 8 then false else lp.degraded }

/-- R7: an increase, which stops at 31. -/
def LinePort.addErrors (lp : LinePort) (n : Nat) : LinePort := lp.setCount (min 31 (lp.errCount + n))

/-- R7: a good frame. A decrease from 0 leaves 0. -/
def LinePort.goodFrame (lp : LinePort) : LinePort := lp.setCount (lp.errCount - 1)

/-! ## The transmit queue (R9 to R12, R15, R17) -/

/-- R1: the receiver is inside a byte. -/
def LinePort.inByte (lp : LinePort) : Bool := lp.edge.isSome

/-- A CLAIM of the station's is being transmitted (R10). -/
def LinePort.transmitting (lp : LinePort) (k : FrameKind) : Bool :=
  match lp.tx with
  | some x => x.kind == k
  | none => false

/-- The content of the list place of kind `k` is the one being transmitted, so it is not unsent (R10). -/
def LinePort.onLine (lp : LinePort) (k : FrameKind) : Bool :=
  match lp.tx with
  | some x => x.kind == k && x.place == .intact
  | none => false

/-- A frame of the kind is in the list. -/
def LinePort.listed (lp : LinePort) (k : FrameKind) : Bool := lp.queue.any (·.kind == k)

/-- R11: what a change of the list place makes of the attempt under way. -/
def LinePort.setTxPlace (lp : LinePort) (k : FrameKind) (p : TxPlace) : LinePort :=
  { lp with tx := lp.tx.map fun x => if x.kind = k then { x with place := p } else x }

/-- R9, R11: a frame joins the list. In place of a frame of its kind if there is one; at the head if that
place was removed while its transmission goes on; otherwise at the tail. A frame replaced while it is not
being transmitted gets no report of its own: R12 asks one for every accepted frame and R9 names none
here (DESIGN CHOICE, log 21). -/
def LinePort.join (lp : LinePort) (p : Place) : LinePort :=
  if lp.listed p.kind then
    { lp.setTxPlace p.kind .replaced with
      queue := lp.queue.map fun q => if q.kind = p.kind then p else q }
  else if lp.transmitting p.kind then
    { lp.setTxPlace p.kind .replaced with queue := p :: lp.queue }
  else { lp with queue := lp.queue ++ [p] }

/-- R11: the frame of a kind taken out of the list by its owner. A transmission of it goes on. -/
def LinePort.remove (lp : LinePort) (k : FrameKind) : LinePort :=
  { lp.setTxPlace k .removed with queue := lp.queue.filter fun q => q.kind != k }

/-- R10, R17: an unsent frame of a kind taken out of the list; one that is being transmitted stays. -/
def LinePort.removeUnsent (lp : LinePort) (k : FrameKind) : LinePort :=
  if lp.onLine k then lp else lp.remove k

/-- R9, R17: a CLAIM queued. Not accepted in SOLO: it is then DROPPED at once (`false`). -/
def LinePort.queueClaim (lp : LinePort) (frame : List Byte) (reassert : Bool) : LinePort × Bool :=
  match lp.mode with
  | .normal => (lp.join { kind := .claim, bytes := frame, reassert := reassert, attempts := 0 }, true)
  | .solo => (lp, false)

/-- R9, R17: a REQUEST queued. Not accepted with CLASH latched: it is then DROPPED at once (`false`). -/
def LinePort.queueRequest (lp : LinePort) (frame : List Byte) : LinePort × Bool :=
  if lp.clash then (lp, false)
  else (lp.join { kind := .request, bytes := frame, reassert := false, attempts := 0 }, true)

/-- R10, R17: a RELEASE queued, with the answer it gets at once, if it gets one. -/
def LinePort.queueRelease (lp : LinePort) (frame : List Byte) : LinePort × Option Fate :=
  if lp.clash then (lp, some .dropped)
  else
    let lp := lp.removeUnsent .claim
    if lp.listed .release then (lp, none)
    else if lp.claimOut || lp.transmitting .claim then
      ({ lp with
          queue := lp.queue ++ [{ kind := .release, bytes := frame, reassert := false, attempts := 0 }] },
        none)
    else (lp, some .cancelled)

/-- The report of a list place that leaves the list unsent. -/
def droppedReport (p : Place) : Report :=
  { kind := p.kind, bytes := p.bytes, reassert := p.reassert, fate := .dropped }

/-- R17: SOLO begins with CLASH clear. An unsent CLAIM is removed and reported DROPPED, and a CLAIM being
transmitted will not be retried. -/
def LinePort.enterSolo (lp : LinePort) : LinePort × List Report :=
  let gone := if lp.onLine .claim then [] else (lp.queue.filter (·.kind == .claim)).map droppedReport
  let lp := lp.removeUnsent .claim
  ({ lp with tx := lp.tx.map fun x => if x.kind = .claim then { x with noRetry := true } else x }, gone)

/-- R5, R17: CLASH latches. Every frame in the list is removed and reported DROPPED, in the list's order (DESIGN CHOICE,
log 31), and nothing is transmitted while it is latched (log 8). -/
def LinePort.latchClash (lp : LinePort) : LinePort × List Report :=
  ({ lp with clash := true, queue := [], tx := none }, lp.queue.map droppedReport)

/-- R13: the head of the list, if the LP may begin it now. -/
def LinePort.ready (lp : LinePort) (own : Nat) (now : Time) : Option Place :=
  match lp.queue, lp.idleSince with
  | p :: _, some i =>
    if lp.tx.isNone && !lp.lineHeld && !lp.clash && !lp.inByte && decide (i + accessGap own p.kind ≤ now)
    then some p else none
  | _, _ => none

/-- R13: the head's attempt begins, and is counted. The line port reads its own start bit on LRX as anyone's
(R1), so what it knows of the line changes only with START_BIT_EDGE: on a faulty line LRX stays
recessive. -/
def LinePort.begin (lp : LinePort) (p : Place) (now : Time) : LinePort :=
  { lp with
    queue := lp.queue.map fun q => if q.kind = p.kind then { q with attempts := q.attempts + 1 } else q
    tx := some { kind := p.kind, bytes := p.bytes, reassert := p.reassert, start := now, read := 0,
                 place := .intact, noRetry := false } }

/-- R14: the moment the attempt under way reaches the end of its last stop bit. -/
def Tx.ends (x : Tx) : Time := x.start + 10 * bitTime * x.bytes.length

/-- R1, R14, R18: LTX is released (`true`) or driven dominant at a moment: the bit of the attempt under way, and
recessive outside one and past its end. -/
def LinePort.ltx (lp : LinePort) (now : Time) : Bool :=
  match lp.tx with
  | some x => (frameBits x.bytes).getD ((now - x.start) / bitTime) true
  | none => true

/-- R14: the middle of a bit of the attempt under way, at which LRX is compared with the level that is driven. -/
def LinePort.compares (lp : LinePort) (now : Time) : Bool :=
  match lp.tx with
  | some x => decide (x.start ≤ now) && decide (now < x.ends) && decide ((now - x.start) % bitTime = halfBit)
  | none => false

/-- R14: the attempt under way has reached the end of its last stop bit, with every byte read as driven. -/
def Tx.whole (x : Tx) (now : Time) : Bool := decide (x.ends ≤ now) && x.read == x.bytes.length

/-- The attempts made of the frame of a kind in the list. -/
def LinePort.attemptsOf (lp : LinePort) (k : FrameKind) : Nat :=
  match lp.queue.find? (·.kind == k) with
  | some p => p.attempts
  | none => 0

/-- R14, R15, R11, R17: the attempt fails. A frame still in its place stays for the next gap, but for its
sixteenth attempt (count +4) and for a CLAIM that SOLO overtook. Where the place has been removed or replaced, a
failed sixteenth attempt adds nothing to the receive error count and is not reported: R15 would have both, and
the model follows R11, by which that frame is discarded (DESIGN CHOICE, log 19). -/
def LinePort.withdraw (lp : LinePort) : LinePort × List Report :=
  match lp.tx with
  | none => (lp, [])
  | some x =>
    let idle := { lp with tx := none }
    let gone := { idle with queue := lp.queue.filter fun q => q.kind != x.kind }
    let report := { kind := x.kind, bytes := x.bytes, reassert := x.reassert, fate := .dropped }
    match x.place with
    | .intact =>
      if maxAttempts ≤ lp.attemptsOf x.kind then (gone.addErrors 4, [report])
      else if x.noRetry then (gone, [report])
      else (idle, [])
    | .removed | .replaced => (idle, [])

/-- R14, R10, R11, R5, R12: the attempt is complete. An intact place leaves the list, CLAIM_OUT follows, and
SENT is reported with the transmission end. The open reception is the station's own, unless a start
bit of another station has already joined it. -/
def LinePort.complete (lp : LinePort) : LinePort × List Report :=
  match lp.tx with
  | none => (lp, [])
  | some x =>
    ({ lp with
        tx := none
        queue := if x.place = .intact then lp.queue.filter fun q => q.kind != x.kind else lp.queue
        claimOut :=
          match x.kind with
          | .claim => true
          | .release => false
          | .request => lp.claimOut
        rx := lp.rx.map fun r => { r with own := r.count == x.bytes.length } },
      [{ kind := x.kind, bytes := x.bytes, reassert := x.reassert, fate := .sent x.ends }])

/-! ## Receiving (R1, R2, R18) -/

/-- How long the line has been recessive at `now`, when that is known. -/
def LinePort.recessive (lp : LinePort) (now : Time) : Option Time := lp.idleSince.map (now - ·)

/-- R18: the LP has seen 4 bit times of recessive, now or before. They count from the start of LISTEN, within a byte
of a frame in progress too, until an edge is seen; from then on the bits of the byte that this edge begins do not
count, and the time runs from the end of its stop bit. R18 says 4 bit times of recessive and no more (DESIGN
CHOICE, log 7). -/
def LinePort.armedAt (lp : LinePort) (now : Time) : Bool :=
  lp.armed ||
    match lp.recessive now with
    | some r => decide (delimiter ≤ r)
    | none => false

/-- R2, R13: the moment from which the delimiter and the access gap count after a dominant level that ends at
`level`: that end, or the end of the last stop bit where it comes later. -/
def LinePort.countFrom (lp : LinePort) (level : Time) : Time := max (lp.stopBitEnd.getD 0) level

/-- R1, R2, R8, R13: a glitch. No byte is taken, and the recessive time runs anew: for the delimiter and the gap
from the end of its dominant level or of the last stop bit, whichever is later, and for R8 from the former. -/
def LinePort.glitch (lp : LinePort) (now d : Time) : LinePort :=
  { lp with
    armed := lp.armedAt now, idleSince := some (lp.countFrom (now + d)), recessiveSince := some (now + d),
    dominantSince := none }

/-- R1, R2, R18: a start bit, whose leading edge is `now`, opens a reception, or continues the open one, faulted
after more than 2 bit times of recessive. Bytes that LISTEN finds in progress open none. -/
def LinePort.startBit (lp : LinePort) (now : Time) : LinePort :=
  let rx :=
    match lp.rx with
    | some r =>
      let late : Bool :=
        match lp.recessive now with
        | some w => decide (faultGap < w)
        | none => false
      some { r with count := r.count + 1, faulted := r.faulted || late, own := false }
    | none =>
      if lp.armedAt now then
        some { bytes := [], count := 1, faulted := false, overlong := false, own := false, lastStop := now }
      else none
  { lp with
    rx := rx, edge := some now, armed := lp.armedAt now, idleSince := none, recessiveSince := none,
    dominantSince := some now }

/-- R1: the end of the stop bit of the byte whose leading edge is `edge`. -/
def stopEnd (edge : Time) : Time := edge + 10 * bitTime

/-- R1, R8: from when the line has been dominant at the end of a byte whose stop bit reads dominant: from the
end of its last recessive data bit, or from its edge when it has none. -/
def dominantFrom (edge : Time) (b : Byte) : Time :=
  match (List.range 8).reverse.find? fun k => b.getLsbD k with
  | some k => edge + (k + 2) * bitTime
  | none => edge

/-- R1, R8: the end of the last dominant level of a byte whose stop bit reads recessive: of its last dominant
data bit, or of its start bit when it has none. -/
def recessiveFrom (edge : Time) (b : Byte) : Time :=
  match (List.range 8).reverse.find? fun k => !b.getLsbD k with
  | some k => edge + (k + 2) * bitTime
  | none => edge + bitTime

/-- R14: a byte on LRX is the next one of the attempt under way, read as it is driven: its start bit is sampled
within that byte's start bit, and its data bits and its stop bit are the ones driven. -/
def Tx.hears (x : Tx) (edge : Time) (b : Byte) (stop : Bool) : Bool :=
  stop && x.bytes[x.read]? == some b && (midBit edge 0 - x.start) / bitTime == 10 * x.read

/-- R14: a byte read back in the attempt under way. -/
def Tx.readBack (x : Tx) (edge : Time) (b : Byte) (stop : Bool) : Tx :=
  if x.hears edge b stop then { x with read := x.read + 1 } else x

/-- R14: a byte on LRX shows that a bit of the attempt under way was not read as driven. Once all its bytes have
been read back no byte does. -/
def LinePort.belies (lp : LinePort) (edge : Time) (b : Byte) (stop : Bool) : Bool :=
  match lp.tx with
  | some x => x.read != x.bytes.length && !x.hears edge b stop
  | none => false

/-- R1, R2, R14: a byte taken into the open reception, its bits sampled at their middles counted from `edge`. The
receiver is outside the byte again from here, the middle of its stop bit, and watches for a new edge: R1 does not
say whether the middle or the end of the stop bit ends the byte (DESIGN CHOICE, log 7). -/
def LinePort.takeByte (lp : LinePort) (edge : Time) (b : Byte) (stop : Bool) : LinePort :=
  let rx := lp.rx.map fun r =>
    { r with
      bytes := if r.bytes.length < Config.receptionCapacity then r.bytes ++ [b] else r.bytes
      overlong := r.overlong || decide (Config.receptionCapacity ≤ r.bytes.length)
      faulted := r.faulted || !stop
      lastStop := stopEnd edge }
  { lp with
    rx := rx
    tx := lp.tx.map fun x => x.readBack edge b stop
    edge := none
    idleSince := if stop then some (stopEnd edge) else none
    recessiveSince := if stop then some (recessiveFrom edge b) else none
    dominantSince := if stop then none else some (dominantFrom edge b)
    stopBitEnd := some (stopEnd edge) }

/-- R2: the delimiter can be complete at `now`. Where the moment the line went recessive is not known, after
a dominant stop bit, the event itself says that it is, at the earliest 4 bit times after the end of
that stop bit, or after the last dominant level known (log 7). -/
def LinePort.delimited (lp : LinePort) (now : Time) : Bool :=
  !lp.inByte &&
    match lp.idleSince, lp.rx with
    | some i, _ => decide (i + delimiter ≤ now)
    | none, some r => decide (r.lastStop + delimiter ≤ now)
    | none, none => elapsed (lp.stopBitEnd <|> lp.dominantSince) delimiter now

/-- R2, R18: the delimiter is complete: the line has been recessive since `idle`. -/
def LinePort.quiet (lp : LinePort) (now : Time) : LinePort :=
  { lp with
    rx := none, armed := true, idleSince := some (lp.idleSince.getD (now - delimiter))
    recessiveSince := some (lp.recessiveSince.getD (now - delimiter)), dominantSince := none }

/-- R8: the line, outside a byte, has been dominant for 2 ms as far as the line port's samples tell. -/
def LinePort.holds (lp : LinePort) (now : Time) : Bool := !lp.inByte && elapsed lp.dominantSince heldTime now

/-- R8: the line has been recessive without a break for 10 ms, counted from the end of the last dominant level. -/
def LinePort.freed (lp : LinePort) (now : Time) : Bool := elapsed lp.recessiveSince heldClearTime now

/-! ## The phrase store port (R180, R181) -/

/-- R181: a read is granted. -/
def PhraseStore.grant (psp : PhraseStore) (u : PortUser) (r : ReadReq) (now : Time) (direct : Bool) :
    PhraseStore :=
  { psp with port := .reading u r (now + readTime r.size) direct }

/-- R181: the arbiter hands the port on: the waiting refill, otherwise the waiting composer read. -/
def PhraseStore.arbitrate (psp : PhraseStore) (now : Time) : PhraseStore :=
  match psp.waitRefill with
  | some r => { psp.grant .refill r now false with waitRefill := none }
  | none =>
    match psp.waitComposer with
    | some r => { psp.grant .composer r now false with waitComposer := none }
    | none => { psp with port := .idle }

/-- R181: the port serves nobody and its gap is over. -/
def PhraseStore.free (psp : PhraseStore) (now : Time) : Bool :=
  match psp.port with
  | .idle => true
  | .reading _ _ _ _ => false
  | .gap e => decide (e ≤ now) && psp.waitRefill.isNone && psp.waitComposer.isNone

/-- R181: a refill is asked. Granted at once on an idle port, before a composer read asked there at the
same moment; otherwise it waits. -/
def PhraseStore.askRefill (psp : PhraseStore) (r : ReadReq) (now : Time) : PhraseStore :=
  if psp.free now then psp.grant .refill r now true
  else
    match psp.port with
    | .reading .composer q e true =>
      if e = now + readTime q.size then { psp.grant .refill r now true with waitComposer := some q }
      else { psp with waitRefill := some r }
    | _ => { psp with waitRefill := some r }

/-- R181: a composer read is asked. -/
def PhraseStore.askComposer (psp : PhraseStore) (r : ReadReq) (now : Time) : PhraseStore :=
  if psp.free now then psp.grant .composer r now true else { psp with waitComposer := some r }

/-- R150, R181: the composer's read is withdrawn in the moment it was asked. One granted in that moment leaves
the port to the read that waits. -/
def PhraseStore.unaskComposer (psp : PhraseStore) (now : Time) : PhraseStore :=
  let psp := { psp with waitComposer := none }
  match psp.port with
  | .reading .composer q e _ => if e = now + readTime q.size then psp.arbitrate now else psp
  | _ => psp

/-- R180: the read of a user that has ended at `now`. -/
def PhraseStore.ended (psp : PhraseStore) (u : PortUser) (now : Time) : Option ReadReq :=
  match psp.port with
  | .reading v r e _ => if v = u ∧ e ≤ now then some r else none
  | _ => none

/-- R180: the transaction ends and the 500 ns gap begins. -/
def PhraseStore.finish (psp : PhraseStore) (now : Time) : PhraseStore :=
  { psp with port := .gap (now + portGap) }

/-! ## The floor view (R131 to R134) -/

/-- R132: a claim applied to the view. -/
def Floor.store (fc : Floor) (addr : Nat) (level : Level) (units : Nat) (arrival : Time) : Floor :=
  let expiry := arrival + units * floorUnit + claimGrace
  if (findKey ViewEntry.addr addr fc.view).isSome || decide (fc.view.length < Config.viewCapacity) then
    { fc with
      view := putBy ViewEntry.addr
        { addr := addr, level := level, arrival := arrival, expiry := expiry, speaking := false } fc.view }
  else
    { fc with
      crowded :=
        match fc.crowded with
        | some c => some (max c expiry)
        | none => some expiry }

/-- R132: the view has a place for a claim from the address. -/
def Floor.stores (fc : Floor) (addr : Nat) : Bool :=
  (findKey ViewEntry.addr addr fc.view).isSome || decide (fc.view.length < Config.viewCapacity)

/-- R133: the entry of an address removed. -/
def Floor.forget (fc : Floor) (addr : Nat) : Floor :=
  { fc with view := dropKey ViewEntry.addr addr fc.view }

/-- R139: every entry of the view has a level lower than `l`. -/
def Floor.viewBelow (fc : Floor) (l : Level) : Bool :=
  fc.view.all fun e => l == .urgent && e.level == .routine

/-! ## The roster (R42 to R49) -/

/-- R43: the coarse state of a machine's state. -/
def coarseOf : MachineState → CoarseState
  | .free => .free
  | .awaitPayment | .ready => .reserved
  | .running | .paused => .busy
  | .done => .done
  | .fault | .outOfService => .unavailable

/-- R44: a good STATUS taken for a machine. -/
def rosterTake (machine : Nat) (payload : List Byte) (arrival : Time) (es : List RosterEntry) :
    List RosterEntry :=
  let r := recordOf payload
  putBy RosterEntry.machine
    { machine := machine, kind := r.kind, coarse := coarseOf r.state, minutes := r.minutes,
      arrival := arrival } es

/-- R47: an entry of the kind belongs to a selector: `none` is ANY. -/
def belongs (selector : Option MachineKind) (k : MachineKind) : Bool :=
  match selector with
  | some .washer => k == .washer || k == .washerDryer
  | some .dryer => k == .dryer || k == .washerDryer
  | some .washerDryer | none => true

/-- R48: the free-list query. -/
def freeList (selector : Option MachineKind) (es : List RosterEntry) : FreeList :=
  let free := (es.filter fun e => belongs selector e.kind && e.coarse == .free).map RosterEntry.machine
  { machines := free.take 3, count := free.length }

/-- R49: the soonest-minutes query; absent is UNKNOWN. -/
def soonest (selector : Option MachineKind) (es : List RosterEntry) : Option Nat :=
  ((es.filter fun e => belongs selector e.kind && e.coarse == .busy).filterMap RosterEntry.minutes).min?

/-- R50: the selector of FREE_MACHINES for the partner's kind. -/
def complement : MachineKind → Option MachineKind
  | .washer => some .dryer
  | .dryer => some .washer
  | .washerDryer => none

/-! ## The list of prompt items (R94, R95) -/

/-- R94: the place of an item in class order. -/
def Item.rank (it : Item) : Nat := Machine.rank it.cls

/-- R95: an item placed by the capacity rule in a queue that holds none of its class, with the item that
leaves for it: the last one, or the new one itself. -/
def placeItem (it : Item) (items : List Item) : List Item × Option Item :=
  if items.length < Config.queueCapacity then (putBy Item.rank it items, none)
  else
    match items.getLast? with
    | some l => if it.rank < l.rank then (putBy Item.rank it items.dropLast, some l) else (items, some it)
    | none => (items, some it)

/-- R102: a series of the queue changed. -/
def PromptQueue.setSeries (pq : PromptQueue) (r : Series) (x : SeriesState) : PromptQueue :=
  match r with
  | .fault => { pq with fault := x }
  | .actionFirst => { pq with actionFirst := x }
  | .actionSecond => { pq with actionSecond := x }
  | .payment => { pq with payment := x }
  | .unload => { pq with unload := x }

/-- An item's expiry has passed (R98, R137). -/
def Item.expired (it : Item) (now : Time) : Bool := due it.expiry now

/-! ## Keys (R61) -/

/-- R61: the state of a key. -/
def PanelUnit.key (pu : PanelUnit) : Key → KeyState
  | .select => pu.select
  | .back => pu.back
  | .start => pu.start
  | .help => pu.help
  | .up => pu.up
  | .down => pu.down

/-- R61: the state of a key changed. -/
def PanelUnit.setKey (pu : PanelUnit) (k : Key) (x : KeyState) : PanelUnit :=
  match k with
  | .select => { pu with select := x }
  | .back => { pu with back := x }
  | .start => { pu with start := x }
  | .help => { pu with help := x }
  | .up => { pu with up := x }
  | .down => { pu with down := x }

/-- A press that makes no further event of its own. -/
def PanelUnit.spend (pu : PanelUnit) (k : Key) : PanelUnit :=
  pu.setKey k { pu.key k with spent := true }

/-- R52: the keys of a panel type. -/
def hasKey : PanelType → Key → Bool
  | .knob, .up | .knob, .down => false
  | _, _ => true

end Sys2Proof.Machine
end

