-- ==== Sys2Proof/Machine/Composer.lean ====
section
/-! DEFINITION. The composer (chapter 7): its readings, the expansion of a template's items, the judging
of clips against the directory, the length arithmetic, and the reads it asks of the port. -/

namespace Sys2Proof.Machine

/-! ## Renderings (R119 to R124) -/

/-- R119: a value as number clips, a value above 999 taken as 999. -/
def numberClips (v : Nat) : List Nat :=
  let v := min v 999
  if v < 100 then [v]
  else [v / 100, 100] ++ (if v % 100 = 0 then [] else [v % 100])

/-- R119: the decimal digits of a value 0..1023, from the most significant. -/
def digitClips (v : Nat) : List Nat :=
  if v < 10 then [v]
  else if v < 100 then [v / 10, v % 10]
  else if v < 1000 then [v / 100, v / 10 % 10, v % 10]
  else [v / 1000 % 10, v / 100 % 10, v / 10 % 10, v % 10]

/-- R121: the spoken value of 1..999 minutes: exact up to 15, then the nearest multiple of 5. -/
def spokenMinutes (v : Nat) : Nat := if v < 16 then v else if v % 5 < 3 then v - v % 5 else v - v % 5 + 5

/-- R121: a spoken duration. -/
def minutesClips (v : Nat) : List Nat :=
  if v = 1023 then [106]
  else if v = 0 then [105]
  else
    let s := spokenMinutes (min v 999)
    let h := s / 60
    let r := s % 60
    (if h = 0 then [] else numberClips h ++ [if h = 1 then 101 else 102])
      ++ (if r = 0 then [] else numberClips r ++ [if r = 1 then 103 else 104])

/-- R120, R192: the code phrase position of a coded parameter: absent where the parameter is not coded,
`some none` for a value outside its codes. -/
def codedPosition (c : PromptClass) (p v : Nat) : Option (Option Nat) :=
  match c, p with
  | .requestRefused, 0 | .noAnswer, 0 => some (if 1 ≤ v ∧ v ≤ 4 then some (v - 1) else none)
  | .requestRefused, 1 => some (if 2 ≤ v ∧ v ≤ 6 then some (v + 2) else none)
  | .optionState, 1 => some (if v ≤ 1 then some (9 + v) else none)
  | .stateDescription, 0 => some (if v ≤ 8 then some (11 + v) else none)
  | _, _ => none

/-- R118: the value of a parameter. -/
def Params.get (p : Params) (i : Nat) : Nat :=
  match i with
  | 0 => p.p0
  | 1 => p.p1
  | 2 => p.p2
  | _ => p.p3

/-- R122: the names of a set of options in ascending order, AND before the last. -/
def joinNames (names : List Nat) : List Nat :=
  match names.getLast? with
  | none => []
  | some l => if names.length = 1 then [l] else names.dropLast ++ [107, l]

/-- R124: the machine list. -/
def machinesClips : List Nat → List Nat
  | [] => []
  | [a] => 108 :: numberClips a
  | [a, b] => 108 :: numberClips a ++ 107 :: numberClips b
  | a :: b :: c :: _ => 108 :: numberClips a ++ numberClips b ++ 107 :: numberClips c

/-- R116: what a composition has read besides the language block: the machine number, the program table, the
option names and the code phrases. -/
structure Readings where
  machine : Nat
  table   : ProgramTable
  names   : List Nat
  phrases : List Nat

/-- R122: a program of the table. The generic program has no name clip. -/
def programClips (t : ProgramTable) (v : Nat) : List Nat :=
  if v < t.count then
    match (t.program v).name with
    | some id => [id]
    | none => 111 :: numberClips (v + 1)
  else 111 :: numberClips (v + 1)

/-- R122: an option, or a set of options. -/
def optionClips (names : List Nat) (c : PromptClass) (v : Nat) : List Nat :=
  if c = .optionState then
    if 1 ≤ v ∧ v ≤ 8 then (names[v - 1]?).toList else []
  else joinNames ((optionsIn (BitVec.ofNat 8 v)).filterMap fun n => names[n - 1]?)

/-- Clips that have no substitute. -/
def plain (ids : List Nat) : List Candidate := ids.map fun id => .clip [id]

/-- R118 to R124: the candidates of one template item on the composer's copy. -/
def expand (r : Readings) (it : Item) : TemplateItem → List Candidate
  | .done => []
  | .clip id => plain [id]
  | .ownNumber => plain (numberClips r.machine)
  | .number p =>
    match codedPosition it.cls p (it.params.get p) with
    | none => plain (numberClips (it.params.get p))
    | some none => []
    | some (some k) => plain (r.phrases[k]?).toList
  | .digits p => plain (digitClips (it.params.get p))
  | .minutes p => plain (minutesClips (it.params.get p))
  | .program p => plain (programClips r.table (it.params.get p))
  | .option p => plain (optionClips r.names it.cls (it.params.get p))
  | .phase p => if it.params.get p ≤ 7 then plain [113 + it.params.get p] else []
  | .action p =>
    let v := it.params.get p
    if 1 ≤ v ∧ v ≤ 15 then [.clip [120 + v, 112]] else [.clip [112]]
  | .machines =>
    match it.machines with
    | some m => plain (machinesClips m.machines)
    | none => []
  | .pause n => if n = 0 then [] else [.pause n]

/-! ## Length (R127 to R129) -/

/-- The length of an entry. -/
def Entry.len : Entry → Nat
  | .clip _ _ l => l
  | .pause l => l

/-- The entry is a clip. -/
def Entry.isClip : Entry → Bool
  | .clip _ _ _ => true
  | .pause _ => false

/-- R127: the length of a ROOM opening in clip units. -/
def openingUnits : Reach → Nat
  | .room => 60
  | .loc => 0

/-- R127: U. -/
def utteranceUnits (reach : Reach) (gap : Nat) (es : List Entry) : Nat :=
  (es.map Entry.len).sum + gap * (es.length - 1) + openingUnits reach

/-- R128: the longest beginning of the entries, of at most `n`, whose length is within the limit. -/
def trim (reach : Reach) (gap : Nat) (es : List Entry) : Nat → List Entry
  | 0 => []
  | n + 1 =>
    if utteranceUnits reach gap (es.take (n + 1)) ≤ Config.maxUtterance then es.take (n + 1)
    else trim reach gap es n

/-- R129: the floor units of a length. -/
def floorUnits (u : Nat) : Nat := ceilDiv u 10

/-- R128, R130: the result of a composition: an utterance, or EMPTY. -/
def Work.result (w : Work) (es : List Entry) : Option Utterance :=
  let kept := trim w.reach w.gap es es.length
  let u := utteranceUnits w.reach w.gap kept
  if kept.any Entry.isClip then
    some { cls := w.item.cls, level := w.level, reach := w.reach, lang := w.lang, gap := w.gap,
           entries := kept, units := u, floor := floorUnits u }
  else none

/-- R129: an utterance lowered from ROOM to LOCAL: its entries stand, U loses the opening, F follows. -/
def Utterance.lower (u : Utterance) : Utterance :=
  match u.reach with
  | .loc => u
  | .room => { u with reach := .loc, units := u.units - 60, floor := floorUnits (u.units - 60) }

/-! ## The reads (R116, R125, R126, R192) -/

/-- R125, R192: clip `id` has a directory entry that can be read. -/
def Work.readable (w : Work) (id : Nat) : Bool :=
  decide (id < w.dirCount) && decide (w.dirAddr + 5 * id + 5 ≤ Config.storeSize)

/-- R125, R126: the candidates judged up to the next directory entry that must be read. A clip without an
entry is bad, and omitted unless it has a substitute; with 32 entries held the rest is dropped. -/
def Work.scan (w : Work) : List Candidate → List Entry → Work
  | [], es => { w with entries := es, stage := .finished (w.result es) }
  | .pause n :: rest, es =>
    if Config.entryCapacity ≤ es.length then { w with entries := es, stage := .finished (w.result es) }
    else w.scan rest (es ++ [.pause n])
  | .clip ids :: rest, es =>
    if Config.entryCapacity ≤ es.length then { w with entries := es, stage := .finished (w.result es) }
    else
      match ids.dropWhile fun id => !w.readable id with
      | [] => w.scan rest es
      | id :: more => { w with entries := es, stage := .entry id more rest }

/-- R116: the read that a composition waits for, asked of the port. Each directory entry is read by itself, 5 bytes,
when its clip's turn comes (DESIGN CHOICE, log 29). -/
def cpAsk (w : Work) (s : State) : State :=
  let s := { s with cp := { s.cp with work := some w } }
  match w.stage with
  | .entry id _ _ => { s with psp := s.psp.askComposer { addr := w.dirAddr + 5 * id, size := 5 } s.now }
  | .template | .finished _ => s

/-- R116: what a composition that began with the partner's machine kind `k` reads of the cache, which
stays as it is while the part runs (R183). -/
def PhraseStore.readings (psp : PhraseStore) (k : MachineKind) : Readings :=
  { machine := psp.machine, table := psp.tableFor k,
    names := (psp.tables.map Tables.optionNames).getD [],
    phrases := (psp.tables.map Tables.phrases).getD [] }

/-- R117: the composer's copy of an item, with the roster answers and the nominal minutes written in. -/
def cpCopy (it : Item) (s : State) : Item :=
  match it.cls with
  | .freeMachines =>
    let sel := complement s.pm.record.kind
    let l := freeList sel s.roster
    { it with params := { p0 := l.count, p1 := minutesParam (soonest sel s.roster), p2 := 0, p3 := 0 },
              machines := some l }
  | .roomSummary =>
    { it with
      params :=
        { p0 := (freeList (some .washer) s.roster).count,
          p1 := minutesParam (soonest (some .washer) s.roster),
          p2 := (freeList (some .dryer) s.roster).count,
          p3 := minutesParam (soonest (some .dryer) s.roster) },
      machines := none }
  | .confirmSummary =>
    let p := it.params.p0
    { it with
      params := { it.params with p2 := if p < s.table.count then (s.table.program p).minutes else 1023 } }
  | _ => it

/-- R114, R117: the index of the template of the composer's copy. -/
def templateIndex (copy : Item) : Nat :=
  match copy.cls with
  | .freeMachines => if copy.params.p0 = 0 then 28 else rank .freeMachines
  | c => rank c

/-- R192: the bytes of a template that can be read. They are read whole in one read of at most 32 bytes, the ones
after END with them (DESIGN CHOICE, log 29). -/
def templateSize (addr : Nat) : Nat := min 32 (Config.storeSize - addr)

/-- R116: a composition begins: the readings are taken and the template's one read is asked (DESIGN CHOICE, log 29:
the spec bounds a read by 32 bytes and does not divide the composer's reads). A template that lies wholly
past the address space counts as END (R192). -/
def cpBegin (it : Item) (reach : Reach) (s : State) : State :=
  let copy := cpCopy it s
  let b := ((s.psp.langs.getD s.cp.currentLang none).getD
    { gap := 0, dirCount := 0, dirAddr := 0, tmplAddr := Config.storeSize })
  let addr := b.tmplAddr + 32 * templateIndex copy
  let w : Work :=
    { item := copy, level := classLevel it.cls, reach := reach, kind := s.pm.record.kind,
      lang := s.cp.currentLang, gap := b.gap,
      dirCount := b.dirCount, dirAddr := b.dirAddr, entries := [], stage := .template }
  if templateSize addr = 0 then
    { s with cp := { s.cp with work := some { w with stage := .finished none } } }
  else
    { s with
      cp := { s.cp with work := some w }
      psp := s.psp.askComposer { addr := addr, size := templateSize addr } s.now }

/-- R125: the clip of a directory entry, if it is good. -/
def goodClip (id : Nat) (data : List Byte) : Option Entry :=
  let e := dirEntryOf data
  if 1 ≤ e.2 ∧ e.2 ≤ 2000 then some (.clip id e.1 e.2) else none

/-- R116, R118, R125: the composition takes the bytes of the read that ended. -/
def Work.take (w : Work) (r : Readings) (size : Nat) (data : List Byte) : Work :=
  match w.stage with
  | .template => w.scan ((templateOf data size).flatMap (expand r w.item)) []
  | .entry id more rest =>
    match goodClip id data with
    | some e => w.scan rest (w.entries ++ [e])
    | none => w.scan (.clip more :: rest) w.entries
  | .finished _ => w

/-! ## Languages (R114, R115) -/

/-- R114: the languages present in the cache. -/
def PhraseStore.present (psp : PhraseStore) (k : Nat) : Bool := (psp.langs.getD k none).isSome

/-- R114: the default language: the strapped one if present, otherwise the lowest present. -/
def PhraseStore.defaultLang (psp : PhraseStore) : Nat :=
  if psp.present psp.strapLang then psp.strapLang
  else ((List.range 4).find? psp.present).getD psp.strapLang

/-- R115: the next present language in ascending number, from the highest round to the lowest. -/
def PhraseStore.nextLang (psp : PhraseStore) (k : Nat) : Nat :=
  (([k + 1, k + 2, k + 3].map (· % 4)).find? psp.present).getD k

end Sys2Proof.Machine
end

