-- ==== Sys2Proof/Machine/Queue.lean ====
section
/-! DEFINITION. The prompt queue's dealings with an item that is current or that leaves (chapter 6,
sections 4 to 6): the series, the last-completed record, the return of an item. These change the
prompt queue alone; the triggers, which reach the floor controller, stand in `Triggers.lean`. -/

namespace Sys2Proof.Machine

/-! ## Series (R103 to R109) -/

/-- R103: a series started as though its class had been said once at `arrival`. -/
def startSeries (key : CondKey) (arrival : Time) (pq : PromptQueue) : PromptQueue :=
  let begun (r : Series) : SeriesState := { timer := some (arrival + seriesInterval r), count := 1 }
  match key with
  | .payment => { pq with payment := begun .payment }
  | .action => { pq with actionFirst := begun .actionFirst, actionSecond := .stopped }
  | .fault => { pq with fault := begun .fault }
  | .done => { pq with unload := begun .unload, doneSince := some arrival }
  | _ => pq

/-- R108: every series on a condition that ends is stopped at count 0. -/
def stopSeries (key : CondKey) (pq : PromptQueue) : PromptQueue :=
  match key with
  | .payment => { pq with payment := .stopped }
  | .action => { pq with actionFirst := .stopped, actionSecond := .stopped }
  | .fault => { pq with fault := .stopped }
  | .done => { pq with unload := .stopped, doneSince := none }
  | _ => pq

/-- R138, R150: a change of this moment from `before` to `after` is taken back: each series stands as before it, but
for one that has changed again since (R106 to R108). -/
def PromptQueue.undoSeries (before after pq : PromptQueue) : PromptQueue :=
  let back (r : Series) : SeriesState :=
    if pq.series r = after.series r then before.series r else pq.series r
  { pq with
    fault := back .fault, actionFirst := back .actionFirst, actionSecond := back .actionSecond,
    payment := back .payment, unload := back .unload }

/-- R104, R105: a SAID of a class whose condition holds advances its series, unless the series rests. The
third saying of the first ACTION stage begins the second. -/
def advanceSeries (c : PromptClass) (now : Time) (pq : PromptQueue) : PromptQueue :=
  match seriesOf c with
  | some r =>
    let x := pq.series r
    if seriesLimit r ≤ x.count then pq
    else if x.count + 1 < seriesLimit r then
      pq.setSeries r { timer := some (now + seriesInterval r), count := x.count + 1 }
    else
      let pq := pq.setSeries r { timer := none, count := x.count + 1 }
      if r = .actionFirst then
        { pq with actionSecond := { timer := some (now + seriesInterval .actionSecond), count := 0 } }
      else pq
  | none =>
    if c = .cycleDone ∧ pq.unload.count = 0 ∧ pq.unload.timer = none then
      { pq with unload := { timer := some (now + seriesInterval .unload), count := 0 } }
    else pq

/-- R104: the SAID report's part of it, with its condition tested. -/
def saidSeries (c : PromptClass) (s : State) : State :=
  if s.holds (classKey c) then { s with pq := advanceSeries c s.now s.pq } else s

/-- R109: the series an item that leaves unsaid would start again: its own, or UNLOAD for a CYCLE_DONE that
finds UNLOAD at count 0. -/
def retrySeries (c : PromptClass) (pq : PromptQueue) : Option Series :=
  match seriesOf c with
  | some r => if (pq.series r).count < seriesLimit r then some r else none
  | none => if c = .cycleDone ∧ pq.unload.count = 0 then some .unload else none

/-- R109: an item leaves without being said. When its condition still holds, no item of its class is queued
or current, and its series is stopped below its limit, the timer runs one interval. -/
def leaveUnsaid (c : PromptClass) (s : State) : State :=
  match retrySeries c s.pq with
  | some r =>
    let x := s.pq.series r
    if s.holds (classKey c) && !s.pq.queued c && !s.pq.isCurrent c && x.timer.isNone then
      { s with pq := s.pq.setSeries r { x with timer := some (s.now + seriesInterval r) } }
    else s
  | none => s

/-! ## Placing and returning (R95, R100) -/

/-- R95: an item placed by the capacity rule; `true` when it stands in the queue. R109 applies to the one
that leaves for it. -/
def placeNew (it : Item) (s : State) : State × Bool :=
  let r := placeItem it s.pq.items
  let s := { s with pq := { s.pq with items := r.1 } }
  match r.2 with
  | some gone => (leaveUnsaid gone.cls s, s.pq.queued it.cls)
  | none => (s, true)

/-- R110: a reach as HUSH leaves it: ROUTINE items take LOCAL. -/
def State.hushed (s : State) (c : PromptClass) (r : Reach) : Reach :=
  if s.pq.hush && classLevel c == .routine then .loc else r

/-- R100, R110: an item given back to the queue. Its notice changes nothing in the floor controller, which
looks at the head itself in every state that gives an item back (log 9). -/
def returnItem (it : Item) (s : State) : State :=
  let it := { it with machines := none, reach := s.hushed it.cls it.reach }
  if it.expired s.now || s.pq.queued it.cls then leaveUnsaid it.cls s
  else (placeNew it s).1

/-- R110, R138, R150: an item that left the queue in this moment, by an event that is taken back, is in it again, at
the reach that HUSH leaves it, unless its class is queued by now. One that a withdrawal of the moment has met is no
longer noted (R99, `Floor.strike`). -/
def putBack (s : State) (it : Item) : State :=
  if s.pq.queued it.cls then s else (placeNew { it with reach := s.hushed it.cls it.reach } s).1

/-- R99, R107, R108: a withdrawal meets the items that have left the queue in this moment as it does those in it, so
that none of them is put back. Its series has been stopped or begun anew since, and what that item's leaving did
to it is taken back no more. -/
def Floor.strike (means : PromptClass → CondKey → Bool) (fc : Floor) : Floor :=
  let met (it : Option Item) : Bool := it.any fun q => means q.cls q.key
  { fc with
    spacingOver := fc.spacingOver.map fun o =>
      { o with said := o.said.map fun x => if met x.item then { x with item := none, after := x.before } else x }
    swapped := fc.swapped.map fun w => if met w.gone then { w with gone := none, after := w.before } else w }

/-! ## The end of a current item (R101) -/

/-- R101: the end of the current item reported. After it there is no current item. An item marked superseded
or withdrawn that is DROPPED changes no series (R109). -/
def endItem (e : ItemEnd) (s : State) : State :=
  match s.fc.item with
  | none => s
  | some it =>
    let marked := s.pq.marked
    let s := { s with pq := { s.pq with current := none }, fc := { s.fc with item := none } }
    match e with
    | .said =>
      saidSeries it.cls
        { s with pq := { s.pq with last := some { cls := it.cls, params := it.params, reach := it.reach } } }
    | .returned => returnItem it s
    | .dropped => if marked then s else leaveUnsaid it.cls s

/-- R97: the head of the queue becomes the current item. -/
def takeItem (it : Item) (rest : List Item) (s : State) : State :=
  { s with
    pq := { s.pq with
            items := rest
            current := some { cls := it.cls, key := it.key, superseded := false, withdrawn := false } }
    fc := { s.fc with item := some it } }

end Sys2Proof.Machine
end

