-- ==== Sys2Proof/Machine/Voice.lean ====
section
/-! DEFINITION. The voice player (chapter 9): the segments of a sound, the stream buffer and its refills,
cuts and fades, tones, the amplifier enable, and the value of one sample period. -/

namespace Sys2Proof.Machine

/-! ## Segments (R157, R158) -/

/-- A piece of a sound. The chime is one piece of two tones (R159 cuts it as one clip). -/
inductive Seg where
  | chime
  | alarmTone
  | silence
  | clip (entry addr len : Nat)
  deriving DecidableEq, Repr

/-- The segment of entry `i`, with its length in samples. -/
def entrySeg (i : Nat) : Entry → Seg × Nat
  | .clip _ addr len => (.clip i addr len, samplesPerUnit * len)
  | .pause len => (.silence, samplesPerUnit * len)

/-- R158: the entries from number `i` on, with a gap of `gap` clip units between adjacent ones. -/
def entrySegs (gap : Nat) : Nat → List Entry → List (Seg × Nat)
  | _, [] => []
  | i, [e] => [entrySeg i e]
  | i, e :: f :: rest => entrySeg i e :: (.silence, samplesPerUnit * gap) :: entrySegs gap (i + 1) (f :: rest)

/-- R158: the opening of a ROOM utterance, 400 ms of chime and 200 ms of silence. -/
def openingSegs : Reach → List (Seg × Nat)
  | .room => [(.chime, 3200), (.silence, 1600)]
  | .loc => []

/-- R157, R158, R163: a sound as its segments. -/
def Sound.segs : Sound → List (Seg × Nat)
  | .utterance u => openingSegs u.reach ++ entrySegs u.gap 0 u.entries
  | .chime => [(.chime, 3200)]
  | .alarm => [(.alarmTone, 2400), (.silence, 1600), (.alarmTone, 2400), (.silence, 1600), (.alarmTone, 2400)]

/-- The length of a list of segments, in samples. -/
def segsLength (segs : List (Seg × Nat)) : Nat := (segs.map Prod.snd).sum

/-- The segment that holds sample `k`, the offset of `k` in it, and the sample at which it ends; `base` is
the sample at which the list begins. -/
def locate : List (Seg × Nat) → Nat → Nat → Option (Seg × Nat × Nat)
  | [], _, _ => none
  | (g, n) :: rest, base, k => if k < base + n then some (g, k - base, base + n) else locate rest (base + n) k

/-- The moment a stream sound is whole: its start plus its length (R158). -/
def Stream.wholeAt (st : Stream) : Time := st.start + segsLength st.sound.segs * samplePeriod

/-- R158: the sound is a tones-only rendering. -/
def Sound.rendering : Sound → Bool
  | .utterance _ => false
  | .chime | .alarm => true

/-! ## Values (R153, R154, R157) -/

/-- R157: sample `n` of a square wave of frequency `f`. -/
def square (f n : Nat) : Int := if n * f % 8000 < 4000 then 96 else -96

/-- R157: sample `n` of the chime. -/
def chimeSample (n : Nat) : Int := if n < 1600 then square 660 n else square 440 (n - 1600)

/-- R154: the gain step, truncated toward zero. -/
def applyGain (v : Int) (step : Nat) : Int := (v * step).tdiv 15

/-- R159: sample `k` of a fade of 160. -/
def applyFade (v : Int) (k : Nat) : Int := (v * (160 - k : Nat)).tdiv 160

/-- R153: the sum of the channels, clamped. -/
def clampSample (v : Int) : Int := max (-128) (min 127 v)

/-- R153: the high part of a carrier period, in 256ths, at an output value. -/
def pwmDuty (v : Int) : Int := v + 128

/-! ## The buffer (R155, R156) -/

/-- Places in playing order. -/
def SamplePlace.before (p q : SamplePlace) : Bool :=
  decide (p.entry < q.entry) || (p.entry == q.entry && decide (p.offset < q.offset))

/-- R155: the entries of the sound the stream channel plays. -/
def Stream.entries (st : Stream) : List Entry :=
  match st.sound with
  | .utterance u => u.entries
  | .chime | .alarm => []

/-- R155: the first sample of the first clip entry at or after entry `i`, past any pauses. -/
def nextClip (i : Nat) : List Entry → Option SamplePlace
  | [] => none
  | .clip _ _ _ :: _ => some { entry := i, offset := 0 }
  | .pause _ :: rest => nextClip (i + 1) rest

/-- R155: the place after the samples up to `offset` of entry `i`, whose clip has `len` units: in the same
clip, or the first sample of the next one. -/
def placeAfter (entries : List Entry) (i offset len : Nat) : Option SamplePlace :=
  if offset < samplesPerUnit * len then some { entry := i, offset := offset }
  else nextClip (i + 1) (entries.drop (i + 1))

/-- R155, R192: the refill the VP asks from a fetch place, with the fetch place that follows. It ends with
its clip, and at the end of the address space; the samples beyond that are never asked for. -/
def refillAt (entries : List Entry) (p : SamplePlace) : Option (ReadReq × Refill × Option SamplePlace) :=
  match entries[p.entry]? with
  | some (.clip _ addr len) =>
    let want := min Config.refillSize (samplesPerUnit * len - p.offset)
    let size := min want (Config.storeSize - (addr + p.offset))
    let next :=
      if size < want then nextClip (p.entry + 1) (entries.drop (p.entry + 1))
      else placeAfter entries p.entry (p.offset + size) len
    if size = 0 then none
    else some ({ addr := addr + p.offset, size := size }, { first := p, size := size, arrived := 0, discard := false }, next)
  | _ => none

/-- R155, R192: the fetch place from which a refill can be asked: past the rest of a clip that lies beyond
the address space. -/
def fetchFrom (entries : List Entry) (p : SamplePlace) : Option SamplePlace :=
  match refillAt entries p with
  | some _ => some p
  | none => nextClip (p.entry + 1) (entries.drop (p.entry + 1))

/-- R155: a refill asked, while clip data remains, none is outstanding and the buffer has room. -/
def vpRefill (s : State) : State :=
  match s.vp.stream, s.vp.fetch, s.vp.refill with
  | some st, some p, none =>
    if s.vp.buffer.length + Config.refillSize ≤ Config.bufferCapacity then
      match (fetchFrom st.entries p).bind (refillAt st.entries) with
      | some (req, r, next) =>
        { s with
          psp := s.psp.askRefill req s.now
          vp := { s.vp with refill := some r, fetch := next } }
      | none => { s with vp := { s.vp with fetch := none } }
    else s
  | _, _, _ => s

/-- R155, R180: the samples of a refill that come after those that have arrived, up to the `k`-th, with the bytes read
for them. A byte that is missing reads FFh (log 4). -/
def refillSamples (r : Refill) (bytes : List Byte) (k : Nat) : List Sample :=
  (List.range (min r.size k - r.arrived)).map fun j =>
    { place := { entry := r.first.entry, offset := r.first.offset + r.arrived + j }, value := bytes.getD j 0xFF#8 }

/-- R155, R180: how many samples of a refill have come to the buffer by now: one for each whole byte of its
transaction past the command and the address. -/
def State.arrivals (s : State) : Nat :=
  match s.psp.port with
  | .reading .refill q ends _ => min q.size ((s.now - (ends - readTime q.size)) / portByte - 4)
  | _ => 0

/-- R155, R156: the samples of a refill up to the `k`-th join the buffer as they arrive, but for those whose
sound is over or whose place has passed. -/
def VoicePlayer.receive (vp : VoicePlayer) (bytes : List Byte) (k : Nat) : VoicePlayer :=
  match vp.refill with
  | some r =>
    let fresh := if r.discard then []
      else (refillSamples r bytes k).filter fun x => !x.place.before vp.playPos
    { vp with refill := some { r with arrived := max r.arrived k }, buffer := vp.buffer ++ fresh }
  | none => vp

/-- R155: the refill has ended, and the samples that had not yet joined the buffer do so. -/
def vpTakeRefill (data : List Byte) (s : State) : State :=
  match s.vp.refill with
  | some r => { s with vp := { s.vp.receive data r.size with refill := none } }
  | none => s

/-! ## Sounds begin and end (R158, R161 to R164) -/

/-- R164: a sound begins: AMP_EN goes high and the release timer stops. -/
def VoicePlayer.ampOn (vp : VoicePlayer) : VoicePlayer := { vp with ampEn := true, ampRelease := none }

/-- R164: when both channels have stopped sounding the release timer starts. -/
def VoicePlayer.ampIdle (vp : VoicePlayer) (now : Time) : VoicePlayer :=
  if vp.stream.isNone && vp.tone.isNone then { vp with ampRelease := some (now + ampTime) } else vp

/-- R161: a stream sound ends a click that is still sounding. -/
def VoicePlayer.endClick (vp : VoicePlayer) : VoicePlayer :=
  match vp.tone with
  | some t => if t.kind = .click then { vp with tone := none } else vp
  | none => vp

/-- R154: the gain of a reach. -/
def State.gainOf (s : State) : Reach → Nat
  | .loc => s.psp.profile.localGain
  | .room => s.psp.profile.roomGain

/-- R158, R160: a play order. The buffer is empty and the fetch place is the first clip sample (R155). -/
def vpPlay (u : Utterance) (start : Time) (s : State) : State :=
  let st : Stream :=
    { sound := .utterance u, gain := s.gainOf u.reach, start := start, early := none,
      hardStop := some (start + u.floor * floorUnit + hardStopGrace) }
  vpRefill
    { s with
      vp :=
        { s.vp.endClick.ampOn with
          stream := some st, buffer := [], fetch := nextClip 0 u.entries,
          playPos := { entry := 0, offset := 0 } } }

/-- R163: a rendering order, at the ROOM gain, begun as it is taken. -/
def vpRender (sound : Sound) (s : State) : State :=
  { s with
    vp :=
      { s.vp.endClick.ampOn with
        stream := some { sound := sound, gain := s.gainOf .room, start := s.now, early := none,
                         hardStop := none },
        buffer := [], fetch := none, playPos := { entry := 0, offset := 0 } } }

/-- R155, R158, R164: the stream channel stops sounding. -/
def vpStop (s : State) : State :=
  let vp : VoicePlayer :=
    { s.vp with
      stream := none, buffer := [], fetch := none,
      refill := s.vp.refill.map fun r => { r with discard := true } }
  { s with vp := vp.ampIdle s.now }

/-- The sample of the sound at `now` that a cut order judges. At the very moment of a boundary the segment
is the one before it, until the sample period that begins there has been taken (R159). -/
def Stream.judged (st : Stream) (now : Time) (period : Option Time) : Nat :=
  let e := now - st.start
  if 0 < e ∧ e % samplePeriod = 0 ∧ period ≠ some now then e / samplePeriod - 1 else e / samplePeriod

/-- R159, R163: a cut order. A cut whose point is the end of the last entry is no early end, and a cut that
finds nothing to cut is dropped. A rendering cut at the very moment of its end makes no fade either, and
is reported whole: R159 speaks of an utterance's last entry (DESIGN CHOICE, log 22). -/
def vpCut (s : State) : State :=
  match s.vp.stream with
  | none => s
  | some st =>
    match st.early, locate st.sound.segs 0 (st.judged s.now s.vp.periodStart) with
    | none, some (seg, _, e) =>
      let segEnd := st.start + e * samplePeriod
      let point :=
        if st.sound.rendering || seg == .silence then s.now else min segEnd (s.now + cutBound)
      if point < st.wholeAt then
        { s with
          vp := { s.vp with
                  stream := some { st with early := some { point := point, segEnd := segEnd, hard := false } } } }
      else s
    | _, _ => s

/-- R160: the fade that the hard stop begins at the moment. -/
def vpHardFade (s : State) : State :=
  match s.vp.stream with
  | none => s
  | some st =>
    let segEnd :=
      match locate st.sound.segs 0 ((s.now - st.start) / samplePeriod) with
      | some (_, _, e) => st.start + e * samplePeriod
      | none => s.now
    { s with
      vp := { s.vp with
              stream := some { st with early := some { point := s.now, segEnd := segEnd, hard := true } } } }

/-- R161: a key click asked. -/
def vpClick (s : State) : State :=
  let buzzing : Bool :=
    match s.vp.tone with
    | some t => t.kind == .buzz
    | none => false
  if s.vp.stream.isSome || buzzing then s
  else
    { s with
      vp := { s.vp.ampOn with tone := some { kind := .click, gain := s.gainOf .loc, start := s.now } } }

/-- R162: the error buzz asked. -/
def vpBuzz (s : State) : State :=
  { s with vp := { s.vp.ampOn with tone := some { kind := .buzz, gain := s.gainOf .loc, start := s.now } } }

/-- R157: the length of a tone sound in samples. -/
def toneSamples : ToneKind → Nat
  | .click => 40
  | .buzz => 1200

/-- R157: a tone sound's frequency. -/
def toneFreq : ToneKind → Nat
  | .click => 2000
  | .buzz => 200

/-- R164: the moment a tone sound ends. -/
def Tone.ends (t : Tone) : Time := t.start + toneSamples t.kind * samplePeriod

/-! ## One sample period (R153 to R160) -/

/-- The tone channel's contribution in the period that begins at `now`. -/
def toneValue (vp : VoicePlayer) (now : Time) : Int :=
  match vp.tone with
  | some t =>
    let k := (now - t.start) / samplePeriod
    if k < toneSamples t.kind then applyGain (square (toneFreq t.kind) k) t.gain else 0
  | none => 0

/-- R156: the clip sample of place `p`, taken from the head of the buffer after the samples whose place has passed are
removed. An underrun gives 0. A fetch place that has not gone past `p` moves on to the next sample still to
come. -/
def takeSample (entries : List Entry) (p : SamplePlace) (len : Nat) (vp : VoicePlayer) : VoicePlayer × Int :=
  let rest := vp.buffer.dropWhile fun x => x.place.before p
  let past : VoicePlayer :=
    { vp with
      playPos := { entry := p.entry, offset := p.offset + 1 }
      fetch := vp.fetch.bind fun f =>
        if p.before f then some f else placeAfter entries p.entry (p.offset + 1) len }
  match rest with
  | x :: xs => if x.place = p then ({ past with buffer := xs }, x.value.toInt) else ({ past with buffer := rest }, 0)
  | [] => ({ past with buffer := [] }, 0)

/-- The value of a segment's sample before the gain, with what taking it does to the buffer. -/
def segValue (st : Stream) (seg : Seg) (off : Nat) (vp : VoicePlayer) : VoicePlayer × Int :=
  match seg with
  | .chime => (vp, chimeSample off)
  | .alarmTone => (vp, square 880 off)
  | .silence => (vp, 0)
  | .clip i _ len => takeSample st.entries { entry := i, offset := off } len vp

/-- R153 to R160: the stream channel's contribution in the period that begins at `now`. Within an early
end the segment sounding at the order goes on into the fade, and no other begins. -/
def streamValue (vp : VoicePlayer) (now : Time) : VoicePlayer × Int :=
  match vp.stream with
  | none => (vp, 0)
  | some st =>
    if due st.hardStop now then (vp, 0)
    else
      let k := (now - st.start) / samplePeriod
      match locate st.sound.segs 0 k with
      | none => (vp, 0)
      | some (seg, off, _) =>
        match st.early with
        | none =>
          let r := segValue st seg off vp
          (r.1, applyGain r.2 st.gain)
        | some e =>
          if now < e.point then
            let r := segValue st seg off vp
            (r.1, applyGain r.2 st.gain)
          else if now < e.segEnd then
            let r := segValue st seg off vp
            (r.1, applyFade (applyGain r.2 st.gain) ((now - e.point) / samplePeriod))
          else (vp, 0)

/-- R153: a new sample period begins at `now`: none has been taken, or the last is over. -/
def VoicePlayer.newPeriod (vp : VoicePlayer) (now : Time) : Bool :=
  match vp.periodStart with
  | some p => decide (p + samplePeriod ≤ now)
  | none => true

/-- R153, R155: one sample period: the samples that have arrived join the buffer, the value is formed and
presented, and a refill is asked if there is room. -/
def vpSample (bytes : List Byte) (s : State) : State :=
  let vp := s.vp.receive bytes s.arrivals
  let r := streamValue vp s.now
  vpRefill
    { s with
      vp := { r.1 with aout := clampSample (r.2 + toneValue vp s.now), periodStart := some s.now } }

end Sys2Proof.Machine
end

