-- ==== Sys2Proof/Machine/Floor.lean ====
section
/-! DEFINITION. The floor controller (chapter 8): taking the head, waiting, claiming, contesting, speaking,
ending and spacing, and what it does on each event that reaches it. -/

namespace Sys2Proof.Machine

/-! ## Taking the head (R137, R151) -/

/-- R137: the reach at which an item is to be heard. -/
def State.fixedReach (s : State) (it : Item) : Reach :=
  match s.lp.mode with
  | .solo => .loc
  | .normal => it.reach

/-- R151: the current item, which is ROUTINE and to be heard at LOCAL reach, ends SAID without a sound. In the moment
the spacing ran out it is noted for an URGENT notice of that moment (R150, log 24). -/
def fcUnheard (s : State) : State :=
  let u := endItem .said s
  let note (o : SpacingOver) : SpacingOver :=
    if o.moment = s.now then
      { o with said := (s.fc.item.map fun it => { item := some it, before := s.pq, after := u.pq }).toList ++ o.said }
    else o
  { u with fc := { u.fc with spacingOver := u.fc.spacingOver.map note } }

/-- R137: in IDLE, with no current item, the FC takes the head: an expired one is DROPPED and the next one
taken; in speech mode the item is handed to the composer; in tones-only mode it is rendered by its
level and fixed reach (R151). `fuel` bounds the items it may pass over. -/
def fcTake : Nat → State → State
  | 0, s => s
  | fuel + 1, s =>
    if s.running && s.fc.state == .idle && s.fc.item.isNone then
      match s.pq.items with
      | [] => s
      | it :: rest =>
        let s := takeItem it rest s
        if it.expired s.now then fcTake fuel (endItem .dropped s)
        else if s.psp.tonesOnly then
          match classLevel it.cls, s.fixedReach it with
          | .routine, .loc => fcTake fuel (fcUnheard s)
          | .routine, .room => vpRender .chime { s with fc := { s.fc with state := .speaking } }
          | .urgent, _ => vpRender .alarm { s with fc := { s.fc with state := .speaking } }
        else cpBegin it (s.fixedReach it) s
    else s

/-- R137: the FC takes the head of the queue, if it may. -/
def takeHead (s : State) : State := fcTake (s.pq.items.length + 1) s

/-! ## Spacing and ending (R141, R149, R150) -/

/-- R150: SPACING entered; skipped when the head of the queue is URGENT, which is then taken at once, inside a
report too (DESIGN CHOICE, log 25). -/
def enterSpacing (s : State) : State :=
  let urgent : Bool :=
    match s.pq.items with
    | it :: _ => classLevel it.cls == .urgent
    | [] => false
  if urgent then takeHead { s with fc := { s.fc with state := .idle, spacing := none } }
  else { s with fc := { s.fc with state := .spacing, spacing := some (s.now + spacingTime) } }

/-- R141: a RELEASE queued. RELEASE_PENDING is set until its report, which an answer at once is. A CLAIM
still in the list is removed. -/
def fcRelease (s : State) : State :=
  let r := s.lp.queueRelease (buildFrame .release s.ownAddress [])
  { s with lp := r.1.remove .claim, fc := { s.fc with releasePending := r.2.isNone } }

/-- R149: ENDING entered. With RELEASE_PENDING already set no RELEASE is queued, and a re-asserted CLAIM that is
still in the list stays there: R146 has it removed by the RELEASE of ENDING, and here ENDING queues none
(DESIGN CHOICE, log 23). -/
def enterEnding (s : State) : State :=
  let s := { s with
    fc := { s.fc with state := .ending, utterance := none, playStart := none, contestEnd := none,
                      reasserted := [], cutOrder := none } }
  let s := if s.fc.releasePending then s else fcRelease s
  if !s.fc.releasePending || s.lp.mode == .solo then enterSpacing s else s

/-- R141: the current's claim is given up and the utterance kept. -/
def backToWaiting (s : State) : State :=
  { s with fc := { s.fc with state := .waiting, contestEnd := none } }

/-! ## Waiting (R139, R140, R144) -/

/-- R144: SPEAKING entered, with the play order. -/
def fcSpeak (u : Utterance) (start : Time) (s : State) : State :=
  vpPlay u start
    { s with fc := { s.fc with state := .speaking, playStart := some start, contestEnd := none,
                               cutOrder := none } }

/-- R139: the conditions for which an utterance waits. -/
def State.floorOpen (s : State) (l : Level) : Bool :=
  s.fc.viewBelow l && (l == .urgent || s.fc.crowded.isNone) && !s.lp.lineHeld &&
    (s.lp.mode == .solo || !s.fc.releasePending)

/-- R139, R190: the CLAIM of an utterance queued, which the FC then awaits. -/
def fcClaim (u : Utterance) (s : State) : State :=
  let frame := buildFrame .claim s.ownAddress (claimPayload u.level u.reach u.floor)
  let r := s.lp.queueClaim frame false
  if r.2 then { s with lp := r.1, fc := { s.fc with state := .claiming } } else s

/-- R139: in WAITING, the current lowered in SOLO, and the conditions tested. -/
def fcTest (s : State) : State :=
  match s.fc.state, s.fc.utterance with
  | .waiting, some u =>
    let u := if s.lp.mode = .solo then u.lower else u
    let s := { s with fc := { s.fc with utterance := some u } }
    if s.floorOpen u.level then
      match s.lp.mode with
      | .normal => fcClaim u s
      | .solo => fcSpeak u s.now s
    else s
  | _, _ => s

/-- R138, R140: what a mark of the same moment is to find of an item that gives way, from the states before and after
its return. An item whose class is queued is not returned (R100), and the mark finds nothing of it. -/
def swapOf (s u : State) : Option Swapped :=
  (s.fc.item.filter fun it => !s.pq.queued it.cls).map fun it =>
    { item := it, before := s.pq, after := u.pq, gone := s.pq.items.find? fun q => !u.pq.queued q.cls }

/-- R140: in WAITING, the current returned and the head taken in its place, without SPACING. Inside a report the
head is taken at once, before the report's later entries (DESIGN CHOICE, log 25). -/
def fcSwap (s : State) : State :=
  let u := endItem .returned { s with fc := { s.fc with state := .idle, utterance := none } }
  takeHead { u with fc := { u.fc with swapped := swapOf s u } }

/-- R140, R138: the current discarded without a sound, and the head taken: at once, where a mark inside a report
does it, before the report's later entries (DESIGN CHOICE, log 25). -/
def fcDiscard (s : State) : State :=
  takeHead (endItem .dropped { s with fc := { s.fc with state := .idle, utterance := none } })

/-- R140: the queue's head orders before the current item. -/
def State.headBefore (s : State) : Bool :=
  match s.pq.items, s.fc.item with
  | h :: _, some it => decide (h.rank < it.rank)
  | _, _ => false

/-! ## Speaking (R145 to R148) -/

/-- R148: a cut ordered, or the end of the one under way settled: a mark turns it into DROPPED, a second
cause to return changes nothing. -/
def orderCut (e : CutEnd) (s : State) : State :=
  match s.fc.cutOrder with
  | some _ => if e = .discard then { s with fc := { s.fc with cutOrder := some .discard } } else s
  | none => vpCut { s with fc := { s.fc with cutOrder := some e } }

/-- R146: the floor units of a re-assertion, from the remaining playback time. -/
def reassertUnits (u : Utterance) (playStart now : Time) : Nat :=
  max 1 (ceilDiv (playStart + u.units * clipUnit - now) floorUnit)

/-- R146: a re-assertion against a claimant. Whether the line port takes its CLAIM changes nothing. -/
def fcReassert (u : Utterance) (playStart : Time) (addr : Nat) (s : State) : State :=
  let frame := buildFrame .claim s.ownAddress
    (claimPayload u.level u.reach (reassertUnits u playStart s.now))
  { s with
    lp := (s.lp.queueClaim frame true).1
    fc := { s.fc with reasserted := putBy id addr s.fc.reasserted } }

/-- R145: in SPEAKING, a claim of another station that stands is judged. Not in tones-only mode (R151), and
not while a cut is ordered. -/
def fcJudge (addr : Nat) (level : Level) (s : State) : State :=
  match s.fc.state, s.fc.utterance, s.fc.playStart with
  | .speaking, some u, some start =>
    if s.fc.cutOrder.isSome then s
    else if precedes level addr u.level s.ownAddress then orderCut .giveBack s
    else if addr ∈ s.fc.reasserted then s
    else fcReassert u start addr s
  | _, _, _ => s

/-! ## Events that reach the floor controller -/

/-- R101, R149, R151: after an utterance ENDING follows; after a rendering, which made no claim, SPACING. -/
def fcAfterSound (s : State) : State :=
  if s.psp.tonesOnly then
    enterSpacing { s with fc := { s.fc with cutOrder := none, utterance := none, playStart := none } }
  else enterEnding s

/-- R138: the current utterance became current at this very moment. -/
def State.justComposed (s : State) : Bool := s.fc.composed == some s.now

/-- R138, R140: a mark in CLAIMING that comes in the moment of the composition's result finds the FC as if it
were WAITING still: the CLAIM, not yet begun, leaves the list, and the utterance is discarded. -/
def fcUnclaim (s : State) : State := fcDiscard { s with lp := s.lp.remove .claim }

/-- R138, R140: the same in SPEAKING, entered at once in SOLO: the sound that was to begin is stopped (log 24). -/
def fcUnspeak (s : State) : State :=
  fcDiscard (vpStop { s with fc := { s.fc with playStart := none } })

/-- R138, R140, R142, R143, R147, R151: the current item is marked superseded or withdrawn. -/
def fcMark (s : State) : State :=
  match s.fc.state with
  | .waiting => fcDiscard s
  | .claiming =>
    if s.justComposed && !s.lp.transmitting .claim then fcUnclaim s
    else enterEnding (endItem .dropped (fcRelease s))
  | .contest => enterEnding (endItem .dropped (fcRelease s))
  | .speaking =>
    if s.justComposed && s.fc.cutOrder.isNone && !s.psp.tonesOnly then fcUnspeak s else orderCut .discard s
  | .idle | .ending | .spacing => s

/-- R138, R150: an item taken in this moment is given back, as if it had not been taken: its composition is given
up with any cut of its rendering, and it goes back to the queue, or ends DROPPED where it has been marked. -/
def fcRetake (s : State) : State :=
  endItem (if s.pq.marked then .dropped else .returned)
    { s with
      fc := { s.fc with state := .idle, cutOrder := none }
      cp := { s.cp with work := none }
      psp := s.psp.unaskComposer s.now }

/-- R104, R111, R150: what a SAID of this moment did to the series and to the last-completed record is taken back. -/
def PromptQueue.unsay (pq : PromptQueue) (x : Said) : PromptQueue :=
  { x.before.undoSeries x.after pq with last := x.before.last }

/-- R150, R151: an URGENT notice in the moment the spacing ran out finds the floor controller as if nothing had been
taken in that moment: what ended SAID without a sound is in the queue again, the latest first, so that of two
items of one class the later stands (R96, R107). -/
def fcReopen (o : SpacingOver) (s : State) : State :=
  let s := { s with pq := o.said.foldl PromptQueue.unsay s.pq, fc := { s.fc with spacingOver := none } }
  (o.said.filterMap Said.item).foldl putBack (fcRetake s)

/-- R150: the spacing has run out in this very moment, and what was taken since is ROUTINE, if anything. -/
def State.spacingEnded (s : State) : Option SpacingOver :=
  let urgent : Bool :=
    match s.fc.item with
    | some it => classLevel it.cls == .urgent
    | none => false
  s.fc.spacingOver.filter fun o => o.moment == s.now && !urgent

/-- R138, R140: in this very moment a composition's result had an item give way to a head that orders before it, and
the item is one that a mark of this moment means. -/
def State.swappedNow (s : State) (means : Item → Bool) : Bool :=
  s.justComposed && s.fc.state == .idle && s.fc.swapped.any fun w => means w.item

/-- R138, R140: a mark in the moment of the composition's result ends its item DROPPED, though it gave way before the
mark to a head that orders before it: its return is taken back with what it did to a full queue, and the head is
in the queue again (log 24). -/
def fcUnswap (s : State) : State :=
  match s.fc.swapped with
  | some w =>
    let s := { s with
      pq := { w.before.undoSeries w.after s.pq with items := s.pq.items.filter fun q => q.cls != w.item.cls }
      fc := { s.fc with swapped := none } }
    w.gone.toList.foldl putBack (fcRetake s)
  | none => s

/-- R97, R137, R140, R142, R143, R147, R150, R151: a placement notice. In IDLE the FC takes the head after the
trigger, or the report, that gave the notice (`triggerAs`, `takeReport`); an URGENT notice in the very
moment the spacing ran out finds it as if nothing had been taken (R150). -/
def fcNotice (level : Level) (s : State) : State :=
  let outranked : Bool :=
    match s.fc.item with
    | some it => level == .urgent && classLevel it.cls == .routine
    | none => false
  let ended := if level = .urgent then s.spacingEnded else none
  match s.fc.state with
  | .idle =>
    match ended with
    | some o => fcReopen o s
    | none => s
  | .waiting => if s.headBefore then fcSwap s else s
  | .claiming | .contest => if outranked then enterEnding (endItem .returned (fcRelease s)) else s
  | .speaking =>
    if !s.psp.tonesOnly then if outranked then orderCut .giveBack s else s
    else
      match ended with
      | some o => fcReopen o (vpStop s)
      | none => s
  | .spacing => if level = .urgent then { s with fc := { s.fc with state := .idle, spacing := none } } else s
  | .ending => s

/-- R132, R134, R140, R142, R143: a CLAIM received. One that is not stored is judged at once in SPEAKING. -/
def fcClaimReceived (addr : Nat) (level : Level) (units : Nat) (arrival : Time) (s : State) : State :=
  let stored := s.fc.stores addr
  let s := { s with fc := s.fc.store addr level units arrival }
  let first : Bool :=
    match s.fc.utterance with
    | some u => precedes level addr u.level s.ownAddress
    | none => false
  match s.fc.state with
  | .waiting => fcTest s
  | .claiming | .contest => if first then fcTest (backToWaiting (fcRelease s)) else s
  | .speaking => if stored then s else fcJudge addr level s
  | .idle | .ending | .spacing => s

/-- R133, R140: a RELEASE received. -/
def fcReleaseReceived (addr : Nat) (s : State) : State := fcTest { s with fc := s.fc.forget addr }

/-- R141, R142: a report of a CLAIM, on which the FC acts only in CLAIMING and only for the CLAIM it awaits. The
window runs from the transmission end that SENT carries. -/
def fcClaimReport (r : Report) (s : State) : State :=
  if r.reassert || s.fc.state != .claiming then s
  else
    match r.fate with
    | .sent ended =>
      { s with fc := { s.fc with state := .contest, contestEnd := some (ended + contestTime) } }
    | .dropped | .cancelled => fcTest (backToWaiting s)

/-- R141, R149, R139: a report of a RELEASE. -/
def fcReleaseReport (s : State) : State :=
  let s := { s with fc := { s.fc with releasePending := false } }
  if s.fc.state = .ending then enterSpacing s else fcTest s

/-- R139, R149: LINE_HELD or the line mode has changed. -/
def fcLineChange (s : State) : State :=
  if s.fc.state = .ending ∧ s.lp.mode = .solo then enterSpacing s else fcTest s

/-- R147: CLASH latches while the station speaks. -/
def fcClash (s : State) : State := if s.fc.state = .speaking then orderCut .giveBack s else s

/-- R138: the composer hands its result. -/
def fcResult (result : Option Utterance) (s : State) : State :=
  let s := { s with cp := { s.cp with work := none } }
  let late : Bool :=
    match s.fc.item with
    | some it => s.pq.marked || it.expired s.now
    | none => true
  match result with
  | none => takeHead (endItem .dropped s)
  | some u =>
    if late then takeHead (endItem .dropped s)
    else
      let s := { s with fc := { s.fc with state := .waiting, utterance := some u, reasserted := [],
                                          composed := some s.now, swapped := none } }
      if s.headBefore then fcSwap s else fcTest s

end Sys2Proof.Machine
end

