-- ==== Sys2Proof/Machine/Triggers.lean ====
section
/-! DEFINITION. What makes prompts come and go: activity (chapter 10), triggers, withdrawals and condition
ends (chapter 6), and SELECTING as the attention unit and the prompt queue follow it. -/

namespace Sys2Proof.Machine

/-! ## Activity (R167, R168, R171) -/

/-- R168: the dim and dark timers run from now, where their stages are enabled. -/
def AttentionUnit.restart (au : AttentionUnit) (p : Profile) (now : Time) : AttentionUnit :=
  { au with dim := p.dim.map (now + ·), dark := p.dark.map (now + ·) }

/-- R168: activity of either kind puts the part in ACTIVE and restarts both timers. The AU takes none
before RUN (R167). -/
def activity (s : State) : State :=
  if s.running then { s with au := { s.au.restart s.psp.profile s.now with state := .active } } else s

/-- R171: the reprompt timer runs T_REPROMPT from now, with its count at 0. -/
def AttentionUnit.reminder (au : AttentionUnit) (p : Profile) (now : Time) : AttentionUnit :=
  { au with reprompt := p.reprompt.map (now + ·), count := 0 }

/-- R171: the reprompt timer is stopped, with its count at 0. -/
def AttentionUnit.noReminder (au : AttentionUnit) : AttentionUnit := { au with reprompt := none, count := 0 }

/-- R167, R171: primary activity, which also holds back a reminder while SELECTING holds. -/
def primaryActivity (s : State) : State :=
  let s := activity s
  if s.dc.state.selecting then { s with au := s.au.reminder s.psp.profile s.now } else s

/-! ## Triggers (R91 to R96, R110) -/

/-- No parameters (R91). -/
def Params.zero : Params := { p0 := 0, p1 := 0, p2 := 0, p3 := 0 }

/-- One parameter. -/
def Params.one (v : Nat) : Params := { Params.zero with p0 := v }

/-- Two parameters. -/
def Params.two (v w : Nat) : Params := { Params.zero with p0 := v, p1 := w }

/-- R95: the item a trigger makes. -/
def newItem (c : PromptClass) (p : Params) (reach : Reach) (now : Time) : Item :=
  { cls := c, params := p, machines := none, reach := reach, expiry := (lifetime c).map (now + ·),
    key := classKey c, enqueued := now }

/-- R96: an item of its class already queued is updated in its place. -/
def updateItem (it : Item) (items : List Item) : List Item :=
  items.map fun q => if q.cls = it.cls then it else q

/-- R96, R99: the current item marked superseded. -/
def PromptQueue.supersede (pq : PromptQueue) : PromptQueue :=
  { pq with current := pq.current.map fun m => { m with superseded := true } }

/-- R99: the current item marked withdrawn. -/
def PromptQueue.withdraw (pq : PromptQueue) : PromptQueue :=
  { pq with current := pq.current.map fun m => { m with withdrawn := true } }

/-- R96: a trigger of the class supersedes the current item: it is of the class and not yet superseded. -/
def PromptQueue.supersedes (pq : PromptQueue) (c : PromptClass) : Bool :=
  match pq.current with
  | some m => m.cls == c && !m.superseded
  | none => false

/-- R95 to R97: a trigger's placement. Its item is placed or updated, the current item of its class is superseded
if the trigger does that, and the floor controller has its mark and its notice. The mark goes first, so
that it can only meet the item that was current at the trigger (log 9). -/
def putTrigger (c : PromptClass) (p : Params) (reach : Reach) (supersede : Bool) (s : State) : State :=
  let it := newItem c p (s.hushed c reach) s.now
  let mark := supersede && s.pq.supersedes c
  if s.pq.queued c then
    let s := { s with pq := { s.pq with items := updateItem it s.pq.items } }
    if mark then fcMark { s with pq := s.pq.supersede } else s
  else
    let r := placeNew it s
    let s := if mark then fcMark { r.1 with pq := r.1.pq.supersede } else r.1
    if r.2 then fcNotice (classLevel c) s else s

/-- R138: an item that gave way in this very moment, as its composition's result was taken, is met by a mark that
means it as the current item would be: it ends DROPPED. -/
def meetSwapped (means : Item → Bool) (s : State) : State := if s.swappedNow means then fcUnswap s else s

/-- R95 to R97, R138: a trigger's placement, whose mark meets an item that gave way in this very moment too. -/
def placeTrigger (c : PromptClass) (p : Params) (reach : Reach) (supersede : Bool) (s : State) : State :=
  putTrigger c p reach supersede (meetSwapped (fun it => supersede && it.cls == c) s)

/-- R93, R137: a trigger by itself: after its placement the floor controller, if it is in IDLE, takes the head. -/
def triggerAs (c : PromptClass) (p : Params) (reach : Reach) (supersede : Bool) (s : State) : State :=
  takeHead (placeTrigger c p reach supersede s)

/-- R93: a trigger with its class's base reach, which supersedes a current item of its class. -/
def trigger (c : PromptClass) (p : Params) (s : State) : State := triggerAs c p (baseReach c) true s

/-- R92: a trigger from the request tracker or by an ask answered BUSY: secondary activity is reported before the
item is placed. -/
def busyTrigger (c : PromptClass) (p : Params) (s : State) : State := trigger c p (activity s)

/-- R92: a trigger from an entry of a report, as secondary activity. The head is taken after the whole report
(DEDUCED, log 25: chapter 6's worked sequence takes it so). -/
def reportTrigger (c : PromptClass) (p : Params) (s : State) : State :=
  placeTrigger c p (baseReach c) true (activity s)

/-! ## Condition ends (R99, R108) -/

/-- R99, R107: the items meant, by class and key, are withdrawn: the queued ones removed, with those noted as having
left the queue in this moment, and the current one marked. -/
def withdrawHeld (means : PromptClass → CondKey → Bool) (s : State) : State :=
  let s := { s with pq := { s.pq with items := s.pq.items.filter fun it => !means it.cls it.key },
                    fc := s.fc.strike means }
  match s.pq.current with
  | some m => if means m.cls m.key then fcMark { s with pq := s.pq.withdraw } else s
  | none => s

/-- R99, R107, R138: the withdrawal, whose mark meets an item that gave way in this very moment too; the head is then
taken, as after any mark (log 25). -/
def withdrawMeant (means : PromptClass → CondKey → Bool) (s : State) : State :=
  if s.swappedNow (fun it => means it.cls it.key) then takeHead (withdrawHeld means (fcUnswap s))
  else withdrawHeld means s

/-- R99: the items held by a condition are withdrawn. -/
def withdraw (key : CondKey) (s : State) : State := withdrawMeant (fun _ k => k == key) s

/-- R92, R108: the end of a machine condition: its series stopped, then the withdrawal. -/
def endCondition (key : CondKey) (s : State) : State :=
  withdraw key { s with pq := stopSeries key s.pq }

/-! ## SELECTING (R71, R171) -/

/-- R71, R171: SELECTING begins. -/
def selectingBegins (s : State) : State := { s with au := s.au.reminder s.psp.profile s.now }

/-- R71, R99, R171: SELECTING ends. -/
def selectingEnds (s : State) : State := withdraw .selecting { s with au := s.au.noReminder }

/-! ## The wake (R170) -/

/-- R170: a wake by primary activity: the part is ACTIVE, and the partner's state may give a prompt. -/
def wake (s : State) : State :=
  let s := primaryActivity s
  if s.pm.isFresh && s.pm.record.state == .free then trigger .welcome .zero s
  else if s.pm.isFresh && s.pm.record.state == .outOfService then trigger .outOfService .zero s
  else s

end Sys2Proof.Machine
end

