-- ==== Sys2Proof/Machine/Dialogue.lean ====
section
/-! DEFINITION. The open list of the panel unit (R58), the ask for a request (R33) and the dialogue
controller (chapter 5): the effect of each panel event by the dialogue state, of a resolution, of a
machine report, of the partner's loss and of DARK. -/

namespace Sys2Proof.Machine

/-! ## The open list (R58, R59) -/

/-- R58: Open list (L, p). A position past the list is its last one; a settle ends without an event. -/
def PanelUnit.openList (pu : PanelUnit) (len pos : Nat) : PanelUnit :=
  { pu with listLen := some len, position := min pos (len - 1), snapshot := min pos (len - 1),
            settle := none }

/-- R58: Close list. -/
def PanelUnit.closeList (pu : PanelUnit) : PanelUnit := { pu with listLen := none, settle := none }

/-- R58, R59: a step applied to the position of the open list, and the settle timer started. With no list
open a step moves nothing. -/
def PanelUnit.step (pu : PanelUnit) (up : Bool) (now : Time) : PanelUnit :=
  match pu.listLen with
  | some len =>
    { pu with
      position :=
        if up then if pu.position + 1 < len then pu.position + 1 else 0
        else if pu.position = 0 then len - 1 else pu.position - 1
      settle := some (now + settleTime) }
  | none => pu

/-! ## The ask (R33, R34) -/

/-- R33: the answer to an ask. -/
inductive AskAnswer where
  | taken | busy | refusedLocal
  deriving DecidableEq, Repr

/-- R33, R34: the DC's ask for a request. A REQUEST frame that the line port refuses resolves the request
within the same ask. -/
def pmAsk (k : ReqKind) (program : Nat) (options : BitVec 8) (s : State) : State × AskAnswer :=
  if s.pm.inFlight.isSome then (busyTrigger .pleaseWait .zero s, .busy)
  else if !s.pm.isFresh || s.lp.clash then (vpBuzz s, .refusedLocal)
  else
    let mark := !s.pm.lastMark
    let r := s.lp.queueRequest (buildFrame .request s.ownAddress (requestPayload k mark program options))
    let s := { s with pm := { s.pm with lastMark := mark } }
    if r.2 then
      ({ s with
          lp := r.1
          pm := { s.pm with
                  inFlight := some { kind := k, mark := mark, program := program, options := options,
                                     deadline := s.now + requestTime, sent := false } } },
        .taken)
    else (busyTrigger .noAnswer (.one (reqCode k)) s, .taken)

/-! ## Moves of the dialogue (R71, R72) -/

/-- R72: the DC passes to VIEW and the selection is discarded: the list closed, SELECTING ended if it held,
the record returned to its reset values, the return state absent. -/
def dcDiscard (s : State) : State :=
  let held := s.dc.state.selecting
  let s := { s with dc := { s.dc with state := .view }, pu := s.pu.closeList }
  let s := if held then selectingEnds s else s
  { s with dc := Dialogue.reset }

/-- R91: the parameters of OPTION_STATE for option `n`. -/
def State.optionParams (s : State) (n : Nat) : Params :=
  .two n (if hasOption s.dc.options n then 1 else 0)

/-- R91: the parameters of CONFIRM_SUMMARY. -/
def State.summaryParams (s : State) : Params := .two s.dc.program s.dc.options.toNat

/-- R75: BROWSE_PROGRAM entered from VIEW, at the table's default program. -/
def dcEnter (s : State) : State :=
  let t := s.table
  let p := t.first
  let s := { s with
    dc := { s.dc with state := .browseProgram, program := p, options := t.defaults p, cursor := 0 }
    pu := s.pu.openList t.count p }
  trigger .programName (.one p) (selectingBegins s)

/-- R79: BROWSE_OPTION entered. -/
def dcOptions (s : State) : State :=
  let opts := s.optionList
  let s := { s with
    dc := { s.dc with state := .browseOption, cursor := 0 }
    pu := s.pu.openList (opts.length + 1) 0 }
  trigger .optionState (s.optionParams (opts.headD 0)) s

/-- R81: CONFIRM entered from a browse state. -/
def dcConfirm (s : State) : State :=
  let s := { s with dc := { s.dc with state := .confirm }, pu := s.pu.closeList }
  trigger .confirmSummary s.summaryParams s

/-- R80, R81: BROWSE_PROGRAM entered by BACK, the options kept. -/
def dcPrograms (s : State) : State :=
  let s := { s with
    dc := { s.dc with state := .browseProgram }
    pu := s.pu.openList s.table.count s.dc.program }
  trigger .programName (.one s.dc.program) s

/-- R77: a request asked, with what the DC makes of the answer. A request resolved within its ask leaves the
DC where it asked. -/
def dcAsk (k : ReqKind) (program : Nat) (options : BitVec 8) (s : State) : State :=
  let confirm := s.dc.state == .confirm
  match pmAsk k program options s with
  | (s, .taken) =>
    if s.pm.inFlight.isSome then
      let s := { s with
        dc := { s.dc with state := .awaitAnswer, ret := some (if confirm then .confirm else .view) } }
      if confirm then selectingEnds s else s
    else s
  | (s, _) => s

/-- R76: a request asked in VIEW, with program 0 and no options. -/
def dcAskPlain (k : ReqKind) (s : State) : State := dcAsk k 0 0 s

/-! ## Panel events by dialogue state (R75, R76, R78, R80 to R82, R84) -/

/-- STEP_UP or STEP_DOWN delivered to the DC. -/
def dcStep (up : Bool) (s : State) : State :=
  match s.dc.state with
  | .view => if s.selectable then dcEnter s else s
  | .confirm =>
    { s with
      dc := { s.dc with state := .browseProgram }
      pu := (s.pu.openList s.table.count s.dc.program).step up s.now }
  | .browseProgram | .browseOption | .awaitAnswer => s

/-- SELECTION_CHANGED, carrying the snapshot. -/
def dcSelection (p : Nat) (s : State) : State :=
  match s.dc.state with
  | .browseProgram =>
    trigger .programName (.one p)
      { s with dc := { s.dc with program := p, options := s.table.defaults p } }
  | .browseOption =>
    let s := { s with dc := { s.dc with cursor := p } }
    match s.optionList[p]? with
    | some n => trigger .optionState (s.optionParams n) s
    | none => trigger .confirmSummary s.summaryParams s
  | .view | .confirm | .awaitAnswer => s

/-- SELECT. -/
def dcSelect (s : State) : State :=
  match s.dc.state with
  | .view => if s.selectable then dcEnter s else s
  | .browseProgram => if s.optionList.isEmpty then dcConfirm s else dcOptions s
  | .browseOption =>
    match s.optionList[s.dc.cursor]? with
    | some n =>
      let s := { s with dc := { s.dc with options := toggleOption s.dc.options n } }
      trigger .optionState (s.optionParams n) s
    | none => dcConfirm s
  | .confirm => trigger .confirmSummary s.summaryParams s
  | .awaitAnswer => s

/-- BACK. -/
def dcBack (s : State) : State :=
  match s.dc.state with
  | .browseProgram => dcDiscard s
  | .browseOption => dcPrograms s
  | .confirm => if s.optionList.isEmpty then dcPrograms s else dcOptions s
  | .view | .awaitAnswer => s

/-- R76: CANCEL_HOLD judged in VIEW. -/
def dcCancelInView (s : State) : State :=
  if s.pm.isFresh then
    match s.pm.record.state with
    | .awaitPayment | .ready | .running | .paused => dcAskPlain .cancel s
    | .free | .done | .fault | .outOfService => vpBuzz s
  else vpBuzz s

/-- CANCEL_HOLD. -/
def dcCancel (s : State) : State :=
  match s.dc.state with
  | .view => dcCancelInView s
  | .browseProgram | .browseOption | .confirm => dcCancelInView (dcDiscard s)
  | .awaitAnswer => dcAskPlain .cancel s

/-- START_SHORT. -/
def dcStartShort (s : State) : State :=
  match s.dc.state with
  | .view => if s.selectable then dcEnter s else trigger .holdStartHint .zero s
  | .browseProgram | .browseOption | .confirm => trigger .holdStartHint .zero s
  | .awaitAnswer => s

/-- START_HOLD. -/
def dcStartHold (s : State) : State :=
  match s.dc.state with
  | .view =>
    if s.selectable then dcEnter s
    else if s.pm.isFresh then
      match s.pm.record.state with
      | .running => dcAskPlain .pause s
      | .paused => dcAskPlain .resume s
      | .free | .awaitPayment | .ready | .done | .fault | .outOfService => vpBuzz s
    else vpBuzz s
  | .browseProgram | .browseOption => dcConfirm s
  | .confirm => dcAsk .start s.dc.program s.dc.options s
  | .awaitAnswer => dcAsk .start s.dc.program s.dc.options s

/-! ## Resolutions and forced ends (R83, R85 to R88) -/

/-- R83, R85: a resolution. In AWAIT_ANSWER a refusal goes back to CONFIRM where that is the return state and
the partner is selectable; anything else discards into VIEW. Elsewhere it is ignored. -/
def dcResolved (result : AnswerResult) (s : State) : State :=
  if s.dc.state = .awaitAnswer then
    if result != .accepted && s.dc.ret == some .confirm && s.selectable then
      selectingBegins { s with dc := { s.dc with state := .confirm, ret := none } }
    else dcDiscard s
  else s

/-- R86: a machine report ends a selection that the machine can no longer take. -/
def dcReport (s : State) : State :=
  if s.dc.state.selecting && !s.selectable then dcDiscard s else s

/-- R87, R88: PARTNER_LOST or DARK. -/
def dcForced (s : State) : State := if s.dc.state = .view then s else dcDiscard s

end Sys2Proof.Machine
end

