-- ==== Sys2Proof/Machine/Attention.lean ====
section
/-! DEFINITION. The attention unit's timers (chapter 10): the meanings of DIM_TIMEOUT, DARK_TIMEOUT and
REPROMPT_TIMEOUT. -/

namespace Sys2Proof.Machine

/-- R169: DARK entered. The dialogue controller passes to VIEW, the language returns to the default, and the
reprompt timer is stopped. -/
def goDark (s : State) : State :=
  let s := dcForced { s with au := { s.au with state := .dark, dim := none, dark := none } }
  { s with
    cp := { s.cp with currentLang := s.cp.defaultLang }
    au := s.au.noReminder }

/-- R168: the dark timer is due. -/
def State.darkDue (s : State) : Bool := s.au.state != .dark && due s.au.dark s.now

/-- R88, R168: in the moment the dark timer is due DARK is taken before a resolution, which then finds the dialogue in
VIEW. R168 lets either be taken first; with the resolution first its prompt, an activity, would restart the timer,
and R88 has both orders end in VIEW with the selection discarded (DEDUCED, log 33). -/
def darkFirst (s : State) : State := if s.darkDue then goDark s else s

/-- R171: the list that a reprompt names. -/
def repromptList : DialogueState → Nat
  | .browseOption => 1
  | .confirm => 2
  | .view | .browseProgram | .awaitAnswer => 0

/-- R171: the reprompt timer expires: the count gains 1, the timer runs again while the count is below 2, and
REPROMPT is triggered. The trigger is no activity. -/
def reprompt (s : State) : State :=
  let n := s.au.count + 1
  trigger .reprompt (.one (repromptList s.dc.state))
    { s with
      au := { s.au with
              count := n
              reprompt := if n < 2 then s.psp.profile.reprompt.map (s.now + ·) else none } }

/-! ## Meanings -/

/-- DIM_TIMEOUT (R168): the dim timer expires in ACTIVE. -/
def execDimTimeout (t : Time) (s : State) : Host.Outcome State Fault Refusal :=
  let s := s.advance t
  .next
    (if s.au.state == .active && due s.au.dim s.now then
      { s with au := { s.au with state := .dim, dim := none } }
    else s)

/-- DARK_TIMEOUT (R168, R169): the dark timer expires. -/
def execDarkTimeout (t : Time) (s : State) : Host.Outcome State Fault Refusal :=
  let s := s.advance t
  .next (darkFirst s)

/-- REPROMPT_TIMEOUT (R171): the reprompt timer expires while SELECTING holds. -/
def execRepromptTimeout (t : Time) (s : State) : Host.Outcome State Fault Refusal :=
  let s := s.advance t
  .next (if s.dc.state.selecting && due s.au.reprompt s.now then reprompt s else s)

end Sys2Proof.Machine
end

