-- ==== Sys2Proof/Machine/Display.lean ====
section
/-! DEFINITION. The indicator driver (chapter 10): the view, the digits, the LED modes, the flasher patterns,
the duty, and the meaning of MULTIPLEX_SLOT. -/

namespace Sys2Proof.Machine

/-! ## The view (R174) -/

/-- R174: the views. `program` is that of BROWSE_PROGRAM and of CONFIRM; `optionDone` is the DONE entry of the
option list. -/
inductive View where
  | e0
  | clash (address : Nat)
  | e1
  | fault (code : Nat)
  | lost
  | action (code : Nat)
  | program (number : Nat)
  | option (number : Nat) (chosen : Bool)
  | optionDone
  | credits (due : Nat)
  | minutes (left : Option Nat)
  | finished
  | ready
  | outOfService
  | dashes
  deriving DecidableEq, Repr

/-- R174: rows 11 to 16, the machine's own rows by its state. -/
def State.machineView (s : State) : View :=
  if s.pm.isFresh then
    match s.pm.record.state with
    | .running | .paused => .minutes s.pm.record.minutes
    | .done => .finished
    | .ready => .ready
    | .fault => .fault 0
    | .outOfService => .outOfService
    | .free | .awaitPayment => .dashes
  else .dashes

/-- R174: row 8, the option under the cursor, or DONE. -/
def State.optionView (s : State) : View :=
  match s.optionList[s.dc.cursor]? with
  | some n => .option n (hasOption s.dc.options n)
  | none => .optionDone

/-- R174: row 9's condition. -/
def State.confirming (s : State) : Bool :=
  s.dc.state == .confirm || (s.dc.state == .awaitAnswer && s.dc.ret == some .confirm)

/-- R174: the first row whose condition holds. -/
def State.view (s : State) : View :=
  if s.psp.phase = .strapHalt then .e0
  else if s.lp.clash then .clash s.ownAddress
  else if s.ind.e1 then .e1
  else if s.holds .fault then .fault s.pm.record.fault
  else if s.pm.freshness = .lost then .lost
  else if s.holds .action then .action s.pm.record.action
  else if s.dc.state = .browseProgram then .program (s.dc.program + 1)
  else if s.dc.state = .browseOption then s.optionView
  else if s.confirming then .program (s.dc.program + 1)
  else if s.holds .payment then .credits s.pm.record.credits
  else s.machineView

/-! ## The digits (R175, R176) -/

/-- A number right-aligned in three digits, with leading blanks. -/
def threeDigits (n : Nat) : List Glyph :=
  [if n < 100 then .blank else .digit (n / 100 % 10), if n < 10 then .blank else .digit (n / 10 % 10),
   .digit (n % 10)]

/-- A number right-aligned in two digits, with a leading blank. -/
def twoDigits (n : Nat) : List Glyph :=
  [if n < 10 then .blank else .digit (n / 10 % 10), .digit (n % 10)]

/-- R175: the minutes view: exact minutes, hours and minutes from 100 on, two dashes for UNKNOWN. -/
def minutesGlyphs : Option Nat → List Glyph
  | none => [.blank, .blank, .dash, .dash]
  | some m =>
    if m < 100 then [.blank, .blank] ++ twoDigits m
    else twoDigits (m / 60) ++ [.digit (m % 60 / 10), .digit (m % 60 % 10)]

/-- R174 to R176: the characters of DIG0 to DIG3. A word shorter than four letters stands from DIG0 on, as
E0 does (log 16). -/
def View.glyphs : View → List Glyph
  | .e0 => [.letE, .digit 0, .blank, .blank]
  | .clash a => .letA :: threeDigits a
  | .e1 => [.letE, .digit 1, .blank, .blank]
  | .fault c => .letF :: threeDigits c
  | .lost | .dashes => [.dash, .dash, .dash, .dash]
  | .action c => .letA :: threeDigits c
  | .program n => .letP :: threeDigits n
  | .option n chosen => [.letO, .digit n, .blank, .digit (if chosen then 1 else 0)]
  | .optionDone => [.letD, .letO, .letN, .letE]
  | .credits c => .letC :: threeDigits c
  | .minutes m => minutesGlyphs m
  | .finished => [.letE, .letN, .letD, .blank]
  | .ready => [.letR, .letD, .letY, .blank]
  | .outOfService => [.letO, .letU, .letT, .blank]

/-- R175: the hours are parted from the minutes by the decimal point of DIG1. -/
def View.separator : View → Bool
  | .minutes (some m) => decide (100 ≤ m)
  | _ => false

/-! ## Flashers (R178) -/

/-- R178: the three patterns. -/
inductive Pattern where
  | confirm | attention | fault
  deriving DecidableEq, Repr

/-- R178: the code of a pattern in the profile. -/
def Profile.patternCode (p : Profile) : Pattern → Byte
  | .confirm => p.confirm
  | .attention => p.attention
  | .fault => p.fault

/-- R178: a pattern is within its on-time. Before the end of the lamp test the phases stand at the start of a
period (R179). -/
def State.patternLit (s : State) (p : Pattern) : Bool :=
  let code := s.psp.profile.patternCode p
  let since :=
    match s.ind.flashStart with
    | some f => s.now - f
    | none => 0
  decide (since % patternPeriod code < patternOn code)

/-! ## The LEDs (R177) -/

/-- R177: the modes of a LED. -/
inductive LedMode where
  | off
  | steady
  | flashing (p : Pattern)
  deriving DecidableEq, Repr

/-- R177: the phase LEDs, FILL to COOL. -/
inductive PhaseLed where
  | fill | wash | rinse | spin | dry | cool
  deriving DecidableEq, Repr

/-- R177: the phase of a LED. -/
def PhaseLed.phase : PhaseLed → CyclePhase
  | .fill => .fill
  | .wash => .wash
  | .rinse => .rinse
  | .spin => .spin
  | .dry => .dry
  | .cool => .cool

/-- R177: the mode of a phase LED. -/
def State.phaseLed (s : State) (l : PhaseLed) : LedMode :=
  if s.pm.isFresh then
    if s.pm.record.phase = l.phase then .steady
    else if l = .cool ∧ s.pm.record.phase = .anticrease then .flashing .attention
    else .off
  else .off

/-- R177: the mode of the START LED. -/
def State.startLed (s : State) : LedMode :=
  if s.dc.state = .confirm then .flashing .confirm
  else if s.pm.isFresh then
    match s.pm.record.state with
    | .running => .steady
    | .paused => .flashing .attention
    | .free | .awaitPayment | .ready | .done | .fault | .outOfService => .off
  else .off

/-- R177: the mode of the HELP LED. -/
def State.helpLed (s : State) : LedMode :=
  if s.holds .fault then .flashing .fault
  else if s.holds .action || s.holds .payment then .flashing .attention
  else .off

/-- R177: the modes of the eight LEDs, SEGA to SEGG and SEGDP. -/
def State.ledModes (s : State) : List LedMode :=
  [.fill, .wash, .rinse, .spin, .dry, .cool].map s.phaseLed ++ [s.startLed, s.helpLed]

/-- R177, R178: a LED is lit at the moment. -/
def State.ledLit (s : State) : LedMode → Bool
  | .off => false
  | .steady => true
  | .flashing p => s.patternLit p

/-! ## What a slot drives (R173, R176, R179) -/

/-- A list of levels as bits, the first in bit 0. -/
def packBits : List Bool → Nat
  | [] => 0
  | b :: bs => (if b then 1 else 0) + 2 * packBits bs

/-- R176, R187: every segment, every point and every LED is lit. -/
def State.lampTest (s : State) : Bool := s.psp.phase == .listen && s.ind.lampTest

/-- R176, R179: the panel shows a view and the LEDs: in LISTEN and in RUN. -/
def State.shows (s : State) : Bool := s.psp.phase == .listen || s.psp.phase == .run

/-- R175: the view flashes and is in its off-time. -/
def State.viewOff (s : State) : Bool := s.view == .lost && !s.patternLit .fault

/-- R174, R175: digit `k` of the view at the moment. The point of DIG3 is lit in SOLO, in every view but E0, and
does not flash. -/
def State.digitOf (s : State) (k : Nat) : Digit :=
  let v := s.view
  { glyph := if s.viewOff then .blank else v.glyphs.getD k .blank
    point := (k == 1 && v.separator) || (k == 3 && v != .e0 && s.lp.mode == .solo) }

/-- R177: the LED group at the moment. -/
def State.ledsLit (s : State) : BitVec 8 := BitVec.ofNat 8 (packBits (s.ledModes.map s.ledLit))

/-- R173 to R179: what slot `k` drives: 0..3 a digit, 4 the LED group. -/
def State.driveOf (s : State) (k : Nat) : SlotDrive :=
  if s.psp.phase = .strapHalt then if k = 4 then .leds 0#8 else .digit (s.digitOf k)
  else if s.lampTest then
    if k = 4 then .leds 0xFF#8 else .digit { glyph := .allSegments, point := true }
  else if s.shows then if k = 4 then .leds s.ledsLit else .digit (s.digitOf k)
  else .off

/-- R173: the duty in force, in percent. -/
def State.dutyInForce (s : State) : Nat :=
  match s.psp.phase with
  | .strapHalt => 100
  | .listen => s.psp.profile.activeDuty
  | .run =>
    match s.au.state with
    | .active => s.psp.profile.activeDuty
    | .dim => s.psp.profile.dimDuty
    | .dark => 0
  | .held | .straps | .image => 0

/-- R173: the slot after one: DIG0 to DIG3, then LEDCOM. -/
def nextSlot : Option Nat → Nat
  | some k => (k + 1) % 5
  | none => 0

/-- R173: the slot under way is over, or none has begun. -/
def Indicator.slotOver (i : Indicator) (now : Time) : Bool :=
  i.slot.isNone || decide (i.slotStart + slotTime ≤ now)

/-- R173, R178: a multiplex slot begun, with what it drives. The spec lets a new view and a new duty show from
the next slot; that a flasher's edge or a LED's change of mode inside a slot does so too is the model's
choice (DESIGN CHOICE, log 22). -/
def newSlot (s : State) : State :=
  let k := nextSlot s.ind.slot
  { s with
    ind := { s.ind with slot := some k, slotStart := s.now, drive := s.driveOf k, duty := s.dutyInForce } }

/-! ## Meanings -/

/-- MULTIPLEX_SLOT (R173). In reset no slot runs. DESIGN CHOICE (log 22): the slots run from the release of reset,
unlit through IMAGE, so the lamp test shows from the first slot that begins in LISTEN. -/
def execMultiplexSlot (t : Time) (s : State) : Host.Outcome State Fault Refusal :=
  let s := s.advance t
  .next (if s.psp.phase != .held && s.ind.slotOver s.now then newSlot s else s)

end Sys2Proof.Machine
end

