-- ==== Sys2Proof/Machine/FloorCommands.lean ====
section
/-! DEFINITION. The floor controller's own timers, and the two ends of the composer's steps: the meanings
of COMPOSER_READ_END and COMPOSITION_END (chapter 7) and of CURRENT_ITEM_EXPIRE, VIEW_ENTRY_EXPIRE,
CROWDED_CLEAR, CLAIM_STANDS, CONTEST_WINDOW_END and SPACING_END (chapter 8). -/

namespace Sys2Proof.Machine

/-- R116, R180: the composition takes the bytes of its read, and asks its next one. -/
def composerTake (w : Work) (req : ReadReq) (data : List Byte) (s : State) : State :=
  cpAsk (w.take (s.psp.readings w.kind) req.size data) { s with psp := s.psp.finish s.now }

/-- R134: the entry of an address passes from in contest to speaking. -/
def Floor.stand (fc : Floor) (addr : Nat) : Floor :=
  { fc with view := fc.view.map fun e => if e.addr = addr then { e with speaking := true } else e }

/-! ## Meanings -/

/-- COMPOSER_READ_END (R116): the composer's read has ended at the port. -/
def execComposerReadEnd (t : Time) (data : List Byte) (s : State) : Host.Outcome State Fault Refusal :=
  let s := s.advance t
  .next
    (match s.psp.ended .composer s.now, s.cp.work with
    | some req, some w => composerTake w req data s
    | _, _ => s)

/-- COMPOSITION_END (R138): the composer has its result, and hands it to the floor controller. -/
def execCompositionEnd (t : Time) (s : State) : Host.Outcome State Fault Refusal :=
  let s := s.advance t
  .next
    (match s.cp.work.map Work.stage with
    | some (.finished result) => fcResult result s
    | _ => s)

/-- CURRENT_ITEM_EXPIRE (R140): the current's expiry has passed, and it is discarded in WAITING: also in a WAITING
entered back from CLAIMING or CONTEST, and for an expiry that passed in those states. R142 has it matter again,
from CLAIMING onward, only if the item is returned; the model takes R140 for every WAITING (DESIGN CHOICE, log 32). -/
def execCurrentItemExpire (t : Time) (s : State) : Host.Outcome State Fault Refusal :=
  let s := s.advance t
  .next
    (match s.fc.state, s.fc.item with
    | .waiting, some it => if it.expired s.now then fcDiscard s else s
    | _, _ => s)

/-- VIEW_ENTRY_EXPIRE (R133): the entry of an address has lapsed; the conditions of R139 are tested again. -/
def execViewEntryExpire (t : Time) (addr : Nat) (s : State) : Host.Outcome State Fault Refusal :=
  let s := s.advance t
  .next
    (match findKey ViewEntry.addr addr s.fc.view with
    | some e => if e.expiry ≤ s.now then fcTest { s with fc := s.fc.forget addr } else s
    | none => s)

/-- CROWDED_CLEAR (R133): the clearing time has passed; the conditions of R139 are tested again. -/
def execCrowdedClear (t : Time) (s : State) : Host.Outcome State Fault Refusal :=
  let s := s.advance t
  .next (if due s.fc.crowded s.now then fcTest { s with fc := { s.fc with crowded := none } } else s)

/-- CLAIM_STANDS (R134, R145): 80 ms have passed since the claim's arrival; in SPEAKING it is judged. -/
def execClaimStands (t : Time) (addr : Nat) (s : State) : Host.Outcome State Fault Refusal :=
  let s := s.advance t
  .next
    (match findKey ViewEntry.addr addr s.fc.view with
    | some e =>
      if !e.speaking && decide (e.arrival + contestTime ≤ s.now) then
        fcJudge addr e.level { s with fc := s.fc.stand addr }
      else s
    | none => s)

/-- CONTEST_WINDOW_END (R143, R144): the playback starts at the end of the window. -/
def execContestWindowEnd (t : Time) (s : State) : Host.Outcome State Fault Refusal :=
  let s := s.advance t
  .next
    (match s.fc.state, s.fc.contestEnd, s.fc.utterance with
    | .contest, some e, some u => if e ≤ s.now then fcSpeak u e s else s
    | _, _, _ => s)

/-- SPACING_END (R150): the 600 ms are over; IDLE, and the head is taken. -/
def execSpacingEnd (t : Time) (s : State) : Host.Outcome State Fault Refusal :=
  let s := s.advance t
  .next
    (if s.fc.state == .spacing && due s.fc.spacing s.now then
      takeHead { s with
        fc := { s.fc with state := .idle, spacing := none, spacingOver := some { moment := s.now, said := [] } } }
    else s)

end Sys2Proof.Machine
end

