-- ==== Sys2Proof/Machine/Partner.lean ====
section
/-! DEFINITION. The partner monitor (chapter 2): machine events, reports as the prompt queue takes them
(R92, R103, R107), the request tracker's resolutions, and the meanings of FRESHNESS_TIMEOUT,
REQUEST_DEADLINE and ROSTER_ENTRY_EXPIRE. -/

namespace Sys2Proof.Machine

/-! ## Machine events (R28 to R30) -/

/-- R25, R27 to R31: an entry of a report. -/
inductive ReportEntry where
  | partnerLost
  | partnerBack
  | baseline (key : CondKey)
  | cleared (key : CondKey)
  | lossEnd (key : CondKey)
  | started | paused | resumed | cycleDone | outOfService
  | paymentDue (credits : Nat)
  | action (code : Nat)
  | fault (code : Nat)
  | phase (p : CyclePhase)
  | timeCall (minutes : Nat)
  deriving DecidableEq, Repr

/-- R28: the state event of a pair of states. -/
def stateEvent (old new : MachineState) : List ReportEntry :=
  match old, new with
  | .awaitPayment, .running | .ready, .running | .free, .running => [.started]
  | .running, .paused => [.paused]
  | .paused, .running => [.resumed]
  | .running, .done => [.cycleDone]
  | .outOfService, .outOfService => []
  | _, .outOfService => [.outOfService]
  | _, _ => []

/-- R29: TIME_CALL is derived: the minutes fall from 6..999 to 0..5. -/
def timeCallOf (old new : Option Nat) : List ReportEntry :=
  match old, new with
  | some a, some b => if 6 ≤ a ∧ b ≤ 5 then [.timeCall b] else []
  | _, _ => []

/-- R29: the condition and progress events, in the order of the table. -/
def progressEvents (old new : Record) : List ReportEntry :=
  (if new.state = .awaitPayment ∧ (old.state ≠ .awaitPayment ∨ new.credits ≠ old.credits)
    then [.paymentDue new.credits] else [])
  ++ (if new.action ≠ 0 ∧ new.action ≠ old.action then [.action new.action] else [])
  ++ (if new.fault ≠ 0 ∧ new.fault ≠ old.fault then [.fault new.fault] else [])
  ++ (if old.state = .running ∧ new.state = .running ∧ new.phase ≠ old.phase
      then [.phase new.phase] else [])
  ++ (if old.state = .running ∧ new.state = .running then timeCallOf old.minutes new.minutes else [])

/-- R30: the condition ends of cause CLEARED. R30 and R31 give several ends in one report no order; they stand in the
order in which R30's table names them, PAYMENT, ACTION, FAULT, DONE (DESIGN CHOICE, log 10). -/
def clearedEnds (old new : Record) : List ReportEntry :=
  (machineConditions.filter fun k => old.shows k && !new.shows k).map .cleared

/-- R31: the machine report of a STATUS that is not a baseline. -/
def machineReport (old new : Record) : List ReportEntry :=
  clearedEnds old new ++ stateEvent old.state new.state ++ progressEvents old new

/-- R27: the baseline report. -/
def baselineReport (lost : Bool) (new : Record) : List ReportEntry :=
  (if lost then [.partnerBack] else []) ++ (machineConditions.filter new.shows).map .baseline

/-- R25: the loss report, with the conditions that held just before the loss. -/
def lossReport (r : Record) : List ReportEntry :=
  .partnerLost :: (machineConditions.filter r.shows).map .lossEnd

/-! ## A report as the prompt queue takes it (R92) -/

/-- R107: the series changes of an event that triggers the class of a series. The event ACTION also removes
a queued ACTION_CALL and marks a current one withdrawn. -/
def beginSeries (e : ReportEntry) (arrival : Time) (s : State) : State :=
  match e with
  | .fault _ => { s with pq := { s.pq with fault := .stopped } }
  | .paymentDue _ => { s with pq := { s.pq with payment := .stopped } }
  | .cycleDone => { s with pq := { s.pq with unload := .stopped, doneSince := some arrival } }
  | .action _ =>
    withdrawMeant (fun c _ => c == .actionCall)
      { s with pq := { s.pq with actionFirst := .stopped, actionSecond := .stopped } }
  | _ => s

/-- R92: one entry of a report, finished before the next is started. -/
def takeEntry (arrival : Time) (s : State) (e : ReportEntry) : State :=
  let r := s.pm.record
  match e with
  | .partnerLost => reportTrigger .partnerLost .zero s
  | .partnerBack => withdraw .lost s
  | .baseline k => { s with pq := startSeries k arrival s.pq }
  | .cleared k =>
    let s := endCondition k s
    if k = .fault then reportTrigger .faultCleared .zero s else s
  | .lossEnd k => endCondition k s
  | .started => reportTrigger .started (.two r.program (minutesParam r.minutes)) s
  | .paused => reportTrigger .paused (.one (minutesParam r.minutes)) s
  | .resumed => reportTrigger .resumed (.one (minutesParam r.minutes)) s
  | .cycleDone =>
    reportTrigger .freeMachines .zero
      (reportTrigger .cycleDone (.one r.program) (beginSeries e arrival s))
  | .outOfService => reportTrigger .outOfService .zero s
  | .paymentDue c => reportTrigger .paymentDue (.one c) (beginSeries e arrival s)
  | .action c => reportTrigger .actionNeeded (.one c) (beginSeries e arrival s)
  | .fault c => reportTrigger .faultCall (.one c) (beginSeries e arrival s)
  | .phase p =>
    if s.psp.profile.phaseAnnounce then reportTrigger .phaseChange (.one (phaseCode p)) s else s
  | .timeCall m => reportTrigger .timeCall (.one m) s

/-- R92, R137: a report worked through in its order. After it a floor controller in IDLE takes the head: the
rules give no moment for it, and chapter 6's worked sequence takes it after the last entry (DEDUCED,
log 25). -/
def takeReport (arrival : Time) (es : List ReportEntry) (s : State) : State :=
  takeHead (es.foldl (takeEntry arrival) s)

/-! ## The request tracker (R34 to R38) -/

/-- R38: the tracker emptied. -/
def State.untracked (s : State) : State := { s with pm := { s.pm with inFlight := none } }

/-- R38, R88: NO_ANSWER, with its prompt, after a DARK of the same moment. In `dcResolved` the result NONE stands for
NO_ANSWER. -/
def resolveNoAnswer (r : Request) (s : State) : State :=
  dcResolved .none (busyTrigger .noAnswer (.one (reqCode r.kind)) (darkFirst s).untracked)

/-- R35, R38: a request answered. -/
def resolveAnswered (r : Request) (result : AnswerResult) (s : State) : State :=
  let s := s.untracked
  let s :=
    if result = .accepted then
      if r.kind = .cancel then busyTrigger .cancelled .zero s else s
    else busyTrigger .requestRefused (.two (reqCode r.kind) (resultCode result)) s
  dcResolved result s

/-- R35: the record's answer fields match the request in flight. -/
def Request.answered (r : Request) (rec : Record) : Bool :=
  r.sent && rec.ansKind == some r.kind && rec.ansMark == r.mark && rec.ansResult != .none

/-- R35: the answer fields offered to the tracker. -/
def offerAnswer (s : State) : State :=
  match s.pm.inFlight with
  | some r => if r.answered s.pm.record then resolveAnswered r s.pm.record.ansResult s else s
  | none => s

/-- R34: a report of a REQUEST frame, applied to the request whose mark it carries. -/
def pmReport (rep : Report) (s : State) : State :=
  match s.pm.inFlight with
  | some r =>
    if requestMark rep.bytes = r.mark then
      match rep.fate with
      | .sent _ => { s with pm := { s.pm with inFlight := some { r with sent := true } } }
      | .dropped | .cancelled => resolveNoAnswer r s
    else s
  | none => s

/-! ## A good partner STATUS (R19, R22, R24, R27, R31) -/

/-- R19, R31, R86: the PM takes a STATUS: the record and the freshness, the report, then the tracker. R31 names
the prompt queue and the dialogue controller as recipients of a report without an order; the prompt queue
takes the whole of it first (DEDUCED, log 10). A STATUS that resolves the request in flight is taken after a DARK of
the same moment (R88, log 33). -/
def pmStatus (payload : List Byte) (arrival : Time) (s : State) : State :=
  let old := s.pm.record
  let got := recordOf payload
  let s := if s.pm.inFlight.any (·.answered got) then darkFirst s else s
  let timer := some (arrival + freshTime)
  match s.pm.freshness with
  | .fresh =>
    let new := { got with kind := old.kind }
    let s := { s with pm := { s.pm with record := new, freshTimer := timer } }
    offerAnswer (dcReport (takeReport arrival (machineReport old new) s))
  | .none | .lost =>
    let lost := s.pm.freshness == .lost
    let s := { s with pm := { s.pm with record := got, freshness := .fresh, freshTimer := timer } }
    offerAnswer (dcReport (takeReport arrival (baselineReport lost got) s))

/-! ## Meanings -/

/-- R24, R25, R37, R87: the freshness timer has run out. -/
def freshnessLost (s : State) : State :=
  let s := { s with pm := { s.pm with freshTimer := none } }
  match s.pm.freshness with
  | .none => { s with pm := { s.pm with freshness := .lost } }
  | .lost => s
  | .fresh =>
    let old := s.pm.record
    let s := { s with pm := { s.pm with freshness := .lost } }
    let s := dcForced (takeReport s.now (lossReport old) s)
    match s.pm.inFlight with
    | some _ => dcResolved .none { s.untracked with lp := s.lp.remove .request }
    | none => s

/-- FRESHNESS_TIMEOUT (R24). It comes when the running timer has run out. -/
def execFreshnessTimeout (t : Time) (s : State) : Host.Outcome State Fault Refusal :=
  let s := s.advance t
  .next (if s.receiving && due s.pm.freshTimer s.now then freshnessLost s else s)

/-- REQUEST_DEADLINE (R36): the request in flight is resolved NO_ANSWER, and its frame removed. -/
def execRequestDeadline (t : Time) (s : State) : Host.Outcome State Fault Refusal :=
  let s := s.advance t
  .next
    (match s.pm.inFlight with
    | some r =>
      if r.deadline ≤ s.now then resolveNoAnswer r { s with lp := s.lp.remove .request } else s
    | none => s)

/-- ROSTER_ENTRY_EXPIRE (R45): an entry 20 s old is removed. -/
def execRosterEntryExpire (t : Time) (machine : Nat) (s : State) : Host.Outcome State Fault Refusal :=
  let s := s.advance t
  .next
    (match findKey RosterEntry.machine machine s.roster with
    | some e =>
      if e.arrival + rosterTime ≤ s.now then
        { s with roster := dropKey RosterEntry.machine machine s.roster }
      else s
    | none => s)

end Sys2Proof.Machine
end

