-- ==== Sys2Proof/Machine/Line.lean ====
section
/-! DEFINITION. The line port among the other blocks (chapter 1): the delivery of reports, the changes of
line mode, the judging and dispatch of a reception, and the meanings of the line's commands. -/

namespace Sys2Proof.Machine

/-! ## Reports (R12) -/

/-- R12: a report reaches the block that queued the frame. -/
def deliverReport (s : State) (r : Report) : State :=
  match r.kind with
  | .claim => fcClaimReport r s
  | .release => fcReleaseReport s
  | .request => pmReport r s

/-- R12: reports delivered in order. -/
def deliverReports (rs : List Report) (s : State) : State := rs.foldl deliverReport s

/-! ## Line mode (R16, R17) -/

/-- R16, R17: the line port has changed from `old`. On entering SOLO with CLASH clear an unsent CLAIM is
dropped, and the floor controller hears of a change of mode or of LINE_HELD. -/
def lineChanged (old : LinePort) (s : State) : State :=
  let s :=
    if old.mode = .normal ∧ s.lp.mode = .solo then
      let r := s.lp.enterSolo
      deliverReports r.2 { s with lp := r.1 }
    else s
  if old.mode ≠ s.lp.mode ∨ old.lineHeld ≠ s.lp.lineHeld then fcLineChange s else s

/-- R5, R17: CLASH latches. A station that speaks orders its cut, every frame of the list is reported
DROPPED, and the floor controller hears of SOLO. -/
def latchClash (s : State) : State :=
  if s.lp.clash then s
  else
    let r := s.lp.latchClash
    fcLineChange (deliverReports r.2 (fcClash { s with lp := r.1 }))

/-! ## Judging (R4) -/

/-- R4: the kinds of frame received. -/
inductive RxKind where
  | status | claim | release | request
  deriving DecidableEq, Repr

/-- R4: the known kinds. -/
def rxKindOf : Nat → Option RxKind
  | 1 => some .status
  | 2 => some .claim
  | 3 => some .release
  | 4 => some .request
  | _ => none

/-- R4: the known frame lengths. -/
def frameLength : RxKind → Nat
  | .status => 12
  | .claim => 5
  | .release => 3
  | .request => 6

/-- R4: a controller address. -/
def isController (a : Nat) : Bool := decide (1 ≤ a) && decide (a ≤ 31)

/-- R4: a station address. -/
def isStation (a : Nat) : Bool := decide (33 ≤ a) && decide (a ≤ 63)

/-- R4: the right range for a kind. -/
def rightRange : RxKind → Nat → Bool
  | .status, a => isController a
  | .claim, a | .release, a | .request, a => isStation a

/-- R4: the outcome of judging. -/
inductive Verdict where
  | fragment
  | bad
  | unknownKind
  | wrongRange
  | good (kind : RxKind) (source : Nat) (payload : List Byte)
  deriving DecidableEq, Repr

/-- R4: the tests of the table, from the top. -/
def judge (r : Reception) : Verdict :=
  let header := byteAt r.bytes 0
  let source := byteAt r.bytes 1
  if r.count ≤ 2 then .fragment
  else if r.faulted || r.overlong then .bad
  else if crc8 r.bytes.dropLast ≠ r.bytes.getLastD 0#8 then .bad
  else if bits header 0 4 ≠ r.count - 3 then .bad
  else
    match rxKindOf (bits header 4 4) with
    | none => .unknownKind
    | some k =>
      if r.count ≠ frameLength k then .bad
      else if !isController source && !isStation source then .bad
      else if !rightRange k source then .wrongRange
      else .good k source ((r.bytes.drop 2).dropLast)

/-! ## Dispatch (R5, R6) -/

/-- R6: a good frame handed to its block. -/
def dispatch (k : RxKind) (source : Nat) (payload : List Byte) (arrival : Time) (s : State) : State :=
  match k with
  | .status =>
    if source = s.psp.machine then pmStatus payload arrival s
    else { s with roster := rosterTake source payload arrival s.roster }
  | .claim => fcClaimReceived source (claimLevel payload) (claimUnits payload) arrival s
  | .release => fcReleaseReceived source s
  | .request => s

/-- R4, R7: the receive error count after a verdict. -/
def countVerdict (v : Verdict) (lp : LinePort) : LinePort :=
  match v with
  | .bad => lp.addErrors 1
  | .wrongRange | .good _ _ _ => lp.goodFrame
  | .fragment | .unknownKind => lp

/-- R4 to R7: a reception that is not the station's own, judged, counted and dispatched. Where the count
changes the line mode, the transmit queue and the floor controller take that change before the frame is
dispatched (DEDUCED, log 28): R16 recomputes the mode when DEGRADED changes, and R4 counts a frame as it is
judged. -/
def takeReception (r : Reception) (s : State) : State :=
  let v := judge r
  let old := s.lp
  let s := lineChanged old { s with lp := countVerdict v s.lp }
  match v with
  | .good k source payload =>
    if source = s.ownAddress then latchClash s else dispatch k source payload r.lastStop s
  | .fragment | .bad | .unknownKind | .wrongRange => s

/-- R2, R5: the open reception closes. The station's own is set aside. The line has been recessive for the
delimiter, which fixes its beginning where it was not known (log 7). -/
def closeReception (r : Reception) (s : State) : State :=
  let s := { s with lp := s.lp.quiet s.now }
  if r.own then s else takeReception r s

/-- R14, R15: the attempt under way fails, and what follows from that. A change of mode that its errors bring is
taken before its report (DEDUCED, log 19). -/
def failAttempt (s : State) : State :=
  let r := s.lp.withdraw
  deliverReports r.2 (lineChanged s.lp { s with lp := r.1 })

/-! ## Meanings -/

/-- RECEPTION_CLOSE (R4): the delimiter completes. With no reception open it only tells that the line has
been recessive for 4 bit times. -/
def execReceptionClose (t : Time) (s : State) : Host.Outcome State Fault Refusal :=
  let s := s.advance t
  .next
    (if s.receiving && s.lp.delimited s.now then
      match s.lp.rx with
      | some r => closeReception r s
      | none => { s with lp := s.lp.quiet s.now }
    else s)

/-- LINE_HELD_SET (R8): LRX has been dominant for 2 ms. -/
def execLineHeldSet (t : Time) (s : State) : Host.Outcome State Fault Refusal :=
  let s := s.advance t
  .next
    (if s.receiving && !s.lp.lineHeld && s.lp.holds s.now then
      lineChanged s.lp { s with lp := { s.lp with lineHeld := true } }
    else s)

/-- LINE_HELD_CLEAR (R8): LRX has been recessive for 10 ms. -/
def execLineHeldClear (t : Time) (s : State) : Host.Outcome State Fault Refusal :=
  let s := s.advance t
  .next
    (if s.receiving && s.lp.lineHeld && s.lp.freed s.now then
      lineChanged s.lp { s with lp := { s.lp with lineHeld := false } }
    else s)

/-- ATTEMPT_START (R13): the head's gap is complete on a recessive line, in RUN (R18). -/
def execAttemptStart (t : Time) (s : State) : Host.Outcome State Fault Refusal :=
  let s := s.advance t
  .next
    (if s.running then
      match s.lp.ready s.ownAddress s.now with
      | some p => { s with lp := s.lp.begin p s.now }
      | none => s
    else s)

/-- ATTEMPT_WITHDRAWN (R14, R15): at the middle of a bit LRX reads the level that is not driven: dominant for
recessive, where another station is on the line, or recessive for dominant, where the line is faulty. -/
def execAttemptWithdrawn (t : Time) (s : State) : Host.Outcome State Fault Refusal :=
  let s := s.advance t
  .next (if s.lp.compares s.now then failAttempt s else s)

/-- TRANSMISSION_COMPLETE (R14): the attempt has reached the end of its last stop bit: complete with every byte
read back as driven, and failed otherwise. -/
def execTransmissionComplete (t : Time) (s : State) : Host.Outcome State Fault Refusal :=
  let s := s.advance t
  let r := s.lp.complete
  .next
    (match s.lp.tx with
    | some x =>
      if x.whole s.now then deliverReports r.2 { s with lp := r.1 }
      else if x.ends ≤ s.now then failAttempt s
      else s
    | none => s)

/-- START_BIT_EDGE (R1, R2): LRX falls outside a byte. A reception whose delimiter is already complete has
closed before (log 7). -/
def execStartBitEdge (t : Time) (glitch : Option Time) (s : State) : Host.Outcome State Fault Refusal :=
  let s := s.advance t
  .next
    (if s.receiving && !s.lp.inByte then
      let s :=
        match s.lp.rx, s.lp.idleSince with
        | some r, some i => if i + delimiter ≤ s.now then closeReception r s else s
        | _, _ => s
      match glitch with
      | some d => { s with lp := s.lp.glitch s.now d }
      | none => { s with lp := s.lp.startBit s.now }
    else s)

/-- BYTE_RECEIVED (R1, R2, R14): the middle of the stop bit, 9.5 bit times after the byte's leading edge. A byte
that is not the one the attempt under way drives makes the attempt fail. -/
def execByteReceived (t : Time) (b : Byte) (stop : Bool) (s : State) : Host.Outcome State Fault Refusal :=
  let s := s.advance t
  .next
    (match s.lp.edge with
    | some e =>
      if s.receiving && decide (midBit e 9 ≤ s.now) then
        if s.lp.belies e b stop then failAttempt { s with lp := s.lp.takeByte e b stop }
        else { s with lp := s.lp.takeByte e b stop }
      else s
    | none => s)

end Sys2Proof.Machine
end

