-- ==== Sys2Proof/Machine/Panel.lean ====
section
/-! DEFINITION. The panel unit (chapter 4): delivery of panel events, the wake, steps, the settle, keys and
their holds; what HELP, LANGUAGE_HOLD and HUSH_TOGGLE do (R110 to R112, R115); and the meanings of the
panel's commands. -/

namespace Sys2Proof.Machine

/-! ## Panel events (R68) -/

/-- R68: the panel events. -/
inductive PanelEvent where
  | step (up : Bool)
  | selectionChanged (p : Nat)
  | select | back | cancelHold | startShort | startHold
  | help (count : Nat)
  | languageHold
  | hushToggle
  deriving DecidableEq, Repr

/-- R111: HELP_1. -/
def pqHelp1 (s : State) : State :=
  match s.pq.last with
  | none => vpBuzz s
  | some r =>
    if !s.holds (classKey r.cls) then vpBuzz s
    else if s.pq.isCurrent r.cls then s
    else triggerAs r.cls r.params r.reach false s

/-- R91, R112: the parameters of STATE_DESCRIPTION, as they are when HELP_2 is delivered. R112 speaks of the moment of
the press; the press of HELP that HELP_2 counts was accepted up to 700 ms before (DESIGN CHOICE, log 30). -/
def State.describe (s : State) : Params :=
  { p0 := if s.pm.isFresh then stateCode s.pm.record.state else 8
    p1 := minutesParam s.pm.record.minutes
    p2 := s.pm.record.credits
    p3 := dialogueCode s.dc.state }

/-- R111, R112: HELP_1, HELP_2 or HELP_3 by the count. -/
def pqHelp (count : Nat) (s : State) : State :=
  match count with
  | 1 => pqHelp1 s
  | 2 => trigger .stateDescription s.describe s
  | _ => trigger .roomSummary .zero s

/-- R110: HUSH inverted. Setting it lowers every ROUTINE item of ROOM reach already queued. -/
def pqHush (s : State) : State :=
  let set := !s.pq.hush
  let lower (it : Item) : Item := if classLevel it.cls = .routine then { it with reach := .loc } else it
  { s with pq := { s.pq with hush := set, items := if set then s.pq.items.map lower else s.pq.items } }

/-- R68, R115: LANGUAGE_HOLD: the composer moves the language before the prompt queue names it. -/
def languageMove (s : State) : State :=
  trigger .languageName .zero { s with cp := { s.cp with currentLang := s.psp.nextLang s.cp.currentLang } }

/-- R68: an event delivered: to the attention unit first, then to its other blocks. -/
def deliver (e : PanelEvent) (s : State) : State :=
  let s := primaryActivity s
  match e with
  | .step up => dcStep up s
  | .selectionChanged p => dcSelection p s
  | .select => dcSelect s
  | .back => dcBack s
  | .cancelHold => dcCancel s
  | .startShort => dcStartShort s
  | .startHold => dcStartHold s
  | .help n => pqHelp n s
  | .languageHold => languageMove s
  | .hushToggle => pqHush s

/-- R69: the part is DARK, so the next panel event or accepted press is consumed as the wake. -/
def State.dark (s : State) : Bool := s.au.state == .dark

/-- R59, R60: a settle in progress completed: the snapshot takes the position, with its event if it
changes. -/
def settleNow (s : State) : State :=
  match s.pu.settle with
  | none => s
  | some _ =>
    let p := s.pu.position
    let changed := s.pu.snapshot != p
    let s := { s with pu := { s.pu with settle := none, snapshot := p } }
    if changed then deliver (.selectionChanged p) s else s

/-- R60, R69: an event made by a button: consumed in DARK, otherwise delivered after any settle. -/
def buttonEvent (e : PanelEvent) (s : State) : State := if s.dark then wake s else deliver e (settleNow s)

/-- R58, R68, R69: a step: consumed in DARK, otherwise applied to the open list and delivered. -/
def makeStep (up : Bool) (s : State) : State :=
  if s.dark then wake s else deliver (.step up) { s with pu := s.pu.step up s.now }

/-! ## Presses and releases (R56, R57, R61 to R66) -/

/-- R52, R61, R70: the earliest sample of the level that a key's line now reads: the first sample of RUN, or the one
after the sample at which the key's last press or release was accepted. -/
def State.steadyFrom (s : State) (k : Key) : Option Time :=
  let x := s.pu.key k
  let last := if x.down then some x.since else x.freed
  s.psp.runStart.map fun r =>
    match last with
    | some e => max r (e + panelSample)
    | none => r

/-- R61: the line of a key has been steady at every sample for its debounce time, by the reading and by the samples
that there can have been of it. -/
def State.debounced (s : State) (k : Key) (steady : Time) : Bool :=
  decide (s.psp.profile.debounceOf k ≤ steady) &&
    due ((s.steadyFrom k).map (· + s.psp.profile.debounceOf k)) s.now

/-- R61: the key exists and its line has been steady for its debounce time, in RUN (R52). -/
def State.accepts (s : State) (k : Key) (steady : Time) : Bool :=
  s.running && hasKey s.psp.panel k && s.debounced k steady

/-- R66: both buttons of the chord are down. -/
def PanelUnit.bothDown (pu : PanelUnit) : Bool := pu.help.down && pu.back.down

/-- R65: the HELP count returns to 0 and the window closes without an event. -/
def PanelUnit.clearHelp (pu : PanelUnit) : PanelUnit := { pu with helpCount := 0, helpWindow := none }

/-- R66: a press of HELP or BACK that finds the other down begins the chord, or joins the one in progress;
neither button makes a further event of its own. The chord timer starts, unless HUSH_TOGGLE has already
been delivered in this chord. -/
def PanelUnit.chordPress (pu : PanelUnit) (now : Time) : PanelUnit :=
  let fired := pu.chord && pu.chordFired
  let pu := ((pu.clearHelp.spend .help).spend .back)
  { pu with chord := true, chordFired := fired, chordTimer := if fired then none else some (now + chordTime) }

/-- R65: an accepted press of HELP counts, and opens or extends the window. -/
def PanelUnit.helpPress (pu : PanelUnit) (now : Time) : PanelUnit :=
  { pu with helpCount := min 3 (pu.helpCount + 1), helpWindow := some (now + helpTime) }

/-- R57: UP and DOWN held together are silent until their releases. -/
def PanelUnit.silence (pu : PanelUnit) : PanelUnit := { (pu.spend .up).spend .down with stepRepeat := none }

/-- The effects of a press of its own key, after the click; `awake` is whether the press was not consumed. -/
def pressEffect (k : Key) (awake : Bool) (s : State) : State :=
  match k with
  | .select => if awake then buttonEvent .select s else s
  | .start => s
  | .back => if s.pu.bothDown then { s with pu := s.pu.chordPress s.now } else s
  | .help =>
    if s.pu.bothDown then { s with pu := s.pu.chordPress s.now }
    else if awake then { s with pu := s.pu.helpPress s.now }
    else s
  | .up =>
    if s.pu.down.down then { s with pu := s.pu.silence }
    else if awake then
      makeStep true { s with pu := { s.pu with stepRepeat := some { up := true, due := s.now + firstRepeat } } }
    else s
  | .down =>
    if s.pu.up.down then { s with pu := s.pu.silence }
    else if awake then
      makeStep false { s with pu := { s.pu with stepRepeat := some { up := false, due := s.now + firstRepeat } } }
    else s

/-- R61, R67, R69: an accepted press: a wake in DARK, otherwise a click; then its own effects. -/
def pressKey (k : Key) (s : State) : State :=
  let awake := !s.dark
  let s := { s with pu := s.pu.setKey k { s.pu.key k with down := true, since := s.now, spent := !awake } }
  pressEffect k awake (if awake then vpClick s else wake s)

/-- R65: the HELP window closes with its event. HELP_2 describes the machine as it stands now, at the close of
the window (R112; DESIGN CHOICE, log 30). -/
def closeHelp (s : State) : State :=
  let n := s.pu.helpCount
  buttonEvent (.help n) { s with pu := s.pu.clearHelp }

/-- R66: a release of HELP or BACK within a chord stops its timer, and the chord ends when both are up. -/
def PanelUnit.chordRelease (pu : PanelUnit) : PanelUnit :=
  if pu.chord then
    let lasts := pu.help.down || pu.back.down
    { pu with chordTimer := none, chord := lasts, chordFired := lasts && pu.chordFired }
  else pu

/-- R63: the release of a BACK press that has made no event and has not passed its limit. -/
def releaseBack (was : KeyState) (s : State) : State :=
  let s := { s with pu := s.pu.chordRelease }
  if !was.spent && decide (s.now ≤ was.since + longHold) then buttonEvent .back s else s

/-- R64: the release of a START press. -/
def releaseStart (was : KeyState) (s : State) : State :=
  if !was.spent && decide (s.now ≤ was.since + startHoldTime) then buttonEvent .startShort s else s

/-- R65: the release of HELP closes a window whose 700 ms have passed. -/
def releaseHelp (s : State) : State :=
  let s := { s with pu := s.pu.chordRelease }
  if due s.pu.helpWindow s.now then closeHelp s else s

/-- R56: the release of a step key stops its repeat. -/
def PanelUnit.releaseStep (pu : PanelUnit) (up : Bool) : PanelUnit :=
  match pu.stepRepeat with
  | some r => if r.up = up then { pu with stepRepeat := none } else pu
  | none => pu

/-- R61: an accepted release. -/
def releaseKey (k : Key) (s : State) : State :=
  let was := s.pu.key k
  let s := { s with pu := s.pu.setKey k { was with down := false, freed := some s.now } }
  match k with
  | .select => s
  | .back => releaseBack was s
  | .start => releaseStart was s
  | .help => releaseHelp s
  | .up => { s with pu := s.pu.releaseStep true }
  | .down => { s with pu := s.pu.releaseStep false }

/-- R63 to R65: a hold limit is reached: the key is down, its press has made no event, and its time is up. -/
def State.held (s : State) (k : Key) (limit : Time) : Bool :=
  let x := s.pu.key k
  s.running && x.down && !x.spent && decide (x.since + limit ≤ s.now)

/-! ## The knob (R53 to R55) -/

/-- R53: a pair's place in the forward order 11, 01, 00, 10. -/
def pairPlace (a b : Bool) : Nat :=
  match a, b with
  | true, true => 0
  | false, true => 1
  | false, false => 2
  | true, false => 3

/-- R53, R54: quarter-steps from the reference pair to a sample: 1 forward, −1 backward, 0 for no transition and
for an invalid one. -/
def quarterOf (refA refB a b : Bool) : Int :=
  match (pairPlace a b + 4 - pairPlace refA refB) % 4 with
  | 1 => 1
  | 3 => -1
  | _ => 0

/-- R53 to R55: a sample taken: the reference follows, and the quarter count moves or makes a step. -/
def knobSample (a b : Bool) (s : State) : State :=
  let q := s.pu.quarter + quarterOf s.pu.refA s.pu.refB a b
  let s := { s with pu := { s.pu with refA := a, refB := b, quarter := if q = 4 ∨ q = -4 then 0 else q } }
  if q = 4 then makeStep true s else if q = -4 then makeStep false s else s

/-! ## Meanings -/

/-- KNOB_TRANSITION (R53), on a KNOB panel in RUN. -/
def execKnobTransition (t : Time) (a b : Bool) (s : State) : Host.Outcome State Fault Refusal :=
  let s := s.advance t
  .next (if s.running && s.psp.panel == .knob then knobSample a b s else s)

/-- KEY_PRESS_ACCEPTED (R61): the line has read low for the debounce time of a key that is up. -/
def execKeyPressAccepted (t : Time) (k : Key) (steady : Time) (s : State) : Host.Outcome State Fault Refusal :=
  let s := s.advance t
  .next (if s.accepts k steady && !(s.pu.key k).down then pressKey k s else s)

/-- KEY_RELEASE_ACCEPTED (R61): the line has read high for the debounce time of a key that is down. -/
def execKeyReleaseAccepted (t : Time) (k : Key) (steady : Time) (s : State) : Host.Outcome State Fault Refusal :=
  let s := s.advance t
  .next (if s.accepts k steady && (s.pu.key k).down then releaseKey k s else s)

/-- STEP_REPEAT (R56). -/
def execStepRepeat (t : Time) (s : State) : Host.Outcome State Fault Refusal :=
  let s := s.advance t
  .next
    (match s.pu.stepRepeat with
    | some r =>
      if s.running && decide (r.due ≤ s.now) then
        makeStep r.up { s with pu := { s.pu with stepRepeat := some { r with due := r.due + nextRepeat } } }
      else s
    | none => s)

/-- SETTLE_TIMEOUT (R59). -/
def execSettleTimeout (t : Time) (s : State) : Host.Outcome State Fault Refusal :=
  let s := s.advance t
  .next (if due s.pu.settle s.now then settleNow s else s)

/-- CANCEL_HOLD (R63). -/
def execCancelHold (t : Time) (s : State) : Host.Outcome State Fault Refusal :=
  let s := s.advance t
  .next (if s.held .back longHold then buttonEvent .cancelHold { s with pu := s.pu.spend .back } else s)

/-- START_HOLD (R64). -/
def execStartHold (t : Time) (s : State) : Host.Outcome State Fault Refusal :=
  let s := s.advance t
  .next (if s.held .start startHoldTime then buttonEvent .startHold { s with pu := s.pu.spend .start } else s)

/-- HELP_WINDOW_CLOSE (R65): the window's time has passed with HELP up. -/
def execHelpWindowClose (t : Time) (s : State) : Host.Outcome State Fault Refusal :=
  let s := s.advance t
  .next (if s.running && due s.pu.helpWindow s.now && !s.pu.help.down then closeHelp s else s)

/-- LANGUAGE_HOLD (R65, R115): HELP held for 2,000 ms. -/
def execLanguageHold (t : Time) (s : State) : Host.Outcome State Fault Refusal :=
  let s := s.advance t
  .next
    (if s.held .help longHold then buttonEvent .languageHold { s with pu := (s.pu.spend .help).clearHelp }
    else s)

/-- HUSH_TOGGLE (R66, R69, R110): the chord timer runs out. In DARK its event is consumed as the wake, so it has
not been delivered, and the chord can still deliver one. -/
def execHushToggle (t : Time) (s : State) : Host.Outcome State Fault Refusal :=
  let s := s.advance t
  .next
    (if s.running && due s.pu.chordTimer s.now then
      buttonEvent .hushToggle { s with pu := { s.pu with chordTimer := none, chordFired := s.pu.chordFired || !s.dark } }
    else s)

end Sys2Proof.Machine
end

