-- ==== Sys2Proof/Machine/Pins.lean ====
section
/-! DEFINITION. The levels of the output pins as functions of the state: LTX, AOUT, AMP_EN, the strobes and
segments of a slot, FCS_N, FSCK, FMOSI, and the bytes of a read transaction. LTX is `LinePort.ltx`.
Nothing here changes a state. -/

namespace Sys2Proof.Machine

/-! ## AOUT (R153) -/

/-- R153: the carrier period, 64 kHz: eight to a sample period. -/
def carrierPeriod : Time := 375

/-- R153: AOUT at a moment of the sample period under way: high for (v + 128) / 256 of each carrier period.
DESIGN CHOICE (log 22): the spec gives the share alone, and the high part stands at the beginning of the
carrier period. The spec gives the value 0 from the end of reset (R165); while RESET_N is held low the
pin is given the same half-duty wave. -/
def VoicePlayer.aoutHigh (vp : VoicePlayer) (now : Time) : Bool :=
  let within := (now - vp.periodStart.getD 0) % carrierPeriod
  decide ((256 * within : Int) < pwmDuty vp.aout * carrierPeriod)

/-! ## The panel strobes (R173) -/

/-- R173: the strobe of the slot under way is driven: for the first part of the slot, by the duty. -/
def Indicator.driven (i : Indicator) (now : Time) : Bool :=
  i.drive != .off && decide (100 * (now - i.slotStart) < i.duty * slotTime)

/-- R173: the strobe driven, if one is: 0..3 for DIG0..DIG3, 4 for LEDCOM. -/
def Indicator.strobe (i : Indicator) (now : Time) : Option Nat := if i.driven now then i.slot else none

/-! ## The phrase store port (R180) -/

/-- R180: the read whose transaction is under way at a moment, with the time it has run. An image read that
waits out the 500 ns has not begun. -/
def PhraseStore.transaction (psp : PhraseStore) (now : Time) : Option (ReadReq × Time) :=
  match psp.port with
  | .reading _ r ends _ =>
    let start := ends - readTime r.size
    if start ≤ now ∧ now < ends then some (r, now - start) else none
  | .idle | .gap _ => none

/-- R180: FCS_N is low (`true`) during a transaction and high otherwise. -/
def PhraseStore.selected (psp : PhraseStore) (now : Time) : Bool := (psp.transaction now).isSome

/-- R180: FSCK, low outside a transaction. In SPI mode 0 each period begins with its low half (log 22). -/
def PhraseStore.fsck (psp : PhraseStore) (now : Time) : Bool :=
  match psp.transaction now with
  | some (_, d) => decide (portBit / 2 ≤ d % portBit)
  | none => false

/-- R180: the command and address bytes of a read: 03h, then the address most significant byte first. -/
def readCommand (r : ReadReq) : List Byte :=
  [0x03#8, BitVec.ofNat 8 (r.addr / 65536), BitVec.ofNat 8 (r.addr / 256), BitVec.ofNat 8 r.addr]

/-- R180: the bits of FMOSI during the command and the address, each byte most significant bit first. -/
def commandBits (r : ReadReq) : List Bool :=
  (readCommand r).flatMap fun b => (List.range 8).map fun i => b.getLsbD (7 - i)

/-- R180: FMOSI, driven on the falling edges of FSCK: the command and the address, and low from reset until
the first transaction. `none` where the spec gives no level: past the address, and between two
transactions. -/
def PhraseStore.fmosi (psp : PhraseStore) (now : Time) : Option Bool :=
  match psp.transaction now with
  | some (r, d) => (commandBits r)[d / portBit]?
  | none =>
    match psp.phase with
    | .held | .straps | .strapHalt => some false
    | .image | .listen | .run => none

end Sys2Proof.Machine
end

