-- ==== Sys2Proof/Machine/QueueCommands.lean ====
section
/-! DEFINITION. The prompt queue's own timers: the meanings of QUEUE_ITEM_EXPIRE and CALL_TIMER_EXPIRE
(chapter 6). -/

namespace Sys2Proof.Machine

/-- R98: a queued item of the class has its expiry passed. -/
def PromptQueue.lapsed (pq : PromptQueue) (c : PromptClass) (now : Time) : Bool :=
  pq.items.any fun it => it.cls == c && it.expired now

/-- R106: whole minutes since the DONE-since time, at most 999. Where that time is absent (DONE reached by a
change of state that no rule dates) the spec gives no value: a free value (DESIGN CHOICE, log 26). -/
def minutesSince (since : Option Time) (now : Time) : Nat :=
  min 999
    (match since with
    | some d => (now - d) / (60 * second)
    | none => Config.unknownMinutes now)

/-- R91, R106: the parameters that a call timer's expiry reads. -/
def State.callParams (s : State) : Series → Params
  | .fault => .one s.pm.record.fault
  | .actionFirst | .actionSecond => .one s.pm.record.action
  | .payment => .one s.pm.record.credits
  | .unload => .one (minutesSince s.pq.doneSince s.now)

/-- R106: the expiry of a call timer. The timer stops; the class is triggered, without supersede, when the
condition holds and no item of the class is queued or current. -/
def callExpiry (r : Series) (s : State) : State :=
  let c := seriesClass r
  let s := { s with pq := s.pq.setSeries r { s.pq.series r with timer := none } }
  if s.holds (seriesKey r) && !s.pq.queued c && !s.pq.isCurrent c then
    triggerAs c (s.callParams r) (baseReach c) false (activity s)
  else s

/-! ## Meanings -/

/-- QUEUE_ITEM_EXPIRE (R98): the queued item of the class is removed when its expiry has passed. -/
def execQueueItemExpire (t : Time) (c : PromptClass) (s : State) : Host.Outcome State Fault Refusal :=
  let s := s.advance t
  .next
    (if s.pq.lapsed c s.now then
      { s with pq := { s.pq with items := s.pq.items.filter fun it => it.cls != c } }
    else s)

/-- CALL_TIMER_EXPIRE (R106). -/
def execCallTimerExpire (t : Time) (r : Series) (s : State) : Host.Outcome State Fault Refusal :=
  let s := s.advance t
  .next (if due (s.pq.series r).timer s.now then callExpiry r s else s)

end Sys2Proof.Machine
end

