-- ==== Sys2Proof/Machine/Startup.lean ====
section
/-! DEFINITION. Reset and start-up (chapter 11): the straps, the image reads, LISTEN and RUN; the meanings of
RESET, RESET_RELEASE, HEADER_READ_END, IMAGE_READ_END, LAMP_TEST_END, LISTEN_END and E1_WINDOW_END. -/

namespace Sys2Proof.Machine

/-! ## Straps (R186) -/

/-- R186: the machine number of the strap levels. -/
def strapMachine (straps : BitVec 8) : Nat := bits straps.toNat 0 5

/-- R186: the strapped language. -/
def strapLanguage (straps : BitVec 8) : Nat := bits straps.toNat 5 2

/-- R52, R186: the panel type. -/
def strapPanel (straps : BitVec 8) : PanelType := if straps.getLsbD 7 then .step else .knob

/-! ## Image reads (R180, R182, R183) -/

/-- R182: the header read. -/
def headerRead : ReadReq := { addr := 0, size := 32 }

/-- R183: the address and the size of an image read after the header's. -/
def imageReq (h : Header) : ImageRead → ReadReq
  | .header => headerRead
  | .profile => { addr := h.profileAdr, size := profileSize }
  | .tables => { addr := h.tablesAdr, size := tablesSize }
  | .language k => { addr := h.addrOf k, size := langSize }

/-- R183: the reads of IMAGE in their order. -/
def imageReads (h : Header) : List ImageRead :=
  [.profile, .tables] ++ ((List.range 4).filter h.present).map .language

/-- R183: the read that follows one, if there is one. -/
def nextRead (h : Header) (r : ImageRead) : Option ImageRead :=
  match r with
  | .header => (imageReads h).head?
  | _ => ((imageReads h).dropWhile (· != r)).tail.head?

/-- R180: an image read set to begin at `start`. The port is its from the asking on, since no other user asks
before RUN; FCS_N is high until `start` (`PhraseStore.selected`, log 18). -/
def PhraseStore.readImage (psp : PhraseStore) (h : Header) (r : ImageRead) (start : Time) : PhraseStore :=
  { psp with
    imageRead := some r
    port := .reading .image (imageReq h r) (start + readTime (imageReq h r).size) false }

/-- R183: the bytes of a read taken into the cache. The profile comes into force only as IMAGE ends (R185). -/
def PhraseStore.cache (psp : PhraseStore) (r : ImageRead) (data : List Byte) : PhraseStore :=
  match r with
  | .header => { psp with header := some (headerOf data) }
  | .profile => { psp with imageProfile := some (profileOf data) }
  | .tables => { psp with tables := some (tablesOf data) }
  | .language k => { psp with langs := psp.langs.set k (some (langBlockOf data)) }

/-! ## Phases (R187) -/

/-- R187, R18, R24: LISTEN begins: the line is watched, recessive or dominant from now, the
freshness timer starts, and the lamp test is lit. -/
def beginListen (recessive : Bool) (s : State) : State :=
  { s with
    psp := { s.psp.finish s.now with phase := .listen, imageRead := none, listenStart := some s.now }
    lp := { s.lp with
            idleSince := if recessive then some s.now else none
            recessiveSince := if recessive then some s.now else none
            dominantSince := if recessive then none else some s.now
            armed := false }
    pm := { s.pm with freshTimer := some (s.now + freshTime) }
    ind := { s.ind with lampTest := true } }

/-- R185: the image's profile comes into force as IMAGE ends. -/
def PhraseStore.adopt (psp : PhraseStore) : PhraseStore :=
  { psp with profile := psp.imageProfile.getD psp.profile }

/-- R114, R183: the languages fixed, as IMAGE ends. -/
def fixLanguages (k : Nat) (s : State) : State :=
  { s with cp := { s.cp with defaultLang := k, currentLang := k } }

/-- R184: tones-only mode. The profile and the generic tables are those of reset. -/
def tonesOnlyStart (recessive : Bool) (s : State) : State :=
  beginListen recessive
    (fixLanguages s.psp.strapLang { s with psp := { s.psp with tonesOnly := true } })

/-- R183, R185: an image read has ended: its block is cached, and the next read begins or IMAGE ends, with the
profile in force and the languages fixed. -/
def imageTake (r : ImageRead) (data : List Byte) (recessive : Bool) (s : State) : State :=
  let s := { s with psp := s.psp.cache r data }
  match s.psp.header.bind fun h => (nextRead h r).map fun n => (h, n) with
  | some (h, n) => { s with psp := s.psp.readImage h n (s.now + portGap) }
  | none => beginListen recessive (fixLanguages s.psp.defaultLang { s with psp := s.psp.adopt })

/-- R187, R172, R55: RUN begins. -/
def beginRun (a b : Bool) (s : State) : State :=
  takeHead
    { s with
      psp := { s.psp with phase := .run, runStart := some s.now }
      pu := { s.pu with refA := a, refB := b, quarter := 0 }
      au := { s.au.restart s.psp.profile s.now with state := .active } }

/-! ## Meanings -/

/-- RESET (R188): every block in its reset state. The clock goes on, and the waiting commands are no part of
the part. -/
def execReset (t : Time) (s : State) : Host.Outcome State Fault Refusal :=
  .next { State.reset with now := (s.advance t).now, pending := s.pending }

/-- RESET_RELEASE (R186, R187): the straps are read; machine number 0 halts, another begins IMAGE. -/
def execResetRelease (t : Time) (straps : BitVec 8) (s : State) : Host.Outcome State Fault Refusal :=
  let s := s.advance t
  let psp := { s.psp with
    machine := strapMachine straps, strapLang := strapLanguage straps, panel := strapPanel straps }
  .next
    (if s.psp.phase == .held then
      if strapMachine straps = 0 then { s with psp := { psp with phase := .strapHalt } }
      else
        { s with
          psp := { psp.grant .image headerRead s.now false with phase := .image, imageRead := some .header } }
    else s)

/-- HEADER_READ_END (R182, R184): the header is checked. -/
def execHeaderReadEnd (t : Time) (data : List Byte) (recessive : Bool) (s : State) :
    Host.Outcome State Fault Refusal :=
  let s := s.advance t
  .next
    (if s.psp.phase == .image && (s.psp.ended .image s.now).isSome && s.psp.imageRead == some .header then
      if headerPasses data then imageTake .header data recessive s else tonesOnlyStart recessive s
    else s)

/-- IMAGE_READ_END (R183). -/
def execImageReadEnd (t : Time) (data : List Byte) (recessive : Bool) (s : State) :
    Host.Outcome State Fault Refusal :=
  let s := s.advance t
  .next
    (match s.psp.imageRead with
    | some r =>
      if s.psp.phase == .image && (s.psp.ended .image s.now).isSome && r != .header then
        imageTake r data recessive s
      else s
    | none => s)

/-- LAMP_TEST_END (R187, R176, R178): 500 ms into LISTEN. -/
def execLampTestEnd (t : Time) (s : State) : Host.Outcome State Fault Refusal :=
  let s := s.advance t
  .next
    (if s.ind.lampTest && elapsed s.psp.listenStart lampTime s.now then
      { s with ind := { s.ind with lampTest := false, flashStart := some s.now, e1 := s.psp.tonesOnly } }
    else s)

/-- LISTEN_END (R187): 1,000 ms after LISTEN began. -/
def execListenEnd (t : Time) (a b : Bool) (s : State) : Host.Outcome State Fault Refusal :=
  let s := s.advance t
  .next
    (if s.psp.phase == .listen && elapsed s.psp.listenStart listenTime s.now then beginRun a b s else s)

/-- E1_WINDOW_END (R176): 3,000 ms after RUN began. -/
def execE1WindowEnd (t : Time) (s : State) : Host.Outcome State Fault Refusal :=
  let s := s.advance t
  .next
    (if elapsed s.psp.runStart e1Time s.now then { s with ind := { s.ind with e1 := false } } else s)

end Sys2Proof.Machine
end

