-- ==== Sys2Proof/Machine/VoiceCommands.lean ====
section
/-! DEFINITION. The ends and ticks of the voice player and of the phrase store port in RUN: the meanings of
REFILL_END, ARBITER_GRANT, UTTERANCE_PLAYED_WHOLE, CUT_COMPLETE, HARD_STOP_FADE, HARD_STOP,
TONE_SOUND_END, AMP_RELEASE_EXPIRE and SAMPLE_PERIOD (chapters 9 and 11). -/

namespace Sys2Proof.Machine

/-- R148: the end that a completed cut reports. -/
def cutItemEnd : Option CutEnd → ItemEnd
  | some .giveBack => .returned
  | some .discard | none => .dropped

/-- R158, R159, R147, R148: the stream sound is over. It stops, its end is reported, and the floor controller
goes on. -/
def soundOver (e : ItemEnd) (s : State) : State := fcAfterSound (endItem e (vpStop s))

/-- R159: the cut fade of a stream is over. The hard stop's own fade reports nothing (R160). -/
def Stream.cutOver (st : Stream) (now : Time) : Bool :=
  match st.early with
  | some e => !e.hard && decide (e.point + fadeTime ≤ now)
  | none => false

/-- R160: the hard stop's fade is to begin: H − 20 ms has come and no fade is running. -/
def Stream.fadesHard (st : Stream) (now : Time) : Bool :=
  let running : Bool :=
    match st.early with
    | some e => decide (e.point ≤ now)
    | none => false
  match st.hardStop with
  | some h => decide (h ≤ now + fadeTime) && !running
  | none => false

/-! ## Meanings -/

/-- REFILL_END (R155, R156): the refill has ended at the port, its last samples join the buffer, and a further one
is asked if there is room. -/
def execRefillEnd (t : Time) (data : List Byte) (s : State) : Host.Outcome State Fault Refusal :=
  let s := s.advance t
  .next
    (match s.psp.ended .refill s.now with
    | some _ => vpRefill (vpTakeRefill data { s with psp := s.psp.finish s.now })
    | none => s)

/-- ARBITER_GRANT (R181): the 500 ns gap is over. -/
def execArbiterGrant (t : Time) (s : State) : Host.Outcome State Fault Refusal :=
  let s := s.advance t
  .next
    (match s.psp.port with
    | .gap e => if e ≤ s.now then { s with psp := s.psp.arbitrate s.now } else s
    | .idle | .reading _ _ _ _ => s)

/-- UTTERANCE_PLAYED_WHOLE (R147, R158, R163): the last sample has been presented. -/
def execUtterancePlayedWhole (t : Time) (s : State) : Host.Outcome State Fault Refusal :=
  let s := s.advance t
  .next
    (match s.vp.stream with
    | some st => if st.early.isNone && decide (st.wholeAt ≤ s.now) then soundOver .said s else s
    | none => s)

/-- CUT_COMPLETE (R148, R159): the cut fade has ended. -/
def execCutComplete (t : Time) (s : State) : Host.Outcome State Fault Refusal :=
  let s := s.advance t
  .next
    (match s.vp.stream with
    | some st => if st.cutOver s.now then soundOver (cutItemEnd s.fc.cutOrder) s else s
    | none => s)

/-- HARD_STOP_FADE (R160): 20 ms before the hard stop, with no fade running. -/
def execHardStopFade (t : Time) (s : State) : Host.Outcome State Fault Refusal :=
  let s := s.advance t
  .next
    (match s.vp.stream with
    | some st => if st.fadesHard s.now then vpHardFade s else s
    | none => s)

/-- HARD_STOP (R160, R148): the hard stop ends the sound, with the item DROPPED whatever cut was ordered. -/
def execHardStop (t : Time) (s : State) : Host.Outcome State Fault Refusal :=
  let s := s.advance t
  .next
    (match s.vp.stream with
    | some st => if due st.hardStop s.now then soundOver .dropped s else s
    | none => s)

/-- TONE_SOUND_END (R164): the click's 40th or the buzz's 1,200th sample is over. -/
def execToneSoundEnd (t : Time) (s : State) : Host.Outcome State Fault Refusal :=
  let s := s.advance t
  .next
    (match s.vp.tone with
    | some x =>
      if x.ends ≤ s.now then { s with vp := VoicePlayer.ampIdle { s.vp with tone := none } s.now } else s
    | none => s)

/-- AMP_RELEASE_EXPIRE (R164): AMP_EN goes low. -/
def execAmpReleaseExpire (t : Time) (s : State) : Host.Outcome State Fault Refusal :=
  let s := s.advance t
  .next
    (if due s.vp.ampRelease s.now then { s with vp := { s.vp with ampEn := false, ampRelease := none } }
    else s)

/-- SAMPLE_PERIOD (R153, R155): a sample period begins. The output runs from the end of reset. -/
def execSamplePeriod (t : SampleTick) (s : State) : Host.Outcome State Fault Refusal :=
  let s := s.advance t.moment
  .next (if s.psp.phase != .held && s.vp.newPeriod s.now then vpSample t.bytes s else s)

end Sys2Proof.Machine
end

