-- ==== Sys2Proof/Machine/Dispatch.lean ====
section
/-! DEFINITION. The meaning of every command, one arm for each row of the table. -/

namespace Sys2Proof.Machine

def exec (i : Instr) (s : State) : Host.Outcome State Fault Refusal :=
  match i with
  | .reset t => Sys2Proof.Machine.execReset t s
  | .resetRelease t straps => Sys2Proof.Machine.execResetRelease t straps s
  | .headerReadEnd t data recessive => Sys2Proof.Machine.execHeaderReadEnd t data recessive s
  | .imageReadEnd t data recessive => Sys2Proof.Machine.execImageReadEnd t data recessive s
  | .lampTestEnd t => Sys2Proof.Machine.execLampTestEnd t s
  | .listenEnd t a b => Sys2Proof.Machine.execListenEnd t a b s
  | .e1WindowEnd t => Sys2Proof.Machine.execE1WindowEnd t s
  | .receptionClose t => Sys2Proof.Machine.execReceptionClose t s
  | .lineHeldSet t => Sys2Proof.Machine.execLineHeldSet t s
  | .lineHeldClear t => Sys2Proof.Machine.execLineHeldClear t s
  | .attemptStart t => Sys2Proof.Machine.execAttemptStart t s
  | .attemptWithdrawn t => Sys2Proof.Machine.execAttemptWithdrawn t s
  | .transmissionComplete t => Sys2Proof.Machine.execTransmissionComplete t s
  | .freshnessTimeout t => Sys2Proof.Machine.execFreshnessTimeout t s
  | .requestDeadline t => Sys2Proof.Machine.execRequestDeadline t s
  | .rosterEntryExpire t machine => Sys2Proof.Machine.execRosterEntryExpire t machine s
  | .knobTransition t a b => Sys2Proof.Machine.execKnobTransition t a b s
  | .keyPressAccepted t k steady => Sys2Proof.Machine.execKeyPressAccepted t k steady s
  | .keyReleaseAccepted t k steady => Sys2Proof.Machine.execKeyReleaseAccepted t k steady s
  | .stepRepeat t => Sys2Proof.Machine.execStepRepeat t s
  | .settleTimeout t => Sys2Proof.Machine.execSettleTimeout t s
  | .cancelHold t => Sys2Proof.Machine.execCancelHold t s
  | .startHold t => Sys2Proof.Machine.execStartHold t s
  | .helpWindowClose t => Sys2Proof.Machine.execHelpWindowClose t s
  | .languageHold t => Sys2Proof.Machine.execLanguageHold t s
  | .hushToggle t => Sys2Proof.Machine.execHushToggle t s
  | .queueItemExpire t c => Sys2Proof.Machine.execQueueItemExpire t c s
  | .callTimerExpire t r => Sys2Proof.Machine.execCallTimerExpire t r s
  | .composerReadEnd t data => Sys2Proof.Machine.execComposerReadEnd t data s
  | .compositionEnd t => Sys2Proof.Machine.execCompositionEnd t s
  | .currentItemExpire t => Sys2Proof.Machine.execCurrentItemExpire t s
  | .viewEntryExpire t addr => Sys2Proof.Machine.execViewEntryExpire t addr s
  | .crowdedClear t => Sys2Proof.Machine.execCrowdedClear t s
  | .claimStands t addr => Sys2Proof.Machine.execClaimStands t addr s
  | .contestWindowEnd t => Sys2Proof.Machine.execContestWindowEnd t s
  | .refillEnd t data => Sys2Proof.Machine.execRefillEnd t data s
  | .arbiterGrant t => Sys2Proof.Machine.execArbiterGrant t s
  | .utterancePlayedWhole t => Sys2Proof.Machine.execUtterancePlayedWhole t s
  | .cutComplete t => Sys2Proof.Machine.execCutComplete t s
  | .hardStopFade t => Sys2Proof.Machine.execHardStopFade t s
  | .hardStop t => Sys2Proof.Machine.execHardStop t s
  | .spacingEnd t => Sys2Proof.Machine.execSpacingEnd t s
  | .toneSoundEnd t => Sys2Proof.Machine.execToneSoundEnd t s
  | .ampReleaseExpire t => Sys2Proof.Machine.execAmpReleaseExpire t s
  | .dimTimeout t => Sys2Proof.Machine.execDimTimeout t s
  | .darkTimeout t => Sys2Proof.Machine.execDarkTimeout t s
  | .repromptTimeout t => Sys2Proof.Machine.execRepromptTimeout t s
  | .samplePeriod t => Sys2Proof.Machine.execSamplePeriod t s
  | .startBitEdge t glitch => Sys2Proof.Machine.execStartBitEdge t glitch s
  | .byteReceived t b stop => Sys2Proof.Machine.execByteReceived t b stop s
  | .multiplexSlot t => Sys2Proof.Machine.execMultiplexSlot t s

end Sys2Proof.Machine
end

