-- ==== Sys2Proof/Safety.lean ====
section
/-! DEFINITION. What counts as a lawful state: the laws that the spec says hold at all times, each under the
rule that owns it, and the parts of a state that a family of commands leaves as they are. -/

namespace Sys2Proof.Machine

/-! ## Laws -/

/-- R94: the queue never holds more than 8 items nor two of one class, and stands in class order. -/
def QueueLaw (s : State) : Prop :=
  s.pq.items.Pairwise (fun a b => a.rank < b.rank) ∧ s.pq.items.length ≤ Config.queueCapacity

/-- R131: the view never holds more than 8 entries, more than one for an address, one from the own address or
from an address that is no station's. Before the straps are read the view is empty. -/
def ViewLaw (s : State) : Prop :=
  s.fc.view.Pairwise (fun a b => a.addr < b.addr) ∧ s.fc.view.length ≤ Config.viewCapacity ∧
    (∀ e ∈ s.fc.view, 33 ≤ e.addr ∧ e.addr ≤ 63 ∧ e.addr ≠ s.ownAddress) ∧
    (s.psp.phase = .held → s.fc.view = [])

/-- R41: the roster holds at most one entry for each machine number 1..31 other than the partner's. Before the
straps are read it is empty. -/
def RosterLaw (s : State) : Prop :=
  s.roster.Pairwise (fun a b => a.machine < b.machine) ∧
    (∀ e ∈ s.roster, 1 ≤ e.machine ∧ e.machine ≤ 31 ∧ e.machine ≠ s.psp.machine) ∧
    (s.psp.phase = .held → s.roster = [])

/-- R9: the transmit queue holds at most one frame of each kind. -/
def TransmitLaw (s : State) : Prop := (s.lp.queue.map Place.kind).Nodup

/-- R7, R16: the error count stays within 0..31, and DEGRADED stands by its thresholds. -/
def CountLaw (s : State) : Prop :=
  s.lp.errCount ≤ 31 ∧ (24 ≤ s.lp.errCount → s.lp.degraded = true) ∧
    (s.lp.errCount ≤ 8 → s.lp.degraded = false)

/-- R17, R18: nothing is transmitted while CLASH is latched, nor outside RUN. -/
def SilenceLaw (s : State) : Prop :=
  (s.lp.clash = true → s.lp.queue = [] ∧ s.lp.tx = none) ∧ (s.psp.phase ≠ .run → s.lp.tx = none)

/-- R58: an open list has a length of 1..16, and the position and the snapshot lie within it. The program
tables, which give the lists their lengths, have 1..16 programs (R73). -/
def PanelLaw (s : State) : Prop :=
  (∀ l, s.pu.listLen = some l → 1 ≤ l ∧ l ≤ 16 ∧ s.pu.position < l ∧ s.pu.snapshot < l) ∧
    (∀ t, s.psp.tables = some t → ∀ k : MachineKind, 1 ≤ (s.psp.tableFor k).count ∧
      (s.psp.tableFor k).count ≤ 16)

/-- R128 to R130: an utterance as the composer hands it over, or as SOLO lowers it. -/
def Utterance.lawful (u : Utterance) : Prop :=
  u.units = utteranceUnits u.reach u.gap u.entries ∧ 1 ≤ u.units ∧ u.units ≤ Config.maxUtterance ∧
    u.floor = floorUnits u.units ∧ u.entries.length ≤ Config.entryCapacity ∧
    ∃ id addr len, Entry.clip id addr len ∈ u.entries ∧ 1 ≤ len

/-- R146: a CLAIM frame that carries floor units within 1..255. -/
def claimFrame (bytes : List Byte) : Prop :=
  ∃ own level reach units, 1 ≤ units ∧ units ≤ 255 ∧
    bytes = buildFrame .claim own (claimPayload level reach units)

/-- R116, R125, R126: the entries a composition has gathered, with room left while it reads a clip's directory
entry, and its result. -/
def Work.lawful (w : Work) : Prop :=
  w.entries.length ≤ Config.entryCapacity ∧
    (∀ id addr len, Entry.clip id addr len ∈ w.entries → 1 ≤ len) ∧
    (∀ id more rest, w.stage = .entry id more rest → w.entries.length < Config.entryCapacity) ∧
    ∀ u, w.stage = .finished (some u) → u.lawful

/-- R129, R146: every CLAIM in the list or on the line carries floor units within 1..255; the current utterance
and the composition are lawful, and a playback that has begun began in the past. -/
def UnitsLaw (s : State) : Prop :=
  (∀ p ∈ s.lp.queue, p.kind = .claim → claimFrame p.bytes) ∧
    (∀ x, s.lp.tx = some x → x.kind = .claim → claimFrame x.bytes) ∧
    (∀ u, s.fc.utterance = some u → u.lawful) ∧ (∀ w, s.cp.work = some w → w.lawful) ∧
    ∀ p, s.fc.playStart = some p → p ≤ s.now

/-- R144: the stream channel sounds only in SPEAKING. A composition runs only in IDLE, for the item taken
(R137). -/
def SpeakLaw (s : State) : Prop :=
  (s.vp.stream.isSome → s.fc.state = .speaking) ∧
    (s.cp.work.isSome → s.fc.state = .idle ∧ s.fc.item.isSome)

/-- R77: a selection is open only while the partner is FRESH and FREE or READY, and the dialogue awaits an answer only
while a request is in flight. -/
def DialogueLaw (s : State) : Prop :=
  (s.dc.state.selecting = true → s.selectable = true) ∧
    (s.dc.state = .awaitAnswer → s.pm.inFlight.isSome = true)

/-! ## What a report says -/

/-- R91, R92: the classes that an entry of a report triggers, in their order, with their parameters; `r` is the
record, and `announce` the profile's phase-announce flag. -/
def ReportEntry.triggers (r : Record) (announce : Bool) : ReportEntry → List (PromptClass × Params)
  | .partnerLost => [(.partnerLost, .zero)]
  | .cleared k => if k = .fault then [(.faultCleared, .zero)] else []
  | .started => [(.started, .two r.program (minutesParam r.minutes))]
  | .paused => [(.paused, .one (minutesParam r.minutes))]
  | .resumed => [(.resumed, .one (minutesParam r.minutes))]
  | .cycleDone => [(.cycleDone, .one r.program), (.freeMachines, .zero)]
  | .outOfService => [(.outOfService, .zero)]
  | .paymentDue c => [(.paymentDue, .one c)]
  | .action c => [(.actionNeeded, .one c)]
  | .fault c => [(.faultCall, .one c)]
  | .phase p => if announce then [(.phaseChange, .one (phaseCode p))] else []
  | .timeCall m => [(.timeCall, .one m)]
  | .partnerBack | .baseline _ | .lossEnd _ => []

/-- R107, R108: an entry of a machine report sets a series back to count 0 with its timer stopped: the event that
triggers the series' class, or the end of its condition. -/
def ReportEntry.resets : ReportEntry → Series → Bool
  | .fault _, r => r == .fault
  | .action _, r => r == .actionFirst || r == .actionSecond
  | .paymentDue _, r => r == .payment
  | .cycleDone, r => r == .unload
  | .cleared k, r => seriesKey r == k
  | _, _ => false

/-- R31: the place of an entry in a machine report: the condition ends, the state event, then the events of R29
in the order of its table. -/
def ReportEntry.place : ReportEntry → Nat
  | .cleared _ => 0
  | .paymentDue _ => 2
  | .action _ => 3
  | .fault _ => 4
  | .phase _ => 5
  | .timeCall _ => 6
  | _ => 1

/-- R99, R107: the queue without the items that an entry of a machine report removes: those of the condition that
has ended, or an ACTION_CALL at a new action code. -/
def ReportEntry.clears : ReportEntry → List Item → List Item
  | .cleared k, items => items.filter fun it => it.key != k
  | .action _, items => items.filter fun it => it.cls != .actionCall
  | _, items => items

/-! ## What commands leave as it is -/

/-- The line port without its transmit queue and attempt. -/
def LinePort.settled (lp : LinePort) : LinePort := { lp with queue := [], tx := none }

/-- The phrase store port without its arbiter: the phase, the straps and the cache. -/
def PhraseStore.settled (psp : PhraseStore) : PhraseStore :=
  { psp with port := .idle, waitRefill := none, waitComposer := none }

/-- The floor view with CROWDED, alone of the floor controller. -/
def Floor.heard (fc : Floor) : Floor := { Floor.reset with view := fc.view, crowded := fc.crowded }

/-- What the speaking side leaves as it is: all but the prompt queue, the floor controller's own state, the
transmit queue, the composition, the sounds and the arbiter. -/
def State.outside (s : State) : State :=
  { s with
    pq := .reset
    fc := s.fc.heard
    lp := s.lp.settled
    cp := { s.cp with work := none }
    vp := { VoicePlayer.reset with aout := s.vp.aout, periodStart := s.vp.periodStart }
    psp := s.psp.settled }

/-- What a trigger with its activity leaves as it is: also the attention unit aside. -/
def State.beyond (s : State) : State := { s.outside with au := .reset }

/-- What the dialogue leaves as it is: also the panel unit, the dialogue controller and the tracker aside. -/
def State.remote (s : State) : State :=
  { s.beyond with
    pu := .reset
    dc := .reset
    pm := { s.pm with inFlight := none, lastMark := false } }

/-- What the panel's commands leave as it is: also the current language aside. -/
def State.apart (s : State) : State := { s.remote with cp := { s.remote.cp with currentLang := 0 } }

/-- What the partner monitor and the roster leave as it is: also the partner record, the freshness and the roster
aside. -/
def State.room (s : State) : State := { s.apart with pm := .reset, roster := [] }

/-- What the line's commands leave as it is: also the line port and the floor view aside. It is the phrase store
port without its arbiter, the default language, the value at AOUT and the indicator driver. -/
def State.still (s : State) : State := { s.room with lp := .reset, fc := .reset }

end Sys2Proof.Machine
end

