-- ==== Sys2Proof/Certificates/Slice0/Obligations.lean ====
section
/-! DEFINITION. The statements for the provers. In each, `a` is the state `s` with the clock moved to the moment
`t` of the command, and `u` is the state after it. A command that comes after its moment is taken when it
comes, and one that comes before the clock at the clock: every timed statement rests there on log 1, which
is the model's choice. Where a statement rests on another choice of the model's, its docstring names the
log entry. -/

open Sys2Proof Sys2Proof.Machine

/-! ## The machine -/

/-- A step runs the command at the front of the queue with the queue's rest. With no command waiting the block
idles, which is the model's choice (log 2). -/
def Obligations.StepRunsTheFrontCommand : Prop :=
  (∀ (c : Instr) (rest : List Instr) (s : State),
    step { s with pending := c :: rest } = exec c { s with pending := rest }) ∧
  ∀ s : State, s.pending = [] → step s = .next s

/-- RESET (R188) puts every block in its reset state: the whole part is `State.reset`, but for the model's clock
and its waiting commands. The values of that state that the spec gives are spelled out, with no timer
running and nothing under way; the reference pair, the two languages and the strap fields are the model's
choice (log 3) and left out, with the model's own bookkeeping of a moment or of a chord. -/
def Obligations.ResetRestoresEveryBlock : Prop :=
  (∀ (t : Time) (s : State), exec (.reset t) s =
    .next { State.reset with now := max s.now t, pending := s.pending }) ∧
  (State.reset.psp.phase = .held ∧ State.reset.psp.tonesOnly = false ∧ State.reset.psp.port = .idle ∧
    State.reset.psp.waitRefill = none ∧ State.reset.psp.waitComposer = none ∧
    State.reset.psp.header = none ∧ State.reset.psp.tables = none ∧ State.reset.psp.profile = Profile.dflt ∧
    State.reset.psp.imageProfile = none ∧ State.reset.psp.langs = [none, none, none, none] ∧
    State.reset.psp.imageRead = none) ∧
  (State.reset.lp.queue = [] ∧ State.reset.lp.tx = none ∧ State.reset.lp.errCount = 0 ∧
    State.reset.lp.mode = .normal ∧ State.reset.lp.degraded = false ∧ State.reset.lp.lineHeld = false ∧
    State.reset.lp.clash = false ∧ State.reset.lp.claimOut = false ∧ State.reset.lp.rx = none) ∧
  (State.reset.pm.record = Record.zero ∧ State.reset.pm.freshness = .none ∧
    State.reset.pm.freshTimer = none ∧ State.reset.pm.inFlight = none ∧
    State.reset.pm.lastMark = false ∧ State.reset.roster = []) ∧
  (State.reset.pu.quarter = 0 ∧ State.reset.pu.listLen = none ∧ State.reset.pu.position = 0 ∧
    State.reset.pu.snapshot = 0 ∧ State.reset.pu.settle = none ∧ State.reset.pu.stepRepeat = none ∧
    State.reset.pu.helpCount = 0 ∧ State.reset.pu.helpWindow = none ∧ State.reset.pu.chord = false ∧
    State.reset.pu.chordTimer = none ∧
    ∀ k, (State.reset.pu.key k).down = false) ∧
  (State.reset.dc.state = .view ∧ State.reset.dc.program = 0 ∧ State.reset.dc.options = 0 ∧
    State.reset.dc.cursor = 0 ∧ State.reset.dc.ret = none) ∧
  (State.reset.pq.items = [] ∧ State.reset.pq.current = none ∧ State.reset.pq.hush = false ∧
    State.reset.pq.last = none ∧ State.reset.pq.doneSince = none ∧
    ∀ r, State.reset.pq.series r = { timer := none, count := 0 }) ∧
  (State.reset.fc.state = .idle ∧ State.reset.fc.view = [] ∧ State.reset.fc.crowded = none ∧
    State.reset.fc.item = none ∧ State.reset.fc.utterance = none ∧ State.reset.fc.contestEnd = none ∧
    State.reset.fc.reasserted = [] ∧ State.reset.fc.releasePending = false ∧
    State.reset.fc.cutOrder = none ∧ State.reset.fc.spacing = none) ∧
  (State.reset.vp.stream = none ∧ State.reset.vp.tone = none ∧ State.reset.vp.buffer = [] ∧
    State.reset.vp.refill = none ∧ State.reset.vp.fetch = none ∧ State.reset.vp.ampEn = false ∧
    State.reset.vp.ampRelease = none ∧ State.reset.vp.aout = 0) ∧
  (State.reset.au.state = .active ∧ State.reset.au.dim = none ∧ State.reset.au.dark = none ∧
    State.reset.au.reprompt = none ∧ State.reset.au.count = 0) ∧
  (State.reset.ind.drive = .off ∧ State.reset.ind.lampTest = false ∧ State.reset.ind.e1 = false) ∧
  State.reset.cp.work = none

/-- The state after reset meets every law. -/
def Obligations.ResetMeetsTheLaws : Prop :=
  QueueLaw State.reset ∧ ViewLaw State.reset ∧ RosterLaw State.reset ∧ TransmitLaw State.reset ∧
    CountLaw State.reset ∧ SilenceLaw State.reset ∧ PanelLaw State.reset ∧ UnitsLaw State.reset ∧
    SpeakLaw State.reset ∧ DialogueLaw State.reset

/-! ## Laws that every step keeps -/

/-- R94: the prompt queue stays in class order, with at most 8 items and no two of one class. -/
def Obligations.StepKeepsTheQueueInOrder : Prop :=
  ∀ s u : State, QueueLaw s → step s = .next u → QueueLaw u

/-- R131: the floor view stays within 8 entries, one for an address, none of the own address. -/
def Obligations.StepKeepsTheView : Prop :=
  ∀ s u : State, ViewLaw s → step s = .next u → ViewLaw u

/-- R41: the roster keeps at most one entry for each machine number 1..31 other than the partner's. -/
def Obligations.StepKeepsTheRoster : Prop :=
  ∀ s u : State, RosterLaw s → step s = .next u → RosterLaw u

/-- R9: the transmit queue keeps at most one frame of each kind. -/
def Obligations.StepKeepsOneFrameOfAKind : Prop :=
  ∀ s u : State, TransmitLaw s → step s = .next u → TransmitLaw u

/-- R7, R16: the receive error count stays within 0..31, and DEGRADED stands by its thresholds, so the line mode
is SOLO whenever the count is 24 or more. -/
def Obligations.StepKeepsTheErrorCount : Prop :=
  ∀ s u : State, CountLaw s → step s = .next u →
    CountLaw u ∧ (24 ≤ u.lp.errCount ∨ u.lp.lineHeld = true ∨ u.lp.clash = true → u.lp.mode = .solo)

/-- R17, R18: nothing is transmitted while CLASH is latched, nor outside RUN, so LTX is released. That an attempt
under way stops where CLASH latches is the model's choice (log 8, DEDUCED): R16 lets a frame run on, and R17
lets none be transmitted. -/
def Obligations.StepKeepsTheLineSilent : Prop :=
  ∀ s u : State, SilenceLaw s → step s = .next u →
    SilenceLaw u ∧ (u.lp.clash = true ∨ u.psp.phase ≠ .run → ∀ n, u.lp.ltx n = true)

/-- R58, R73: an open list keeps a length of 1..16 with the position and the snapshot in it. -/
def Obligations.StepKeepsThePanelInItsList : Prop :=
  ∀ s u : State, PanelLaw s → step s = .next u → PanelLaw u

/-- R129, R146: every CLAIM that is queued or on the line carries floor units within 1..255. -/
def Obligations.StepKeepsClaimsWithinFloorUnits : Prop :=
  ∀ s u : State, UnitsLaw s → step s = .next u → UnitsLaw u

/-- R144: the stream channel sounds only in SPEAKING. R137, R138: a composition runs only in IDLE, with an item
taken. -/
def Obligations.StepSoundsOnlyInSpeaking : Prop :=
  ∀ s u : State, SpeakLaw s → step s = .next u → SpeakLaw u

/-- R77, R86: a selection is open only while the partner can take one, and an answer is awaited only while a
request is in flight. -/
def Obligations.StepKeepsTheDialogueHonest : Prop :=
  ∀ s u : State, DialogueLaw s → step s = .next u → DialogueLaw u

/-! ## Frames -/

/-- What the composer, the voice player, the port and the floor controller's own timers leave as it is: the
partner, the roster, the panel, the dialogue, the attention unit, the indicator, the received side of
the line, the floor view, the languages, the image cache, the value at AOUT. -/
def Obligations.SpeakingCommandsFrame : Prop :=
  ∀ (t : Time) (d : List Byte) (c : PromptClass) (i : Instr) (s u : State),
    i ∈ [.composerReadEnd t d, .compositionEnd t, .currentItemExpire t, .contestWindowEnd t, .refillEnd t d,
      .arbiterGrant t, .utterancePlayedWhole t, .cutComplete t, .hardStopFade t, .hardStop t, .spacingEnd t,
      .queueItemExpire t c] →
    exec i s = .next u → u.outside = (s.advance t).outside

/-- What the view's timers leave as it is: the same, but for the view and CROWDED. -/
def Obligations.ViewTimersFrame : Prop :=
  ∀ (t : Time) (n : Nat) (i : Instr) (s u : State),
    i ∈ [.viewEntryExpire t n, .crowdedClear t, .claimStands t n] → exec i s = .next u →
    { u.outside with fc := .reset } = { (s.advance t).outside with fc := .reset }

/-- What call timers, the dim timer and the reprompt leave as it is: the partner, the roster, the panel,
the dialogue, the indicator, the line's received side, the floor view and the image cache. -/
def Obligations.TimedPromptsFrame : Prop :=
  ∀ (t : Time) (r : Series) (i : Instr) (s u : State),
    i ∈ [.callTimerExpire t r, .dimTimeout t, .repromptTimeout t] → exec i s = .next u →
    u.beyond = (s.advance t).beyond

/-- What the panel's commands and DARK leave as it is: the partner record and its freshness, the roster, the
indicator, the line's received side, the error count, the floor view, the image cache, AOUT. -/
def Obligations.PanelCommandsFrame : Prop :=
  ∀ (t : Time) (x y : Bool) (k : Key) (d : Time) (i : Instr) (s u : State),
    i ∈ [.knobTransition t x y, .keyPressAccepted t k d, .keyReleaseAccepted t k d, .stepRepeat t,
      .settleTimeout t, .cancelHold t, .startHold t, .helpWindowClose t, .languageHold t, .hushToggle t,
      .darkTimeout t] →
    exec i s = .next u → u.apart = (s.advance t).apart

/-- What the partner's timers leave as it is: the indicator, the line's received side, the error count, the
floor view, the image cache, the default language, AOUT. -/
def Obligations.PartnerTimersFrame : Prop :=
  ∀ (t : Time) (i : Instr) (s u : State),
    i ∈ [.freshnessTimeout t, .requestDeadline t] → exec i s = .next u → u.room = (s.advance t).room

/-- What the line's commands leave as it is: the phase, the straps and the image cache, the default language,
the value at AOUT and the indicator. -/
def Obligations.LineCommandsFrame : Prop :=
  ∀ (t : Time) (b : Byte) (x : Bool) (g : Option Time) (i : Instr) (s u : State),
    i ∈ [.receptionClose t, .lineHeldSet t, .lineHeldClear t, .attemptStart t, .attemptWithdrawn t,
      .transmissionComplete t, .startBitEdge t g, .byteReceived t b x] →
    exec i s = .next u → u.still = (s.advance t).still

/-- The outputs' own ticks: a sample period and the ends of tones and of the amplifier's release change the voice
player and the port's arbiter alone; a slot, the lamp test's end and the E1 window's end change the
indicator driver alone. -/
def Obligations.OutputTicksFrame : Prop :=
  (∀ (t : Time) (d : List Byte) (i : Instr) (s u : State),
    i ∈ [.samplePeriod { moment := t, bytes := d }, .toneSoundEnd t, .ampReleaseExpire t] → exec i s = .next u →
    { u with vp := .reset, psp := u.psp.settled } =
      { s.advance t with vp := .reset, psp := s.psp.settled }) ∧
  ∀ (t : Time) (i : Instr) (s u : State),
    i ∈ [.multiplexSlot t, .lampTestEnd t, .e1WindowEnd t] → exec i s = .next u →
    { u with ind := .reset } = { s.advance t with ind := .reset }

/-- What start-up leaves as it is: the transmit queue and the error count, the partner record, the roster, the
panel, the dialogue, the prompt queue, the floor, the sounds and the attention unit. -/
def Obligations.StartUpFrame : Prop :=
  ∀ (t : Time) (x : BitVec 8) (d : List Byte) (b : Bool) (i : Instr) (s u : State),
    i ∈ [.resetRelease t x, .headerReadEnd t d b, .imageReadEnd t d b] → exec i s = .next u →
    { u with
      psp := .reset, ind := .reset, cp := { u.cp with defaultLang := 0, currentLang := 0 },
      lp := { u.lp with armed := false, idleSince := none, recessiveSince := none, dominantSince := none },
      pm := { u.pm with freshTimer := none } } =
    { s.advance t with
      psp := .reset, ind := .reset, cp := { s.cp with defaultLang := 0, currentLang := 0 },
      lp := { s.lp with armed := false, idleSince := none, recessiveSince := none, dominantSince := none },
      pm := { s.pm with freshTimer := none } }

/-! ## Start-up (chapter 11) -/

/-- RESET_RELEASE (R186): out of reset the straps are read. Machine number 0 halts the part; another begins the
header read, 32 bytes at address 0, which takes 36 bytes' time at the port (R180). -/
def Obligations.ResetReleaseReadsTheStraps : Prop :=
  ∀ (t : Time) (x : BitVec 8) (s a : State), a = s.advance t → s.psp.phase = .held →
    ∃ u, exec (.resetRelease t x) s = .next u ∧
      u.psp.machine = x.toNat % 32 ∧ u.psp.strapLang = x.toNat / 32 % 4 ∧
      u.psp.panel = (if x.getLsbD 7 then .step else .knob) ∧
      (x.toNat % 32 = 0 → u.psp.phase = .strapHalt ∧ u.psp.port = s.psp.port) ∧
      (x.toNat % 32 ≠ 0 → u.psp.phase = .image ∧ u.psp.imageRead = some .header ∧
        u.psp.port = .reading .image { addr := 0, size := 32 } (a.now + 36 * portByte) false)

/-- HEADER_READ_END (R180, R182, R184, R187, R24): a header that passes its check is cached and the profile read
follows 500 ns later, a read of n bytes taking 4 + n bytes' time at the port (R180); one that fails sets
tones-only mode, with both languages the strapped one, and LISTEN begins with the lamp test lit and the
freshness timer's 6 s running (R24). IMAGE_READ_END (R183, R185): the profile is
cached, with the profile in force as it was, and the tables' read follows; the tables are cached, and the
block of the first language present follows; after a language block comes that of the next one present;
after the last of them IMAGE ends, the image's profile is in force, the languages are fixed and LISTEN
begins. That each block is one transaction with the 500 ns before it is the model's choice (log 18,
DEDUCED). -/
def Obligations.ImageIsReadBlockByBlock : Prop :=
  (∀ (t : Time) (d : List Byte) (b : Bool) (q : ReadReq) (e : Time) (z : Bool) (s a : State), a = s.advance t →
     s.psp.phase = .image → s.psp.imageRead = some .header → s.psp.port = .reading .image q e z → e ≤ a.now →
     ∃ u, exec (.headerReadEnd t d b) s = .next u ∧
       (headerPasses d = true → u.psp.phase = .image ∧ u.psp.header = some (headerOf d) ∧
         u.psp.imageRead = some .profile ∧ u.psp.tonesOnly = s.psp.tonesOnly ∧
         u.psp.port = .reading .image { addr := (headerOf d).profileAdr, size := 10 }
           (a.now + portGap + 14 * portByte) false) ∧
       (headerPasses d = false → u.psp.phase = .listen ∧ u.psp.tonesOnly = true ∧
         u.psp.profile = s.psp.profile ∧ u.psp.tables = s.psp.tables ∧
         u.cp.defaultLang = s.psp.strapLang ∧ u.cp.currentLang = s.psp.strapLang ∧
         u.psp.listenStart = some a.now ∧ u.ind.lampTest = true ∧
         u.pm.freshTimer = some (a.now + 6 * second))) ∧
  ∀ (t : Time) (d : List Byte) (b : Bool) (h : Header) (q : ReadReq) (e : Time) (z : Bool) (s a : State),
    a = s.advance t → s.psp.phase = .image → s.psp.header = some h → s.psp.port = .reading .image q e z →
    e ≤ a.now →
    ∃ u, exec (.imageReadEnd t d b) s = .next u ∧
      (s.psp.imageRead = some .profile → u.psp.imageProfile = some (profileOf d) ∧
        u.psp.profile = s.psp.profile ∧ u.psp.phase = .image ∧ u.psp.imageRead = some .tables ∧
        u.psp.port = .reading .image { addr := h.tablesAdr, size := 350 }
          (a.now + portGap + 354 * portByte) false) ∧
      (∀ k, s.psp.imageRead = some .tables → k < 4 → h.present k = true → (∀ j, j < k → h.present j = false) →
        u.psp.tables = some (tablesOf d) ∧ u.psp.phase = .image ∧ u.psp.imageRead = some (.language k) ∧
        u.psp.port = .reading .image { addr := h.addrOf k, size := 9 } (a.now + portGap + 13 * portByte) false) ∧
      (∀ k n, s.psp.imageRead = some (.language k) → h.present k = true → k < n → n < 4 → h.present n = true →
        (∀ j, k < j → j < n → h.present j = false) →
        u.psp.langs = s.psp.langs.set k (some (langBlockOf d)) ∧ u.psp.phase = .image ∧
        u.psp.imageRead = some (.language n) ∧
        u.psp.port = .reading .image { addr := h.addrOf n, size := 9 } (a.now + portGap + 13 * portByte) false) ∧
      (∀ k, s.psp.imageRead = some (.language k) → nextRead h (.language k) = none →
        u.psp.langs = s.psp.langs.set k (some (langBlockOf d)) ∧
        u.psp.profile = s.psp.imageProfile.getD s.psp.profile ∧ u.psp.phase = .listen ∧
        u.psp.imageRead = none ∧ u.psp.listenStart = some a.now ∧ u.ind.lampTest = true ∧
        u.cp.currentLang = u.cp.defaultLang ∧
        (s.psp.strapLang = k → k < s.psp.langs.length → u.cp.defaultLang = k))

/-- LISTEN_END (R55, R172, R187): 1,000 ms after LISTEN began the part is in RUN and ACTIVE with its timers
started, and the knob's first sample is the reference pair. -/
def Obligations.RunBegins : Prop :=
  ∀ (t p : Time) (x y : Bool) (s a : State), a = s.advance t → s.psp.phase = .listen →
    s.psp.listenStart = some p → p + 1000 * milli ≤ a.now →
    ∃ u, exec (.listenEnd t x y) s = .next u ∧ u.psp.phase = .run ∧ u.psp.runStart = some a.now ∧
      u.pu = { s.pu with refA := x, refB := y, quarter := 0 } ∧
      u.au = { s.au with state := .active, dim := s.psp.profile.dim.map (a.now + ·),
                         dark := s.psp.profile.dark.map (a.now + ·) } ∧
      u.lp.settled = s.lp.settled ∧ u.pm = s.pm ∧ u.roster = s.roster ∧ u.dc = s.dc ∧ u.ind = s.ind ∧
      u.fc.view = s.fc.view ∧ u.cp.currentLang = s.cp.currentLang ∧ u.now = a.now

/-! ## The room line (chapter 1) -/

/-- START_BIT_EDGE and BYTE_RECEIVED (R1, R2, R8, R13, R14, R18): on a line that has been recessive for 4 bit
times with no reception open, a start bit opens one; within 2 bit times of a stop bit it continues the open one
without fault, and after more it marks it faulted. A byte is whole at the middle of its stop bit, 9.5 bit times
after its edge, and not before; it joins the reception that is open, if one is, with a dominant stop bit a
fault. An attempt under way counts it when it is the byte it drives; when it is misread, out of place or with a
dominant stop bit the attempt ends there, failing as a withdrawn one does (log 19, DEDUCED). A glitch takes no
byte, and the gap and the delimiter count anew from the end of its dominant level, or of the last stop bit where
that is later. What the port knows of the line after a dominant stop bit, and that it watches for an edge again
from the middle of a stop bit, is the model's choice (log 7). Two start bits are left out: one on a line
recessive for less than 4 bit times with no reception open, and one that comes after the delimiter of the
reception that is still open. -/
def Obligations.BytesJoinTheReception : Prop :=
  (∀ (t i : Time) (s a : State), a = s.advance t → s.receiving = true → s.lp.edge = none → s.lp.rx = none →
    s.lp.idleSince = some i → i + 4 * bitTime ≤ a.now →
    exec (.startBitEdge t none) s =
      .next { a with
        lp := { s.lp with
          rx := some { bytes := [], count := 1, faulted := false, overlong := false, own := false,
                       lastStop := a.now },
          edge := some a.now, armed := true, idleSince := none, recessiveSince := none,
          dominantSince := some a.now } }) ∧
  (∀ (t i : Time) (r : Reception) (s a : State), a = s.advance t → s.receiving = true → s.lp.edge = none →
    s.lp.rx = some r → s.lp.armed = true → s.lp.idleSince = some i → i ≤ a.now → a.now < i + 4 * bitTime →
    exec (.startBitEdge t none) s =
      .next { a with
        lp := { s.lp with
          rx := some { r with count := r.count + 1, faulted := r.faulted || decide (2 * bitTime < a.now - i),
                              own := false },
          edge := some a.now, armed := true, idleSince := none, recessiveSince := none,
          dominantSince := some a.now } }) ∧
  (∀ (t e : Time) (b : Byte) (x : Bool) (s a : State), a = s.advance t → s.receiving = true →
    s.lp.edge = some e →
    (a.now < e + 9 * bitTime + halfBit → exec (.byteReceived t b x) s = .next a) ∧
    (e + 9 * bitTime + halfBit ≤ a.now →
      ∀ c : LinePort, c = { s.lp with
          rx := s.lp.rx.map fun r => { r with
            bytes := if r.bytes.length < 15 then r.bytes ++ [b] else r.bytes,
            overlong := r.overlong || decide (15 ≤ r.bytes.length),
            faulted := r.faulted || !x, lastStop := e + 10 * bitTime },
          edge := none, idleSince := if x then some (e + 10 * bitTime) else none,
          recessiveSince := if x then some (recessiveFrom e b) else none,
          dominantSince := if x then none else some (dominantFrom e b),
          stopBitEnd := some (e + 10 * bitTime) } →
        (s.lp.tx = none → exec (.byteReceived t b x) s = .next { a with lp := c }) ∧
        (∀ y, s.lp.tx = some y → y.read = y.bytes.length →
          exec (.byteReceived t b x) s = .next { a with lp := c }) ∧
        (∀ y, s.lp.tx = some y → x = true → y.bytes[y.read]? = some b →
          (e + halfBit - y.start) / bitTime = 10 * y.read →
          exec (.byteReceived t b x) s =
            .next { a with lp := { c with tx := some { y with read := y.read + 1 } } }) ∧
        (∀ y, s.lp.tx = some y → y.read < y.bytes.length →
          (x = false ∨ y.bytes[y.read]? ≠ some b ∨ (e + halfBit - y.start) / bitTime ≠ 10 * y.read) →
          ∃ u, exec (.byteReceived t b x) s = .next u ∧ u.lp.tx = none ∧ u.lp.rx = c.rx ∧
            u.lp.edge = none ∧ u.lp.idleSince = c.idleSince))) ∧
  ∀ (t d : Time) (s a : State), a = s.advance t → s.receiving = true → s.lp.edge = none →
    (s.lp.rx = none ∨ ∃ i, s.lp.idleSince = some i ∧ a.now < i + 4 * bitTime) →
    ∃ u, exec (.startBitEdge t (some d)) s = .next u ∧
      u = { a with
        lp := { s.lp with
          armed := u.lp.armed, idleSince := some (max (s.lp.stopBitEnd.getD 0) (a.now + d)),
          recessiveSince := some (a.now + d), dominantSince := none } }

/-- RECEPTION_CLOSE (R4 to R7, R17, R44, R132, R133): at the delimiter the station's own frame is set aside, as
are a fragment and a frame of an unknown kind, with the error count as it was; a bad frame adds 1 to it, up to
31; a frame whose address is of the wrong range takes 1 from it and goes to no block; a good frame of another
address takes 1 from it, and goes to its block: a controller's STATUS to the roster, a CLAIM to the floor view,
which takes or renews the claimant's entry, or sets CROWDED when it is full, and a RELEASE, which takes that
entry out; a REQUEST goes to none. A good frame from the own address latches CLASH, which empties the transmit
queue. That it stops an attempt under way is the model's choice (log 8, DEDUCED). -/
def Obligations.ReceptionIsJudged : Prop :=
  ∀ (t i : Time) (r : Reception) (s a : State), a = s.advance t → s.receiving = true → s.lp.rx = some r →
    s.lp.edge = none → s.lp.idleSince = some i → i + 4 * bitTime ≤ a.now →
    ∃ u, exec (.receptionClose t) s = .next u ∧ u.lp.rx = none ∧
      (r.own = true ∨ judge r = .fragment ∨ judge r = .unknownKind →
        u = { a with lp := { s.lp with
          rx := none, armed := true, dominantSince := none,
          recessiveSince := some (s.lp.recessiveSince.getD (a.now - 4 * bitTime)) } }) ∧
      (r.own = false → judge r = .wrongRange →
        u.lp.errCount = s.lp.errCount - 1 ∧ u.roster = s.roster ∧ u.fc.view = s.fc.view ∧ u.pm = s.pm) ∧
      (r.count ≤ 2 → judge r = .fragment) ∧
      (2 < r.count → r.faulted = true ∨ r.overlong = true → judge r = .bad) ∧
      (r.own = false → judge r = .bad → u.lp.errCount = min 31 (s.lp.errCount + 1) ∧ u.roster = s.roster) ∧
      (∀ m p, r.own = false → judge r = .good .status m p → m ≠ s.psp.machine → m ≠ s.ownAddress →
        u.lp.errCount = s.lp.errCount - 1 ∧ u.roster = rosterTake m p r.lastStop s.roster) ∧
      (∀ n p, r.own = false → judge r = .good .claim n p → n ≠ s.ownAddress →
        u.lp.errCount = s.lp.errCount - 1 ∧ u.roster = s.roster ∧
        ((∃ e ∈ s.fc.view, e.addr = n) ∨ s.fc.view.length < 8 →
          u.fc.crowded = s.fc.crowded ∧
          u.fc.view = putBy ViewEntry.addr
            { addr := n, level := claimLevel p, arrival := r.lastStop,
              expiry := r.lastStop + claimUnits p * (100 * milli) + 800 * milli, speaking := false } s.fc.view) ∧
        ((∀ e ∈ s.fc.view, e.addr ≠ n) → 8 ≤ s.fc.view.length →
          u.fc.view = s.fc.view ∧
          u.fc.crowded = some (max (s.fc.crowded.getD 0)
            (r.lastStop + claimUnits p * (100 * milli) + 800 * milli)))) ∧
      (∀ n p, r.own = false → judge r = .good .release n p → n ≠ s.ownAddress →
        u.lp.errCount = s.lp.errCount - 1 ∧ u.roster = s.roster ∧
        u.fc.view = s.fc.view.filter (·.addr != n) ∧ u.fc.crowded = s.fc.crowded) ∧
      (∀ n p, r.own = false → judge r = .good .request n p → n ≠ s.ownAddress →
        u.lp.errCount = s.lp.errCount - 1 ∧ u.roster = s.roster ∧ u.fc.view = s.fc.view) ∧
      (∀ k p, r.own = false → judge r = .good k s.ownAddress p → s.lp.clash = false →
        u.lp.clash = true ∧ u.lp.mode = .solo ∧ u.lp.queue = [] ∧ u.lp.tx = none ∧
        u.lp.errCount = s.lp.errCount - 1 ∧ u.roster = s.roster ∧ u.fc.view = s.fc.view)

/-- A CLAIM as the line port builds it (R3, R189, R190), received whole, is judged good (R4), and its level and its
floor units are read back as they were sent. -/
def Obligations.ClaimFrameIsReadBack : Prop :=
  ∀ (own units : Nat) (level : Level) (reach : Reach) (n : Time), 33 ≤ own → own ≤ 63 → 1 ≤ units → units ≤ 255 →
    ∃ p, judge { bytes := buildFrame .claim own (claimPayload level reach units), count := 5, faulted := false,
                 overlong := false, own := false, lastStop := n } = .good .claim own p ∧
      claimLevel p = level ∧ claimUnits p = units

/-- LINE_HELD_SET and LINE_HELD_CLEAR (R8, R16): the condition sets once the line, outside a byte, has been dominant
for 2 ms and clears once it has been recessive for 10 ms, neither before; while it is set the mode is SOLO,
and when it clears the mode is NORMAL unless DEGRADED or CLASH holds. After a byte the 10 ms run from the
end of its last dominant bit. From when the port knows the line dominant is the model's choice (log 7,
DEDUCED). -/
def Obligations.LineHeldFollowsTheLine : Prop :=
  (∀ (t d : Time) (s a : State), a = s.advance t → s.receiving = true → s.lp.lineHeld = false →
    s.lp.edge = none → s.lp.dominantSince = some d →
    (a.now < d + 2 * milli → exec (.lineHeldSet t) s = .next a) ∧
    (d + 2 * milli ≤ a.now →
      ∃ u, exec (.lineHeldSet t) s = .next u ∧ u.lp.lineHeld = true ∧ u.lp.mode = .solo ∧
        u.lp.errCount = s.lp.errCount ∧ u.lp.clash = s.lp.clash)) ∧
  (∀ (t i : Time) (s a : State), a = s.advance t → s.receiving = true → s.lp.lineHeld = true →
    s.lp.recessiveSince = some i →
    (a.now < i + 10 * milli → exec (.lineHeldClear t) s = .next a) ∧
    (i + 10 * milli ≤ a.now →
      ∃ u, exec (.lineHeldClear t) s = .next u ∧ u.lp.lineHeld = false ∧
        u.lp.mode = (if s.lp.degraded || s.lp.clash then .solo else .normal) ∧
        u.lp.errCount = s.lp.errCount ∧ u.lp.clash = s.lp.clash)) ∧
  ∀ (lp : LinePort) (e : Time) (b : Byte),
    (∀ k, k < 8 → b.getLsbD k = false → (∀ j, k < j → j < 8 → b.getLsbD j = true) →
      (lp.takeByte e b true).recessiveSince = some (e + (k + 2) * bitTime)) ∧
    ((∀ j, j < 8 → b.getLsbD j = true) → (lp.takeByte e b true).recessiveSince = some (e + bitTime))

/-- ATTEMPT_START (R13): in RUN, on a line recessive for the head's access gap (12 bit times for CLAIM and
RELEASE, 16 for REQUEST, and the own address mod 8), neither held nor inside a byte, with CLASH clear, the
head's attempt begins and is counted. Nothing else changes: the station hears its own start bit as
anyone's. -/
def Obligations.AttemptStartsAfterTheGap : Prop :=
  ∀ (t i : Time) (p : Place) (rest : List Place) (s a : State), a = s.advance t → s.psp.phase = .run →
    s.lp.queue = p :: rest → s.lp.tx = none → s.lp.idleSince = some i → s.lp.lineHeld = false →
    s.lp.clash = false → s.lp.edge = none →
    i + ((if p.kind = .request then 16 else 12) + s.ownAddress % 8) * bitTime ≤ a.now →
    ∃ u, exec (.attemptStart t) s = .next u ∧
      u = { a with lp := { s.lp with queue := u.lp.queue, tx := u.lp.tx } } ∧
      u.lp.tx = some { kind := p.kind, bytes := p.bytes, reassert := p.reassert, start := a.now, read := 0,
                       place := .intact, noRetry := false } ∧
      u.lp.queue.head? = some { p with attempts := p.attempts + 1 } ∧
      (TransmitLaw s → u.lp.queue = { p with attempts := p.attempts + 1 } :: rest)

/-- ATTEMPT_WITHDRAWN (R11, R14, R15, R17, R34, R142): at the middle of a bit whose level on LRX is not the one
that is driven the attempt stops, and an attempt that reaches the end of its last stop bit without all its bytes
read as driven (TRANSMISSION_COMPLETE) fails as it does, which is the model's choice (log 19, DEDUCED). Its
frame stays where it is, with its attempts. Where its place is gone or replaced the list stays as it is, and that
nothing is counted or reported there, at a sixteenth attempt too, is the model's choice (log 19, DESIGN CHOICE).
The sixteenth attempt takes the frame out of the list, whatever its kind, and adds 4 to the error count, up to
31; so does the failure of a CLAIM that SOLO has overtaken, without the 4. What the list still holds of the kind
is a frame not yet tried: a CLAIM awaited in CLAIMING may be claimed anew. A REQUEST dropped so resolves the
request in flight whose mark it carries. -/
def Obligations.FailedAttemptIsRetriedUpToSixteen : Prop :=
  ∀ (t : Time) (i : Instr) (x : Tx) (s a : State), a = s.advance t → s.lp.tx = some x →
    (i = .attemptWithdrawn t ∧ (∃ k, k < 10 * x.bytes.length ∧ a.now = x.start + k * bitTime + halfBit) ∨
      i = .transmissionComplete t ∧ x.read ≠ x.bytes.length ∧
        x.start + 10 * x.bytes.length * bitTime ≤ a.now) →
    (x.place ≠ .intact ∨ x.noRetry = false ∧ s.lp.attemptsOf x.kind < 16 →
      exec i s = .next { a with lp := { s.lp with tx := none } }) ∧
    (x.place = .intact → x.noRetry = true → s.lp.attemptsOf x.kind < 16 →
      ∃ u, exec i s = .next u ∧ u.lp.tx = none ∧ u.lp.errCount = s.lp.errCount ∧
        (∀ p ∈ u.lp.queue, p.kind = x.kind → p.attempts = 0) ∧
        (x.kind = .claim → x.reassert = true ∨ s.fc.state ≠ .claiming ∨ s.lp.mode = .solo →
          u.lp.listed .claim = false)) ∧
    (x.place = .intact → 16 ≤ s.lp.attemptsOf x.kind →
      ∃ u, exec i s = .next u ∧ u.lp.tx = none ∧
        u.lp.errCount = min 31 (s.lp.errCount + 4) ∧
        (∀ p ∈ u.lp.queue, p.kind = x.kind → p.attempts = 0) ∧
        (x.kind ≠ .claim → u.lp.listed x.kind = false) ∧
        (x.kind = .claim → CountLaw s → x.reassert = true ∨ s.fc.state ≠ .claiming ∨ u.lp.mode = .solo →
          u.lp.listed .claim = false) ∧
        (∀ r, x.kind = .request → s.pm.inFlight = some r → requestMark x.bytes = r.mark →
          u.pm.inFlight = none) ∧
        (x.kind = .request → s.pm.inFlight = none → (s.lp.addErrors 4).mode = s.lp.mode →
          u = { a with
            lp := { s.lp.addErrors 4 with tx := none, queue := s.lp.queue.filter (·.kind != .request) } }))

/-- TRANSMISSION_COMPLETE (R10, R12, R14, R34, R141, R142, R149): at the end of its last stop bit, every byte
read back as driven, an intact frame leaves the list, whatever its kind; a CLAIM sets CLAIM_OUT, and the one
awaited in CLAIMING opens the contest window of 80 ms from its transmission end; a RELEASE clears CLAIM_OUT and
RELEASE_PENDING, and in ENDING the SPACING of 600 ms follows, unless the queue's head is URGENT; a REQUEST in
flight has its SENT flag set (R34). -/
def Obligations.CompletedFrameIsReported : Prop :=
  ∀ (t : Time) (x : Tx) (s a : State), a = s.advance t → s.lp.tx = some x → x.place = .intact →
    x.read = x.bytes.length → x.start + 10 * x.bytes.length * bitTime ≤ a.now →
    ∃ u, exec (.transmissionComplete t) s = .next u ∧ u.lp.tx = none ∧ u.lp.listed x.kind = false ∧
      (x.kind = .claim → u.lp.claimOut = true) ∧
      (x.kind = .claim → x.reassert = false → s.fc.state = .claiming →
        u.fc.state = .contest ∧
        u.fc.contestEnd = some (x.start + 10 * x.bytes.length * bitTime + 80 * milli) ∧
        u.fc.utterance = s.fc.utterance) ∧
      (x.kind = .claim → x.reassert = true → u.fc = s.fc) ∧
      (x.kind = .release → u.lp.claimOut = false) ∧
      (x.kind = .release → s.fc.state = .idle → u.fc = { s.fc with releasePending := false }) ∧
      (x.kind = .release → s.fc.state = .ending →
        (∀ it rest, s.pq.items = it :: rest → classLevel it.cls = .routine) →
        u.fc = { s.fc with state := .spacing, spacing := some (a.now + 600 * milli), releasePending := false }) ∧
      (∀ r, x.kind = .request → s.pm.inFlight = some r → requestMark x.bytes = r.mark →
        u.pm.inFlight = some { r with sent := true })

/-! ## The partner and the roster (chapters 2 and 3) -/

/-- FRESHNESS_TIMEOUT (R24, R25, R37, R87): 6 s without a good STATUS. From NONE freshness becomes LOST and nothing
else follows; from FRESH the request in flight is resolved, the dialogue is in VIEW and the record stands. -/
def Obligations.SilentPartnerIsLost : Prop :=
  ∀ (t e : Time) (s a : State), a = s.advance t → s.receiving = true → s.pm.freshTimer = some e → e ≤ a.now →
    (s.pm.freshness = .none →
      exec (.freshnessTimeout t) s = .next { a with pm := { s.pm with freshness := .lost, freshTimer := none } }) ∧
    (s.pm.freshness = .fresh →
      ∃ u, exec (.freshnessTimeout t) s = .next u ∧ u.pm.freshness = .lost ∧ u.pm.freshTimer = none ∧
        u.pm.record = s.pm.record ∧ u.pm.inFlight = none ∧ u.pm.lastMark = s.pm.lastMark ∧ u.dc.state = .view ∧
        u.roster = s.roster)

/-- REQUEST_DEADLINE (R36, R38, R83, R88, R90 to R92, R95): 3 s after the ask the tracker is empty, its mark stands,
and an awaited answer leads back to CONFIRM with the selection, or to VIEW without it. Where the dark timer is due
in that moment too, the dialogue ends in VIEW with the selection discarded. NO_ANSWER is placed with the request's
kind, here while the floor controller waits in ENDING, the part is ACTIVE, and what the list still holds of the
REQUEST is taken out. That the part is ACTIVE then, DARK being taken first, is the model's choice (log 33,
DEDUCED). -/
def Obligations.DeadlineResolvesTheRequest : Prop :=
  ∀ (t : Time) (r : Request) (s a : State), a = s.advance t → s.pm.inFlight = some r → r.deadline ≤ a.now →
    ∃ u, exec (.requestDeadline t) s = .next u ∧ u.pm = { s.pm with inFlight := none } ∧
      (s.dc.state = .awaitAnswer → s.dc.ret = some .confirm → s.selectable = true → a.darkDue = false →
        u.dc = { s.dc with state := .confirm, ret := none }) ∧
      (s.dc.state = .awaitAnswer → (s.dc.ret ≠ some .confirm ∨ s.selectable = false) → u.dc = Dialogue.reset) ∧
      (s.dc.state ≠ .awaitAnswer → (s.dc.state = .view ∨ a.darkDue = false) → u.dc = s.dc) ∧
      (∀ e, s.au.state ≠ .dark → s.au.dark = some e → e ≤ a.now → s.dc.state ≠ .view → u.dc = Dialogue.reset) ∧
      (s.psp.phase = .run → u.au.state = .active) ∧
      (s.fc.state = .ending → u.lp = s.lp.remove .request ∧ u.lp.listed .request = false) ∧
      (s.fc.state = .ending → s.pq.queued .noAnswer = false → s.pq.items.length < 8 →
        (s.dc.state.selecting = false ∨ a.darkDue = false) →
        u.pq.items = putBy Item.rank
          { cls := .noAnswer, params := { p0 := reqCode r.kind, p1 := 0, p2 := 0, p3 := 0 }, machines := none,
            reach := .loc, expiry := some (a.now + 10 * second), key := .none, enqueued := a.now }
          s.pq.items)

/-- A partner STATUS (R19, R22, R24, R27): the record takes the clamped fields, the kind from a baseline alone, the
partner is FRESH and its 6 s begin anew. A STATUS that is not a baseline gives the report of R28 to R31, in
their order: the statement says which entries it has. Of a report of one entry it says what that entry
does, here while the floor controller waits in ENDING with no current item: its series are set back (R107,
R108), the items it removes leave (R99, R107) and its triggers are placed (R92, R95, R96), with the lifetime
and key of their class (R90) and their base reach as HUSH leaves it (R110); of a longer one
that each class it triggers is queued. A baseline places nothing, withdraws PARTNER_LOST after a loss, and
starts the series of the conditions it lists (R27, R103). A selection that the machine can no longer take
ends (R86). Then the answer fields are offered to the tracker (R35, R38): a match with a SENT request in
flight resolves it, places its prompt, and moves the dialogue (R83), which ends in VIEW with the selection discarded
where the dark timer is due in that moment (R88); anything else leaves it in flight. -/
def Obligations.PartnerStatusIsTaken : Prop :=
  (∀ old new : Record,
    (machineReport old new).Pairwise (fun d e => d.place ≤ e.place) ∧ (machineReport old new).Nodup ∧
    (∀ e ∈ machineReport old new, match e with
      | .cleared k => k ∈ machineConditions
      | .partnerLost | .partnerBack | .baseline _ | .lossEnd _ => False
      | _ => True) ∧
    (.cleared .payment ∈ machineReport old new ↔ old.state = .awaitPayment ∧ new.state ≠ .awaitPayment) ∧
    (.cleared .action ∈ machineReport old new ↔ old.action ≠ 0 ∧ new.action = 0) ∧
    (.cleared .fault ∈ machineReport old new ↔ old.fault ≠ 0 ∧ new.fault = 0) ∧
    (.cleared .done ∈ machineReport old new ↔ old.state = .done ∧ new.state ≠ .done) ∧
    (.started ∈ machineReport old new ↔
      (old.state = .awaitPayment ∨ old.state = .ready ∨ old.state = .free) ∧ new.state = .running) ∧
    (.paused ∈ machineReport old new ↔ old.state = .running ∧ new.state = .paused) ∧
    (.resumed ∈ machineReport old new ↔ old.state = .paused ∧ new.state = .running) ∧
    (.cycleDone ∈ machineReport old new ↔ old.state = .running ∧ new.state = .done) ∧
    (.outOfService ∈ machineReport old new ↔ old.state ≠ .outOfService ∧ new.state = .outOfService) ∧
    (∀ c, .paymentDue c ∈ machineReport old new ↔
      c = new.credits ∧ new.state = .awaitPayment ∧ (old.state ≠ .awaitPayment ∨ new.credits ≠ old.credits)) ∧
    (∀ c, .action c ∈ machineReport old new ↔ c = new.action ∧ new.action ≠ 0 ∧ new.action ≠ old.action) ∧
    (∀ c, .fault c ∈ machineReport old new ↔ c = new.fault ∧ new.fault ≠ 0 ∧ new.fault ≠ old.fault) ∧
    (∀ c, .phase c ∈ machineReport old new ↔
      c = new.phase ∧ old.state = .running ∧ new.state = .running ∧ new.phase ≠ old.phase) ∧
    ∀ m, .timeCall m ∈ machineReport old new ↔
      old.state = .running ∧ new.state = .running ∧ new.minutes = some m ∧ m ≤ 5 ∧
        ∃ n, old.minutes = some n ∧ 6 ≤ n) ∧
  ∀ (t i : Time) (r : Reception) (p : List Byte) (new : Record) (s a : State), a = s.advance t →
    s.receiving = true → s.lp.rx = some r → r.own = false → s.lp.edge = none → s.lp.idleSince = some i →
    i + 4 * bitTime ≤ a.now → judge r = .good .status s.psp.machine p →
    new = (if s.pm.freshness = .fresh then { recordOf p with kind := s.pm.record.kind } else recordOf p) →
    ∃ u, exec (.receptionClose t) s = .next u ∧ u.pm.freshness = .fresh ∧
      u.pm.freshTimer = some (r.lastStop + 6 * second) ∧ u.pm.record = new ∧ u.pm.lastMark = s.pm.lastMark ∧
      u.roster = s.roster ∧
      (∀ e, s.pm.freshness = .fresh → machineReport s.pm.record new = [e] → s.pm.inFlight = none →
        s.dc.state.selecting = false → s.fc.state = .ending → s.pq.current = none → QueueLaw s → CountLaw s →
        s.pq.items.length ≤ 6 →
        u.pq.items = (e.triggers new s.psp.profile.phaseAnnounce).foldl (fun q x => putBy Item.rank
          { cls := x.1, params := x.2, machines := none, reach := s.hushed x.1 (baseReach x.1),
            expiry := (lifetime x.1).map (a.now + ·), key := classKey x.1, enqueued := a.now } q)
          (e.clears s.pq.items) ∧
        (∀ v, u.pq.series v = if e.resets v then { timer := none, count := 0 } else s.pq.series v) ∧
        u.pq.doneSince = (if e = .cycleDone then some r.lastStop
          else if e = .cleared .done then none else s.pq.doneSince) ∧
        (e.triggers new s.psp.profile.phaseAnnounce ≠ [] → s.psp.phase = .run → u.au.state = .active)) ∧
      (s.pm.freshness = .fresh → s.fc.state = .ending → s.pq.current = none → QueueLaw s → CountLaw s →
        s.pm.inFlight = none → s.pq.items = [] →
        ∀ e ∈ machineReport s.pm.record new, ∀ x ∈ e.triggers new s.psp.profile.phaseAnnounce,
          u.pq.queued x.1 = true) ∧
      (s.pm.freshness ≠ .fresh → s.pm.inFlight = none → s.dc.state.selecting = false → s.fc.state = .ending →
        s.pq.current = none → CountLaw s →
        u.pq.items = (if s.pm.freshness = .lost then s.pq.items.filter (·.key != .lost) else s.pq.items) ∧
        (∀ v, u.pq.series v =
          if new.shows (seriesKey v) then
            if v = .actionSecond then { timer := none, count := 0 }
            else { timer := some (r.lastStop + seriesInterval v), count := 1 }
          else s.pq.series v) ∧
        u.pq.doneSince = (if new.state = .done then some r.lastStop else s.pq.doneSince) ∧ u.au = s.au) ∧
      (s.pm.inFlight = none → u.pm.inFlight = none ∧
        u.dc = if s.dc.state.selecting && !(new.state == .free || new.state == .ready) then Dialogue.reset
          else s.dc) ∧
      ∀ q, s.pm.inFlight = some q →
        (q.sent = true ∧ new.ansKind = some q.kind ∧ new.ansMark = q.mark ∧ new.ansResult ≠ .none →
          u.pm.inFlight = none ∧
          (s.dc.state = .awaitAnswer → new.ansResult ≠ .accepted → s.dc.ret = some .confirm →
            (new.state = .free ∨ new.state = .ready) → a.darkDue = false →
            u.dc = { s.dc with state := .confirm, ret := none }) ∧
          (∀ e, s.au.state ≠ .dark → s.au.dark = some e → e ≤ a.now → s.dc.state ≠ .view →
            u.dc = Dialogue.reset) ∧
          (s.dc.state = .awaitAnswer → (new.ansResult = .accepted ∨ s.dc.ret ≠ some .confirm ∨
            new.state ≠ .free ∧ new.state ≠ .ready) → u.dc = Dialogue.reset) ∧
          (s.dc.state = .view → u.dc = s.dc) ∧
          (s.pm.freshness = .fresh → machineReport s.pm.record new = [] → s.dc.state.selecting = false →
            s.fc.state = .ending → CountLaw s → s.pq.items.length < 8 →
            (new.ansResult ≠ .accepted → s.pq.queued .requestRefused = false →
              u.pq.items = putBy Item.rank
                { cls := .requestRefused
                  params := { p0 := reqCode q.kind, p1 := resultCode new.ansResult, p2 := 0, p3 := 0 }
                  machines := none, reach := .loc, expiry := some (a.now + 10 * second), key := .none,
                  enqueued := a.now } s.pq.items) ∧
            (new.ansResult = .accepted → q.kind = .cancel → s.pq.queued .cancelled = false →
              u.pq.items = putBy Item.rank
                { cls := .cancelled, params := { p0 := 0, p1 := 0, p2 := 0, p3 := 0 }, machines := none,
                  reach := .loc, expiry := some (a.now + 15 * second), key := .none, enqueued := a.now }
                s.pq.items) ∧
            (new.ansResult = .accepted → q.kind ≠ .cancel → u.pq.items = s.pq.items))) ∧
        (q.sent = false ∨ new.ansKind ≠ some q.kind ∨ new.ansMark ≠ q.mark ∨ new.ansResult = .none →
          u.pm.inFlight = some q ∧ (s.dc.state.selecting = false → u.dc = s.dc))

/-- ROSTER_ENTRY_EXPIRE (R45), QUEUE_ITEM_EXPIRE (R98), VIEW_ENTRY_EXPIRE and CROWDED_CLEAR (R133),
CURRENT_ITEM_EXPIRE (R140): an entry, an item or a claim whose time has come leaves and the others stand; in
WAITING the current item is discarded with its utterance and without a sound, and the floor controller is in
IDLE where tones-only mode has no head to render next. That this holds of a WAITING entered back from CLAIMING or
CONTEST too is the model's choice (log 32, DESIGN CHOICE). -/
def Obligations.LapsedEntriesLeave : Prop :=
  (∀ (t : Time) (m : Nat) (e : RosterEntry) (s a : State), a = s.advance t → RosterLaw s → e ∈ s.roster →
     e.machine = m → e.arrival + 20 * second ≤ a.now →
     exec (.rosterEntryExpire t m) s = .next { a with roster := s.roster.filter (·.machine != m) }) ∧
  (∀ (t e : Time) (it : Item) (s a : State), a = s.advance t → it ∈ s.pq.items → it.expiry = some e → e ≤ a.now →
     exec (.queueItemExpire t it.cls) s =
       .next { a with pq := { s.pq with items := s.pq.items.filter (·.cls != it.cls) } }) ∧
  ((∀ (t : Time) (e : ViewEntry) (s a : State), a = s.advance t → ViewLaw s → e ∈ s.fc.view → e.expiry ≤ a.now →
     ∃ u, exec (.viewEntryExpire t e.addr) s = .next u ∧ u.fc.view = s.fc.view.filter (·.addr != e.addr) ∧
       u.fc.crowded = s.fc.crowded) ∧
   ∀ (t e : Time) (s a : State), a = s.advance t → s.fc.crowded = some e → e ≤ a.now →
     ∃ u, exec (.crowdedClear t) s = .next u ∧ u.fc.view = s.fc.view ∧ u.fc.crowded = none) ∧
  ∀ (t e : Time) (it : Item) (s a : State), a = s.advance t → s.fc.state = .waiting → s.fc.item = some it →
    it.expiry = some e → e ≤ a.now →
    ∃ u, exec (.currentItemExpire t) s = .next u ∧ u.fc.utterance = none ∧ u.lp = s.lp ∧
      (s.psp.tonesOnly = false ∨ s.pq.items = [] → u.fc.state = .idle ∧ u.vp = s.vp) ∧
      (s.pq.items = [] → u.fc.item = none)

/-- R48: the free-list query under a selector. For a lawful roster of a station whose machine number is 1..31 the
count is that of the free entries that belong, 0..30; the list is the first three of their numbers, strictly
ascending, so without a duplicate. -/
def Obligations.FreeListNamesTheFirstThree : Prop :=
  ∀ (sel : Option MachineKind) (s : State), RosterLaw s → 1 ≤ s.psp.machine → s.psp.machine ≤ 31 →
    (freeList sel s.roster).count =
      s.roster.countP (fun e => belongs sel e.kind && e.coarse == .free) ∧
    (freeList sel s.roster).count ≤ 30 ∧
    (freeList sel s.roster).machines.length = min (freeList sel s.roster).count 3 ∧
    (freeList sel s.roster).machines.Pairwise (· < ·) ∧
    (∀ m ∈ (freeList sel s.roster).machines, ∃ e ∈ s.roster, e.machine = m ∧ belongs sel e.kind = true ∧
      e.coarse = .free) ∧
    ∀ e ∈ s.roster, belongs sel e.kind = true → e.coarse = .free →
      e.machine ∈ (freeList sel s.roster).machines ∨
        (freeList sel s.roster).machines.length = 3 ∧ ∀ m ∈ (freeList sel s.roster).machines, m < e.machine

/-- R43, R47, R49: the coarse state of a machine state, the entries that belong to a selector, and the
soonest-minutes query: the least known minutes of the busy entries that belong, UNKNOWN where there is none.
The answer lies in 0..999, as the minutes of every STATUS the roster takes do. -/
def Obligations.RosterQueriesReadBusyMachines : Prop :=
  (∀ k, belongs (some .washer) k = (k == .washer || k == .washerDryer) ∧
    belongs (some .dryer) k = (k == .dryer || k == .washerDryer) ∧ belongs none k = true) ∧
  (coarseOf .free = .free ∧ coarseOf .awaitPayment = .reserved ∧ coarseOf .ready = .reserved ∧
    coarseOf .running = .busy ∧ coarseOf .paused = .busy ∧ coarseOf .done = .done ∧
    coarseOf .fault = .unavailable ∧ coarseOf .outOfService = .unavailable) ∧
  ∀ (sel : Option MachineKind) (es : List RosterEntry),
    (∀ v, soonest sel es = some v ↔
      (∃ e ∈ es, belongs sel e.kind = true ∧ e.coarse = .busy ∧ e.minutes = some v) ∧
        ∀ e ∈ es, belongs sel e.kind = true → e.coarse = .busy → ∀ w, e.minutes = some w → v ≤ w) ∧
    (soonest sel es = none ↔ ∀ e ∈ es, belongs sel e.kind = true → e.coarse = .busy → e.minutes = none) ∧
    ((∀ e ∈ es, ∀ w, e.minutes = some w → w ≤ 999) →
      (∀ v, soonest sel es = some v → v ≤ 999) ∧
      ∀ m p n, ∀ e ∈ rosterTake m p n es, ∀ w, e.minutes = some w → w ≤ 999)

/-! ## The panel and the dialogue (chapters 4 and 5) -/

/-- KNOB_TRANSITION (R53 to R55): on a KNOB panel in RUN the sample becomes the reference. Forward along 11, 01, 00,
10 a quarter-step is added, backward one is taken, a sample that differs in both lines or in none counts
nothing; and the fourth quarter-step of a direction is a step and leaves the count at 0. In BROWSE_PROGRAM,
outside DARK, the step moves the position of the open list with its wrap (R58) and starts the 300 ms of the
settle (R59); other dialogue states are left out here. -/
def Obligations.KnobCountsQuarterSteps : Prop :=
  (quarterOf true true false true = 1 ∧ quarterOf false true false false = 1 ∧
    quarterOf false false true false = 1 ∧ quarterOf true false true true = 1) ∧
  (∀ a b c d, quarterOf c d a b = -quarterOf a b c d) ∧
  (∀ a b c d, (a = c ↔ b = d) → quarterOf a b c d = 0) ∧
  ∀ (t : Time) (x y : Bool) (q : Int) (s a : State), a = s.advance t → s.psp.phase = .run →
    s.psp.panel = .knob → q = s.pu.quarter + quarterOf s.pu.refA s.pu.refB x y →
    (q ≠ 4 → q ≠ -4 →
      exec (.knobTransition t x y) s = .next { a with pu := { s.pu with refA := x, refB := y, quarter := q } }) ∧
    (q = 4 ∨ q = -4 → s.dc.state = .browseProgram → s.au.state ≠ .dark → ∀ l, s.pu.listLen = some l →
      ∃ u, exec (.knobTransition t x y) s = .next u ∧
        u.pu = { s.pu with
          refA := x, refB := y, quarter := 0, settle := some (a.now + 300 * milli),
          position :=
            if q = 4 then (if s.pu.position + 1 < l then s.pu.position + 1 else 0)
            else (if s.pu.position = 0 then l - 1 else s.pu.position - 1) } ∧
        u.dc = s.dc)

/-- KEY_PRESS_ACCEPTED (R61, R65 to R67, R69, R75): a press is accepted when the key's line has been low for its
debounce time, of which no sample lies before RUN or before the one that follows the key's last release; before
that nothing but the clock changes, and the same of a release. That the samples are counted from these two
moments, and not one by one, is the model's choice (log 5, DESIGN CHOICE). A press of START clicks and makes no
event yet; the first press in DARK is consumed as the wake. A press of HELP with BACK up adds 1 to the count, up
to 3, and has the window close 700 ms later, and in DARK it does neither (R65, R69). The second of HELP and BACK
to go down begins the chord, or joins the one in progress: the count is 0, the window closed, both presses make
no event of their own, and the chord timer runs 3,000 ms, unless the chord has made its event (R66). SELECT in
VIEW with the partner FREE or READY opens the program list at the table's default program. In BROWSE_PROGRAM it
opens the option list, or with no option allowed goes to CONFIRM (R78, R79, R81); in BROWSE_OPTION it inverts
the option under the cursor, or on DONE goes to CONFIRM (R80); in CONFIRM the state is unchanged (R81). A step
out of CONFIRM, here by UP on a STEP panel, is a step in the program list opened at the selected program, with
the options kept (R58, R81). -/
def Obligations.PressOpensTheProgramList : Prop :=
  ∀ (t d : Time) (s a : State), a = s.advance t → s.psp.phase = .run →
    (∀ k, a.debounced k d = true ↔ s.psp.profile.debounceOf k ≤ d ∧ ∃ r, s.psp.runStart = some r ∧
      r + s.psp.profile.debounceOf k ≤ a.now ∧
      ∀ e, (if (s.pu.key k).down then some (s.pu.key k).since else (s.pu.key k).freed) = some e →
        e + 250 * micro + s.psp.profile.debounceOf k ≤ a.now) ∧
    (∀ k, a.debounced k d = false →
      exec (.keyPressAccepted t k d) s = .next a ∧ exec (.keyReleaseAccepted t k d) s = .next a) ∧
    (a.debounced .help d = true → s.pu.help.down = false → s.pu.back.down = false →
      (s.au.state ≠ .dark →
        exec (.keyPressAccepted t .help d) s =
          .next (vpClick { a with
            pu := { s.pu with
              help := { s.pu.help with down := true, since := a.now, spent := false }
              helpCount := min 3 (s.pu.helpCount + 1), helpWindow := some (a.now + 700 * milli) } })) ∧
      (s.au.state = .dark →
        ∃ u, exec (.keyPressAccepted t .help d) s = .next u ∧ u.au.state = .active ∧
          u.pu = { s.pu with help := { s.pu.help with down := true, since := a.now, spent := true } })) ∧
    (∀ pu, pu = { s.pu with
        helpCount := 0, helpWindow := none, chord := true, chordFired := s.pu.chord && s.pu.chordFired
        chordTimer := if s.pu.chord && s.pu.chordFired then none else some (a.now + 3000 * milli) } →
      s.au.state ≠ .dark →
      (a.debounced .help d = true → s.pu.help.down = false → s.pu.back.down = true →
        exec (.keyPressAccepted t .help d) s =
          .next (vpClick { a with
            pu := { pu with help := { s.pu.help with down := true, since := a.now, spent := true }
                            back := { s.pu.back with spent := true } } })) ∧
      (a.debounced .back d = true → s.pu.back.down = false → s.pu.help.down = true →
        exec (.keyPressAccepted t .back d) s =
          .next (vpClick { a with
            pu := { pu with back := { s.pu.back with down := true, since := a.now, spent := true }
                            help := { s.pu.help with spent := true } } }))) ∧
    (a.debounced .start d = true → s.pu.start.down = false → s.au.state ≠ .dark →
      exec (.keyPressAccepted t .start d) s =
        .next (vpClick { a with
          pu := { s.pu with start := { s.pu.start with down := true, since := a.now, spent := false } } })) ∧
    (a.debounced .start d = true → s.pu.start.down = false → s.au.state = .dark →
      ∃ u, exec (.keyPressAccepted t .start d) s = .next u ∧ u.au.state = .active ∧ u.dc = s.dc ∧
        u.pu = { s.pu with start := { s.pu.start with down := true, since := a.now, spent := true } }) ∧
    (a.debounced .select d = true → s.pu.select.down = false → s.au.state ≠ .dark →
      s.dc.state = .view → s.selectable = true → s.pu.settle = none →
      ∃ u, exec (.keyPressAccepted t .select d) s = .next u ∧
        u.dc = { s.dc with state := .browseProgram, program := s.table.first,
                           options := s.table.defaults s.table.first, cursor := 0 } ∧
        u.pu.listLen = some s.table.count ∧ u.pu.position = min s.table.first (s.table.count - 1) ∧
        u.pu.snapshot = u.pu.position ∧ u.pu.settle = none ∧ u.au.state = .active) ∧
    (a.debounced .select d = true → s.pu.select.down = false → s.au.state ≠ .dark →
      s.pu.settle = none →
      ∃ u, exec (.keyPressAccepted t .select d) s = .next u ∧ u.au.state = .active ∧
        (s.dc.state = .browseProgram → s.optionList ≠ [] →
          u.dc = { s.dc with state := .browseOption, cursor := 0 } ∧
          u.pu.listLen = some (s.optionList.length + 1) ∧ u.pu.position = 0 ∧ u.pu.snapshot = 0 ∧
          u.pu.settle = none) ∧
        (s.dc.state = .browseProgram → s.optionList = [] →
          u.dc = { s.dc with state := .confirm } ∧ u.pu.listLen = none) ∧
        (∀ n, s.dc.state = .browseOption → s.optionList[s.dc.cursor]? = some n →
          u.dc = { s.dc with options := toggleOption s.dc.options n } ∧ u.pu.listLen = s.pu.listLen ∧
          u.pu.position = s.pu.position) ∧
        (s.dc.state = .browseOption → s.optionList[s.dc.cursor]? = none →
          u.dc = { s.dc with state := .confirm } ∧ u.pu.listLen = none) ∧
        (s.dc.state = .confirm → u.dc = s.dc ∧ u.pu.listLen = s.pu.listLen)) ∧
    ∀ pos, s.psp.panel = .step → a.debounced .up d = true → s.pu.up.down = false →
      s.pu.down.down = false → s.au.state ≠ .dark → s.dc.state = .confirm →
      pos = min s.dc.program (s.table.count - 1) →
      ∃ u, exec (.keyPressAccepted t .up d) s = .next u ∧ u.au.state = .active ∧
        u.dc = { s.dc with state := .browseProgram } ∧ u.pu.listLen = some s.table.count ∧
        u.pu.snapshot = pos ∧ u.pu.position = (if pos + 1 < s.table.count then pos + 1 else 0) ∧
        u.pu.settle = some (a.now + 300 * milli) ∧ u.pq.items = s.pq.items

/-- KEY_RELEASE_ACCEPTED (R56, R61, R63, R64, R72, R75, R78 to R81, R90): a BACK let go within 2,000 ms leaves the
program list for VIEW and discards the selection, the option list for the program list at the selected
program (R80), and CONFIRM for the option list, or the program list where no option is allowed (R79, R81),
with the options kept. A START let go within 800 ms is an event, with which the part is ACTIVE: in CONFIRM
it leaves the dialogue where it is and places HOLD_START_HINT (R81), which lives 5 s (R90), here while the
floor controller waits in ENDING, and in VIEW with the partner FREE or READY it opens the program list. A
release of UP or DOWN stops its repeat (R56). When a release is accepted is as O39 says (R61). -/
def Obligations.ReleaseMakesTheShortEvent : Prop :=
  ∀ (t d : Time) (s a : State), a = s.advance t → s.psp.phase = .run →
    (a.debounced .back d = true → s.pu.back.down = true → s.pu.back.spent = false →
      a.now < s.pu.back.since + 2000 * milli → s.pu.chord = false → s.au.state ≠ .dark →
      s.dc.state = .browseProgram → s.pu.settle = none →
      ∃ u, exec (.keyReleaseAccepted t .back d) s = .next u ∧ u.dc = Dialogue.reset ∧ u.pu.listLen = none ∧
        u.pu.back.down = false ∧ u.au.state = .active) ∧
    (∀ pos, a.debounced .back d = true → s.pu.back.down = true → s.pu.back.spent = false →
      a.now < s.pu.back.since + 2000 * milli → s.pu.chord = false → s.au.state ≠ .dark →
      s.pu.settle = none → pos = min s.dc.program (s.table.count - 1) →
      ∃ u, exec (.keyReleaseAccepted t .back d) s = .next u ∧ u.pu.back.down = false ∧ u.au.state = .active ∧
        (s.dc.state = .browseOption ∨ s.dc.state = .confirm ∧ s.optionList = [] →
          u.dc = { s.dc with state := .browseProgram } ∧ u.pu.listLen = some s.table.count ∧
          u.pu.position = pos ∧ u.pu.snapshot = pos ∧ u.pu.settle = none) ∧
        (s.dc.state = .confirm → s.optionList ≠ [] →
          u.dc = { s.dc with state := .browseOption, cursor := 0 } ∧
          u.pu.listLen = some (s.optionList.length + 1) ∧ u.pu.position = 0 ∧ u.pu.snapshot = 0)) ∧
    (a.debounced .start d = true → s.pu.start.down = true → s.pu.start.spent = false →
      a.now < s.pu.start.since + 800 * milli → s.au.state ≠ .dark → s.dc.state = .confirm →
      s.pu.settle = none →
      ∃ u, exec (.keyReleaseAccepted t .start d) s = .next u ∧ u.dc = s.dc ∧ u.pu.start.down = false ∧
        u.pm = s.pm ∧ u.au.state = .active ∧
        (s.fc.state = .ending → s.pq.queued .holdStartHint = false → s.pq.items.length < 8 →
          u.pq.items = putBy Item.rank
            { cls := .holdStartHint, params := { p0 := 0, p1 := 0, p2 := 0, p3 := 0 }, machines := none,
              reach := .loc, expiry := some (a.now + 5 * second), key := .none, enqueued := a.now }
            s.pq.items)) ∧
    (a.debounced .start d = true → s.pu.start.down = true → s.pu.start.spent = false →
      a.now < s.pu.start.since + 800 * milli → s.au.state ≠ .dark → s.dc.state = .view →
      s.selectable = true → s.pu.settle = none →
      ∃ u, exec (.keyReleaseAccepted t .start d) s = .next u ∧ u.pu.start.down = false ∧
        u.dc = { s.dc with state := .browseProgram, program := s.table.first,
                           options := s.table.defaults s.table.first, cursor := 0 } ∧
        u.pu.listLen = some s.table.count ∧ u.pm = s.pm ∧ u.au.state = .active) ∧
    (a.debounced .up d = true → s.psp.panel = .step → s.pu.up.down = true →
      ∃ u, exec (.keyReleaseAccepted t .up d) s = .next u ∧
        u.pu.up = { s.pu.up with down := false, freed := some a.now } ∧
        (∀ x, s.pu.stepRepeat = some x → u.pu.stepRepeat = if x.up then none else some x) ∧ u.dc = s.dc ∧
        u.pq = s.pq) ∧
    (a.debounced .down d = true → s.psp.panel = .step → s.pu.down.down = true →
      ∃ u, exec (.keyReleaseAccepted t .down d) s = .next u ∧
        u.pu.down = { s.pu.down with down := false, freed := some a.now } ∧
        (∀ x, s.pu.stepRepeat = some x → u.pu.stepRepeat = if x.up then some x else none) ∧ u.dc = s.dc ∧
        u.pq = s.pq)

/-- STEP_REPEAT and SETTLE_TIMEOUT (R56, R58, R59, R78): a step key still down makes one more step, and the next is
due 200 ms later; 300 ms after the last step the snapshot takes the position, and in the program list a
new snapshot is the program, with its default options. -/
def Obligations.StepsMoveThePosition : Prop :=
  (∀ (t : Time) (r : StepRepeat) (l : Nat) (s a : State), a = s.advance t → s.psp.phase = .run →
     s.pu.stepRepeat = some r → r.due ≤ a.now → s.au.state ≠ .dark → s.dc.state = .browseProgram →
     s.pu.listLen = some l →
     ∃ u, exec (.stepRepeat t) s = .next u ∧
       u.pu = { s.pu with
         stepRepeat := some { up := r.up, due := r.due + 200 * milli }
         settle := some (a.now + 300 * milli)
         position :=
           if r.up then (if s.pu.position + 1 < l then s.pu.position + 1 else 0)
           else (if s.pu.position = 0 then l - 1 else s.pu.position - 1) } ∧
       u.dc = s.dc ∧ u.au.state = .active) ∧
  ∀ (t e : Time) (s a : State), a = s.advance t → s.pu.settle = some e → e ≤ a.now →
    (s.pu.snapshot = s.pu.position →
      exec (.settleTimeout t) s = .next { a with pu := { s.pu with settle := none } }) ∧
    (s.pu.snapshot ≠ s.pu.position → s.dc.state = .browseProgram →
      ∃ u, exec (.settleTimeout t) s = .next u ∧
        u.pu = { s.pu with settle := none, snapshot := s.pu.position } ∧
        u.dc = { s.dc with program := s.pu.position, options := s.table.defaults s.pu.position })

/-- START_HOLD and CANCEL_HOLD (R32, R33, R63, R64, R76, R77, R82): START held for 800 ms in CONFIRM asks for a
START with the mark other than the last and a deadline 3 s on, and the dialogue awaits its answer; BACK
held for 2,000 ms in VIEW asks for a CANCEL while the machine runs, and in the program list with the
partner FREE it discards the selection. -/
def Obligations.HoldsAskForRequests : Prop :=
  (∀ (t : Time) (s a : State), a = s.advance t → s.psp.phase = .run → s.pu.start.down = true →
    s.pu.start.spent = false → s.pu.start.since + 800 * milli ≤ a.now → s.au.state ≠ .dark → s.pu.settle = none →
    s.dc.state = .confirm → s.pm.freshness = .fresh → s.lp.clash = false → s.pm.inFlight = none →
    ∃ u, exec (.startHold t) s = .next u ∧
      u.pm = { s.pm with
        lastMark := !s.pm.lastMark
        inFlight := some { kind := .start, mark := !s.pm.lastMark, program := s.dc.program,
                           options := s.dc.options, deadline := a.now + 3000 * milli, sent := false } } ∧
      u.dc = { s.dc with state := .awaitAnswer, ret := some .confirm } ∧ u.pu.start.spent = true) ∧
  (∀ (t : Time) (s a : State), a = s.advance t → s.psp.phase = .run → s.pu.back.down = true →
    s.pu.back.spent = false → s.pu.back.since + 2000 * milli ≤ a.now → s.au.state ≠ .dark → s.pu.settle = none →
    s.dc.state = .view → s.pm.freshness = .fresh → s.pm.record.state = .running → s.lp.clash = false →
    s.pm.inFlight = none →
    ∃ u, exec (.cancelHold t) s = .next u ∧
      u.pm = { s.pm with
        lastMark := !s.pm.lastMark
        inFlight := some { kind := .cancel, mark := !s.pm.lastMark, program := 0, options := 0,
                           deadline := a.now + 3000 * milli, sent := false } } ∧
      u.dc = { s.dc with state := .awaitAnswer, ret := some .view } ∧
      u.lp = (s.lp.queueRequest (buildFrame .request s.ownAddress
        (requestPayload .cancel (!s.pm.lastMark) 0 0))).1) ∧
  ∀ (t : Time) (s a : State), a = s.advance t → s.psp.phase = .run → s.pu.back.down = true →
    s.pu.back.spent = false → s.pu.back.since + 2000 * milli ≤ a.now → s.au.state ≠ .dark → s.pu.settle = none →
    s.dc.state = .browseProgram → s.pm.freshness = .fresh → s.pm.record.state = .free →
    ∃ u, exec (.cancelHold t) s = .next u ∧ u.dc = Dialogue.reset ∧ u.pu.listLen = none ∧ u.pm = s.pm ∧
      u.vp.tone.isSome = true

/-- LANGUAGE_HOLD and HUSH_TOGGLE (R65, R66, R69, R110, R115): HELP held for 2,000 ms moves the language to the next
one present and closes the HELP window; the chord held for 3,000 ms inverts HUSH, once in the chord. In DARK
the expiry is consumed as the wake: HUSH stands, and the chord has not delivered its event. -/
def Obligations.LanguageMovesAndHushInverts : Prop :=
  (∀ (t : Time) (s a : State), a = s.advance t → s.psp.phase = .run → s.pu.help.down = true →
    s.pu.help.spent = false → s.pu.help.since + 2000 * milli ≤ a.now → s.au.state ≠ .dark →
    s.pu.settle = none →
    ∃ u, exec (.languageHold t) s = .next u ∧ u.cp.currentLang = s.psp.nextLang s.cp.currentLang ∧
      u.cp.defaultLang = s.cp.defaultLang ∧ u.pu.helpCount = 0 ∧ u.pu.helpWindow = none ∧ u.dc = s.dc) ∧
  (∀ (t e : Time) (s a : State), a = s.advance t → s.psp.phase = .run → s.pu.chordTimer = some e → e ≤ a.now →
    s.au.state = .dark →
    ∃ u, exec (.hushToggle t) s = .next u ∧ u.pq.hush = s.pq.hush ∧ u.pu = { s.pu with chordTimer := none } ∧
      u.au.state = .active ∧ u.dc = s.dc) ∧
  ∀ (t e : Time) (s a : State), a = s.advance t → s.psp.phase = .run → s.pu.chordTimer = some e → e ≤ a.now →
    s.au.state ≠ .dark → s.pu.settle = none →
    ∃ u, exec (.hushToggle t) s = .next u ∧ u.pq.hush = !s.pq.hush ∧ u.pu.chordFired = true ∧
      u.pu.chordTimer = none ∧ u.dc = s.dc ∧
      (s.pq.hush = false → ∀ it ∈ u.pq.items, classLevel it.cls = .routine → it.reach = .loc) ∧
      (s.pq.hush = true → u.pq.items = s.pq.items)

/-! ## The prompt queue (chapter 6) -/

/-- HELP_WINDOW_CLOSE (R65, R91, R95, R111, R112, R162): the window closes with the count back at 0. A count of 1 asks
for the last-completed item again: the buzz sounds where there is none or its condition does not hold,
nothing happens where its class is current, and else its class is placed with the record's parameters and
reach, without supersede. A count of 2 places a STATE_DESCRIPTION of the machine and the dialogue as they
stand at the close of the window, which is the model's choice of the moment of the press (log 30, DESIGN CHOICE),
and one of 3 a ROOM_SUMMARY. The floor controller here waits in ENDING, so the item stays in the
queue. -/
def Obligations.HelpTwiceDescribesTheState : Prop :=
  ∀ (t e : Time) (s a : State), a = s.advance t → s.psp.phase = .run → s.pu.helpWindow = some e → e ≤ a.now →
    s.pu.help.down = false → s.au.state ≠ .dark → s.pu.settle = none →
    (∃ u, exec (.helpWindowClose t) s = .next u ∧
      u.pu = { s.pu with helpCount := 0, helpWindow := none } ∧ u.dc = s.dc ∧ u.au.state = .active) ∧
    (s.pu.helpCount = 2 → s.fc.state = .ending → s.pq.queued .stateDescription = false →
      s.pq.items.length < 8 →
      ∃ u, exec (.helpWindowClose t) s = .next u ∧
        u.pq.items = putBy Item.rank
          { cls := .stateDescription
            params :=
              { p0 := if s.pm.freshness = .fresh then stateCode s.pm.record.state else 8
                p1 := minutesParam s.pm.record.minutes
                p2 := s.pm.record.credits
                p3 := dialogueCode s.dc.state }
            machines := none, reach := .loc, expiry := some (a.now + 10 * second), key := .none,
            enqueued := a.now } s.pq.items) ∧
    (s.pu.helpCount = 3 → s.fc.state = .ending → s.pq.queued .roomSummary = false → s.pq.items.length < 8 →
      ∃ u, exec (.helpWindowClose t) s = .next u ∧
        u.pq.items = putBy Item.rank
          { cls := .roomSummary, params := { p0 := 0, p1 := 0, p2 := 0, p3 := 0 }, machines := none,
            reach := .loc, expiry := some (a.now + 10 * second), key := .none, enqueued := a.now }
          s.pq.items) ∧
    (s.pu.helpCount = 1 →
      ∃ u, exec (.helpWindowClose t) s = .next u ∧
        (s.pq.last = none ∨ (∃ r, s.pq.last = some r ∧ s.holds (classKey r.cls) = false) →
          u.pq = s.pq ∧ u.fc = s.fc ∧
          u.vp.tone = some { kind := .buzz, gain := s.psp.profile.localGain, start := a.now }) ∧
        ∀ r, s.pq.last = some r → s.holds (classKey r.cls) = true →
          (s.pq.isCurrent r.cls = true → u.pq = s.pq ∧ u.fc = s.fc ∧ u.vp = s.vp) ∧
          (s.pq.isCurrent r.cls = false → s.fc.state = .ending → s.pq.queued r.cls = false →
            s.pq.items.length < 8 →
            u.pq = { s.pq with
              items := putBy Item.rank
                { cls := r.cls, params := r.params, machines := none, reach := s.hushed r.cls r.reach,
                  expiry := (lifetime r.cls).map (a.now + ·), key := classKey r.cls, enqueued := a.now }
                s.pq.items }))

/-- CALL_TIMER_EXPIRE (R106): the timer stops and the count stands. With the condition ended, or an item of the
class queued or current, nothing is placed. Otherwise the class is placed with the parameters of the moment,
here while the floor controller waits in ENDING: in its place of the order (R94, R95), at its reach as HUSH
leaves it (R110), with the key and without the lifetime of R90; and the part is ACTIVE (R92, R168). The minutes
that UNLOAD_REMINDER carries where the DONE-since time is absent are a free value, and the statement holds for
every value of it (log 26). -/
def Obligations.CallTimerPlacesItsClass : Prop :=
  ∀ (t e : Time) (r : Series) (s a : State), a = s.advance t → (s.pq.series r).timer = some e → e ≤ a.now →
    (s.holds (seriesKey r) = false ∨ s.pq.queued (seriesClass r) = true ∨ s.pq.isCurrent (seriesClass r) = true →
      exec (.callTimerExpire t r) s =
        .next { a with pq := s.pq.setSeries r { s.pq.series r with timer := none } }) ∧
    (s.holds (seriesKey r) = true → s.pq.queued (seriesClass r) = false →
      s.pq.isCurrent (seriesClass r) = false → s.fc.state = .ending → s.pq.items.length < 8 → s.psp.phase = .run →
      ∃ u, exec (.callTimerExpire t r) s = .next u ∧
        u.pq = { s.pq.setSeries r { s.pq.series r with timer := none } with
          items := putBy Item.rank
            { cls := seriesClass r, params := a.callParams r, machines := none,
              reach := s.hushed (seriesClass r) (baseReach (seriesClass r)), expiry := none,
              key := seriesKey r, enqueued := a.now } s.pq.items } ∧
        u.au.state = .active)

/-! ## The composer (chapter 7) -/

/-- R119: a number of 0..99 is one clip; 100..999 is its hundreds, HUNDRED and what is left, if anything; more is
999; OWN_NUMBER is one clip; and DIGITS gives the decimal digits from the most significant with no
leading zero. NUMBER is that of a parameter that is not coded. -/
def Obligations.NumbersAreClips : Prop :=
  (∀ v, v ≤ 99 → numberClips v = [v]) ∧
  (∀ v, 100 ≤ v → v ≤ 999 →
    numberClips v = if v % 100 = 0 then [v / 100, 100] else [v / 100, 100, v % 100]) ∧
  (∀ v, 999 < v → numberClips v = numberClips 999) ∧
  (∀ (r : Readings) (it : Item), 1 ≤ r.machine → r.machine ≤ 31 →
    expand r it .ownNumber = [.clip [r.machine]]) ∧
  (∀ (r : Readings) (it : Item) (p : Nat), codedPosition it.cls p (it.params.get p) = none →
    expand r it (.number p) = (numberClips (it.params.get p)).map fun id => .clip [id]) ∧
  (∀ (r : Readings) (it : Item) (p : Nat),
    expand r it (.digits p) = (digitClips (it.params.get p)).map fun id => .clip [id]) ∧
  ∀ v, v ≤ 1023 → (digitClips v).foldl (fun acc d => 10 * acc + d) 0 = v ∧ (∀ d ∈ digitClips v, d ≤ 9) ∧
    (v = 0 → digitClips v = [0]) ∧ (v ≠ 0 → (digitClips v).head? ≠ some 0)

/-- COMPOSER_READ_END (R116, R180): the bytes of a template or of a directory entry go into the composition, the
port enters its 500 ns gap, and the next directory read waits for it. That it is a read of its own, of the 5 bytes
of one entry, is the model's choice (log 29, DESIGN CHOICE). -/
def Obligations.ComposerTakesItsRead : Prop :=
  ∀ (t e : Time) (d : List Byte) (q : ReadReq) (z : Bool) (w : Work) (s a : State), a = s.advance t →
    s.psp.port = .reading .composer q e z → e ≤ a.now → s.cp.work = some w →
    ∃ u, exec (.composerReadEnd t d) s = .next u ∧
      u.cp = { s.cp with work := some (w.take (s.psp.readings w.kind) q.size d) } ∧
      u.psp.port = .gap (a.now + portGap) ∧ u.psp.waitRefill = s.psp.waitRefill ∧
      (∀ id more rest, (w.take (s.psp.readings w.kind) q.size d).stage = .entry id more rest →
        u.psp.waitComposer = some { addr := w.dirAddr + 5 * id, size := 5 }) ∧
      u.fc = s.fc ∧ u.pq = s.pq ∧ u.lp = s.lp ∧ u.vp = s.vp

/-- COMPOSITION_END (R138, R139, R190): EMPTY drops the item, here with the queue empty, and the floor controller
stays in IDLE. The utterance of an item that is neither marked nor expired, with nothing queued before it
becomes current. In NORMAL mode, while its RELEASE is pending it waits, and when the view is empty and
nothing holds it back its CLAIM is queued. In SOLO mode it is lowered to LOCAL reach (R129), no CLAIM is
sent, and when the view is empty and the line is not held it is in SPEAKING at once, with the playback start
at the moment (R139, R144), at the LOCAL gain and with its hard stop (R154, R160). -/
def Obligations.CompositionReachesTheFloor : Prop :=
  (∀ (t : Time) (w : Work) (it : Item) (s a : State), a = s.advance t → s.cp.work = some w →
    w.stage = .finished none → s.fc.state = .idle → s.fc.item = some it → s.pq.items = [] →
    ∃ u, exec (.compositionEnd t) s = .next u ∧ u.fc = { s.fc with item := none } ∧ u.cp.work = none ∧
      u.pq.current = none ∧ u.pq.items = [] ∧ u.pq.last = s.pq.last ∧ u.lp = s.lp ∧ u.vp = s.vp) ∧
  ∀ (t : Time) (w : Work) (it : Item) (x : Utterance) (s a : State), a = s.advance t → s.cp.work = some w →
    w.stage = .finished (some x) → s.fc.item = some it → s.pq.marked = false → it.expired a.now = false →
    s.headBefore = false →
    (s.lp.mode = .normal → s.fc.releasePending = true →
      ∃ u, exec (.compositionEnd t) s = .next u ∧
        u.fc = { s.fc with state := .waiting, utterance := some x, reasserted := [],
                           composed := some a.now, swapped := none } ∧
        u.cp.work = none ∧ u.lp = s.lp) ∧
    (s.lp.mode = .solo → s.fc.view = [] → s.fc.crowded = none → s.lp.lineHeld = false →
      ∃ u y, exec (.compositionEnd t) s = .next u ∧
        y = (if x.reach = .room then
          { x with reach := .loc, units := x.units - 60, floor := floorUnits (x.units - 60) } else x) ∧
        u.fc = { s.fc with state := .speaking, utterance := some y, reasserted := [],
                           composed := some a.now, swapped := none, playStart := some a.now,
                           contestEnd := none, cutOrder := none } ∧
        u.cp.work = none ∧ u.lp = s.lp ∧
        u.vp.stream = some
          { sound := .utterance y, gain := s.psp.profile.localGain, start := a.now, early := none,
            hardStop := some (a.now + y.floor * (100 * milli) + 200 * milli) } ∧
        u.vp.ampEn = true) ∧
    (s.lp.mode = .normal → s.fc.releasePending = false → s.fc.view = [] → s.fc.crowded = none →
      s.lp.queue = [] → s.lp.tx = none →
      ∃ u, exec (.compositionEnd t) s = .next u ∧
        u.fc = { s.fc with state := .claiming, utterance := some x, reasserted := [],
                           composed := some a.now, swapped := none } ∧
        u.cp.work = none ∧
        u.lp = { s.lp with
          queue := [{ kind := .claim, bytes := buildFrame .claim s.ownAddress
                        (claimPayload x.level x.reach x.floor), reassert := false, attempts := 0 }] })

/-! ## The speaking floor (chapter 8) -/

/-- R135: URGENT precedes ROUTINE whatever the addresses, between equals the lower address precedes, and two claims
from different addresses never tie. The own claim is taken at the current utterance's level and the own
address, in CLAIMING, where its CLAIM may not have been sent, as in CONTEST and SPEAKING. -/
def Obligations.PrecedenceNeverTies : Prop :=
  (∀ a b, precedes .urgent a .routine b = true ∧ precedes .routine a .urgent b = false) ∧
  (∀ l a b, precedes l a l b = decide (a < b)) ∧
  (∀ l m a b, a ≠ b → precedes l a m b = !precedes m b l a) ∧
  (∀ l m k a b c, precedes l a m b = true → precedes m b k c = true → precedes l a k c = true) ∧
  (∀ (addr : Nat) (level : Level) (x : Utterance) (p : Time) (s : State), s.fc.state = .speaking →
    s.fc.utterance = some x → s.fc.playStart = some p → s.fc.cutOrder = none → addr ∉ s.fc.reasserted →
    fcJudge addr level s =
      if precedes level addr x.level s.ownAddress then orderCut .giveBack s else fcReassert x p addr s) ∧
  ∀ (addr units : Nat) (level : Level) (n : Time) (x : Utterance) (s : State),
    (s.fc.state = .claiming ∨ s.fc.state = .contest) → s.fc.utterance = some x →
    fcClaimReceived addr level units n s =
      (let heard := { s with fc := s.fc.store addr level units n }
       if precedes level addr x.level s.ownAddress then fcTest (backToWaiting (fcRelease heard)) else heard)

/-- CLAIM_STANDS (R134, R145, R146): 80 ms after its arrival a claim is speaking. In SPEAKING one that precedes
orders a cut that returns the item; one that does not is answered once with a re-assertion. Its floor units
are the remaining playback time over 100 ms, rounded up, and at least 1; they are never more than the
utterance's. -/
def Obligations.ClaimThatStandsIsJudged : Prop :=
  ∀ (t p : Time) (e : ViewEntry) (x : Utterance) (s a : State), a = s.advance t → ViewLaw s → e ∈ s.fc.view →
    e.speaking = false → e.arrival + 80 * milli ≤ a.now → s.fc.state = .speaking → s.fc.utterance = some x →
    s.fc.playStart = some p → s.fc.cutOrder = none →
    ∃ u, exec (.claimStands t e.addr) s = .next u ∧
      { e with speaking := true } ∈ u.fc.view ∧ u.fc.state = .speaking ∧
      (precedes e.level e.addr x.level s.ownAddress = true →
        u.fc.cutOrder = some .giveBack ∧ u.lp = s.lp ∧ u.fc.reasserted = s.fc.reasserted) ∧
      (precedes e.level e.addr x.level s.ownAddress = false → e.addr ∉ s.fc.reasserted →
        u.fc.cutOrder = none ∧ e.addr ∈ u.fc.reasserted ∧ u.vp = s.vp ∧
        (∃ f, f = max 1 ((p + x.units * (10 * milli) - a.now + (100 * milli - 1)) / (100 * milli)) ∧
          1 ≤ f ∧ (x.lawful → p ≤ a.now → f ≤ x.floor) ∧
          u.lp = (s.lp.queueClaim (buildFrame .claim s.ownAddress (claimPayload x.level x.reach f)) true).1)) ∧
      (precedes e.level e.addr x.level s.ownAddress = false → e.addr ∈ s.fc.reasserted →
        u.fc.cutOrder = none ∧ u.lp = s.lp ∧ u.vp = s.vp)

/-- CONTEST_WINDOW_END (R143, R144, R158, R160): at the end of the window the utterance plays from there, at the
gain of its reach (R154), with its hard stop at F × 100 ms + 200 ms, AMP_EN high (R164) and any click ended
(R161). -/
def Obligations.ContestEndsInSpeaking : Prop :=
  ∀ (t e : Time) (x : Utterance) (s a : State), a = s.advance t → s.fc.state = .contest →
    s.fc.contestEnd = some e → e ≤ a.now → s.fc.utterance = some x →
    ∃ u, exec (.contestWindowEnd t) s = .next u ∧
      u.fc = { s.fc with state := .speaking, playStart := some e, contestEnd := none, cutOrder := none } ∧
      u.vp.stream = some
        { sound := .utterance x
          gain := if x.reach = .room then s.psp.profile.roomGain else s.psp.profile.localGain
          start := e, early := none, hardStop := some (e + x.floor * (100 * milli) + 200 * milli) } ∧
      u.vp.buffer = [] ∧ u.vp.ampEn = true ∧ u.vp.ampRelease = none ∧
      (∀ y, u.vp.tone = some y → y.kind = .buzz)

/-- UTTERANCE_PLAYED_WHOLE, CUT_COMPLETE and HARD_STOP (R101, R111, R147 to R149, R155): the sound stops with its
buffer emptied, the item ends SAID, by its cut order or DROPPED, and the floor is given up. A SAID fills
the last-completed record. A cut that returns the item puts it back into the queue, here with room for it
and no other of its class; no other end does. Here the station claimed, in NORMAL mode, so it awaits its
RELEASE in ENDING. A SAID advances the series of its class, if its condition holds, up to its limit (R102,
R104); the third saying of ACTION_NEEDED begins the second stage (R105), and one of CYCLE_DONE the UNLOAD
series (R104). A DROPPED starts the stopped timer of its series anew below the limit, unless the item was
marked (R109). In tones-only mode a rendering that ends is followed by SPACING, with no RELEASE and nothing
else done at the line (R101, R151, R163). -/
def Obligations.SoundEndsInEnding : Prop :=
  (∀ (t : Time) (st : Stream) (it : Item) (i : Instr) (s a : State), a = s.advance t → s.vp.stream = some st →
    s.fc.item = some it → s.psp.tonesOnly = false → s.lp.mode = .normal → s.lp.claimOut = true →
    s.fc.releasePending = false →
    (i = .utterancePlayedWhole t ∧ st.early = none ∧ st.start + segsLength st.sound.segs * samplePeriod ≤ a.now ∨
      i = .cutComplete t ∧ (∃ e, st.early = some e ∧ e.hard = false ∧ e.point + 20 * milli ≤ a.now) ∨
      i = .hardStop t ∧ (∃ h, st.hardStop = some h ∧ h ≤ a.now)) →
    ∃ u, exec i s = .next u ∧ u.vp.stream = none ∧ u.vp.buffer = [] ∧ u.vp.fetch = none ∧ u.fc.state = .ending ∧
      u.fc.item = none ∧ u.fc.utterance = none ∧ u.fc.reasserted = [] ∧ u.fc.cutOrder = none ∧
      u.fc.releasePending = true ∧ u.lp.listed .release = true ∧ u.lp.listed .claim = false ∧
      u.pq.current = none ∧
      u.pq.last = (if i = .utterancePlayedWhole t then
        some { cls := it.cls, params := it.params, reach := it.reach } else s.pq.last) ∧
      (i = .cutComplete t → s.fc.cutOrder = some .giveBack → s.pq.queued it.cls = false →
        it.expired a.now = false → s.pq.items.length < 8 →
        u.pq.items = putBy Item.rank { it with machines := none, reach := s.hushed it.cls it.reach }
          s.pq.items) ∧
      (i ≠ .cutComplete t ∨ s.fc.cutOrder ≠ some .giveBack → u.pq.items = s.pq.items) ∧
      (∀ v x, i = .utterancePlayedWhole t → seriesOf it.cls = some v → x = s.pq.series v →
        (s.holds (seriesKey v) = true → x.count + 1 < seriesLimit v →
          u.pq.series v = { timer := some (a.now + seriesInterval v), count := x.count + 1 }) ∧
        (s.holds (seriesKey v) = true → x.count + 1 = seriesLimit v →
          u.pq.series v = { timer := none, count := x.count + 1 } ∧
          (v = .actionFirst → u.pq.actionSecond = { timer := some (a.now + 60 * second), count := 0 })) ∧
        (s.holds (seriesKey v) = false ∨ seriesLimit v ≤ x.count → u.pq.series v = x)) ∧
      (i = .utterancePlayedWhole t → it.cls = .cycleDone →
        u.pq.unload =
          if s.holds .done = true ∧ s.pq.unload = { timer := none, count := 0 } then
            { timer := some (a.now + 300 * second), count := 0 }
          else s.pq.unload) ∧
      (∀ v x, i = .hardStop t ∨ i = .cutComplete t ∧ s.fc.cutOrder ≠ some .giveBack →
        seriesOf it.cls = some v → x = s.pq.series v →
        u.pq.series v =
          if s.pq.marked = false ∧ s.holds (seriesKey v) = true ∧ s.pq.queued it.cls = false ∧
            x.timer = none ∧ x.count < seriesLimit v then
            { x with timer := some (a.now + seriesInterval v) }
          else x)) ∧
  (∀ v, seriesLimit v = (if v = .fault then 5 else 3) ∧
    seriesInterval v = match v with
      | .fault | .actionSecond => 60 * second
      | .actionFirst => 20 * second
      | .payment => 30 * second
      | .unload => 300 * second) ∧
  ∀ (t : Time) (st : Stream) (it : Item) (i : Instr) (s a : State), a = s.advance t → s.vp.stream = some st →
    s.fc.item = some it → s.psp.tonesOnly = true → s.fc.cutOrder ≠ some .giveBack →
    (∀ h rest, s.pq.items = h :: rest → classLevel h.cls = .routine) →
    (i = .utterancePlayedWhole t ∧ st.early = none ∧ st.start + segsLength st.sound.segs * samplePeriod ≤ a.now ∨
      i = .cutComplete t ∧ (∃ e, st.early = some e ∧ e.hard = false ∧ e.point + 20 * milli ≤ a.now)) →
    ∃ u, exec i s = .next u ∧ u.vp.stream = none ∧ u.lp = s.lp ∧ u.pq.items = s.pq.items ∧
      u.pq.current = none ∧
      u.fc = { s.fc with state := .spacing, spacing := some (a.now + 600 * milli), item := none,
                         utterance := none, playStart := none, cutOrder := none } ∧
      u.pq.last = (if i = .utterancePlayedWhole t then
        some { cls := it.cls, params := it.params, reach := it.reach } else s.pq.last)

/-- SPACING_END (R137, R150, R151, R163): after 600 ms the floor controller is in IDLE; with the queue empty
nothing is taken; otherwise, in speech mode, an unexpired head is the current item and its composition has
begun. In tones-only mode an URGENT head is rendered as the alarm and a ROUTINE one of ROOM reach, in NORMAL
mode, as the chime, at once, at the ROOM gain, with no hard stop and nothing sent on the line; a ROUTINE one of
LOCAL reach, or in SOLO mode, is discarded without a sound and ends SAID. -/
def Obligations.SpacingEndTakesTheHead : Prop :=
  ∀ (t e : Time) (s a : State), a = s.advance t → s.psp.phase = .run → s.fc.state = .spacing →
    s.fc.spacing = some e → e ≤ a.now → s.fc.item = none →
    (s.pq.items = [] →
      exec (.spacingEnd t) s =
        .next { a with
          fc := { s.fc with
            state := .idle, spacing := none
            spacingOver := some { moment := a.now, said := [] } } }) ∧
    (∀ it rest, s.pq.items = it :: rest → it.expired a.now = false → s.psp.tonesOnly = false →
      ∃ u, exec (.spacingEnd t) s = .next u ∧
        u.fc = { s.fc with
          state := .idle, spacing := none, item := some it, spacingOver := u.fc.spacingOver } ∧
        u.pq.items = rest ∧
        u.pq.current = some { cls := it.cls, key := it.key, superseded := false, withdrawn := false } ∧
        ∃ w, u.cp.work = some w ∧ w.lang = s.cp.currentLang ∧ w.level = classLevel it.cls ∧
          w.reach = (if s.lp.mode = .solo then .loc else it.reach)) ∧
    ∀ it rest, s.pq.items = it :: rest → it.expired a.now = false → s.psp.tonesOnly = true →
      ∃ u, exec (.spacingEnd t) s = .next u ∧ u.lp = s.lp ∧ u.cp = s.cp ∧
        (classLevel it.cls = .urgent ∨ it.reach = .room ∧ s.lp.mode = .normal →
          u.fc = { s.fc with
            state := .speaking, spacing := none, item := some it, spacingOver := u.fc.spacingOver } ∧
          u.pq.items = rest ∧
          u.pq.current = some { cls := it.cls, key := it.key, superseded := false, withdrawn := false } ∧
          u.vp.stream = some
            { sound := if classLevel it.cls = .urgent then .alarm else .chime
              gain := s.psp.profile.roomGain, start := a.now, early := none, hardStop := none } ∧
          u.vp.ampEn = true) ∧
        (classLevel it.cls = .routine → it.reach = .loc ∨ s.lp.mode = .solo → rest = [] →
          u.fc = { s.fc with state := .idle, spacing := none, spacingOver := u.fc.spacingOver } ∧
          u.vp = s.vp ∧ u.pq.items = [] ∧ u.pq.current = none ∧
          u.pq.last = some { cls := it.cls, params := it.params, reach := it.reach })

/-! ## Voice and tones (chapter 9) -/

/-- R129, R158 to R160: of a lawful utterance the sound is whole, and any cut ordered while it sounds has faded,
at least 180 ms before the hard stop. -/
def Obligations.SoundEndsBeforeTheHardStop : Prop :=
  ∀ (x : Utterance) (start : Time) (s : State), x.lawful →
    ∃ st h, (vpPlay x start s).vp.stream = some st ∧ st.hardStop = some h ∧
      st.wholeAt + 200 * milli ≤ h ∧
      ∀ n v st', st.start ≤ n → n < st.wholeAt → v.vp.stream = some st → v.now = n →
        (vpCut v).vp.stream = some st' → ∀ e, st'.early = some e → e.point + fadeTime + 180 * milli ≤ h

/-- HARD_STOP_FADE (R160), TONE_SOUND_END and AMP_RELEASE_EXPIRE (R164): 20 ms before the hard stop, with no fade
running, a fade begins with the sound going on into it; a click of 40 samples or a buzz of 1,200 ends, and
with the stream channel silent the release timer runs 20 ms; at its end AMP_EN goes low. -/
def Obligations.SoundTimersRun : Prop :=
  (∀ (t h : Time) (st : Stream) (s a : State), a = s.advance t → s.vp.stream = some st → st.hardStop = some h →
     h ≤ a.now + 20 * milli → st.early = none →
     ∃ e, exec (.hardStopFade t) s = .next { a with vp := { s.vp with stream := some { st with early := some e } } } ∧
       e.point = a.now ∧ e.hard = true ∧
       (∀ g k n, locate st.sound.segs 0 ((a.now - st.start) / samplePeriod) = some (g, k, n) →
         e.segEnd = st.start + n * samplePeriod)) ∧
  (∀ (t : Time) (x : Tone) (s a : State), a = s.advance t → s.vp.tone = some x →
    x.start + (if x.kind = .click then 40 else 1200) * samplePeriod ≤ a.now →
    exec (.toneSoundEnd t) s =
      .next { a with
        vp := { s.vp with
          tone := none
          ampRelease := if s.vp.stream = none then some (a.now + 20 * milli) else s.vp.ampRelease } }) ∧
  ∀ (t e : Time) (s a : State), a = s.advance t → s.vp.ampRelease = some e → e ≤ a.now →
    exec (.ampReleaseExpire t) s = .next { a with vp := { s.vp with ampEn := false, ampRelease := none } }

/-- REFILL_END and SAMPLE_PERIOD (R155, R156, R180): the samples of a refill join the tail of the buffer in their
order, but for those whose place has passed; a refill whose sound is over leaves none. They join as they
arrive, one with each byte of the transaction past the command and the address: at a sample period those
that have arrived by then, here in a segment that takes none from the buffer, and at the end of the read
the rest, each with the byte read for it. That a sample that arrives at the very moment of a period counts as
arrived (log 18, DEDUCED) and that the commands bring the bytes so, each byte once (log 27, DESIGN CHOICE), is
the model's choice. -/
def Obligations.RefillJoinsTheBuffer : Prop :=
  (∀ (t b : Time) (d : List Byte) (q : ReadReq) (z : Bool) (r : Refill) (st : Stream) (o n k : Nat)
    (s a : State), a = s.advance t → s.psp.phase ≠ .held → s.vp.newPeriod a.now = true →
    s.psp.port = .reading .refill q (b + (4 + q.size) * portByte) z → s.vp.refill = some r →
    r.discard = false → q.size = r.size → r.first.before s.vp.playPos = false →
    s.vp.stream = some st → st.early = none → due st.hardStop a.now = false →
    locate st.sound.segs 0 ((a.now - st.start) / samplePeriod) = some (.silence, o, n) →
    k = min r.size ((a.now - b) / portByte - 4) → d.length = k - r.arrived →
    ∃ u, exec (.samplePeriod { moment := t, bytes := d }) s = .next u ∧
      u.vp.refill = some { r with arrived := max r.arrived k } ∧ u.psp = s.psp ∧
      u.vp.buffer = s.vp.buffer ++ (List.range (k - r.arrived)).map fun j =>
        { place := { entry := r.first.entry, offset := r.first.offset + r.arrived + j }, value := d.getD j 0 }) ∧
  ∀ (t e : Time) (d : List Byte) (q : ReadReq) (z : Bool) (r : Refill) (s a : State), a = s.advance t →
    s.psp.port = .reading .refill q e z → e ≤ a.now → s.vp.refill = some r →
    ∃ u, exec (.refillEnd t d) s = .next u ∧ u.psp.port = .gap (a.now + portGap) ∧
      u.psp.waitComposer = s.psp.waitComposer ∧
      (r.discard = true → u.vp.buffer = s.vp.buffer) ∧
      (r.discard = false → d.length = r.size - r.arrived → r.first.before s.vp.playPos = false →
        u.vp.buffer = s.vp.buffer ++ (List.range (r.size - r.arrived)).map fun j =>
          { place := { entry := r.first.entry, offset := r.first.offset + r.arrived + j }, value := d.getD j 0 }) ∧
      (∀ x ∈ u.vp.buffer, (∃ y ∈ s.vp.buffer, y.place = x.place) ∨ x.place.before s.vp.playPos = false)

/-- SAMPLE_PERIOD (R153, R154, R157): out of reset each period presents a value within −128..127; with both channels
silent it is 0; a click alone gives 96 × LOCAL gain ÷ 15, high for two samples and low for two. -/
def Obligations.SampleIsPresented : Prop :=
  ∀ (t : Time) (d : List Byte) (s a : State), a = s.advance t → s.psp.phase ≠ .held → s.vp.newPeriod a.now = true →
    ∃ u, exec (.samplePeriod { moment := t, bytes := d }) s = .next u ∧ u.vp.periodStart = some a.now ∧
      -128 ≤ u.vp.aout ∧ u.vp.aout ≤ 127 ∧
      (s.vp.stream = none → s.vp.tone = none → u.vp.aout = 0) ∧
      (∀ (g : Nat) (b k : Time), s.vp.stream = none →
        s.vp.tone = some { kind := .click, gain := g, start := b } → g ≤ 15 →
        k < 40 → a.now = b + k * samplePeriod →
        u.vp.aout = if k % 4 < 2 then ((96 * g : Int).tdiv 15) else -((96 * g : Int).tdiv 15)) ∧
      (s.vp.stream = none → (∀ r, s.vp.refill = some r → r.discard = true) → u.vp.buffer = s.vp.buffer)

/-! ## Attention and the panel's lights (chapter 10) -/

/-- DIM_TIMEOUT, DARK_TIMEOUT and REPROMPT_TIMEOUT (R88, R115, R168, R169, R171): from ACTIVE the part goes DIM;
at the dark timer it goes DARK with both timers and the reprompt stopped, the dialogue in VIEW and the language
the default; while SELECTING holds the reprompt count gains 1, and the timer runs again only while the count is
below 2; REPROMPT is placed with the number of the list (R91, R93, R95), here while the floor controller waits
in ENDING, and is no activity. -/
def Obligations.AttentionTimersRun : Prop :=
  ((∀ (t e : Time) (s a : State), a = s.advance t → s.au.state = .active → s.au.dim = some e → e ≤ a.now →
     exec (.dimTimeout t) s = .next { a with au := { s.au with state := .dim, dim := none } }) ∧
   ∀ (t e : Time) (s a : State), a = s.advance t → s.au.state ≠ .dark → s.au.dark = some e → e ≤ a.now →
     ∃ u, exec (.darkTimeout t) s = .next u ∧
       u.au = { state := .dark, dim := none, dark := none, reprompt := none, count := 0 } ∧
       u.dc.state = .view ∧ (s.dc.state ≠ .view → u.dc = Dialogue.reset ∧ u.pu.listLen = none) ∧
       u.cp.currentLang = s.cp.defaultLang ∧ u.pm = s.pm) ∧
  ∀ (t e : Time) (s a : State), a = s.advance t → s.dc.state.selecting = true → s.au.reprompt = some e →
    e ≤ a.now →
    ∃ u, exec (.repromptTimeout t) s = .next u ∧
      u.au = { s.au with
        count := s.au.count + 1
        reprompt := if s.au.count + 1 < 2 then s.psp.profile.reprompt.map (a.now + ·) else none } ∧
      u.dc = s.dc ∧ u.pm = s.pm ∧
      (s.fc.state = .ending → s.pq.queued .reprompt = false → s.pq.items.length < 8 →
        u.pq.items = putBy Item.rank
          { cls := .reprompt
            params :=
              { p0 := (if s.dc.state = .browseProgram then 0 else if s.dc.state = .browseOption then 1 else 2)
                p1 := 0, p2 := 0, p3 := 0 }
            machines := none, reach := .loc, expiry := some (a.now + 10 * second), key := .selecting,
            enqueued := a.now } s.pq.items)

/-- MULTIPLEX_SLOT (R173, R176, R177): DIG0, DIG1, DIG2, DIG3 and LEDCOM have 2 ms each, in that order, from DIG0.
In RUN a digit's slot drives its digit of the view and LEDCOM the LEDs; the lamp test lights every segment,
every point and every LED; in STRAP_HALT the digits show E0 at full duty with the LEDs off; a part in DARK
drives no strobe, and one in IMAGE none. A slot begun in LISTEN or in ACTIVE has the ACTIVE duty of the profile,
and one in DIM the DIM duty, at most the ACTIVE one. That the slots run from the release of reset, in IMAGE
too, and that what a slot drives is fixed at its beginning, is the model's choice (log 22, DESIGN CHOICE).
LAMP_TEST_END and E1_WINDOW_END (R176, R178, R187): 500 ms into LISTEN the lamp test
goes out, the flasher phases begin, and E1 shows in tones-only mode; 3,000 ms into RUN E1 is over. -/
def Obligations.IndicatorFollowsItsTimers : Prop :=
  (∀ (t : Time) (k : Nat) (s a : State), a = s.advance t → s.psp.phase ≠ .held → s.ind.slot = some k → k ≤ 4 →
     s.ind.slotStart + 2 * milli ≤ a.now →
     ∃ u, exec (.multiplexSlot t) s = .next u ∧ u.ind.slot = some (if k = 4 then 0 else k + 1) ∧
       u.ind.slotStart = a.now ∧
       (s.psp.phase = .run → k = 3 → u.ind.drive = .leds a.ledsLit) ∧
       (s.psp.phase = .run → k ≠ 3 → u.ind.drive = .digit (a.digitOf (if k = 4 then 0 else k + 1))) ∧
       (s.psp.phase = .listen → s.ind.lampTest = true → k = 3 → u.ind.drive = .leds 0xFF#8) ∧
       (s.psp.phase = .listen → s.ind.lampTest = true → k ≠ 3 →
         u.ind.drive = .digit { glyph := .allSegments, point := true }) ∧
       (s.psp.phase = .strapHalt → u.ind.duty = 100 ∧ (k = 3 → u.ind.drive = .leds 0#8) ∧
         (k ≠ 3 → u.ind.drive = .digit
           { glyph := [.letE, .digit 0, .blank, .blank].getD (if k = 4 then 0 else k + 1) .blank,
             point := false })) ∧
       (s.psp.phase = .run → s.au.state = .dark → ∀ n, u.ind.driven n = false) ∧
       (s.psp.phase = .listen ∨ s.psp.phase = .run ∧ s.au.state = .active →
         u.ind.duty = s.psp.profile.activeDuty) ∧
       (s.psp.phase = .run → s.au.state = .dim → u.ind.duty = s.psp.profile.dimDuty) ∧
       (∀ n, u.ind.drive ≠ .off →
         (u.ind.driven n = true ↔ 100 * (n - u.ind.slotStart) < u.ind.duty * (2 * milli))) ∧
       (s.psp.phase = .image → u.ind.drive = .off)) ∧
  (∀ (p : Profile) (c d : Nat), c = p.duty.toNat % 16 → d = p.duty.toNat / 16 →
     p.activeDuty = (if c = 0 then 5 else if c ≤ 9 then 10 * c else 100) ∧
     p.dimDuty = min (if d = 0 then 5 else if d ≤ 9 then 10 * d else 100) p.activeDuty) ∧
  (∀ (t : Time) (s a : State), a = s.advance t → s.psp.phase ≠ .held → s.ind.slot = none →
     ∃ u, exec (.multiplexSlot t) s = .next u ∧ u.ind.slot = some 0 ∧ u.ind.slotStart = a.now) ∧
  (∀ (t p : Time) (s a : State), a = s.advance t → s.ind.lampTest = true → s.psp.listenStart = some p →
    p + 500 * milli ≤ a.now →
    exec (.lampTestEnd t) s =
      .next { a with ind := { s.ind with lampTest := false, flashStart := some a.now, e1 := s.psp.tonesOnly } }) ∧
  ∀ (t p : Time) (s a : State), a = s.advance t → s.psp.runStart = some p → p + 3000 * milli ≤ a.now →
    exec (.e1WindowEnd t) s = .next { a with ind := { s.ind with e1 := false } }

/-! ## The phrase store port (chapter 11) -/

/-- ARBITER_GRANT (R180, R181): after the 500 ns the waiting refill has the port before a waiting composer read; with
none waiting it is idle. -/
def Obligations.RefillGoesBeforeTheComposer : Prop :=
  ∀ (t e : Time) (s a : State), a = s.advance t → s.psp.port = .gap e → e ≤ a.now →
    (∀ r, s.psp.waitRefill = some r →
      exec (.arbiterGrant t) s =
        .next { a with psp := { s.psp with
          waitRefill := none, port := .reading .refill r (a.now + (4 + r.size) * portByte) false } }) ∧
    (∀ r, s.psp.waitRefill = none → s.psp.waitComposer = some r →
      exec (.arbiterGrant t) s =
        .next { a with psp := { s.psp with
          waitComposer := none, port := .reading .composer r (a.now + (4 + r.size) * portByte) false } }) ∧
    (s.psp.waitRefill = none → s.psp.waitComposer = none →
      exec (.arbiterGrant t) s = .next { a with psp := { s.psp with port := .idle } })
end

