-- ==== Sys2Proof/Laws/Frames.lean ====
section
/-! SUPPORT. What the shared operations leave as it is, as equations between the parts of the state named in
`Safety.lean`. An operation of the speaking side leaves `State.outside`; a trigger with its activity
leaves `State.beyond`; the dialogue leaves `State.remote`. -/

namespace Sys2Proof.Machine

/-! ## The port and the sounds -/

@[simp] theorem settled_grant (p : PhraseStore) (u : PortUser) (r : ReadReq) (n : Time) (d : Bool) :
    (p.grant u r n d).settled = p.settled := rfl

@[simp] theorem settled_finish (p : PhraseStore) (n : Time) : (p.finish n).settled = p.settled := rfl

@[simp] theorem settled_askRefill (p : PhraseStore) (r : ReadReq) (n : Time) :
    (p.askRefill r n).settled = p.settled := by
  unfold PhraseStore.askRefill; repeat' split
  all_goals rfl

@[simp] theorem settled_askComposer (p : PhraseStore) (r : ReadReq) (n : Time) :
    (p.askComposer r n).settled = p.settled := by
  unfold PhraseStore.askComposer; split <;> rfl

@[simp] theorem settled_arbitrate (p : PhraseStore) (n : Time) : (p.arbitrate n).settled = p.settled := by
  unfold PhraseStore.arbitrate; repeat' split
  all_goals rfl

@[simp] theorem settled_unaskComposer (p : PhraseStore) (n : Time) : (p.unaskComposer n).settled = p.settled := by
  unfold PhraseStore.unaskComposer; dsimp only; split
  · split
    · exact settled_arbitrate { p with waitComposer := none } n
    · rfl
  · rfl

@[simp] theorem outside_vpRefill (s : State) : (vpRefill s).outside = s.outside := by
  unfold vpRefill; repeat' split
  all_goals simp [State.outside]

@[simp] theorem outside_vpPlay (u : Utterance) (n : Time) (s : State) : (vpPlay u n s).outside = s.outside := by
  unfold vpPlay; simp only [outside_vpRefill]
  simp only [State.outside, VoicePlayer.endClick, VoicePlayer.ampOn]; repeat' split
  all_goals rfl

@[simp] theorem outside_vpRender (x : Sound) (s : State) : (vpRender x s).outside = s.outside := by
  unfold vpRender
  simp only [State.outside, VoicePlayer.endClick, VoicePlayer.ampOn]; repeat' split
  all_goals rfl

@[simp] theorem outside_vpStop (s : State) : (vpStop s).outside = s.outside := by
  unfold vpStop VoicePlayer.ampIdle; dsimp only; split <;> rfl

@[simp] theorem outside_vpCut (s : State) : (vpCut s).outside = s.outside := by
  unfold vpCut; repeat' (first | split | (dsimp only; split))
  all_goals rfl

@[simp] theorem outside_vpHardFade (s : State) : (vpHardFade s).outside = s.outside := by
  unfold vpHardFade; split <;> rfl

@[simp] theorem outside_vpClick (s : State) : (vpClick s).outside = s.outside := by
  unfold vpClick; dsimp only; repeat' split
  all_goals rfl

@[simp] theorem outside_vpBuzz (s : State) : (vpBuzz s).outside = s.outside := rfl

@[simp] theorem outside_vpTakeRefill (d : List Byte) (s : State) : (vpTakeRefill d s).outside = s.outside := by
  have h (v : VoicePlayer) (w : List Byte) (k : Nat) :
      (v.receive w k).aout = v.aout ∧ (v.receive w k).periodStart = v.periodStart := by
    unfold VoicePlayer.receive; split <;> exact ⟨rfl, rfl⟩
  unfold vpTakeRefill; split
  · simp only [State.outside, h]
  · rfl

/-! ## The composer -/

@[simp] theorem outside_cpAsk (w : Work) (s : State) : (cpAsk w s).outside = s.outside := by
  unfold cpAsk; split <;> simp [State.outside]

@[simp] theorem outside_cpBegin (it : Item) (r : Reach) (s : State) : (cpBegin it r s).outside = s.outside := by
  unfold cpBegin; dsimp only; split <;> simp [State.outside]

/-! ## The prompt queue -/

@[simp] theorem outside_saidSeries (c : PromptClass) (s : State) : (saidSeries c s).outside = s.outside := by
  unfold saidSeries; split <;> rfl

@[simp] theorem outside_leaveUnsaid (c : PromptClass) (s : State) : (leaveUnsaid c s).outside = s.outside := by
  unfold leaveUnsaid; repeat' split
  all_goals first | rfl | (dsimp only; split <;> rfl)

@[simp] theorem outside_placeNew (it : Item) (s : State) : (placeNew it s).1.outside = s.outside := by
  unfold placeNew; dsimp only; split
  · simp only [outside_leaveUnsaid]; rfl
  · rfl

@[simp] theorem outside_returnItem (it : Item) (s : State) : (returnItem it s).outside = s.outside := by
  unfold returnItem; dsimp only; repeat' split
  all_goals simp

@[simp] theorem outside_endItem (e : ItemEnd) (s : State) : (endItem e s).outside = s.outside := by
  unfold endItem; repeat' (first | split | dsimp only)
  all_goals try simp only [outside_saidSeries, outside_returnItem, outside_leaveUnsaid]
  all_goals rfl

@[simp] theorem outside_takeItem (it : Item) (r : List Item) (s : State) : (takeItem it r s).outside = s.outside := rfl

/-! ## The line port's queue -/

@[simp] theorem settled_setTxPlace (l : LinePort) (k : FrameKind) (p : TxPlace) :
    (l.setTxPlace k p).settled = l.settled := rfl

@[simp] theorem settled_join (l : LinePort) (p : Place) : (l.join p).settled = l.settled := by
  unfold LinePort.join; repeat' split
  all_goals rfl

@[simp] theorem settled_remove (l : LinePort) (k : FrameKind) : (l.remove k).settled = l.settled := rfl

@[simp] theorem settled_removeUnsent (l : LinePort) (k : FrameKind) : (l.removeUnsent k).settled = l.settled := by
  unfold LinePort.removeUnsent; split <;> rfl

@[simp] theorem settled_queueClaim (l : LinePort) (f : List Byte) (r : Bool) :
    (l.queueClaim f r).1.settled = l.settled := by
  unfold LinePort.queueClaim; split <;> simp

@[simp] theorem settled_queueRequest (l : LinePort) (f : List Byte) :
    (l.queueRequest f).1.settled = l.settled := by
  unfold LinePort.queueRequest; split <;> simp

@[simp] theorem settled_queueRelease (l : LinePort) (f : List Byte) :
    (l.queueRelease f).1.settled = l.settled := by
  unfold LinePort.queueRelease; dsimp only; repeat' split
  all_goals first | rfl | simp only [settled_removeUnsent]
  all_goals exact settled_removeUnsent l .claim

@[simp] theorem settled_enterSolo (l : LinePort) : l.enterSolo.1.settled = l.settled :=
  settled_removeUnsent l .claim

/-! ## The floor controller -/

@[simp] theorem outside_fcUnheard (s : State) : (fcUnheard s).outside = s.outside := by
  unfold fcUnheard; exact outside_endItem _ _

@[simp] theorem outside_fcTake (n : Nat) (s : State) : (fcTake n s).outside = s.outside := by
  induction n generalizing s with
  | zero => rfl
  | succ n ih =>
    unfold fcTake; repeat' (first | split | dsimp only)
    all_goals first
      | rfl
      | simp only [ih, outside_endItem, outside_fcUnheard, outside_takeItem, outside_cpBegin, outside_vpRender]
    all_goals rfl

@[simp] theorem outside_takeHead (s : State) : (takeHead s).outside = s.outside := outside_fcTake _ s

@[simp] theorem outside_enterSpacing (s : State) : (enterSpacing s).outside = s.outside := by
  unfold enterSpacing; dsimp only; repeat' split
  all_goals try simp only [outside_takeHead]
  all_goals rfl

@[simp] theorem outside_fcRelease (s : State) : (fcRelease s).outside = s.outside := by
  simp [fcRelease, State.outside, Floor.heard]

@[simp] theorem outside_enterEnding (s : State) : (enterEnding s).outside = s.outside := by
  unfold enterEnding; dsimp only
  repeat' split
  all_goals try simp only [outside_enterSpacing, outside_fcRelease]
  all_goals rfl

@[simp] theorem outside_backToWaiting (s : State) : (backToWaiting s).outside = s.outside := rfl

@[simp] theorem outside_fcSpeak (u : Utterance) (n : Time) (s : State) : (fcSpeak u n s).outside = s.outside := by
  unfold fcSpeak; simp only [outside_vpPlay]; rfl

@[simp] theorem outside_fcClaim (u : Utterance) (s : State) : (fcClaim u s).outside = s.outside := by
  unfold fcClaim; dsimp only; split
  · simp [State.outside, Floor.heard]
  · rfl

@[simp] theorem outside_fcTest (s : State) : (fcTest s).outside = s.outside := by
  unfold fcTest; split
  · dsimp only; repeat' split
    all_goals try simp only [outside_fcClaim, outside_fcSpeak]
    all_goals rfl
  · rfl

@[simp] theorem outside_fcSwap (s : State) : (fcSwap s).outside = s.outside := by
  exact (outside_takeHead _).trans (outside_endItem _ _)

@[simp] theorem outside_fcDiscard (s : State) : (fcDiscard s).outside = s.outside := by
  unfold fcDiscard; simp only [outside_takeHead, outside_endItem]; rfl

@[simp] theorem outside_orderCut (e : CutEnd) (s : State) : (orderCut e s).outside = s.outside := by
  unfold orderCut; repeat' split
  all_goals simp only [outside_vpCut]
  all_goals rfl

@[simp] theorem outside_fcReassert (u : Utterance) (p : Time) (a : Nat) (s : State) :
    (fcReassert u p a s).outside = s.outside := by
  simp [fcReassert, State.outside, Floor.heard]

@[simp] theorem outside_fcJudge (a : Nat) (l : Level) (s : State) : (fcJudge a l s).outside = s.outside := by
  unfold fcJudge; repeat' split
  all_goals simp

@[simp] theorem outside_fcAfterSound (s : State) : (fcAfterSound s).outside = s.outside := by
  unfold fcAfterSound; split
  · simp only [outside_enterSpacing]; rfl
  · simp

@[simp] theorem outside_fcUnclaim (s : State) : (fcUnclaim s).outside = s.outside := by
  unfold fcUnclaim; simp only [outside_fcDiscard]; simp [State.outside]

@[simp] theorem outside_fcUnspeak (s : State) : (fcUnspeak s).outside = s.outside := by
  unfold fcUnspeak; simp only [outside_fcDiscard, outside_vpStop]; rfl

@[simp] theorem outside_fcMark (s : State) : (fcMark s).outside = s.outside := by
  unfold fcMark; repeat' split
  all_goals simp

@[simp] theorem outside_fcRetake (s : State) : (fcRetake s).outside = s.outside := by
  unfold fcRetake; simp only [outside_endItem]; simp [State.outside, Floor.heard]

@[simp] theorem outside_putBack (s : State) (it : Item) : (putBack s it).outside = s.outside := by
  unfold putBack; split
  · rfl
  · exact outside_placeNew _ _

@[simp] theorem outside_putBacks (l : List Item) (s : State) : (l.foldl putBack s).outside = s.outside := by
  induction l generalizing s with
  | nil => rfl
  | cons it l ih => rw [List.foldl_cons, ih, outside_putBack]

@[simp] theorem outside_fcReopen (o : SpacingOver) (s : State) : (fcReopen o s).outside = s.outside := by
  unfold fcReopen; simp only [outside_putBacks, outside_fcRetake]; rfl

@[simp] theorem outside_fcUnswap (s : State) : (fcUnswap s).outside = s.outside := by
  unfold fcUnswap; split
  · simp only [outside_putBacks, outside_fcRetake]; rfl
  · rfl

@[simp] theorem outside_fcNotice (l : Level) (s : State) : (fcNotice l s).outside = s.outside := by
  unfold fcNotice; dsimp only; repeat' split
  all_goals first | rfl | simp

@[simp] theorem outside_fcClaimReport (r : Report) (s : State) : (fcClaimReport r s).outside = s.outside := by
  unfold fcClaimReport; repeat' split
  all_goals first | rfl | simp

@[simp] theorem outside_fcReleaseReport (s : State) : (fcReleaseReport s).outside = s.outside := by
  unfold fcReleaseReport; dsimp only; split
  · simp only [outside_enterSpacing]; rfl
  · simp only [outside_fcTest]; rfl

@[simp] theorem outside_fcLineChange (s : State) : (fcLineChange s).outside = s.outside := by
  unfold fcLineChange; split <;> simp

@[simp] theorem outside_fcClash (s : State) : (fcClash s).outside = s.outside := by
  unfold fcClash; split <;> simp

@[simp] theorem outside_fcResult (r : Option Utterance) (s : State) : (fcResult r s).outside = s.outside := by
  unfold fcResult; dsimp only; repeat' split
  all_goals simp only [outside_takeHead, outside_endItem, outside_fcSwap, outside_fcTest]
  all_goals rfl

@[simp] theorem outside_soundOver (e : ItemEnd) (s : State) : (soundOver e s).outside = s.outside := by
  simp [soundOver]

/-! ## Triggers and withdrawals -/

@[simp] theorem outside_putTrigger (c : PromptClass) (p : Params) (r : Reach) (b : Bool) (s : State) :
    (putTrigger c p r b s).outside = s.outside := by
  have sup (x : State) : { x with pq := x.pq.supersede }.outside = x.outside := rfl
  unfold putTrigger; dsimp only; repeat' split
  all_goals first
    | rfl
    | simp only [outside_fcNotice, outside_fcMark, sup, outside_placeNew]
  all_goals rfl

@[simp] theorem outside_meetSwapped (p : Item → Bool) (s : State) : (meetSwapped p s).outside = s.outside := by
  unfold meetSwapped; split <;> simp

@[simp] theorem outside_placeTrigger (c : PromptClass) (p : Params) (r : Reach) (b : Bool) (s : State) :
    (placeTrigger c p r b s).outside = s.outside := by simp [placeTrigger]

@[simp] theorem outside_triggerAs (c : PromptClass) (p : Params) (r : Reach) (b : Bool) (s : State) :
    (triggerAs c p r b s).outside = s.outside := by simp [triggerAs]

@[simp] theorem outside_trigger (c : PromptClass) (p : Params) (s : State) :
    (trigger c p s).outside = s.outside := outside_triggerAs _ _ _ _ _

@[simp] theorem outside_withdrawHeld (m : PromptClass → CondKey → Bool) (s : State) :
    (withdrawHeld m s).outside = s.outside := by
  unfold withdrawHeld; dsimp only; repeat' split
  all_goals first | rfl | simp only [outside_fcMark]
  all_goals rfl

@[simp] theorem outside_withdrawMeant (m : PromptClass → CondKey → Bool) (s : State) :
    (withdrawMeant m s).outside = s.outside := by
  unfold withdrawMeant; split <;> simp

@[simp] theorem outside_withdraw (k : CondKey) (s : State) : (withdraw k s).outside = s.outside :=
  outside_withdrawMeant _ s

@[simp] theorem outside_endCondition (k : CondKey) (s : State) : (endCondition k s).outside = s.outside := by
  unfold endCondition; simp only [outside_withdraw]; rfl

end Sys2Proof.Machine
end

