-- ==== Sys2Proof/Laws/Apart.lean ====
section
/-! SUPPORT. What the dialogue and the panel leave as it is: every operation of theirs changes nothing of
`State.apart`. -/

namespace Sys2Proof.Machine

/-- From `s` to `t` nothing changes apart from what the panel's commands may change. -/
def Apart (s t : State) : Prop := t.apart = s.apart

theorem Apart.refl (s : State) : Apart s s := rfl

theorem Apart.trans {a b c : State} (h : Apart a b) (g : Apart b c) : Apart a c := Eq.trans g h

theorem Apart.of_outside {s t : State} (h : t.outside = s.outside) : Apart s t := by
  have f (x : State) : x.apart = { x.outside with
      au := .reset, pu := .reset, dc := .reset,
      pm := { x.outside.pm with inFlight := none, lastMark := false },
      cp := { x.outside.cp with currentLang := 0 } } := rfl
  unfold Apart; rw [f t, f s, h]

/-- A change of the panel unit, the dialogue controller and the attention unit. -/
theorem Apart.aside (s : State) (pu : PanelUnit) (dc : Dialogue) (au : AttentionUnit) :
    Apart s { s with pu := pu, dc := dc, au := au } := rfl

/-- A change of the tracker. -/
theorem Apart.track (s : State) (r : Option Request) (m : Bool) :
    Apart s { s with pm := { s.pm with inFlight := r, lastMark := m } } := rfl

/-- A change of the languages. -/
theorem Apart.lang (s : State) (k : Nat) : Apart s { s with cp := { s.cp with currentLang := k } } := rfl

/-- A change of the transmit queue. -/
theorem Apart.lp (s : State) (l : LinePort) (h : l.settled = s.lp.settled) : Apart s { s with lp := l } :=
  .of_outside (by simp only [State.outside, h])

/-- A change of the prompt queue. -/
theorem Apart.pq (s : State) (q : PromptQueue) : Apart s { s with pq := q } := rfl

/-! ## Triggers and activity -/

theorem apart_trigger (c : PromptClass) (p : Params) (s : State) : Apart s (trigger c p s) :=
  .of_outside (outside_trigger _ _ _)

theorem apart_triggerAs (c : PromptClass) (p : Params) (r : Reach) (b : Bool) (s : State) :
    Apart s (triggerAs c p r b s) := .of_outside (outside_triggerAs _ _ _ _ _)

theorem apart_activity (s : State) : Apart s (activity s) := by
  unfold activity; split <;> rfl

theorem apart_primaryActivity (s : State) : Apart s (primaryActivity s) := by
  have h := apart_activity s
  unfold primaryActivity; dsimp only; split
  · exact h.trans (.aside _ _ _ _)
  · exact h

theorem apart_busyTrigger (c : PromptClass) (p : Params) (s : State) : Apart s (busyTrigger c p s) :=
  (apart_activity s).trans (apart_trigger _ _ _)

theorem apart_withdraw (k : CondKey) (s : State) : Apart s (withdraw k s) := .of_outside (outside_withdraw _ _)

theorem apart_selectingBegins (s : State) : Apart s (selectingBegins s) := .aside _ _ _ _

theorem apart_selectingEnds (s : State) : Apart s (selectingEnds s) :=
  (Apart.aside s s.pu s.dc s.au.noReminder).trans (apart_withdraw _ _)

theorem apart_vpBuzz (s : State) : Apart s (vpBuzz s) := .of_outside (outside_vpBuzz s)

theorem apart_vpClick (s : State) : Apart s (vpClick s) := .of_outside (outside_vpClick s)

theorem apart_wake (s : State) : Apart s (wake s) := by
  have h := apart_primaryActivity s
  unfold wake; dsimp only; split_ifs
  · exact h.trans (apart_trigger _ _ _)
  · exact h.trans (apart_trigger _ _ _)
  · exact h

/-! ## The dialogue -/

theorem apart_pmAsk (k : ReqKind) (p : Nat) (o : BitVec 8) (s : State) : Apart s (pmAsk k p o s).1 := by
  unfold pmAsk; split
  · exact apart_busyTrigger _ _ _
  · split
    · exact apart_vpBuzz s
    · extract_lets mark r _ s'
      have h : Apart s s' := .aside _ _ _ _
      split
      · have g : Apart s { s with lp := r.1 } := .lp s r.1 (settled_queueRequest _ _)
        exact g.trans (.track { s with lp := r.1 } _ mark)
      · exact h.trans (apart_busyTrigger _ _ _)

theorem apart_dcDiscard (s : State) : Apart s (dcDiscard s) := by
  unfold dcDiscard; extract_lets held _ s1 s2
  have h1 : Apart s s1 := .aside _ _ _ _
  have h2 : Apart s s2 := by
    simp only [s2]; split
    · exact h1.trans (apart_selectingEnds _)
    · exact h1
  exact h2.trans (.aside _ _ _ _)

/-- Dialogue, panel and attention change, and then a class is triggered. -/
theorem apart_then (s : State) (pu : PanelUnit) (dc : Dialogue) (au : AttentionUnit) (c : PromptClass)
    (p : Params) : Apart s (trigger c p { s with pu := pu, dc := dc, au := au }) :=
  (Apart.aside s _ _ _).trans (apart_trigger _ _ _)

theorem apart_dcEnter (s : State) : Apart s (dcEnter s) := apart_then s _ _ _ _ _

theorem apart_dcOptions (s : State) : Apart s (dcOptions s) := apart_then s _ _ _ _ _

theorem apart_dcConfirm (s : State) : Apart s (dcConfirm s) := apart_then s _ _ _ _ _

theorem apart_dcPrograms (s : State) : Apart s (dcPrograms s) := apart_then s _ _ _ _ _

theorem apart_dcAsk (k : ReqKind) (p : Nat) (o : BitVec 8) (s : State) : Apart s (dcAsk k p o s) := by
  have h := apart_pmAsk k p o s
  unfold dcAsk; extract_lets confirm
  split
  · rename_i t e; rw [e] at h
    split
    · extract_lets _ s'
      have g : Apart s s' := h.trans (.aside _ _ _ _)
      split
      · exact g.trans (apart_selectingEnds _)
      · exact g
    · exact h
  · rename_i t _ _ e; rw [e] at h; exact h

theorem apart_dcStep (u : Bool) (s : State) : Apart s (dcStep u s) := by
  unfold dcStep; split
  · split
    · exact apart_dcEnter s
    · exact .refl s
  · exact .aside _ _ _ _
  all_goals exact .refl s

theorem apart_dcSelection (p : Nat) (s : State) : Apart s (dcSelection p s) := by
  unfold dcSelection; split
  · exact apart_then s _ _ _ _ _
  · dsimp only; split
    · exact apart_then s _ _ _ _ _
    · exact apart_then s _ _ _ _ _
  all_goals exact .refl s

theorem apart_dcSelect (s : State) : Apart s (dcSelect s) := by
  unfold dcSelect; split
  · split
    · exact apart_dcEnter s
    · exact .refl s
  · split
    · exact apart_dcConfirm s
    · exact apart_dcOptions s
  · split
    · exact apart_then s _ _ _ _ _
    · exact apart_dcConfirm s
  · exact apart_trigger _ _ _
  · exact .refl s

theorem apart_dcBack (s : State) : Apart s (dcBack s) := by
  unfold dcBack; split
  · exact apart_dcDiscard s
  · exact apart_dcPrograms s
  · split
    · exact apart_dcPrograms s
    · exact apart_dcOptions s
  all_goals exact .refl s

theorem apart_dcCancelInView (s : State) : Apart s (dcCancelInView s) := by
  unfold dcCancelInView; split
  · split
    all_goals first | exact apart_dcAsk _ _ _ _ | exact apart_vpBuzz s
  · exact apart_vpBuzz s

theorem apart_dcCancel (s : State) : Apart s (dcCancel s) := by
  unfold dcCancel; split
  · exact apart_dcCancelInView s
  · exact (apart_dcDiscard s).trans (apart_dcCancelInView _)
  · exact (apart_dcDiscard s).trans (apart_dcCancelInView _)
  · exact (apart_dcDiscard s).trans (apart_dcCancelInView _)
  · exact apart_dcAsk _ _ _ _

theorem apart_dcStartShort (s : State) : Apart s (dcStartShort s) := by
  unfold dcStartShort; split
  · split
    · exact apart_dcEnter s
    · exact apart_trigger _ _ _
  all_goals first | exact apart_trigger _ _ _ | exact .refl s

theorem apart_dcStartHold (s : State) : Apart s (dcStartHold s) := by
  unfold dcStartHold; split
  · split
    · exact apart_dcEnter s
    · split
      · split
        all_goals first | exact apart_dcAsk _ _ _ _ | exact apart_vpBuzz s
      · exact apart_vpBuzz s
  · exact apart_dcConfirm s
  · exact apart_dcConfirm s
  · exact apart_dcAsk _ _ _ _
  · exact apart_dcAsk _ _ _ _

theorem apart_dcResolved (r : AnswerResult) (s : State) : Apart s (dcResolved r s) := by
  unfold dcResolved; split
  · split
    · exact .aside _ _ _ _
    · exact apart_dcDiscard s
  · exact .refl s

theorem apart_dcReport (s : State) : Apart s (dcReport s) := by
  unfold dcReport; split
  · exact apart_dcDiscard s
  · exact .refl s

theorem apart_dcForced (s : State) : Apart s (dcForced s) := by
  unfold dcForced; split
  · exact .refl s
  · exact apart_dcDiscard s

theorem apart_goDark (s : State) : Apart s (goDark s) := by
  unfold goDark; dsimp only
  have h (x : AttentionUnit) : Apart s (dcForced { s with au := x }) :=
    (Apart.aside s _ _ _).trans (apart_dcForced _)
  have h1 := h { s.au with state := .dark, dim := none, dark := none }
  generalize dcForced _ = x at h1 ⊢
  exact h1.trans ((Apart.lang x _).trans (.aside { x with cp := { x.cp with currentLang := x.cp.defaultLang } } _ _ _))

theorem apart_darkFirst (s : State) : Apart s (darkFirst s) := by
  unfold darkFirst; split
  · exact apart_goDark s
  · exact .refl s

/-! ## The panel unit -/

theorem apart_pqHelp (n : Nat) (s : State) : Apart s (pqHelp n s) := by
  unfold pqHelp; split
  · unfold pqHelp1; split
    · exact apart_vpBuzz s
    · split_ifs
      · exact apart_vpBuzz s
      · exact .refl s
      · exact apart_triggerAs _ _ _ _ _
  · exact apart_trigger _ _ _
  · exact apart_trigger _ _ _

theorem apart_pqHush (s : State) : Apart s (pqHush s) := .pq _ _

theorem apart_deliver (e : PanelEvent) (s : State) : Apart s (deliver e s) := by
  have h := apart_primaryActivity s
  unfold deliver
  generalize primaryActivity s = x at h
  cases e <;> dsimp only
  · exact h.trans (apart_dcStep _ _)
  · exact h.trans (apart_dcSelection _ _)
  · exact h.trans (apart_dcSelect _)
  · exact h.trans (apart_dcBack _)
  · exact h.trans (apart_dcCancel _)
  · exact h.trans (apart_dcStartShort _)
  · exact h.trans (apart_dcStartHold _)
  · exact h.trans (apart_pqHelp _ _)
  · exact (h.trans (.lang x _)).trans (apart_trigger _ _ _)
  · exact h.trans (apart_pqHush _)

theorem apart_settleNow (s : State) : Apart s (settleNow s) := by
  unfold settleNow; split
  · exact .refl s
  · dsimp only; split
    · exact (Apart.aside _ _ _ _).trans (apart_deliver _ _)
    · exact .aside _ _ _ _

theorem apart_buttonEvent (e : PanelEvent) (s : State) : Apart s (buttonEvent e s) := by
  unfold buttonEvent; split
  · exact apart_wake s
  · exact (apart_settleNow s).trans (apart_deliver _ _)

theorem apart_makeStep (u : Bool) (s : State) : Apart s (makeStep u s) := by
  unfold makeStep; split
  · exact apart_wake s
  · exact (Apart.aside _ _ _ _).trans (apart_deliver _ _)

/-- The panel unit changes, and then a button's event is made. -/
theorem apart_button (s : State) (pu : PanelUnit) (e : PanelEvent) : Apart s (buttonEvent e { s with pu := pu }) :=
  (Apart.aside s _ _ _).trans (apart_buttonEvent _ _)

theorem apart_pressEffect (k : Key) (a : Bool) (s : State) : Apart s (pressEffect k a s) := by
  have step (p : PanelUnit) (u : Bool) : Apart s (makeStep u { s with pu := p }) :=
    (Apart.aside s _ _ _).trans (apart_makeStep _ _)
  unfold pressEffect; cases k <;> dsimp only <;> (repeat' split)
  all_goals first
    | exact .refl s
    | exact apart_buttonEvent _ _
    | exact step _ _

theorem apart_pressKey (k : Key) (s : State) : Apart s (pressKey k s) := by
  unfold pressKey; extract_lets awake _ s'
  have h : Apart s s' := .aside _ _ _ _
  refine Apart.trans ?_ (apart_pressEffect _ _ _)
  split
  · exact h.trans (apart_vpClick _)
  · exact h.trans (apart_wake _)

theorem apart_releaseBack (w : KeyState) (s : State) : Apart s (releaseBack w s) := by
  unfold releaseBack; dsimp only; split
  · exact apart_button _ _ _
  · exact .aside _ _ _ _

theorem apart_releaseStart (w : KeyState) (s : State) : Apart s (releaseStart w s) := by
  unfold releaseStart; split
  · exact apart_buttonEvent _ _
  · exact .refl _

theorem apart_releaseHelp (s : State) : Apart s (releaseHelp s) := by
  unfold releaseHelp closeHelp; dsimp only; split
  · exact apart_button _ _ _
  · exact .aside _ _ _ _

theorem apart_releaseKey (k : Key) (s : State) : Apart s (releaseKey k s) := by
  have h (p : PanelUnit) : Apart s { s with pu := p } := .aside _ _ _ _
  unfold releaseKey; cases k <;> dsimp only
  · exact h _
  · exact (h _).trans (apart_releaseBack _ _)
  · exact (h _).trans (apart_releaseStart _ _)
  · exact (h _).trans (apart_releaseHelp _)
  · exact h _
  · exact h _

theorem apart_knobSample (a b : Bool) (s : State) : Apart s (knobSample a b s) := by
  unfold knobSample; extract_lets q _ s'
  have h : Apart s s' := .aside _ _ _ _
  split_ifs
  · exact h.trans (apart_makeStep _ _)
  · exact h.trans (apart_makeStep _ _)
  · exact h

end Sys2Proof.Machine
end

