-- ==== Sys2Proof/Laws/Changes.lean ====
section
/-! SUPPORT. Everything that a command can do to the prompt items, the transmit queue, the attempt under way,
CLASH, the phase, the current utterance, the playback start and the composition, said once as a relation
`Change` between the kernels of two states. Laws over these parts are proved by one case analysis of it. -/

namespace Sys2Proof.Machine

/-- The parts of a state that the laws of queueing, transmitting and speaking read. -/
structure Kernel where
  items     : List Item
  queue     : List Place
  tx        : Option Tx
  clash     : Bool
  phase     : Phase
  utterance : Option Utterance
  playStart : Option Time
  work      : Option Work
  now       : Time

/-- The kernel of a state. -/
def State.kernel (s : State) : Kernel :=
  { items := s.pq.items, queue := s.lp.queue, tx := s.lp.tx, clash := s.lp.clash, phase := s.psp.phase,
    utterance := s.fc.utterance, playStart := s.fc.playStart, work := s.cp.work, now := s.now }

/-- What a claim queued from the current utterance rests on. -/
def Kernel.claims (k : Kernel) : Prop :=
  (∀ u, k.utterance = some u → u.lawful) ∧ ∀ p, k.playStart = some p → p ≤ k.now

/-- A change of the transmit queue and of the attempt under way. A frame of the new list carries what one of
the old list carried, or is no CLAIM out of bounds; none joins while CLASH is latched; an attempt that is
still under way is the one that was. -/
structure QueueChange (k : Kernel) (queue : List Place) (tx : Option Tx) : Prop where
  frames : ∀ p ∈ queue, (∃ q ∈ k.queue, q.kind = p.kind ∧ q.bytes = p.bytes) ∨
    (k.claims → p.kind = .claim → claimFrame p.bytes)
  kinds  : (k.queue.map Place.kind).Nodup → (queue.map Place.kind).Nodup
  quiet  : k.clash = true → k.queue = [] → queue = []
  line   : ∀ x, tx = some x → ∃ y, k.tx = some y ∧ y.kind = x.kind ∧ y.bytes = x.bytes

/-- One change of the kernel. -/
inductive Change : Kernel → Kernel → Prop
  /-- Items leave the prompt queue. -/
  | leave (k : Kernel) (l : List Item) (h : l.Sublist k.items) : Change k { k with items := l }
  /-- An item of a class that is not queued is placed. -/
  | place (k : Kernel) (it : Item) (h : ∀ x ∈ k.items, x.cls ≠ it.cls) :
      Change k { k with items := (placeItem it k.items).1 }
  /-- Items change but for their classes. -/
  | update (k : Kernel) (f : Item → Item) (h : ∀ x, (f x).cls = x.cls) :
      Change k { k with items := k.items.map f }
  /-- The transmit queue changes. -/
  | transmit (k : Kernel) (queue : List Place) (tx : Option Tx) (h : QueueChange k queue tx) :
      Change k { k with queue := queue, tx := tx }
  /-- An attempt at the head begins, in RUN with CLASH clear. -/
  | begin (k : Kernel) (p : Place) (x : Tx) (hp : p ∈ k.queue) (hc : k.clash = false) (hr : k.phase = .run)
      (hk : x.kind = p.kind) (hb : x.bytes = p.bytes) : Change k { k with tx := some x }
  /-- CLASH latches. -/
  | latch (k : Kernel) : Change k { k with clash := true, queue := [], tx := none }
  /-- The phase moves on. RUN is left by a reset only. -/
  | phase (k : Kernel) (p : Phase) (h : k.phase ≠ .run) : Change k { k with phase := p }
  /-- The current utterance changes: it is given up, lowered, or comes from the composition. -/
  | utter (k : Kernel) (u : Option Utterance)
      (h : ∀ v, u = some v → k.utterance = some v ∨ (∃ w, k.utterance = some w ∧ v = w.lower) ∨
        ∃ w, k.work = some w ∧ w.stage = .finished (some v)) : Change k { k with utterance := u }
  /-- The playback start changes. -/
  | play (k : Kernel) (p : Option Time) (h : ∀ v, p = some v → v ≤ k.now) : Change k { k with playStart := p }
  /-- The composition begins, goes on or ends. -/
  | work (k : Kernel) (w : Option Work)
      (h : ∀ v, w = some v → v.lawful ∨ ∃ o, k.work = some o ∧ (o.lawful → v.lawful)) :
      Change k { k with work := w }
  /-- The clock goes on. -/
  | tick (k : Kernel) (n : Time) : Change k { k with now := max k.now n }
  /-- Reset. -/
  | reset (k : Kernel) (n : Time) : Change k { State.reset.kernel with now := n }

/-- A run of changes. -/
inductive Changes : Kernel → Kernel → Prop
  | refl (k : Kernel) : Changes k k
  | step {a b c : Kernel} (h : Changes a b) (g : Change b c) : Changes a c

theorem Changes.trans {a b c : Kernel} (h : Changes a b) (g : Changes b c) : Changes a c := by
  induction g with
  | refl => exact h
  | step _ c ih => exact ih.step c

theorem Change.one {a b : Kernel} (h : Change a b) : Changes a b := .step (.refl a) h

/-- Two states of the same kernel. -/
theorem Changes.same {s t : State} (h : t.kernel = s.kernel) : Changes s.kernel t.kernel := h ▸ .refl _

/-- A law kept by each change is kept by a run of them. -/
theorem Changes.keep {P : Kernel → Prop} (h : ∀ a b, Change a b → P a → P b) {a b : Kernel}
    (g : Changes a b) : P a → P b := by
  induction g with
  | refl => exact id
  | step _ c ih => exact fun p => h _ _ c (ih p)

/-! ## The sounds and the port change no kernel -/

@[simp] theorem kernel_vpRefill (s : State) : (vpRefill s).kernel = s.kernel := by
  have h (r : ReadReq) : (s.psp.askRefill r s.now).phase = s.psp.phase := by
    have g := congrArg PhraseStore.phase (settled_askRefill s.psp r s.now)
    exact g
  unfold vpRefill; repeat' split
  all_goals simp only [State.kernel, h]

@[simp] theorem kernel_vpPlay (u : Utterance) (n : Time) (s : State) : (vpPlay u n s).kernel = s.kernel := by
  unfold vpPlay; simp only [kernel_vpRefill]; rfl

@[simp] theorem kernel_vpRender (x : Sound) (s : State) : (vpRender x s).kernel = s.kernel := rfl

@[simp] theorem kernel_vpStop (s : State) : (vpStop s).kernel = s.kernel := rfl

@[simp] theorem kernel_vpCut (s : State) : (vpCut s).kernel = s.kernel := by
  unfold vpCut; repeat' (first | split | (dsimp only; split))
  all_goals rfl

@[simp] theorem kernel_vpHardFade (s : State) : (vpHardFade s).kernel = s.kernel := by
  unfold vpHardFade; split <;> rfl

@[simp] theorem kernel_vpClick (s : State) : (vpClick s).kernel = s.kernel := by
  unfold vpClick; dsimp only; repeat' split
  all_goals rfl

@[simp] theorem kernel_vpBuzz (s : State) : (vpBuzz s).kernel = s.kernel := rfl

theorem phase_unaskComposer (p : PhraseStore) (n : Time) : (p.unaskComposer n).phase = p.phase := by
  have g := congrArg PhraseStore.phase (settled_unaskComposer p n)
  exact g

@[simp] theorem kernel_vpTakeRefill (d : List Byte) (s : State) : (vpTakeRefill d s).kernel = s.kernel := by
  unfold vpTakeRefill; split <;> rfl

@[simp] theorem kernel_activity (s : State) : (activity s).kernel = s.kernel := by
  unfold activity; split <;> rfl

@[simp] theorem kernel_primaryActivity (s : State) : (primaryActivity s).kernel = s.kernel := by
  have h (x : State) (a : AttentionUnit) : { x with au := a }.kernel = x.kernel := rfl
  unfold primaryActivity; dsimp only; split
  · rw [h, kernel_activity]
  · rw [kernel_activity]

@[simp] theorem items_setSeries (q : PromptQueue) (r : Series) (x : SeriesState) :
    (q.setSeries r x).items = q.items := by cases r <;> rfl

theorem items_advanceSeries (c : PromptClass) (n : Time) (q : PromptQueue) :
    (advanceSeries c n q).items = q.items := by
  unfold advanceSeries; split
  · dsimp only; split_ifs <;> simp
  · split_ifs <;> rfl

@[simp] theorem kernel_saidSeries (c : PromptClass) (s : State) : (saidSeries c s).kernel = s.kernel := by
  unfold saidSeries; split
  · simp [State.kernel, items_advanceSeries]
  · rfl

@[simp] theorem kernel_leaveUnsaid (c : PromptClass) (s : State) : (leaveUnsaid c s).kernel = s.kernel := by
  unfold leaveUnsaid; split
  · dsimp only; split_ifs <;> simp [State.kernel]
  · rfl

end Sys2Proof.Machine
end

