-- ==== Sys2Proof/Laws/Room.lean ====
section
/-! SUPPORT. What the partner monitor leaves as it is: every operation of its changes nothing of `State.room`. -/

namespace Sys2Proof.Machine

/-- From `s` to `t` nothing changes of what the partner monitor leaves as it is. -/
def Room (s t : State) : Prop := t.room = s.room

theorem Room.refl (s : State) : Room s s := rfl

theorem Room.trans {a b c : State} (h : Room a b) (g : Room b c) : Room a c := Eq.trans g h

theorem Room.of_apart {s t : State} (h : Apart s t) : Room s t := by
  unfold Room State.room; rw [show t.apart = s.apart from h]

/-- A change of the partner monitor, the roster, the panel unit, the dialogue controller and the attention unit. -/
theorem Room.aside (s : State) (pm : PartnerMonitor) (ro : List RosterEntry) (pu : PanelUnit) (dc : Dialogue)
    (au : AttentionUnit) : Room s { s with pm := pm, roster := ro, pu := pu, dc := dc, au := au } := rfl

/-- A change of the prompt queue. -/
theorem Room.pq (s : State) (q : PromptQueue) : Room s { s with pq := q } := rfl

theorem room_busyTrigger (c : PromptClass) (p : Params) (s : State) : Room s (busyTrigger c p s) :=
  .of_apart (apart_busyTrigger _ _ _)

theorem room_reportTrigger (c : PromptClass) (p : Params) (s : State) : Room s (reportTrigger c p s) :=
  .of_apart ((apart_activity s).trans (.of_outside (outside_placeTrigger _ _ _ _ _)))

theorem room_withdraw (k : CondKey) (s : State) : Room s (withdraw k s) := .of_apart (apart_withdraw _ _)

theorem room_endCondition (k : CondKey) (s : State) : Room s (endCondition k s) :=
  .of_apart (.of_outside (outside_endCondition _ _))

theorem room_dcResolved (r : AnswerResult) (s : State) : Room s (dcResolved r s) := .of_apart (apart_dcResolved _ _)

theorem room_dcReport (s : State) : Room s (dcReport s) := .of_apart (apart_dcReport s)

theorem room_dcForced (s : State) : Room s (dcForced s) := .of_apart (apart_dcForced s)

theorem room_darkFirst (s : State) : Room s (darkFirst s) := .of_apart (apart_darkFirst s)

theorem room_remove (s : State) (k : FrameKind) : Room s { s with lp := s.lp.remove k } :=
  .of_apart (.lp s _ (settled_remove _ _))

theorem room_beginSeries (e : ReportEntry) (n : Time) (s : State) : Room s (beginSeries e n s) := by
  have h (x : State) (q : PromptQueue) : Room x { x with pq := q } := .pq x q
  unfold beginSeries; split
  · exact h _ _
  · exact h _ _
  · exact h _ _
  · exact (h s _).trans (.of_apart (.of_outside (outside_withdrawMeant _ _)))
  · exact .refl s

theorem room_startSeries (k : CondKey) (n : Time) (s : State) :
    Room s { s with pq := startSeries k n s.pq } := .pq s _

theorem room_takeEntry (n : Time) (s : State) (e : ReportEntry) : Room s (takeEntry n s e) := by
  unfold takeEntry
  cases e <;> dsimp only
  case partnerLost => exact room_reportTrigger _ _ _
  case partnerBack => exact room_withdraw _ _
  case baseline => exact room_startSeries _ _ _
  case cleared =>
    split
    · exact (room_endCondition _ _).trans (room_reportTrigger _ _ _)
    · exact room_endCondition _ _
  case lossEnd => exact room_endCondition _ _
  case started => exact room_reportTrigger _ _ _
  case paused => exact room_reportTrigger _ _ _
  case resumed => exact room_reportTrigger _ _ _
  case cycleDone =>
    exact ((room_beginSeries _ _ _).trans (room_reportTrigger _ _ _)).trans (room_reportTrigger _ _ _)
  case outOfService => exact room_reportTrigger _ _ _
  case paymentDue => exact (room_beginSeries _ _ _).trans (room_reportTrigger _ _ _)
  case action => exact (room_beginSeries _ _ _).trans (room_reportTrigger _ _ _)
  case fault => exact (room_beginSeries _ _ _).trans (room_reportTrigger _ _ _)
  case phase =>
    split
    · exact room_reportTrigger _ _ _
    · exact .refl s
  case timeCall => exact room_reportTrigger _ _ _

theorem room_takeReport (n : Time) (es : List ReportEntry) (s : State) : Room s (takeReport n es s) := by
  refine Room.trans ?_ (.of_apart (.of_outside (outside_takeHead _)))
  induction es generalizing s with
  | nil => exact .refl s
  | cons e es ih => exact (room_takeEntry n s e).trans (ih _)

theorem room_untracked (s : State) : Room s s.untracked := .aside _ _ _ _ _ _

theorem room_resolveNoAnswer (r : Request) (s : State) : Room s (resolveNoAnswer r s) :=
  (((room_darkFirst s).trans (room_untracked _)).trans (room_busyTrigger _ _ _)).trans (room_dcResolved _ _)

theorem room_resolveAnswered (r : Request) (a : AnswerResult) (s : State) : Room s (resolveAnswered r a s) := by
  unfold resolveAnswered; extract_lets s1 s2
  have h1 : Room s s1 := room_untracked s
  have h2 : Room s s2 := by
    simp only [s2]; split_ifs
    · exact h1.trans (room_busyTrigger _ _ _)
    · exact h1
    · exact h1.trans (room_busyTrigger _ _ _)
  exact h2.trans (room_dcResolved _ _)

theorem room_offerAnswer (s : State) : Room s (offerAnswer s) := by
  unfold offerAnswer; split
  · split
    · exact room_resolveAnswered _ _ _
    · exact .refl s
  · exact .refl s

theorem room_pmReport (r : Report) (s : State) : Room s (pmReport r s) := by
  unfold pmReport; split
  · split
    · split
      · exact .aside _ _ _ _ _ _
      · exact room_resolveNoAnswer _ _
      · exact room_resolveNoAnswer _ _
    · exact .refl s
  · exact .refl s

theorem room_pmStatus (p : List Byte) (n : Time) (s : State) : Room s (pmStatus p n s) := by
  have h (x : State) (m : PartnerMonitor) (es : List ReportEntry) :
      Room x (offerAnswer (dcReport (takeReport n es { x with pm := m }))) :=
    (((Room.aside x m _ _ _ _).trans (room_takeReport n es _)).trans (room_dcReport _)).trans
      (room_offerAnswer _)
  unfold pmStatus; extract_lets old got a timer
  have g : Room s a := by
    simp only [a]; split
    · exact room_darkFirst s
    · exact .refl s
  clear_value a; refine g.trans ?_; split
  · exact h _ _ _
  · exact h _ _ _
  · exact h _ _ _

theorem room_freshnessLost (s : State) : Room s (freshnessLost s) := by
  unfold freshnessLost; dsimp only; split
  · exact .aside s _ _ _ _ _
  · exact .aside s _ _ _ _ _
  · have h (m : PartnerMonitor) (es : List ReportEntry) :
        Room s (dcForced (takeReport s.now es { s with pm := m })) :=
      ((Room.aside s m _ _ _ _).trans (room_takeReport _ _ _)).trans (room_dcForced _)
    replace h := h { s.pm with freshTimer := none, freshness := .lost } (lossReport s.pm.record)
    generalize dcForced _ = x at h ⊢
    split
    · refine (h.trans ?_).trans (room_dcResolved _ _)
      exact (room_untracked _).trans (room_remove _ .request)
    · exact h

end Sys2Proof.Machine
end

