-- ==== Sys2Proof/Laws/Transmit.lean ====
section
/-! SUPPORT. Each operation on the transmit queue is a `QueueChange`. -/

namespace Sys2Proof.Machine

theorem QueueChange.refl (k : Kernel) : QueueChange k k.queue k.tx :=
  ⟨fun p h => .inl ⟨p, h, rfl, rfl⟩, id, fun _ h => h, fun x h => ⟨x, h, rfl, rfl⟩⟩

theorem QueueChange.trans {k : Kernel} {q q' : List Place} {t t' : Option Tx} (h : QueueChange k q t)
    (g : QueueChange { k with queue := q, tx := t } q' t') : QueueChange k q' t' where
  frames p hp := by
    rcases g.frames p hp with ⟨a, ha, e1, e2⟩ | n
    · rcases h.frames a ha with ⟨b, hb, f1, f2⟩ | m
      · exact .inl ⟨b, hb, f1.trans e1, f2.trans e2⟩
      · exact .inr fun c kp => e2 ▸ m c (e1.trans kp)
    · exact .inr n
  kinds c := g.kinds (h.kinds c)
  quiet c e := g.quiet c (h.quiet c e)
  line x hx := by
    obtain ⟨y, hy, e1, e2⟩ := g.line x hx
    obtain ⟨z, hz, f1, f2⟩ := h.line y hy
    exact ⟨z, hz, f1.trans e1, f2.trans e2⟩

/-- Frames leave the list, and the attempt under way keeps its kind and its bytes or ends. -/
theorem QueueChange.fewer (k : Kernel) (q : List Place) (t : Option Tx) (hq : q.Sublist k.queue)
    (ht : ∀ x, t = some x → ∃ y, k.tx = some y ∧ y.kind = x.kind ∧ y.bytes = x.bytes) :
    QueueChange k q t where
  frames p hp := .inl ⟨p, hq.subset hp, rfl, rfl⟩
  kinds c := c.sublist (hq.map _)
  quiet _ e := List.sublist_nil.1 (e ▸ hq)
  line := ht

theorem setTxPlace_line (l : LinePort) (k : FrameKind) (p : TxPlace) :
    ∀ x, (l.setTxPlace k p).tx = some x → ∃ y, l.tx = some y ∧ y.kind = x.kind ∧ y.bytes = x.bytes := by
  intro x hx
  simp only [LinePort.setTxPlace, Option.map_eq_some_iff] at hx
  obtain ⟨y, hy, rfl⟩ := hx
  exact ⟨y, hy, by split <;> rfl, by split <;> rfl⟩

theorem listed_iff (l : LinePort) (k : FrameKind) :
    l.listed k = true ↔ k ∈ l.queue.map Place.kind := by simp [LinePort.listed]

/-- A list in which places of one kind give way to one of the same kind has the same kinds. -/
theorem kinds_replace (q : List Place) (p : Place) :
    (q.map fun x => if x.kind = p.kind then p else x).map Place.kind = q.map Place.kind := by
  simp only [List.map_map, List.map_inj_left, Function.comp_apply]
  intro x _; split <;> simp_all

theorem queueChange_join (s : State) (p : Place) (hc : s.lp.clash = false)
    (hp : s.kernel.claims → p.kind = .claim → claimFrame p.bytes) :
    QueueChange s.kernel (s.lp.join p).queue (s.lp.join p).tx := by
  have hn : s.kernel.clash = true → (s.lp.join p).queue = [] := fun h => absurd (hc.symm.trans h) (by simp)
  unfold LinePort.join
  split
  · refine ⟨?_, ?_, fun h _ => absurd (hc.symm.trans h) (by simp), setTxPlace_line s.lp _ _⟩
    · intro x hx
      simp only [List.mem_map] at hx
      obtain ⟨y, hy, rfl⟩ := hx
      split
      · exact .inr hp
      · exact .inl ⟨y, hy, rfl, rfl⟩
    · intro h; rw [kinds_replace]; exact h
  · rename_i hl
    have hl' : p.kind ∉ s.lp.queue.map Place.kind := fun h => hl ((listed_iff _ _).2 h)
    split
    · refine ⟨?_, ?_, fun h _ => absurd (hc.symm.trans h) (by simp), setTxPlace_line s.lp _ _⟩
      · intro x hx
        rcases List.mem_cons.1 hx with rfl | hx
        · exact .inr hp
        · exact .inl ⟨x, hx, rfl, rfl⟩
      · intro h; exact List.nodup_cons.2 ⟨hl', h⟩
    · refine ⟨?_, ?_, fun h _ => absurd (hc.symm.trans h) (by simp), fun x h => ⟨x, h, rfl, rfl⟩⟩
      · intro x hx
        rcases List.mem_append.1 hx with hx | hx
        · exact .inl ⟨x, hx, rfl, rfl⟩
        · rw [List.mem_singleton.1 hx]; exact .inr hp
      · intro h
        rw [List.map_append, List.nodup_append]
        refine ⟨h, by simp, ?_⟩
        intro a ha b hb e
        simp only [List.map_cons, List.map_nil, List.mem_singleton] at hb
        exact hl' (hb ▸ e ▸ ha)

theorem queueChange_remove (s : State) (k : FrameKind) :
    QueueChange s.kernel (s.lp.remove k).queue (s.lp.remove k).tx :=
  .fewer _ _ _ List.filter_sublist (setTxPlace_line s.lp _ _)

theorem queueChange_removeUnsent (s : State) (k : FrameKind) :
    QueueChange s.kernel (s.lp.removeUnsent k).queue (s.lp.removeUnsent k).tx := by
  unfold LinePort.removeUnsent; split
  · exact .refl _
  · exact queueChange_remove s k

theorem clash_mode (l : LinePort) (h : l.mode = .normal) : l.clash = false := by
  unfold LinePort.mode at h; split at h <;> simp_all

theorem queueChange_claim (s : State) (f : List Byte) (r : Bool) (hf : s.kernel.claims → claimFrame f) :
    QueueChange s.kernel (s.lp.queueClaim f r).1.queue (s.lp.queueClaim f r).1.tx := by
  unfold LinePort.queueClaim; split
  · rename_i h; exact queueChange_join s _ (clash_mode _ h) fun c _ => hf c
  · exact .refl _

theorem queueChange_request (s : State) (f : List Byte) :
    QueueChange s.kernel (s.lp.queueRequest f).1.queue (s.lp.queueRequest f).1.tx := by
  unfold LinePort.queueRequest; split
  · exact .refl _
  · rename_i h
    exact queueChange_join s _ (by simpa using h) fun _ e => by simp at e

theorem queueChange_release (s : State) (f : List Byte) :
    QueueChange s.kernel (s.lp.queueRelease f).1.queue (s.lp.queueRelease f).1.tx := by
  unfold LinePort.queueRelease; dsimp only
  split
  · exact .refl _
  · rename_i hc
    have h := queueChange_removeUnsent s .claim
    repeat' split
    · exact h
    · rename_i hl _
      refine h.trans ⟨?_, ?_, fun e _ => absurd e hc, fun x hx => ⟨x, hx, rfl, rfl⟩⟩
      · intro x hx
        rcases List.mem_append.1 hx with hx | hx
        · exact .inl ⟨x, hx, rfl, rfl⟩
        · rw [List.mem_singleton.1 hx]; exact .inr fun _ e => by simp at e
      · intro hk
        rw [List.map_append, List.nodup_append]
        refine ⟨hk, by simp, ?_⟩
        intro a ha b hb e
        simp only [List.map_cons, List.map_nil, List.mem_singleton] at hb
        exact hl ((listed_iff _ _).2 (hb ▸ e ▸ ha))
    · exact h

/-- A line port of the same CLASH whose queue and attempt change so. -/
theorem changes_lp (s : State) (l : LinePort) (hc : l.clash = s.lp.clash)
    (h : QueueChange s.kernel l.queue l.tx) : Changes s.kernel { s with lp := l }.kernel := by
  have g := (Change.transmit s.kernel _ _ h).one
  have e : { s with lp := l }.kernel = { s.kernel with queue := l.queue, tx := l.tx } := by
    simp [State.kernel, hc]
  rw [e]; exact g

theorem clash_of_settled {a b : LinePort} (h : a.settled = b.settled) : a.clash = b.clash := by
  have g := congrArg LinePort.clash h
  exact g

end Sys2Proof.Machine
end

