-- ==== Sys2Proof/Laws/Speaking.lean ====
section
/-! SUPPORT. Each operation of the prompt queue, the composer and the floor controller is a run of changes
of the kernel. -/

namespace Sys2Proof.Machine

/-! ## Single updates -/

/-- Items leave the prompt queue; nothing else of the kernel changes. -/
theorem changes_pq (s : State) (q : PromptQueue) (h : q.items.Sublist s.pq.items) :
    Changes s.kernel { s with pq := q }.kernel := (Change.leave s.kernel _ h).one

/-- The floor controller changes: its utterance is given up or stands, and so is the playback start. -/
theorem changes_fc (s : State) (c : Floor) (hu : c.utterance = none ∨ c.utterance = s.fc.utterance)
    (hp : c.playStart = none ∨ c.playStart = s.fc.playStart) :
    Changes s.kernel { s with fc := c }.kernel := by
  have h1 : Changes s.kernel { s.kernel with utterance := c.utterance } := by
    rcases hu with h | h
    · exact (Change.utter _ _ fun v e => by rw [h] at e; cases e).one
    · exact h ▸ .refl _
  rcases hp with h | h
  · refine h1.step ?_
    have := Change.play { s.kernel with utterance := c.utterance } none fun v e => by cases e
    simpa [State.kernel, h] using this
  · have e : { s with fc := c }.kernel = { s.kernel with utterance := c.utterance } := by
      simp [State.kernel, h]
    rw [e]; exact h1

/-- A composition changes. -/
theorem changes_cp (s : State) (w : Option Work)
    (h : ∀ v, w = some v → v.lawful ∨ ∃ o, s.cp.work = some o ∧ (o.lawful → v.lawful)) :
    Changes s.kernel { s with cp := { s.cp with work := w } }.kernel := (Change.work s.kernel w h).one

/-! ## The prompt queue -/

theorem queued_false (q : PromptQueue) (c : PromptClass) (h : q.queued c = false) :
    ∀ x ∈ q.items, x.cls ≠ c := by
  intro x hx e
  simp only [PromptQueue.queued, List.any_eq_false] at h
  exact h x hx (by simp [e])

theorem changes_placeNew (it : Item) (s : State) (h : s.pq.queued it.cls = false) :
    Changes s.kernel (placeNew it s).1.kernel := by
  have g := (Change.place s.kernel it (queued_false _ _ h)).one
  unfold placeNew; dsimp only; split
  · rw [kernel_leaveUnsaid]; exact g
  · exact g

theorem changes_returnItem (it : Item) (s : State) : Changes s.kernel (returnItem it s).kernel := by
  unfold returnItem; extract_lets it'
  split
  · rw [kernel_leaveUnsaid]; exact .refl _
  · rename_i h
    have : s.pq.queued it'.cls = false := by
      simp only [Bool.or_eq_true, not_or, Bool.not_eq_true] at h; exact h.2
    exact changes_placeNew it' s this

theorem changes_endItem (e : ItemEnd) (s : State) : Changes s.kernel (endItem e s).kernel := by
  unfold endItem
  split
  · exact .refl _
  · extract_lets marked _ _ s'
    have h : s'.kernel = s.kernel := rfl
    split
    · rw [kernel_saidSeries]; exact .same h
    · exact (Changes.same h).trans (changes_returnItem _ _)
    · split
      · exact .same h
      · rw [kernel_leaveUnsaid]; exact .same h

theorem changes_takeItem (it : Item) (rest : List Item) (s : State) (h : rest.Sublist s.pq.items) :
    Changes s.kernel (takeItem it rest s).kernel := changes_pq s _ h

/-! ## The composer -/

theorem Work.lawful_begin (it : Item) (l : Level) (r : Reach) (k : MachineKind) (n g c a : Nat) (st : Stage)
    (h : ∀ u, st ≠ .finished (some u)) :
    Work.lawful { item := it, level := l, reach := r, kind := k, lang := n, gap := g, dirCount := c,
                  dirAddr := a, entries := [], stage := st } :=
  ⟨Nat.zero_le _, fun _ _ _ h => absurd h (by simp), fun _ _ _ _ => Nat.zero_lt_succ 31, fun u e => absurd e (h u)⟩

theorem phase_askComposer (p : PhraseStore) (r : ReadReq) (n : Time) : (p.askComposer r n).phase = p.phase := by
  have g := congrArg PhraseStore.phase (settled_askComposer p r n)
  exact g

theorem changes_cpBegin (it : Item) (r : Reach) (s : State) : Changes s.kernel (cpBegin it r s).kernel := by
  unfold cpBegin; extract_lets copy b addr w
  split
  · exact changes_cp s _ fun v e => .inl (by cases e; exact Work.lawful_begin _ _ _ _ _ _ _ _ _ (by simp))
  · have h := changes_cp s (some w) fun v e => .inl (by cases e; exact Work.lawful_begin _ _ _ _ _ _ _ _ _ (by simp))
    refine h.trans (.same ?_)
    simp [State.kernel, phase_askComposer]

theorem changes_cpAsk (w : Work) (s : State)
    (h : w.lawful ∨ ∃ o, s.cp.work = some o ∧ (o.lawful → w.lawful)) :
    Changes s.kernel (cpAsk w s).kernel := by
  have g := changes_cp s (some w) fun v e => by cases e; exact h
  unfold cpAsk; dsimp only; split
  · refine g.trans (.same ?_)
    simp [State.kernel, phase_askComposer]
  · exact g
  · exact g

/-! ## The floor controller -/

theorem changes_fcUnheard (s : State) : Changes s.kernel (fcUnheard s).kernel := by
  have g (u : State) (o : Option SpacingOver) :
      Changes u.kernel { u with fc := { u.fc with spacingOver := o } }.kernel :=
    changes_fc u _ (.inr (by rfl)) (.inr (by rfl))
  exact (changes_endItem _ _).trans (g _ _)

theorem changes_fcTake (n : Nat) (s : State) : Changes s.kernel (fcTake n s).kernel := by
  induction n generalizing s with
  | zero => exact .refl _
  | succ n ih =>
    unfold fcTake
    split
    · split
      · exact .refl _
      · rename_i it rest hq
        have ht := changes_takeItem it rest s (by rw [hq]; exact List.sublist_cons_self _ _)
        extract_lets s'
        have ht : Changes s.kernel s'.kernel := ht
        split
        · exact ht.trans ((changes_endItem _ _).trans (ih _))
        · split
          · split
            · exact ht.trans ((changes_fcUnheard _).trans (ih _))
            · rw [kernel_vpRender]; exact ht.trans (changes_fc s' _ (.inr (by rfl)) (.inr (by rfl)))
            · rw [kernel_vpRender]; exact ht.trans (changes_fc s' _ (.inr (by rfl)) (.inr (by rfl)))
          · exact ht.trans (changes_cpBegin _ _ _)
    · exact .refl _

theorem changes_takeHead (s : State) : Changes s.kernel (takeHead s).kernel := changes_fcTake _ s

theorem changes_enterSpacing (s : State) : Changes s.kernel (enterSpacing s).kernel := by
  have h (b : Bool) : Changes s.kernel
      (if b then takeHead { s with fc := { s.fc with state := .idle, spacing := none } }
        else { s with fc := { s.fc with state := .spacing, spacing := some (s.now + spacingTime) } }).kernel := by
    split
    · exact (changes_fc s _ (.inr (by rfl)) (.inr (by rfl))).trans (changes_takeHead _)
    · exact changes_fc s _ (.inr (by rfl)) (.inr (by rfl))
  exact h _

theorem changes_fcRelease (s : State) : Changes s.kernel (fcRelease s).kernel := by
  unfold fcRelease; extract_lets r
  have hc : r.1.clash = s.lp.clash := clash_of_settled (settled_queueRelease _ _)
  have h1 := changes_lp s r.1 hc (queueChange_release s _)
  have h2 := changes_lp { s with lp := r.1 } (r.1.remove .claim) rfl (queueChange_remove { s with lp := r.1 } .claim)
  exact h1.trans (h2.trans (changes_fc _ _ (.inr (by rfl)) (.inr (by rfl))))

theorem changes_enterEnding (s : State) : Changes s.kernel (enterEnding s).kernel := by
  have h0 (c : Floor) (hu : c.utterance = none) (hp : c.playStart = none) :
      Changes s.kernel { s with fc := c }.kernel := changes_fc s c (.inl hu) (.inl hp)
  unfold enterEnding; extract_lets _ s1 s2
  have h1 : Changes s.kernel s1.kernel := h0 _ (by rfl) (by rfl)
  have h2 : Changes s.kernel s2.kernel := by
    simp only [s2]; split
    · exact h1
    · exact h1.trans (changes_fcRelease _)
  split
  · exact h2.trans (changes_enterSpacing _)
  · exact h2

theorem changes_backToWaiting (s : State) : Changes s.kernel (backToWaiting s).kernel :=
  changes_fc s _ (.inr (by rfl)) (.inr (by rfl))

theorem changes_fcSpeak (u : Utterance) (n : Time) (s : State) (h : n ≤ s.now) :
    Changes s.kernel (fcSpeak u n s).kernel := by
  unfold fcSpeak; rw [kernel_vpPlay]
  exact (Change.play s.kernel (some n) fun v e => by cases e; exact h).one

theorem lawful_floor (u : Utterance) (h : u.lawful) : 1 ≤ u.floor ∧ u.floor ≤ 255 := by
  obtain ⟨-, h1, h2, h3, -⟩ := h
  simp only [floorUnits, ceilDiv, Config.maxUtterance] at h2 h3
  omega

theorem changes_fcClaim (u : Utterance) (s : State) (h : s.fc.utterance = some u) :
    Changes s.kernel (fcClaim u s).kernel := by
  unfold fcClaim; extract_lets frame r
  split
  · refine (changes_lp s r.1 (clash_of_settled (settled_queueClaim _ _ _)) (queueChange_claim s _ _ ?_)).trans
      (changes_fc _ _ (.inr (by rfl)) (.inr (by rfl)))
    intro c
    have g := lawful_floor u (c.1 u h)
    exact ⟨_, _, _, _, g.1, g.2, rfl⟩
  · exact .refl _

theorem changes_fcTest (s : State) : Changes s.kernel (fcTest s).kernel := by
  unfold fcTest
  split
  · rename_i u hs hu
    extract_lets v _ s'
    have h : Changes s.kernel s'.kernel := by
      refine (Change.utter s.kernel (some v) ?_).one
      intro w e; cases e
      simp only [v]; split
      · exact .inr (.inl ⟨u, hu, rfl⟩)
      · exact .inl hu
    split
    · split
      · exact h.trans (changes_fcClaim _ _ (by rfl))
      · exact h.trans (changes_fcSpeak _ _ _ (Nat.le_refl _))
    · exact h
  · exact .refl _

theorem changes_fcSwap (s : State) : Changes s.kernel (fcSwap s).kernel := by
  have g (u : State) (w : Option Swapped) :
      Changes u.kernel (takeHead { u with fc := { u.fc with swapped := w } }).kernel :=
    (changes_fc u _ (.inr (by rfl)) (.inr (by rfl))).trans (changes_takeHead _)
  exact ((changes_fc s _ (.inl (by rfl)) (.inr (by rfl))).trans (changes_endItem _ _)).trans (g _ _)

theorem changes_fcDiscard (s : State) : Changes s.kernel (fcDiscard s).kernel :=
  ((changes_fc s _ (.inl (by rfl)) (.inr (by rfl))).trans (changes_endItem _ _)).trans (changes_takeHead _)

theorem changes_orderCut (e : CutEnd) (s : State) : Changes s.kernel (orderCut e s).kernel := by
  unfold orderCut; repeat' split
  · exact changes_fc s _ (.inr (by rfl)) (.inr (by rfl))
  · exact .refl _
  · rw [kernel_vpCut]; exact changes_fc s _ (.inr (by rfl)) (.inr (by rfl))

theorem reassertUnits_bounds (u : Utterance) (p n : Nat) (hp : p ≤ n) (hu : u.lawful) :
    1 ≤ reassertUnits u p n ∧ reassertUnits u p n ≤ 255 := by
  obtain ⟨-, h1, h2, -⟩ := hu
  simp only [reassertUnits, ceilDiv, clipUnit, floorUnit, Config.maxUtterance] at *
  have h3 : p + u.units * 240000 - n + 2400000 - 1 < 256 * 2400000 := by omega
  have h4 := Nat.div_lt_of_lt_mul (h3.trans_eq (Nat.mul_comm _ _))
  omega

theorem changes_fcReassert (u : Utterance) (p : Time) (a : Nat) (s : State) (hu : s.fc.utterance = some u)
    (hp : s.fc.playStart = some p) : Changes s.kernel (fcReassert u p a s).kernel := by
  unfold fcReassert; extract_lets frame
  refine (changes_lp s (s.lp.queueClaim frame true).1 (clash_of_settled (settled_queueClaim _ _ _))
    (queueChange_claim s _ _ ?_)).trans (changes_fc _ _ (.inr (by rfl)) (.inr (by rfl)))
  intro c
  have g := reassertUnits_bounds u p s.now (c.2 p hp) (c.1 u hu)
  exact ⟨_, _, _, _, g.1, g.2, rfl⟩

theorem changes_fcJudge (a : Nat) (l : Level) (s : State) : Changes s.kernel (fcJudge a l s).kernel := by
  unfold fcJudge; repeat' split
  · exact .refl _
  · exact changes_orderCut _ _
  · exact .refl _
  · rename_i hu hp _ _ _; exact changes_fcReassert _ _ _ _ hu hp
  · exact .refl _

theorem changes_fcAfterSound (s : State) : Changes s.kernel (fcAfterSound s).kernel := by
  unfold fcAfterSound; split
  · exact (changes_fc s _ (.inl (by rfl)) (.inl (by rfl))).trans (changes_enterSpacing _)
  · exact changes_enterEnding _

theorem changes_fcUnclaim (s : State) : Changes s.kernel (fcUnclaim s).kernel :=
  (changes_lp s (s.lp.remove .claim) rfl (queueChange_remove s .claim)).trans (changes_fcDiscard _)

theorem changes_fcUnspeak (s : State) : Changes s.kernel (fcUnspeak s).kernel := by
  have h := changes_fc s { s.fc with playStart := none } (.inr (by rfl)) (.inl (by rfl))
  exact (h.trans (.same (kernel_vpStop _))).trans (changes_fcDiscard _)

theorem changes_fcMark (s : State) : Changes s.kernel (fcMark s).kernel := by
  have h : Changes s.kernel (enterEnding (endItem .dropped (fcRelease s))).kernel :=
    ((changes_fcRelease s).trans (changes_endItem _ _)).trans (changes_enterEnding _)
  unfold fcMark; split
  · exact changes_fcDiscard s
  · split
    · exact changes_fcUnclaim s
    · exact h
  · exact h
  · split
    · exact changes_fcUnspeak s
    · exact changes_orderCut _ _
  all_goals exact .refl _

theorem changes_fcRetake (s : State) : Changes s.kernel (fcRetake s).kernel := by
  have h : Changes s.kernel
      { s with fc := { s.fc with state := .idle, cutOrder := none }, cp := { s.cp with work := none },
               psp := s.psp.unaskComposer s.now }.kernel := by
    refine (changes_cp s none fun v e => by cases e).trans (.same ?_)
    simp only [State.kernel, phase_unaskComposer]
  exact h.trans (changes_endItem _ _)

/-- An item put back is a placement of its class, which is not queued. -/
theorem changes_putBack (s : State) (it : Item) : Changes s.kernel (putBack s it).kernel := by
  unfold putBack; split
  · exact .refl _
  · rename_i h
    exact changes_placeNew _ s (by simpa using h)

theorem changes_putBacks (l : List Item) (s : State) : Changes s.kernel (l.foldl putBack s).kernel := by
  induction l generalizing s with
  | nil => exact .refl _
  | cons it l ih => exact (changes_putBack s it).trans (ih _)

theorem items_unsay (l : List Said) (q : PromptQueue) : (l.foldl PromptQueue.unsay q).items = q.items := by
  induction l generalizing q with
  | nil => rfl
  | cons x l ih => exact ih _

theorem changes_fcReopen (o : SpacingOver) (s : State) : Changes s.kernel (fcReopen o s).kernel := by
  have g (x : State) (h : x.kernel = s.kernel) :
      Changes s.kernel ((o.said.filterMap Said.item).foldl putBack (fcRetake x)).kernel :=
    (Changes.same h).trans ((changes_fcRetake x).trans (changes_putBacks _ _))
  exact g _ (by simp only [State.kernel, items_unsay])

theorem changes_fcUnswap (s : State) : Changes s.kernel (fcUnswap s).kernel := by
  unfold fcUnswap; split
  · have g (l : List Item) (x : State) : Changes x.kernel (l.foldl putBack (fcRetake x)).kernel :=
      (changes_fcRetake x).trans (changes_putBacks _ _)
    refine Changes.trans ?_ (g _ _)
    exact (changes_pq s _ (by exact List.filter_sublist)).trans (.same rfl)
  · exact .refl _

theorem changes_fcNotice (l : Level) (s : State) : Changes s.kernel (fcNotice l s).kernel := by
  have h : Changes s.kernel (enterEnding (endItem .returned (fcRelease s))).kernel :=
    ((changes_fcRelease s).trans (changes_endItem _ _)).trans (changes_enterEnding _)
  unfold fcNotice; extract_lets outranked ended; clear_value ended
  split
  · split
    · exact changes_fcReopen _ s
    · exact .refl _
  · split
    · exact changes_fcSwap s
    · exact .refl _
  · split
    · exact h
    · exact .refl _
  · split
    · exact h
    · exact .refl _
  · split
    · split
      · exact changes_orderCut _ _
      · exact .refl _
    · split
      · exact (Changes.same (kernel_vpStop s)).trans (changes_fcReopen _ _)
      · exact .refl _
  · split
    · exact changes_fc s _ (.inr (by rfl)) (.inr (by rfl))
    · exact .refl _
  · exact .refl _

theorem changes_fcClaimReceived (a : Nat) (l : Level) (u : Nat) (n : Time) (s : State) :
    Changes s.kernel (fcClaimReceived a l u n s).kernel := by
  unfold fcClaimReceived; extract_lets stored s' first
  have h : Changes s.kernel s'.kernel := by
    refine .same ?_
    simp only [s', State.kernel, Floor.store]; split <;> rfl
  split
  · exact h.trans (changes_fcTest _)
  · split
    · exact h.trans (((changes_fcRelease _).trans (changes_backToWaiting _)).trans (changes_fcTest _))
    · exact h
  · split
    · exact h.trans (((changes_fcRelease _).trans (changes_backToWaiting _)).trans (changes_fcTest _))
    · exact h
  · split
    · exact h
    · exact h.trans (changes_fcJudge _ _ _)
  all_goals exact h

theorem changes_fcReleaseReceived (a : Nat) (s : State) : Changes s.kernel (fcReleaseReceived a s).kernel :=
  (changes_fc s _ (.inr (by rfl)) (.inr (by rfl))).trans (changes_fcTest _)

theorem changes_fcClaimReport (r : Report) (s : State) : Changes s.kernel (fcClaimReport r s).kernel := by
  unfold fcClaimReport; split
  · exact .refl _
  · split
    · exact changes_fc s _ (.inr (by rfl)) (.inr (by rfl))
    · exact (changes_backToWaiting s).trans (changes_fcTest _)
    · exact (changes_backToWaiting s).trans (changes_fcTest _)

theorem changes_fcReleaseReport (s : State) : Changes s.kernel (fcReleaseReport s).kernel := by
  unfold fcReleaseReport; extract_lets _ s'
  have h : Changes s.kernel s'.kernel := changes_fc s _ (.inr (by rfl)) (.inr (by rfl))
  split
  · exact h.trans (changes_enterSpacing _)
  · exact h.trans (changes_fcTest _)

theorem changes_fcLineChange (s : State) : Changes s.kernel (fcLineChange s).kernel := by
  unfold fcLineChange; split
  · exact changes_enterSpacing s
  · exact changes_fcTest s

theorem changes_fcClash (s : State) : Changes s.kernel (fcClash s).kernel := by
  unfold fcClash; split
  · exact changes_orderCut _ _
  · exact .refl _

theorem changes_fcResult (w : Work) (r : Option Utterance) (s : State) (hw : s.cp.work = some w)
    (hr : w.stage = .finished r) : Changes s.kernel (fcResult r s).kernel := by
  unfold fcResult; extract_lets _ s' late
  have h : Changes s.kernel s'.kernel := changes_cp s none fun v e => by cases e
  split
  · exact (h.trans (changes_endItem _ _)).trans (changes_takeHead _)
  · rename_i u
    split
    · exact (h.trans (changes_endItem _ _)).trans (changes_takeHead _)
    · extract_lets s''
      have g : Changes s.kernel s''.kernel := by
        have g1 := Change.utter s.kernel (some u) fun v e => .inr (.inr ⟨w, hw, by cases e; exact hr⟩)
        exact (g1.one).step (Change.work { s.kernel with utterance := some u } none fun v e => by cases e)
      split
      · exact g.trans (changes_fcSwap _)
      · exact g.trans (changes_fcTest _)

theorem changes_soundOver (e : ItemEnd) (s : State) : Changes s.kernel (soundOver e s).kernel := by
  have h : Changes s.kernel (vpStop s).kernel := .same (kernel_vpStop s)
  exact (h.trans (changes_endItem _ _)).trans (changes_fcAfterSound _)

/-! ## Triggers and withdrawals -/

theorem changes_putTrigger (c : PromptClass) (p : Params) (r : Reach) (b : Bool) (s : State) :
    Changes s.kernel (putTrigger c p r b s).kernel := by
  have sup (x : State) : Changes x.kernel { x with pq := x.pq.supersede }.kernel := .same rfl
  unfold putTrigger; extract_lets it mark _ s1 r' _ s2
  have h0 : s.pq.queued c = false → Changes s.kernel r'.1.kernel := fun hq => changes_placeNew it s hq
  split
  · have h1 : Changes s.kernel s1.kernel := by
      refine (Change.update s.kernel (fun q => if q.cls = it.cls then it else q) ?_).one
      intro x; split <;> simp_all
    split
    · exact (h1.trans (sup _)).trans (changes_fcMark _)
    · exact h1
  · rename_i hq
    have h0 := h0 (by simpa using hq)
    have h2 : Changes s.kernel s2.kernel := by
      simp only [s2]; split
      · exact (h0.trans (sup _)).trans (changes_fcMark _)
      · exact h0
    split
    · exact h2.trans (changes_fcNotice _ _)
    · exact h2

theorem changes_placeTrigger (c : PromptClass) (p : Params) (r : Reach) (b : Bool) (s : State) :
    Changes s.kernel (placeTrigger c p r b s).kernel := by
  refine Changes.trans ?_ (changes_putTrigger _ _ _ _ _)
  unfold meetSwapped; split
  · exact changes_fcUnswap s
  · exact .refl _

theorem changes_triggerAs (c : PromptClass) (p : Params) (r : Reach) (b : Bool) (s : State) :
    Changes s.kernel (triggerAs c p r b s).kernel :=
  (changes_placeTrigger _ _ _ _ _).trans (changes_takeHead _)

theorem changes_trigger (c : PromptClass) (p : Params) (s : State) :
    Changes s.kernel (trigger c p s).kernel := changes_triggerAs _ _ _ _ _

theorem changes_busyTrigger (c : PromptClass) (p : Params) (s : State) :
    Changes s.kernel (busyTrigger c p s).kernel :=
  (Changes.same (kernel_activity s)).trans (changes_trigger _ _ _)

theorem changes_withdrawHeld (m : PromptClass → CondKey → Bool) (s : State) :
    Changes s.kernel (withdrawHeld m s).kernel := by
  unfold withdrawHeld; extract_lets _ s'
  have h : Changes s.kernel s'.kernel :=
    (changes_pq s _ (by exact List.filter_sublist)).trans (.same rfl)
  split
  · split
    · exact (h.trans (Changes.same (t := { s' with pq := s'.pq.withdraw }) rfl)).trans (changes_fcMark _)
    · exact h
  · exact h

theorem changes_withdrawMeant (m : PromptClass → CondKey → Bool) (s : State) :
    Changes s.kernel (withdrawMeant m s).kernel := by
  unfold withdrawMeant; split
  · exact ((changes_fcUnswap s).trans (changes_withdrawHeld _ _)).trans (changes_takeHead _)
  · exact changes_withdrawHeld m s

theorem changes_withdraw (k : CondKey) (s : State) : Changes s.kernel (withdraw k s).kernel := changes_withdrawMeant _ s

theorem changes_endCondition (k : CondKey) (s : State) : Changes s.kernel (endCondition k s).kernel := by
  refine (Changes.same (t := { s with pq := stopSeries k s.pq }) ?_).trans (changes_withdraw _ _)
  cases k <;> rfl

theorem changes_selectingEnds (s : State) : Changes s.kernel (selectingEnds s).kernel :=
  (Changes.same (t := { s with au := s.au.noReminder }) rfl).trans (changes_withdraw _ _)

theorem changes_wake (s : State) : Changes s.kernel (wake s).kernel := by
  unfold wake; extract_lets s'
  have h : Changes s.kernel s'.kernel := .same (kernel_primaryActivity s)
  split_ifs
  · exact h.trans (changes_trigger _ _ _)
  · exact h.trans (changes_trigger _ _ _)
  · exact h

end Sys2Proof.Machine
end

