-- ==== Sys2Proof/Laws/Voices.lean ====
section
/-! SUPPORT. The law of R144 and R137 (`SpeakLaw`) through every operation of the floor controller and of the
prompt queue. -/

namespace Sys2Proof.Machine

/-- What `SpeakLaw` reads. -/
def State.voices (s : State) : Bool × FloorState × Bool × Bool :=
  (s.vp.stream.isSome, s.fc.state, s.cp.work.isSome, s.fc.item.isSome)

theorem SpeakLaw.of_voices {s t : State} (h : t.voices = s.voices) (g : SpeakLaw s) : SpeakLaw t := by
  simp only [State.voices, Prod.mk.injEq] at h
  obtain ⟨h1, h2, h3, h4⟩ := h
  unfold SpeakLaw at *; rw [h1, h2, h3, h4]; exact g

/-- Nothing sounds and nothing is composed. -/
def Quiet (s : State) : Prop := s.vp.stream = none ∧ s.cp.work = none

theorem Quiet.speak {s : State} (h : Quiet s) : SpeakLaw s := by simp [SpeakLaw, h.1, h.2]

theorem SpeakLaw.quiet {s : State} (h : SpeakLaw s) (h1 : s.fc.state ≠ .speaking) (h2 : s.fc.state ≠ .idle) :
    Quiet s := by
  constructor
  · by_contra hn; exact h1 (h.1 (Option.isSome_iff_ne_none.2 hn))
  · by_contra hn; exact h2 (h.2 (Option.isSome_iff_ne_none.2 hn)).1

/-! ## Operations that leave the voices -/

theorem stream_isSome_vpRefill (s : State) : (vpRefill s).vp.stream = s.vp.stream := by
  unfold vpRefill; repeat' split
  all_goals rfl

theorem fc_vpRefill (s : State) : (vpRefill s).fc = s.fc := by
  unfold vpRefill; repeat' split
  all_goals rfl

theorem cp_vpRefill (s : State) : (vpRefill s).cp = s.cp := by
  unfold vpRefill; repeat' split
  all_goals rfl

@[simp] theorem voices_vpRefill (s : State) : (vpRefill s).voices = s.voices := by
  simp [State.voices, stream_isSome_vpRefill, fc_vpRefill, cp_vpRefill]

@[simp] theorem voices_vpCut (s : State) : (vpCut s).voices = s.voices := by
  unfold vpCut; split
  · rfl
  · rename_i st hs
    split
    · dsimp only; repeat' split
      all_goals simp [State.voices, hs]
    · rfl

@[simp] theorem voices_vpHardFade (s : State) : (vpHardFade s).voices = s.voices := by
  unfold vpHardFade; split
  · rfl
  · rename_i st hs; simp [State.voices, hs]

@[simp] theorem voices_vpClick (s : State) : (vpClick s).voices = s.voices := by
  unfold vpClick; dsimp only; repeat' split
  all_goals rfl

@[simp] theorem voices_vpBuzz (s : State) : (vpBuzz s).voices = s.voices := rfl

@[simp] theorem voices_vpTakeRefill (d : List Byte) (s : State) : (vpTakeRefill d s).voices = s.voices := by
  have h (v : VoicePlayer) (w : List Byte) (k : Nat) : (v.receive w k).stream = v.stream := by
    unfold VoicePlayer.receive; split <;> rfl
  unfold vpTakeRefill; split
  · simp only [State.voices, h]
  · rfl

@[simp] theorem voices_leaveUnsaid (c : PromptClass) (s : State) : (leaveUnsaid c s).voices = s.voices := by
  unfold leaveUnsaid; split
  · dsimp only; split_ifs <;> rfl
  · rfl

@[simp] theorem voices_saidSeries (c : PromptClass) (s : State) : (saidSeries c s).voices = s.voices := by
  unfold saidSeries; split <;> rfl

@[simp] theorem voices_placeNew (it : Item) (s : State) : (placeNew it s).1.voices = s.voices := by
  unfold placeNew; dsimp only; split
  · rw [voices_leaveUnsaid]; rfl
  · rfl

@[simp] theorem voices_returnItem (it : Item) (s : State) : (returnItem it s).voices = s.voices := by
  unfold returnItem; dsimp only; repeat' split
  all_goals simp

@[simp] theorem voices_fcRelease (s : State) : (fcRelease s).voices = s.voices := rfl

@[simp] theorem voices_activity (s : State) : (activity s).voices = s.voices := by
  unfold activity; split <;> rfl

@[simp] theorem voices_primaryActivity (s : State) : (primaryActivity s).voices = s.voices := by
  have h (x : State) (a : AttentionUnit) : { x with au := a }.voices = x.voices := rfl
  unfold primaryActivity; dsimp only; split
  · rw [h, voices_activity]
  · rw [voices_activity]

@[simp] theorem voices_orderCut (e : CutEnd) (s : State) : (orderCut e s).voices = s.voices := by
  unfold orderCut; split
  · split <;> rfl
  · rw [voices_vpCut]; rfl

@[simp] theorem voices_fcJudge (a : Nat) (l : Level) (s : State) : (fcJudge a l s).voices = s.voices := by
  unfold fcJudge; repeat' split
  all_goals first | rfl | simp

/-! ## The end of an item -/

theorem endItem_voices (e : ItemEnd) (s : State) :
    (endItem e s).vp.stream.isSome = s.vp.stream.isSome ∧ (endItem e s).fc.state = s.fc.state ∧
      (endItem e s).cp.work.isSome = s.cp.work.isSome := by
  have key (t : State) (h : t.voices = (s.vp.stream.isSome, s.fc.state, s.cp.work.isSome, false)) :
      t.vp.stream.isSome = s.vp.stream.isSome ∧ t.fc.state = s.fc.state ∧
        t.cp.work.isSome = s.cp.work.isSome := by
    simp only [State.voices, Prod.mk.injEq] at h
    exact ⟨h.1, h.2.1, h.2.2.1⟩
  unfold endItem; split
  · exact ⟨rfl, rfl, rfl⟩
  · dsimp only; split
    · exact key _ (by rw [voices_saidSeries]; rfl)
    · exact key _ (by rw [voices_returnItem]; rfl)
    · split
      · exact key _ rfl
      · exact key _ (by rw [voices_leaveUnsaid]; rfl)

theorem Quiet.endItem {s : State} (h : Quiet s) (e : ItemEnd) : Quiet (endItem e s) := by
  have g := endItem_voices e s
  rw [h.1, h.2] at g
  exact ⟨by simpa using g.1, by simpa using g.2.2⟩

/-! ## The floor controller -/

theorem Quiet.unheard {s : State} (h : Quiet s) : Quiet (fcUnheard s) := h.endItem .said

theorem speak_fcTake (n : Nat) (s : State) (h : SpeakLaw s) : SpeakLaw (fcTake n s) := by
  induction n generalizing s with
  | zero => exact h
  | succ n ih =>
    unfold fcTake
    split
    · rename_i hg
      simp only [Bool.and_eq_true, beq_iff_eq, Option.isNone_iff_eq_none] at hg
      have hw : s.cp.work = none := by
        by_contra hn
        have := (h.2 (Option.isSome_iff_ne_none.2 hn)).2
        simp [hg.2] at this
      have hs : s.vp.stream = none := by
        by_contra hn
        have := h.1 (Option.isSome_iff_ne_none.2 hn)
        simp [hg.1.2] at this
      split
      · exact h
      · rename_i it rest hq
        extract_lets s'
        have hq : Quiet s' := ⟨hs, hw⟩
        split
        · exact ih _ (hq.endItem _).speak
        · split
          · split
            · exact ih _ hq.unheard.speak
            · exact ⟨fun _ => rfl, fun c => by
                have g : s.cp.work.isSome := c
                simp [hw] at g⟩
            · exact ⟨fun _ => rfl, fun c => by
                have g : s.cp.work.isSome := c
                simp [hw] at g⟩
          · have hst : s'.fc.state = .idle := hg.1.2
            have hit : s'.fc.item = some it := rfl
            have hs' : s'.vp.stream = none := hs
            unfold cpBegin; extract_lets copy b addr w
            split
            · exact ⟨fun c => by simp [hs'] at c, fun _ => ⟨hst, by simp [hit]⟩⟩
            · exact ⟨fun c => by simp [hs'] at c, fun _ => ⟨hst, by simp [hit]⟩⟩
    · exact h

theorem speak_takeHead (s : State) (h : SpeakLaw s) : SpeakLaw (takeHead s) := speak_fcTake _ s h

theorem speak_enterSpacing (s : State) (h : Quiet s) : SpeakLaw (enterSpacing s) := by
  have g (b : Bool) : SpeakLaw
      (if b then takeHead { s with fc := { s.fc with state := .idle, spacing := none } }
        else { s with fc := { s.fc with state := .spacing, spacing := some (s.now + spacingTime) } }) := by
    split
    · exact speak_takeHead _ (Quiet.speak (s := { s with fc := { s.fc with state := .idle, spacing := none } }) h)
    · exact Quiet.speak (s := { s with fc := _ }) h
  exact g _

theorem speak_enterEnding (s : State) (h : Quiet s) : SpeakLaw (enterEnding s) := by
  unfold enterEnding; extract_lets _ s1 s2
  have h1 : Quiet s1 := h
  have h2 : Quiet s2 := by simp only [s2]; split <;> exact h1
  split
  · exact speak_enterSpacing _ h2
  · exact h2.speak

theorem speak_fcSpeak (u : Utterance) (n : Time) (s : State) (h : s.cp.work = none) : SpeakLaw (fcSpeak u n s) := by
  unfold fcSpeak vpPlay
  refine SpeakLaw.of_voices (voices_vpRefill _) ⟨fun _ => rfl, fun c => ?_⟩
  simp [h] at c

theorem speak_fcTest (s : State) (h : SpeakLaw s) : SpeakLaw (fcTest s) := by
  unfold fcTest; split
  · rename_i u hs hu
    have hq : Quiet s := h.quiet (by simp [hs]) (by simp [hs])
    extract_lets v _ s'
    have hq' : Quiet s' := hq
    split
    · split
      · unfold fcClaim; dsimp only; split
        · exact Quiet.speak hq'
        · exact hq'.speak
      · exact speak_fcSpeak _ _ _ hq'.2
    · exact hq'.speak
  · exact h

theorem speak_fcDiscard (s : State) (h : Quiet s) (e : ItemEnd) :
    SpeakLaw (takeHead (endItem e { s with fc := { s.fc with state := .idle, utterance := none } })) :=
  speak_takeHead _ (Quiet.endItem (s := { s with fc := { s.fc with state := .idle, utterance := none } }) h e).speak

theorem speak_fcSwap (s : State) (h : Quiet s) : SpeakLaw (fcSwap s) := by
  have g (u : State) (w : Option Swapped) (hu : SpeakLaw u) :
      SpeakLaw (takeHead { u with fc := { u.fc with swapped := w } }) :=
    speak_takeHead _ (hu.of_voices rfl)
  exact g _ _
    (Quiet.endItem (s := { s with fc := { s.fc with state := .idle, utterance := none } }) h .returned).speak

theorem speak_fcAfterSound (s : State) (h : Quiet s) : SpeakLaw (fcAfterSound s) := by
  unfold fcAfterSound; split
  · exact speak_enterSpacing _ h
  · exact speak_enterEnding _ h

theorem speak_giveUp (s : State) (e : ItemEnd) (h : Quiet s) : SpeakLaw (enterEnding (endItem e (fcRelease s))) :=
  speak_enterEnding _ (Quiet.endItem (s := fcRelease s) h e)

/-- A sound that stops leaves nothing sounding, and nothing is composed while one sounds. -/
theorem quiet_vpStop (s : State) (h : s.cp.work = none) : Quiet (vpStop s) := by
  refine ⟨?_, h⟩
  unfold vpStop VoicePlayer.ampIdle; dsimp only; split <;> rfl

theorem SpeakLaw.uncomposed {s : State} (h : SpeakLaw s) (hs : s.fc.state ≠ .idle) : s.cp.work = none := by
  by_contra hn; exact hs (h.2 (Option.isSome_iff_ne_none.2 hn)).1

theorem speak_fcMark (s : State) (h : SpeakLaw s) : SpeakLaw (fcMark s) := by
  unfold fcMark; split
  · rename_i hs; exact speak_fcDiscard s (h.quiet (by simp [hs]) (by simp [hs])) _
  · rename_i hs
    have hq := h.quiet (by simp [hs]) (by simp [hs])
    split
    · exact speak_fcDiscard { s with lp := s.lp.remove .claim } hq _
    · exact speak_giveUp s _ hq
  · rename_i hs; exact speak_giveUp s _ (h.quiet (by simp [hs]) (by simp [hs]))
  · rename_i hs
    split
    · exact speak_fcDiscard (vpStop { s with fc := { s.fc with playStart := none } })
        (quiet_vpStop _ (h.uncomposed (by simp [hs]))) _
    · exact h.of_voices (voices_orderCut _ _)
  all_goals exact h

theorem speak_fcRetake (s : State) (h : s.vp.stream = none) : SpeakLaw (fcRetake s) :=
  (Quiet.endItem (s := { s with fc := { s.fc with state := .idle, cutOrder := none }, cp := { s.cp with work := none },
                                psp := s.psp.unaskComposer s.now }) ⟨h, rfl⟩ _).speak

/-- In IDLE nothing sounds. -/
theorem SpeakLaw.silent {s : State} (h : SpeakLaw s) (hs : s.fc.state = .idle) : s.vp.stream = none := by
  by_contra hn
  have := h.1 (Option.isSome_iff_ne_none.2 hn)
  simp [hs] at this

@[simp] theorem voices_putBack (s : State) (it : Item) : (putBack s it).voices = s.voices := by
  unfold putBack; split
  · rfl
  · exact voices_placeNew _ _

@[simp] theorem voices_putBacks (l : List Item) (s : State) : (l.foldl putBack s).voices = s.voices := by
  induction l generalizing s with
  | nil => rfl
  | cons it l ih => rw [List.foldl_cons, ih, voices_putBack]

theorem speak_fcReopen (o : SpacingOver) (s : State) (h : s.vp.stream = none) : SpeakLaw (fcReopen o s) := by
  have g (x : State) (hx : x.vp.stream = none) : SpeakLaw ((o.said.filterMap Said.item).foldl putBack (fcRetake x)) :=
    (speak_fcRetake x hx).of_voices (voices_putBacks _ _)
  exact g _ h

theorem speak_fcUnswap (s : State) (h : s.vp.stream = none) (hw : SpeakLaw s) : SpeakLaw (fcUnswap s) := by
  unfold fcUnswap; split
  · have g (l : List Item) (x : State) (hx : x.vp.stream = none) : SpeakLaw (l.foldl putBack (fcRetake x)) :=
      (speak_fcRetake x hx).of_voices (voices_putBacks _ _)
    exact g _ _ h
  · exact hw

theorem speak_fcNotice (l : Level) (s : State) (h : SpeakLaw s) : SpeakLaw (fcNotice l s) := by
  unfold fcNotice; extract_lets outranked ended; clear_value ended
  split
  · rename_i hs
    split
    · exact speak_fcReopen _ s (h.silent hs)
    · exact h
  · rename_i hs
    split
    · exact speak_fcSwap s (h.quiet (by simp [hs]) (by simp [hs]))
    · exact h
  · rename_i hs
    split
    · exact speak_giveUp s _ (h.quiet (by simp [hs]) (by simp [hs]))
    · exact h
  · rename_i hs
    split
    · exact speak_giveUp s _ (h.quiet (by simp [hs]) (by simp [hs]))
    · exact h
  · rename_i hs
    split
    · split
      · exact h.of_voices (voices_orderCut _ _)
      · exact h
    · split
      · exact speak_fcReopen _ _ (quiet_vpStop s (h.uncomposed (by simp [hs]))).1
      · exact h
  · rename_i hs
    split
    · have hq := h.quiet (by simp [hs]) (by simp [hs])
      exact Quiet.speak (s := { s with fc := { s.fc with state := .idle, spacing := none } }) hq
    · exact h
  · exact h

theorem speak_backToWaiting (s : State) (h : Quiet s) : SpeakLaw (fcTest (backToWaiting s)) :=
  speak_fcTest _ (Quiet.speak (s := backToWaiting s) h)

theorem speak_fcClaimReceived (a : Nat) (l : Level) (u : Nat) (n : Time) (s : State) (h : SpeakLaw s) :
    SpeakLaw (fcClaimReceived a l u n s) := by
  unfold fcClaimReceived; extract_lets stored s' first
  have hv : s'.voices = s.voices := by
    simp only [s', State.voices, Floor.store]; split <;> rfl
  have h' : SpeakLaw s' := h.of_voices hv
  split
  · exact speak_fcTest _ h'
  · rename_i hs
    split
    · exact speak_backToWaiting _ (h'.quiet (by simp [hs]) (by simp [hs]))
    · exact h'
  · rename_i hs
    split
    · exact speak_backToWaiting _ (h'.quiet (by simp [hs]) (by simp [hs]))
    · exact h'
  · split
    · exact h'
    · exact h'.of_voices (voices_fcJudge _ _ _)
  all_goals exact h'

theorem speak_fcReleaseReceived (a : Nat) (s : State) (h : SpeakLaw s) : SpeakLaw (fcReleaseReceived a s) :=
  speak_fcTest _ (h.of_voices rfl)

theorem speak_fcClaimReport (r : Report) (s : State) (h : SpeakLaw s) : SpeakLaw (fcClaimReport r s) := by
  unfold fcClaimReport; split
  · exact h
  · rename_i hc
    have hs : s.fc.state = .claiming := by simp at hc; exact hc.2
    have hq := h.quiet (by simp [hs]) (by simp [hs])
    split
    · exact Quiet.speak (s := { s with fc := _ }) hq
    · exact speak_backToWaiting _ hq
    · exact speak_backToWaiting _ hq

theorem speak_fcReleaseReport (s : State) (h : SpeakLaw s) : SpeakLaw (fcReleaseReport s) := by
  unfold fcReleaseReport; extract_lets _ s'
  have h' : SpeakLaw s' := h.of_voices rfl
  split
  · rename_i hs; exact speak_enterSpacing _ (h'.quiet (by simp [hs]) (by simp [hs]))
  · exact speak_fcTest _ h'

theorem speak_fcLineChange (s : State) (h : SpeakLaw s) : SpeakLaw (fcLineChange s) := by
  unfold fcLineChange; split
  · rename_i hs; exact speak_enterSpacing _ (h.quiet (by simp [hs.1]) (by simp [hs.1]))
  · exact speak_fcTest _ h

theorem speak_fcClash (s : State) (h : SpeakLaw s) : SpeakLaw (fcClash s) := by
  unfold fcClash; split
  · exact h.of_voices (voices_orderCut _ _)
  · exact h

theorem speak_fcResult (w : Work) (r : Option Utterance) (s : State) (hw : s.cp.work = some w) (h : SpeakLaw s) :
    SpeakLaw (fcResult r s) := by
  have hi := (h.2 (by simp [hw])).1
  have hst : s.vp.stream = none := by
    by_contra hn
    have := h.1 (Option.isSome_iff_ne_none.2 hn)
    simp [hi] at this
  unfold fcResult; extract_lets _ s' late
  have hq : Quiet s' := ⟨hst, rfl⟩
  split
  · exact speak_takeHead _ (hq.endItem _).speak
  · split
    · exact speak_takeHead _ (hq.endItem _).speak
    · extract_lets s''
      have hq' : Quiet s'' := hq
      split
      · exact speak_fcSwap s'' hq'
      · exact speak_fcTest _ hq'.speak

theorem speak_soundOver (e : ItemEnd) (s : State) (h : SpeakLaw s) (hs : s.vp.stream.isSome) :
    SpeakLaw (soundOver e s) := by
  have hw : s.cp.work = none := by
    by_contra hn
    have g := (h.2 (Option.isSome_iff_ne_none.2 hn)).1
    simp [h.1 hs] at g
  exact speak_fcAfterSound _ ((quiet_vpStop s hw).endItem e)

/-! ## Triggers and withdrawals -/

theorem speak_putTrigger (c : PromptClass) (p : Params) (r : Reach) (b : Bool) (s : State) (h : SpeakLaw s) :
    SpeakLaw (putTrigger c p r b s) := by
  have sup (x : State) (g : SpeakLaw x) : SpeakLaw { x with pq := x.pq.supersede } := g.of_voices rfl
  unfold putTrigger; extract_lets it mark _ s1 r' _ s2
  have h1 : SpeakLaw s1 := h.of_voices rfl
  have h0 : SpeakLaw r'.1 := h.of_voices (voices_placeNew _ _)
  split
  · split
    · exact speak_fcMark _ (sup _ h1)
    · exact h1
  · have h2 : SpeakLaw s2 := by
      simp only [s2]; split
      · exact speak_fcMark _ (sup _ h0)
      · exact h0
    split
    · exact speak_fcNotice _ _ h2
    · exact h2

/-- A swap of this moment left the floor controller in IDLE. -/
theorem idle_of_swappedNow {s : State} {p : Item → Bool} (h : s.swappedNow p = true) : s.fc.state = .idle := by
  simp only [State.swappedNow, Bool.and_eq_true, beq_iff_eq] at h; exact h.1.2

theorem speak_meetSwapped (p : Item → Bool) (s : State) (h : SpeakLaw s) : SpeakLaw (meetSwapped p s) := by
  unfold meetSwapped; split
  · rename_i e; exact speak_fcUnswap s (h.silent (idle_of_swappedNow e)) h
  · exact h

theorem speak_placeTrigger (c : PromptClass) (p : Params) (r : Reach) (b : Bool) (s : State) (h : SpeakLaw s) :
    SpeakLaw (placeTrigger c p r b s) := speak_putTrigger _ _ _ _ _ (speak_meetSwapped _ s h)

theorem speak_triggerAs (c : PromptClass) (p : Params) (r : Reach) (b : Bool) (s : State) (h : SpeakLaw s) :
    SpeakLaw (triggerAs c p r b s) := speak_takeHead _ (speak_placeTrigger _ _ _ _ _ h)

theorem speak_trigger (c : PromptClass) (p : Params) (s : State) (h : SpeakLaw s) : SpeakLaw (trigger c p s) :=
  speak_triggerAs _ _ _ _ _ h

theorem speak_busyTrigger (c : PromptClass) (p : Params) (s : State) (h : SpeakLaw s) :
    SpeakLaw (busyTrigger c p s) := speak_trigger _ _ _ (h.of_voices (voices_activity s))

theorem speak_withdrawHeld (m : PromptClass → CondKey → Bool) (s : State) (h : SpeakLaw s) :
    SpeakLaw (withdrawHeld m s) := by
  unfold withdrawHeld; extract_lets _ s'
  have h' : SpeakLaw s' := h.of_voices rfl
  split
  · split
    · exact speak_fcMark _ (h'.of_voices rfl)
    · exact h'
  · exact h'

theorem speak_withdrawMeant (m : PromptClass → CondKey → Bool) (s : State) (h : SpeakLaw s) :
    SpeakLaw (withdrawMeant m s) := by
  unfold withdrawMeant; split
  · rename_i e
    exact speak_takeHead _ (speak_withdrawHeld _ _ (speak_fcUnswap s (h.silent (idle_of_swappedNow e)) h))
  · exact speak_withdrawHeld m s h

theorem speak_withdraw (k : CondKey) (s : State) (h : SpeakLaw s) : SpeakLaw (withdraw k s) :=
  speak_withdrawMeant _ s h

theorem speak_endCondition (k : CondKey) (s : State) (h : SpeakLaw s) : SpeakLaw (endCondition k s) :=
  speak_withdraw _ _ (h.of_voices rfl)

theorem speak_selectingEnds (s : State) (h : SpeakLaw s) : SpeakLaw (selectingEnds s) :=
  speak_withdraw _ _ (h.of_voices rfl)

theorem speak_wake (s : State) (h : SpeakLaw s) : SpeakLaw (wake s) := by
  unfold wake; extract_lets s'
  have h' : SpeakLaw s' := h.of_voices (voices_primaryActivity s)
  split_ifs
  · exact speak_trigger _ _ _ h'
  · exact speak_trigger _ _ _ h'
  · exact h'

end Sys2Proof.Machine
end

