-- ==== Sys2Proof/Laws/Runs.lean ====
section
/-! SUPPORT. Every command is a run of changes of the kernel (`Changes`) and keeps `SpeakLaw`: `exec_runs`. A law
over the kernel follows from its twelve cases of `Change`. -/

namespace Sys2Proof.Machine

/-- From `s` to `t` the kernel changes step by step, and `SpeakLaw` stands. -/
structure Runs (s t : State) : Prop where
  changes : Changes s.kernel t.kernel
  speak   : SpeakLaw s → SpeakLaw t

theorem Runs.refl (s : State) : Runs s s := ⟨.refl _, id⟩

theorem Runs.trans {a b c : State} (h : Runs a b) (g : Runs b c) : Runs a c :=
  ⟨h.changes.trans g.changes, g.speak ∘ h.speak⟩

theorem Runs.same {s t : State} (h : t.kernel = s.kernel) (g : t.voices = s.voices) : Runs s t :=
  ⟨.same h, SpeakLaw.of_voices g⟩

/-- A change of parts that no kernel reads. -/
theorem Runs.aside (s : State) (pm : PartnerMonitor) (ro : List RosterEntry) (pu : PanelUnit) (dc : Dialogue)
    (au : AttentionUnit) (ind : Indicator) :
    Runs s { s with pm := pm, roster := ro, pu := pu, dc := dc, au := au, ind := ind } := .same rfl rfl

/-- A change of the prompt queue but for its items. -/
theorem Runs.pq (s : State) (q : PromptQueue) (h : q.items = s.pq.items) : Runs s { s with pq := q } :=
  .same (by simp only [State.kernel, h]) rfl

/-- A change of the line port but for its queue, its attempt and CLASH. -/
theorem Runs.lp (s : State) (l : LinePort) (h1 : l.queue = s.lp.queue) (h2 : l.tx = s.lp.tx)
    (h3 : l.clash = s.lp.clash) : Runs s { s with lp := l } := .same (by simp only [State.kernel, h1, h2, h3]) rfl

/-- A change of the floor view. -/
theorem Runs.fc (s : State) (c : Floor) (h1 : c.utterance = s.fc.utterance) (h2 : c.playStart = s.fc.playStart)
    (h3 : c.state = s.fc.state) (h4 : c.item = s.fc.item) : Runs s { s with fc := c } :=
  .same (by simp only [State.kernel, h1, h2]) (by simp only [State.voices, h3, h4])

/-- A change of the languages. -/
theorem Runs.lang (s : State) (k : Nat) : Runs s { s with cp := { s.cp with currentLang := k } } := .same rfl rfl

/-! ## Floor operations -/

theorem runs_trigger (c : PromptClass) (p : Params) (s : State) : Runs s (trigger c p s) :=
  ⟨changes_trigger _ _ _, speak_trigger _ _ _⟩

theorem runs_triggerAs (c : PromptClass) (p : Params) (r : Reach) (b : Bool) (s : State) :
    Runs s (triggerAs c p r b s) := ⟨changes_triggerAs _ _ _ _ _, speak_triggerAs _ _ _ _ _⟩

theorem runs_activity (s : State) : Runs s (activity s) := .same (kernel_activity s) (voices_activity s)

theorem runs_primaryActivity (s : State) : Runs s (primaryActivity s) :=
  .same (kernel_primaryActivity s) (voices_primaryActivity s)

theorem runs_busyTrigger (c : PromptClass) (p : Params) (s : State) : Runs s (busyTrigger c p s) :=
  (runs_activity s).trans (runs_trigger _ _ _)

theorem runs_reportTrigger (c : PromptClass) (p : Params) (s : State) : Runs s (reportTrigger c p s) :=
  (runs_activity s).trans ⟨changes_placeTrigger _ _ _ _ _, speak_placeTrigger _ _ _ _ _⟩

theorem runs_withdrawMeant (m : PromptClass → CondKey → Bool) (s : State) : Runs s (withdrawMeant m s) :=
  ⟨changes_withdrawMeant _ _, speak_withdrawMeant _ _⟩

theorem runs_withdraw (k : CondKey) (s : State) : Runs s (withdraw k s) := ⟨changes_withdraw _ _, speak_withdraw _ _⟩

theorem runs_endCondition (k : CondKey) (s : State) : Runs s (endCondition k s) :=
  ⟨changes_endCondition _ _, speak_endCondition _ _⟩

theorem runs_selectingBegins (s : State) : Runs s (selectingBegins s) := .aside _ _ _ _ _ _ _

theorem runs_selectingEnds (s : State) : Runs s (selectingEnds s) :=
  ⟨changes_selectingEnds _, speak_selectingEnds _⟩

theorem runs_wake (s : State) : Runs s (wake s) := ⟨changes_wake _, speak_wake _⟩

theorem runs_vpBuzz (s : State) : Runs s (vpBuzz s) := .same (kernel_vpBuzz s) (voices_vpBuzz s)

theorem runs_vpClick (s : State) : Runs s (vpClick s) := .same (kernel_vpClick s) (voices_vpClick s)

theorem runs_vpRefill (s : State) : Runs s (vpRefill s) := .same (kernel_vpRefill s) (voices_vpRefill s)

theorem runs_takeHead (s : State) : Runs s (takeHead s) := ⟨changes_takeHead s, speak_takeHead s⟩

theorem runs_fcTest (s : State) : Runs s (fcTest s) := ⟨changes_fcTest s, speak_fcTest s⟩

theorem runs_fcMark (s : State) : Runs s (fcMark s) := ⟨changes_fcMark s, speak_fcMark s⟩

theorem runs_fcJudge (a : Nat) (l : Level) (s : State) : Runs s (fcJudge a l s) :=
  ⟨changes_fcJudge _ _ _, SpeakLaw.of_voices (voices_fcJudge _ _ _)⟩

theorem runs_fcLineChange (s : State) : Runs s (fcLineChange s) := ⟨changes_fcLineChange s, speak_fcLineChange s⟩

/-- The line port changes by its queue and its attempt, with CLASH as it was. -/
theorem runs_lp (s : State) (l : LinePort) (hc : l.clash = s.lp.clash)
    (h : QueueChange s.kernel l.queue l.tx) : Runs s { s with lp := l } :=
  ⟨changes_lp s l hc h, SpeakLaw.of_voices rfl⟩

theorem runs_remove (s : State) (k : FrameKind) : Runs s { s with lp := s.lp.remove k } :=
  runs_lp s (s.lp.remove k) rfl (queueChange_remove s k)

/-! ## The dialogue -/

theorem runs_pmAsk (k : ReqKind) (p : Nat) (o : BitVec 8) (s : State) : Runs s (pmAsk k p o s).1 := by
  unfold pmAsk; split
  · exact runs_busyTrigger _ _ _
  · split
    · exact runs_vpBuzz s
    · extract_lets mark r _ s'
      have h : Runs s s' := .aside _ _ _ _ _ _ _
      split
      · have g : Runs s { s with lp := r.1 } :=
          runs_lp s r.1 (clash_of_settled (settled_queueRequest _ _)) (queueChange_request s _)
        exact g.trans (.aside _ _ _ _ _ _ _)
      · exact h.trans (runs_busyTrigger _ _ _)

theorem runs_dcDiscard (s : State) : Runs s (dcDiscard s) := by
  unfold dcDiscard; extract_lets held _ s1 s2
  have h1 : Runs s s1 := .aside _ _ _ _ _ _ _
  have h2 : Runs s s2 := by
    simp only [s2]; split
    · exact h1.trans (runs_selectingEnds _)
    · exact h1
  exact h2.trans (.aside _ _ _ _ _ _ _)

/-- Dialogue, panel and attention change, and then a class is triggered. -/
theorem runs_then (s : State) (pu : PanelUnit) (dc : Dialogue) (au : AttentionUnit) (c : PromptClass)
    (p : Params) : Runs s (trigger c p { s with pu := pu, dc := dc, au := au }) :=
  (Runs.aside s _ _ _ _ _ _).trans (runs_trigger _ _ _)

theorem runs_dcEnter (s : State) : Runs s (dcEnter s) := runs_then s _ _ _ _ _

theorem runs_dcOptions (s : State) : Runs s (dcOptions s) := runs_then s _ _ _ _ _

theorem runs_dcConfirm (s : State) : Runs s (dcConfirm s) := runs_then s _ _ _ _ _

theorem runs_dcPrograms (s : State) : Runs s (dcPrograms s) := runs_then s _ _ _ _ _

theorem runs_dcAsk (k : ReqKind) (p : Nat) (o : BitVec 8) (s : State) : Runs s (dcAsk k p o s) := by
  have h := runs_pmAsk k p o s
  unfold dcAsk; extract_lets confirm
  split
  · rename_i t e; rw [e] at h
    split
    · extract_lets _ s'
      have g : Runs s s' := h.trans (.aside _ _ _ _ _ _ _)
      split
      · exact g.trans (runs_selectingEnds _)
      · exact g
    · exact h
  · rename_i t _ _ e; rw [e] at h; exact h

theorem runs_dcStep (u : Bool) (s : State) : Runs s (dcStep u s) := by
  unfold dcStep; split
  · split
    · exact runs_dcEnter s
    · exact .refl s
  · exact .aside _ _ _ _ _ _ _
  all_goals exact .refl s

theorem runs_dcSelection (p : Nat) (s : State) : Runs s (dcSelection p s) := by
  unfold dcSelection; split
  · exact runs_then s _ _ _ _ _
  · dsimp only; split
    · exact runs_then s _ _ _ _ _
    · exact runs_then s _ _ _ _ _
  all_goals exact .refl s

theorem runs_dcSelect (s : State) : Runs s (dcSelect s) := by
  unfold dcSelect; split
  · split
    · exact runs_dcEnter s
    · exact .refl s
  · split
    · exact runs_dcConfirm s
    · exact runs_dcOptions s
  · split
    · exact runs_then s _ _ _ _ _
    · exact runs_dcConfirm s
  · exact runs_trigger _ _ _
  · exact .refl s

theorem runs_dcBack (s : State) : Runs s (dcBack s) := by
  unfold dcBack; split
  · exact runs_dcDiscard s
  · exact runs_dcPrograms s
  · split
    · exact runs_dcPrograms s
    · exact runs_dcOptions s
  all_goals exact .refl s

theorem runs_dcCancelInView (s : State) : Runs s (dcCancelInView s) := by
  unfold dcCancelInView; split
  · split
    all_goals first | exact runs_dcAsk _ _ _ _ | exact runs_vpBuzz s
  · exact runs_vpBuzz s

theorem runs_dcCancel (s : State) : Runs s (dcCancel s) := by
  unfold dcCancel; split
  · exact runs_dcCancelInView s
  · exact (runs_dcDiscard s).trans (runs_dcCancelInView _)
  · exact (runs_dcDiscard s).trans (runs_dcCancelInView _)
  · exact (runs_dcDiscard s).trans (runs_dcCancelInView _)
  · exact runs_dcAsk _ _ _ _

theorem runs_dcStartShort (s : State) : Runs s (dcStartShort s) := by
  unfold dcStartShort; split
  · split
    · exact runs_dcEnter s
    · exact runs_trigger _ _ _
  all_goals first | exact runs_trigger _ _ _ | exact .refl s

theorem runs_dcStartHold (s : State) : Runs s (dcStartHold s) := by
  unfold dcStartHold; split
  · split
    · exact runs_dcEnter s
    · split
      · split
        all_goals first | exact runs_dcAsk _ _ _ _ | exact runs_vpBuzz s
      · exact runs_vpBuzz s
  · exact runs_dcConfirm s
  · exact runs_dcConfirm s
  · exact runs_dcAsk _ _ _ _
  · exact runs_dcAsk _ _ _ _

theorem runs_dcResolved (r : AnswerResult) (s : State) : Runs s (dcResolved r s) := by
  unfold dcResolved; split
  · split
    · exact .aside _ _ _ _ _ _ _
    · exact runs_dcDiscard s
  · exact .refl s

theorem runs_dcReport (s : State) : Runs s (dcReport s) := by
  unfold dcReport; split
  · exact runs_dcDiscard s
  · exact .refl s

theorem runs_dcForced (s : State) : Runs s (dcForced s) := by
  unfold dcForced; split
  · exact .refl s
  · exact runs_dcDiscard s

theorem runs_goDark (s : State) : Runs s (goDark s) := by
  unfold goDark; dsimp only
  have h (x : AttentionUnit) : Runs s (dcForced { s with au := x }) :=
    (Runs.aside s _ _ _ _ _ _).trans (runs_dcForced _)
  have h1 := h { s.au with state := .dark, dim := none, dark := none }
  generalize dcForced _ = x at h1 ⊢
  refine h1.trans ?_
  exact (Runs.lang x _).trans (Runs.aside { x with cp := { x.cp with currentLang := x.cp.defaultLang } } _ _ _ _ _ _)

theorem runs_darkFirst (s : State) : Runs s (darkFirst s) := by
  unfold darkFirst; split
  · exact runs_goDark s
  · exact .refl s

/-! ## The partner monitor -/

theorem runs_items (s : State) (p : Item → Bool) :
    Runs s { s with pq := { s.pq with items := s.pq.items.filter p } } :=
  ⟨changes_pq s _ (by exact List.filter_sublist), SpeakLaw.of_voices rfl⟩

theorem runs_beginSeries (e : ReportEntry) (n : Time) (s : State) : Runs s (beginSeries e n s) := by
  unfold beginSeries; split
  · exact .pq s _ (by rfl)
  · exact .pq s _ (by rfl)
  · exact .pq s _ (by rfl)
  · exact (Runs.pq s _ (by rfl)).trans (runs_withdrawMeant _ _)
  · exact .refl s

theorem runs_startSeries (k : CondKey) (n : Time) (s : State) :
    Runs s { s with pq := startSeries k n s.pq } := by
  refine .pq s _ ?_
  cases k <;> rfl

theorem runs_takeEntry (n : Time) (s : State) (e : ReportEntry) : Runs s (takeEntry n s e) := by
  unfold takeEntry
  cases e <;> dsimp only
  case partnerLost => exact runs_reportTrigger _ _ _
  case partnerBack => exact runs_withdraw _ _
  case baseline => exact runs_startSeries _ _ _
  case cleared =>
    split
    · exact (runs_endCondition _ _).trans (runs_reportTrigger _ _ _)
    · exact runs_endCondition _ _
  case lossEnd => exact runs_endCondition _ _
  case started => exact runs_reportTrigger _ _ _
  case paused => exact runs_reportTrigger _ _ _
  case resumed => exact runs_reportTrigger _ _ _
  case cycleDone =>
    exact ((runs_beginSeries _ _ _).trans (runs_reportTrigger _ _ _)).trans (runs_reportTrigger _ _ _)
  case outOfService => exact runs_reportTrigger _ _ _
  case paymentDue => exact (runs_beginSeries _ _ _).trans (runs_reportTrigger _ _ _)
  case action => exact (runs_beginSeries _ _ _).trans (runs_reportTrigger _ _ _)
  case fault => exact (runs_beginSeries _ _ _).trans (runs_reportTrigger _ _ _)
  case phase =>
    split
    · exact runs_reportTrigger _ _ _
    · exact .refl s
  case timeCall => exact runs_reportTrigger _ _ _

theorem runs_takeReport (n : Time) (es : List ReportEntry) (s : State) : Runs s (takeReport n es s) := by
  refine Runs.trans ?_ (runs_takeHead _)
  induction es generalizing s with
  | nil => exact .refl s
  | cons e es ih => exact (runs_takeEntry n s e).trans (ih _)

theorem runs_untracked (s : State) : Runs s s.untracked := .aside _ _ _ _ _ _ _

theorem runs_resolveNoAnswer (r : Request) (s : State) : Runs s (resolveNoAnswer r s) :=
  (((runs_darkFirst s).trans (runs_untracked _)).trans (runs_busyTrigger _ _ _)).trans (runs_dcResolved _ _)

theorem runs_resolveAnswered (r : Request) (a : AnswerResult) (s : State) : Runs s (resolveAnswered r a s) := by
  unfold resolveAnswered; extract_lets s1 s2
  have h1 : Runs s s1 := runs_untracked s
  have h2 : Runs s s2 := by
    simp only [s2]; split_ifs
    · exact h1.trans (runs_busyTrigger _ _ _)
    · exact h1
    · exact h1.trans (runs_busyTrigger _ _ _)
  exact h2.trans (runs_dcResolved _ _)

theorem runs_offerAnswer (s : State) : Runs s (offerAnswer s) := by
  unfold offerAnswer; split
  · split
    · exact runs_resolveAnswered _ _ _
    · exact .refl s
  · exact .refl s

theorem runs_pmReport (r : Report) (s : State) : Runs s (pmReport r s) := by
  unfold pmReport; split
  · split
    · split
      · exact .aside _ _ _ _ _ _ _
      · exact runs_resolveNoAnswer _ _
      · exact runs_resolveNoAnswer _ _
    · exact .refl s
  · exact .refl s

theorem runs_pmStatus (p : List Byte) (n : Time) (s : State) : Runs s (pmStatus p n s) := by
  have h (x : State) (m : PartnerMonitor) (es : List ReportEntry) :
      Runs x (offerAnswer (dcReport (takeReport n es { x with pm := m }))) :=
    (((Runs.aside x m _ _ _ _ _).trans (runs_takeReport n es _)).trans (runs_dcReport _)).trans
      (runs_offerAnswer _)
  unfold pmStatus; extract_lets old got a timer
  have g : Runs s a := by
    simp only [a]; split
    · exact runs_darkFirst s
    · exact .refl s
  clear_value a; refine g.trans ?_; split
  · exact h _ _ _
  · exact h _ _ _
  · exact h _ _ _

theorem runs_freshnessLost (s : State) : Runs s (freshnessLost s) := by
  unfold freshnessLost; dsimp only; split
  · exact .aside s _ _ _ _ _ _
  · exact .aside s _ _ _ _ _ _
  · have h (m : PartnerMonitor) (es : List ReportEntry) :
        Runs s (dcForced (takeReport s.now es { s with pm := m })) :=
      ((Runs.aside s m _ _ _ _ _).trans (runs_takeReport _ _ _)).trans (runs_dcForced _)
    replace h := h { s.pm with freshTimer := none, freshness := .lost } (lossReport s.pm.record)
    generalize dcForced _ = x at h ⊢
    split
    · refine (h.trans ?_).trans (runs_dcResolved _ _)
      exact (runs_untracked _).trans (runs_remove _ .request)
    · exact h

/-! ## The line port -/

theorem runs_deliverReport (s : State) (r : Report) : Runs s (deliverReport s r) := by
  unfold deliverReport; split
  · exact ⟨changes_fcClaimReport _ _, speak_fcClaimReport _ _⟩
  · exact ⟨changes_fcReleaseReport _, speak_fcReleaseReport _⟩
  · exact runs_pmReport _ _

theorem runs_deliverReports (rs : List Report) (s : State) : Runs s (deliverReports rs s) := by
  unfold deliverReports
  induction rs generalizing s with
  | nil => exact .refl s
  | cons r rs ih => exact (runs_deliverReport s r).trans (ih _)

theorem map_line (l : LinePort) (f : Tx → Tx) (h : ∀ x, (f x).kind = x.kind ∧ (f x).bytes = x.bytes) :
    ∀ x, l.tx.map f = some x → ∃ y, l.tx = some y ∧ y.kind = x.kind ∧ y.bytes = x.bytes := by
  intro x hx
  obtain ⟨y, hy, rfl⟩ := Option.map_eq_some_iff.1 hx
  exact ⟨y, hy, (h y).1.symm, (h y).2.symm⟩

theorem runs_enterSolo (s : State) : Runs s { s with lp := s.lp.enterSolo.1 } := by
  refine runs_lp s _ ?_ ?_
  · exact clash_of_settled (settled_removeUnsent s.lp .claim)
  · refine (queueChange_removeUnsent s .claim).trans
      (QueueChange.fewer _ _ _ (List.Sublist.refl _) (map_line (s.lp.removeUnsent .claim) _ ?_))
    intro x; constructor <;> split <;> rfl

theorem runs_lineChanged (old : LinePort) (s : State) : Runs s (lineChanged old s) := by
  unfold lineChanged; extract_lets r s'
  have h : Runs s s' := by
    simp only [s']; split
    · exact (runs_enterSolo s).trans (runs_deliverReports _ _)
    · exact .refl s
  split
  · exact h.trans (runs_fcLineChange _)
  · exact h

theorem runs_latchClash (s : State) : Runs s (latchClash s) := by
  unfold latchClash; split
  · exact .refl s
  · extract_lets r
    have h1 : Runs s { s with lp := r.1 } := ⟨(Change.latch s.kernel).one, SpeakLaw.of_voices rfl⟩
    have h2 : Runs { s with lp := r.1 } (fcClash { s with lp := r.1 }) :=
      ⟨changes_fcClash _, speak_fcClash _⟩
    exact ((h1.trans h2).trans (runs_deliverReports _ _)).trans (runs_fcLineChange _)

theorem runs_dispatch (k : RxKind) (a : Nat) (p : List Byte) (n : Time) (s : State) :
    Runs s (dispatch k a p n s) := by
  unfold dispatch; split
  · split
    · exact runs_pmStatus _ _ _
    · exact .aside _ _ _ _ _ _ _
  · exact ⟨changes_fcClaimReceived _ _ _ _ _, speak_fcClaimReceived _ _ _ _ _⟩
  · exact ⟨changes_fcReleaseReceived _ _, speak_fcReleaseReceived _ _⟩
  · exact .refl s

theorem runs_takeReception (r : Reception) (s : State) : Runs s (takeReception r s) := by
  unfold takeReception; extract_lets v old s'
  have h : Runs s s' := by
    refine (Runs.lp s (countVerdict v s.lp) ?_ ?_ ?_).trans (runs_lineChanged _ _) <;> cases v <;> rfl
  clear_value s' v
  split
  · split
    · exact h.trans (runs_latchClash _)
    · exact h.trans (runs_dispatch _ _ _ _ _)
  all_goals exact h

theorem runs_closeReception (r : Reception) (s : State) : Runs s (closeReception r s) := by
  have h : Runs s { s with lp := s.lp.quiet s.now } := .lp s _ (by rfl) (by rfl) (by rfl)
  unfold closeReception; dsimp only
  split
  · exact h
  · exact h.trans (runs_takeReception _ _)

/-! ## The panel unit -/

theorem runs_pqHelp (n : Nat) (s : State) : Runs s (pqHelp n s) := by
  unfold pqHelp; split
  · unfold pqHelp1; split
    · exact runs_vpBuzz s
    · split_ifs
      · exact runs_vpBuzz s
      · exact .refl s
      · exact runs_triggerAs _ _ _ _ _
  · exact runs_trigger _ _ _
  · exact runs_trigger _ _ _

theorem runs_pqHush (s : State) : Runs s (pqHush s) := by
  unfold pqHush; dsimp only
  split
  · have h := (Change.update s.kernel
      (fun it => if classLevel it.cls = .routine then { it with reach := .loc } else it)
      (fun x => by split <;> rfl)).one
    exact ⟨h, SpeakLaw.of_voices rfl⟩
  · exact .pq s _ (by rfl)

theorem runs_deliver (e : PanelEvent) (s : State) : Runs s (deliver e s) := by
  have h := runs_primaryActivity s
  unfold deliver
  generalize primaryActivity s = x at h
  cases e <;> dsimp only
  · exact h.trans (runs_dcStep _ _)
  · exact h.trans (runs_dcSelection _ _)
  · exact h.trans (runs_dcSelect _)
  · exact h.trans (runs_dcBack _)
  · exact h.trans (runs_dcCancel _)
  · exact h.trans (runs_dcStartShort _)
  · exact h.trans (runs_dcStartHold _)
  · exact h.trans (runs_pqHelp _ _)
  · exact (h.trans (.lang x _)).trans (runs_trigger _ _ _)
  · exact h.trans (runs_pqHush _)

theorem runs_settleNow (s : State) : Runs s (settleNow s) := by
  unfold settleNow; split
  · exact .refl s
  · dsimp only; split
    · exact (Runs.aside _ _ _ _ _ _ _).trans (runs_deliver _ _)
    · exact .aside _ _ _ _ _ _ _

theorem runs_buttonEvent (e : PanelEvent) (s : State) : Runs s (buttonEvent e s) := by
  unfold buttonEvent; split
  · exact runs_wake s
  · exact (runs_settleNow s).trans (runs_deliver _ _)

theorem runs_makeStep (u : Bool) (s : State) : Runs s (makeStep u s) := by
  unfold makeStep; split
  · exact runs_wake s
  · exact (Runs.aside _ _ _ _ _ _ _).trans (runs_deliver _ _)

/-- The panel unit changes, and then a button's event is made. -/
theorem runs_button (s : State) (pu : PanelUnit) (e : PanelEvent) : Runs s (buttonEvent e { s with pu := pu }) :=
  (Runs.aside s _ _ _ _ _ _).trans (runs_buttonEvent _ _)

theorem runs_pressEffect (k : Key) (a : Bool) (s : State) : Runs s (pressEffect k a s) := by
  have step (p : PanelUnit) (u : Bool) : Runs s (makeStep u { s with pu := p }) :=
    (Runs.aside s _ _ _ _ _ _).trans (runs_makeStep _ _)
  unfold pressEffect; cases k <;> dsimp only <;> (repeat' split)
  all_goals first
    | exact .refl s
    | exact runs_buttonEvent _ _
    | exact step _ _
    | exact .aside _ _ _ _ _ _ _

theorem runs_pressKey (k : Key) (s : State) : Runs s (pressKey k s) := by
  unfold pressKey; extract_lets awake _ s'
  have h : Runs s s' := .aside _ _ _ _ _ _ _
  refine Runs.trans ?_ (runs_pressEffect _ _ _)
  split
  · exact h.trans (runs_vpClick _)
  · exact h.trans (runs_wake _)

theorem runs_releaseBack (w : KeyState) (s : State) : Runs s (releaseBack w s) := by
  unfold releaseBack; dsimp only; split
  · exact runs_button _ _ _
  · exact .aside _ _ _ _ _ _ _

theorem runs_releaseStart (w : KeyState) (s : State) : Runs s (releaseStart w s) := by
  unfold releaseStart; split
  · exact runs_buttonEvent _ _
  · exact .refl _

theorem runs_releaseHelp (s : State) : Runs s (releaseHelp s) := by
  unfold releaseHelp closeHelp; dsimp only; split
  · exact runs_button _ _ _
  · exact .aside _ _ _ _ _ _ _

theorem runs_releaseKey (k : Key) (s : State) : Runs s (releaseKey k s) := by
  have h (p : PanelUnit) : Runs s { s with pu := p } := .aside _ _ _ _ _ _ _
  unfold releaseKey; cases k <;> dsimp only
  · exact h _
  · exact (h _).trans (runs_releaseBack _ _)
  · exact (h _).trans (runs_releaseStart _ _)
  · exact (h _).trans (runs_releaseHelp _)
  · exact h _
  · exact h _

theorem runs_knobSample (a b : Bool) (s : State) : Runs s (knobSample a b s) := by
  unfold knobSample; extract_lets q _ s'
  have h : Runs s s' := .aside _ _ _ _ _ _ _
  split_ifs
  · exact h.trans (runs_makeStep _ _)
  · exact h.trans (runs_makeStep _ _)
  · exact h

/-! ## Start-up -/

theorem runs_phase (s t : State) (p : Phase) (h : t.kernel = { s.kernel with phase := p })
    (g : t.voices = s.voices) (hp : s.psp.phase ≠ .run) : Runs s t :=
  ⟨h ▸ (Change.phase s.kernel p hp).one, SpeakLaw.of_voices g⟩

theorem runs_startup (s : State) (psp : PhraseStore) (h : psp.phase = s.psp.phase) :
    Runs s { s with psp := psp } := .same (by simp only [State.kernel, h]) rfl

theorem runs_beginListen (b : Bool) (s : State) (h : s.psp.phase ≠ .run) : Runs s (beginListen b s) :=
  runs_phase s _ .listen rfl rfl h

theorem runs_fixLanguages (k : Nat) (s : State) : Runs s (fixLanguages k s) := .same rfl rfl

theorem phase_cache (p : PhraseStore) (r : ImageRead) (d : List Byte) : (p.cache r d).phase = p.phase := by
  cases r <;> rfl

theorem runs_imageTake (r : ImageRead) (d : List Byte) (b : Bool) (s : State) (h : s.psp.phase ≠ .run) :
    Runs s (imageTake r d b s) := by
  unfold imageTake; extract_lets s'
  have h1 : Runs s s' := runs_startup s _ (phase_cache _ _ _)
  have h2 : s'.psp.phase ≠ .run := by rw [show s'.psp.phase = s.psp.phase from phase_cache _ _ _]; exact h
  split
  · exact h1.trans (runs_startup _ _ rfl)
  · have h3 : Runs s' { s' with psp := s'.psp.adopt } := runs_startup s' _ rfl
    exact ((h1.trans h3).trans (runs_fixLanguages _ _)).trans (runs_beginListen _ _ h2)

theorem runs_beginRun (a b : Bool) (s : State) (h : s.psp.phase ≠ .run) : Runs s (beginRun a b s) := by
  refine Runs.trans ?_ (runs_takeHead _)
  have g (pu : PanelUnit) (au : AttentionUnit) (n : Option Time) :
      Runs s { s with psp := { s.psp with phase := .run, runStart := n }, pu := pu, au := au } :=
    runs_phase s _ .run rfl rfl h
  exact g _ _ _

/-! ## The commands -/

theorem runs_advance (t : Time) (s : State) : Runs s (s.advance t) :=
  ⟨(Change.tick s.kernel t).one, SpeakLaw.of_voices rfl⟩

/-- A command that moves the clock and then, when it is due, does `f`. -/
theorem runs_clocked {t : Time} {s u : State} (h : Runs (s.advance t) u) : Runs s u := (runs_advance t s).trans h

theorem runs_reset (t : Time) (s : State) :
    Runs s { State.reset with now := (s.advance t).now, pending := s.pending } :=
  ⟨(Change.reset s.kernel (s.advance t).now).one, fun _ => by simp [SpeakLaw, State.reset, VoicePlayer.reset, Composer.reset]⟩

theorem runs_work (s : State) (w : Work) (req : ReadReq) (d : List Byte) (h : s.cp.work = some w)
    (hl : w.lawful → (w.take (s.psp.readings w.kind) req.size d).lawful) : Runs s (composerTake w req d s) := by
  refine ⟨?_, ?_⟩
  · refine (Changes.same (t := { s with psp := s.psp.finish s.now }) rfl).trans (changes_cpAsk _ _ ?_)
    exact .inr ⟨w, h, hl⟩
  · refine SpeakLaw.of_voices ?_
    unfold composerTake cpAsk; dsimp only; split <;> simp [State.voices, h]

theorem lawful_result (w : Work) (es : List Entry) (hn : es.length ≤ Config.entryCapacity)
    (hc : ∀ id addr len, Entry.clip id addr len ∈ es → 1 ≤ len) (u : Utterance) (h : w.result es = some u) :
    u.lawful := by
  have hsub : ∀ n, (trim w.reach w.gap es n).Sublist es ∧
      utteranceUnits w.reach w.gap (trim w.reach w.gap es n) ≤ Config.maxUtterance := by
    intro n
    induction n with
    | zero =>
      refine ⟨List.nil_sublist _, ?_⟩
      simp only [trim, utteranceUnits, Config.maxUtterance]
      cases w.reach <;> simp [openingUnits]
    | succ n ih =>
      unfold trim; split
      · exact ⟨List.take_sublist _ _, ‹_›⟩
      · exact ih
  unfold Work.result at h
  extract_lets kept n at h
  split at h
  · rename_i hk
    cases h
    have hs := hsub es.length
    obtain ⟨e, he, hi⟩ := List.any_eq_true.1 hk
    cases e with
    | pause l => simp [Entry.isClip] at hi
    | clip id addr len =>
      have hl := hc id addr len (hs.1.subset he)
      have hm : len ≤ (kept.map Entry.len).sum :=
        List.single_le_sum (by simp) _ (List.mem_map.2 ⟨_, he, rfl⟩)
      refine ⟨rfl, ?_, hs.2, rfl, hs.1.length_le.trans hn, id, addr, len, he, hl⟩
      show 1 ≤ utteranceUnits w.reach w.gap kept
      unfold utteranceUnits; omega
  · cases h

theorem lawful_scan (w : Work) (cs : List Candidate) (es : List Entry) (hn : es.length ≤ Config.entryCapacity)
    (hc : ∀ id addr len, Entry.clip id addr len ∈ es → 1 ≤ len) : (w.scan cs es).lawful := by
  have done (x : Work) (fs : List Entry) (gn : fs.length ≤ Config.entryCapacity)
      (gc : ∀ id addr len, Entry.clip id addr len ∈ fs → 1 ≤ len) :
      Work.lawful { x with entries := fs, stage := .finished (x.result fs) } :=
    ⟨gn, gc, fun _ _ _ e => Stage.noConfusion e, fun u e => lawful_result x fs gn gc u (by simpa using e)⟩
  induction cs generalizing es with
  | nil => exact done w es hn hc
  | cons c cs ih =>
    cases c with
    | pause n =>
      unfold Work.scan; split
      · exact done w es hn hc
      · refine ih _ ?_ ?_
        · simp only [List.length_append, List.length_singleton]; omega
        · intro id addr len h
          rcases List.mem_append.1 h with h | h
          · exact hc _ _ _ h
          · simp at h
    | clip ids =>
      unfold Work.scan; split
      · exact done w es hn hc
      · split
        · exact ih _ hn hc
        · exact ⟨hn, hc, fun _ _ _ _ => by dsimp only; omega, fun u e => by cases e⟩

theorem lawful_take (w : Work) (r : Readings) (n : Nat) (d : List Byte) (h : w.lawful) : (w.take r n d).lawful := by
  unfold Work.take; split
  · exact lawful_scan _ _ _ (Nat.zero_le _) (by simp)
  · split
    · rename_i hst _ e he
      have hl := h.2.2.1 _ _ _ hst
      refine lawful_scan _ _ _ (by simp only [List.length_append, List.length_singleton]; omega) ?_
      intro i a l hm
      rcases List.mem_append.1 hm with hm | hm
      · exact h.2.1 _ _ _ hm
      · rw [List.mem_singleton] at hm; subst hm
        unfold goodClip at he; dsimp only at he; split at he
        · rename_i hg; cases he; exact hg.1
        · cases he
    · exact lawful_scan _ _ _ h.1 h.2.1
  · exact h

theorem stream_takeSample (es : List Entry) (p : SamplePlace) (n : Nat) (v : VoicePlayer) :
    (takeSample es p n v).1.stream = v.stream := by
  unfold takeSample; dsimp only; split
  · split <;> rfl
  · rfl

theorem stream_segValue (st : Stream) (g : Seg) (n : Nat) (v : VoicePlayer) :
    (segValue st g n v).1.stream = v.stream := by
  unfold segValue; split <;> first | rfl | exact stream_takeSample _ _ _ _

/-- A sample period changes no sound. -/
theorem stream_streamValue (v : VoicePlayer) (n : Time) : (streamValue v n).1.stream = v.stream := by
  unfold streamValue; repeat' (first | split | dsimp only)
  all_goals first | rfl | exact stream_segValue _ _ _ _

/-! ### One lemma for each command -/

theorem runs_resetRelease (t : Time) (x : BitVec 8) (s u : State) (e : execResetRelease t x s = .next u) : Runs s u := by
  have h0 := runs_advance t s
  unfold execResetRelease at e; dsimp only at e; generalize s.advance t = a at h0 e
  cases e; refine h0.trans ?_
  split
  · rename_i h
    have h' : a.psp.phase ≠ .run := by simp only [beq_iff_eq] at h; rw [h]; decide
    split
    · exact runs_phase a _ .strapHalt rfl rfl h'
    · exact runs_phase a _ .image rfl rfl h'
  · exact .refl a

theorem runs_lampTestEnd (t : Time) (s u : State) (e : execLampTestEnd t s = .next u) : Runs s u := by
  have h0 := runs_advance t s
  unfold execLampTestEnd at e; dsimp only at e; generalize s.advance t = a at h0 e
  cases e; refine h0.trans ?_
  split
  · exact .aside a _ _ _ _ _ _
  · exact .refl a

theorem runs_listenEnd (t : Time) (x y : Bool) (s u : State) (e : execListenEnd t x y s = .next u) : Runs s u := by
  have h0 := runs_advance t s
  unfold execListenEnd at e; dsimp only at e; generalize s.advance t = a at h0 e
  cases e; refine h0.trans ?_
  split
  · rename_i h
    refine runs_beginRun _ _ _ ?_
    simp only [Bool.and_eq_true, beq_iff_eq] at h; rw [h.1]; decide
  · exact .refl a

theorem runs_e1WindowEnd (t : Time) (s u : State) (e : execE1WindowEnd t s = .next u) : Runs s u := by
  have h0 := runs_advance t s
  unfold execE1WindowEnd at e; dsimp only at e; generalize s.advance t = a at h0 e
  cases e; refine h0.trans ?_
  split
  · exact .aside a _ _ _ _ _ _
  · exact .refl a

theorem runs_receptionClose (t : Time) (s u : State) (e : execReceptionClose t s = .next u) : Runs s u := by
  have h0 := runs_advance t s
  unfold execReceptionClose at e; dsimp only at e; generalize s.advance t = a at h0 e
  cases e; refine h0.trans ?_
  split
  · split
    · exact runs_closeReception _ _
    · exact .lp a _ (by rfl) (by rfl) (by rfl)
  · exact .refl a

theorem runs_lineHeldSet (t : Time) (s u : State) (e : execLineHeldSet t s = .next u) : Runs s u := by
  have h0 := runs_advance t s
  unfold execLineHeldSet at e; dsimp only at e; generalize s.advance t = a at h0 e
  cases e; refine h0.trans ?_
  split
  · exact (Runs.lp a _ (by rfl) (by rfl) (by rfl)).trans (runs_lineChanged _ _)
  · exact .refl a

theorem runs_lineHeldClear (t : Time) (s u : State) (e : execLineHeldClear t s = .next u) : Runs s u := by
  have h0 := runs_advance t s
  unfold execLineHeldClear at e; dsimp only at e; generalize s.advance t = a at h0 e
  cases e; refine h0.trans ?_
  split
  · exact (Runs.lp a _ (by rfl) (by rfl) (by rfl)).trans (runs_lineChanged _ _)
  · exact .refl a

theorem runs_freshnessTimeout (t : Time) (s u : State) (e : execFreshnessTimeout t s = .next u) : Runs s u := by
  have h0 := runs_advance t s
  unfold execFreshnessTimeout at e; dsimp only at e; generalize s.advance t = a at h0 e
  cases e; refine h0.trans ?_
  split
  · exact runs_freshnessLost a
  · exact .refl a

theorem runs_requestDeadline (t : Time) (s u : State) (e : execRequestDeadline t s = .next u) : Runs s u := by
  have h0 := runs_advance t s
  unfold execRequestDeadline at e; dsimp only at e; generalize s.advance t = a at h0 e
  cases e; refine h0.trans ?_
  split
  · split
    · exact (runs_remove a .request).trans (runs_resolveNoAnswer _ _)
    · exact .refl a
  · exact .refl a

theorem runs_rosterEntryExpire (t : Time) (m : Nat) (s u : State) (e : execRosterEntryExpire t m s = .next u) : Runs s u := by
  have h0 := runs_advance t s
  unfold execRosterEntryExpire at e; dsimp only at e; generalize s.advance t = a at h0 e
  cases e; refine h0.trans ?_
  split
  · split
    · exact .aside a _ _ _ _ _ _
    · exact .refl a
  · exact .refl a

theorem runs_knobTransition (t : Time) (x y : Bool) (s u : State) (e : execKnobTransition t x y s = .next u) : Runs s u := by
  have h0 := runs_advance t s
  unfold execKnobTransition at e; dsimp only at e; generalize s.advance t = a at h0 e
  cases e; refine h0.trans ?_
  split
  · exact runs_knobSample _ _ a
  · exact .refl a

theorem runs_keyPressAccepted (t : Time) (k : Key) (d : Time) (s u : State) (e : execKeyPressAccepted t k d s = .next u) : Runs s u := by
  have h0 := runs_advance t s
  unfold execKeyPressAccepted at e; dsimp only at e; generalize s.advance t = a at h0 e
  cases e; refine h0.trans ?_
  split
  · exact runs_pressKey _ a
  · exact .refl a

theorem runs_keyReleaseAccepted (t : Time) (k : Key) (d : Time) (s u : State) (e : execKeyReleaseAccepted t k d s = .next u) : Runs s u := by
  have h0 := runs_advance t s
  unfold execKeyReleaseAccepted at e; dsimp only at e; generalize s.advance t = a at h0 e
  cases e; refine h0.trans ?_
  split
  · exact runs_releaseKey _ a
  · exact .refl a

theorem runs_stepRepeat (t : Time) (s u : State) (e : execStepRepeat t s = .next u) : Runs s u := by
  have h0 := runs_advance t s
  unfold execStepRepeat at e; dsimp only at e; generalize s.advance t = a at h0 e
  cases e; refine h0.trans ?_
  split
  · split
    · exact (Runs.aside a _ _ _ _ _ _).trans (runs_makeStep _ _)
    · exact .refl a
  · exact .refl a

theorem runs_settleTimeout (t : Time) (s u : State) (e : execSettleTimeout t s = .next u) : Runs s u := by
  have h0 := runs_advance t s
  unfold execSettleTimeout at e; dsimp only at e; generalize s.advance t = a at h0 e
  cases e; refine h0.trans ?_
  split
  · exact runs_settleNow a
  · exact .refl a

theorem runs_cancelHold (t : Time) (s u : State) (e : execCancelHold t s = .next u) : Runs s u := by
  have h0 := runs_advance t s
  unfold execCancelHold at e; dsimp only at e; generalize s.advance t = a at h0 e
  cases e; refine h0.trans ?_
  split
  · exact runs_button _ _ _
  · exact .refl a

theorem runs_startHold (t : Time) (s u : State) (e : execStartHold t s = .next u) : Runs s u := by
  have h0 := runs_advance t s
  unfold execStartHold at e; dsimp only at e; generalize s.advance t = a at h0 e
  cases e; refine h0.trans ?_
  split
  · exact runs_button _ _ _
  · exact .refl a

theorem runs_languageHold (t : Time) (s u : State) (e : execLanguageHold t s = .next u) : Runs s u := by
  have h0 := runs_advance t s
  unfold execLanguageHold at e; dsimp only at e; generalize s.advance t = a at h0 e
  cases e; refine h0.trans ?_
  split
  · exact runs_button _ _ _
  · exact .refl a

theorem runs_hushToggle (t : Time) (s u : State) (e : execHushToggle t s = .next u) : Runs s u := by
  have h0 := runs_advance t s
  unfold execHushToggle at e; dsimp only at e; generalize s.advance t = a at h0 e
  cases e; refine h0.trans ?_
  split
  · exact runs_button _ _ _
  · exact .refl a

theorem runs_helpWindowClose (t : Time) (s u : State) (e : execHelpWindowClose t s = .next u) : Runs s u := by
  have h0 := runs_advance t s
  unfold execHelpWindowClose at e; dsimp only at e; generalize s.advance t = a at h0 e
  cases e; refine h0.trans ?_
  split
  · exact runs_button a _ _
  · exact .refl a

theorem runs_queueItemExpire (t : Time) (c : PromptClass) (s u : State) (e : execQueueItemExpire t c s = .next u) : Runs s u := by
  have h0 := runs_advance t s
  unfold execQueueItemExpire at e; dsimp only at e; generalize s.advance t = a at h0 e
  cases e; refine h0.trans ?_
  split
  · exact runs_items a _
  · exact .refl a

theorem runs_callTimerExpire (t : Time) (r : Series) (s u : State) (e : execCallTimerExpire t r s = .next u) : Runs s u := by
  have h0 := runs_advance t s
  unfold execCallTimerExpire at e; dsimp only at e; generalize s.advance t = a at h0 e
  cases e; refine h0.trans ?_
  split
  · unfold callExpiry; dsimp only
    have h : Runs a { a with pq := a.pq.setSeries r { a.pq.series r with timer := none } } :=
      .pq a _ (items_setSeries _ _ _)
    split
    · exact (h.trans (runs_activity _)).trans (runs_triggerAs _ _ _ _ _)
    · exact h
  · exact .refl a

theorem runs_composerReadEnd (t : Time) (d : List Byte) (s u : State) (e : execComposerReadEnd t d s = .next u) : Runs s u := by
  have h0 := runs_advance t s
  unfold execComposerReadEnd at e; dsimp only at e; generalize s.advance t = a at h0 e
  cases e; refine h0.trans ?_
  split
  · rename_i w _ hw; exact runs_work a w _ d hw (lawful_take w _ _ d)
  · exact .refl a

theorem runs_compositionEnd (t : Time) (s u : State) (e : execCompositionEnd t s = .next u) : Runs s u := by
  have h0 := runs_advance t s
  unfold execCompositionEnd at e; dsimp only at e; generalize s.advance t = a at h0 e
  cases e; refine h0.trans ?_
  split
  · rename_i r h
    obtain ⟨w, hw, hr⟩ := Option.map_eq_some_iff.1 h
    exact ⟨changes_fcResult w r a hw hr, speak_fcResult w r a hw⟩
  · exact .refl a

theorem runs_currentItemExpire (t : Time) (s u : State) (e : execCurrentItemExpire t s = .next u) : Runs s u := by
  have h0 := runs_advance t s
  unfold execCurrentItemExpire at e; dsimp only at e; generalize s.advance t = a at h0 e
  cases e; refine h0.trans ?_
  split
  · rename_i hs _
    split
    · exact ⟨changes_fcDiscard a, fun h => speak_fcDiscard a (h.quiet (by simp [hs]) (by simp [hs])) _⟩
    · exact .refl a
  · exact .refl a

theorem runs_viewEntryExpire (t : Time) (n : Nat) (s u : State) (e : execViewEntryExpire t n s = .next u) : Runs s u := by
  have h0 := runs_advance t s
  unfold execViewEntryExpire at e; dsimp only at e; generalize s.advance t = a at h0 e
  cases e; refine h0.trans ?_
  split
  · split
    · exact (Runs.fc a (a.fc.forget n) rfl rfl rfl rfl).trans (runs_fcTest _)
    · exact .refl a
  · exact .refl a

theorem runs_crowdedClear (t : Time) (s u : State) (e : execCrowdedClear t s = .next u) : Runs s u := by
  have h0 := runs_advance t s
  unfold execCrowdedClear at e; dsimp only at e; generalize s.advance t = a at h0 e
  cases e; refine h0.trans ?_
  split
  · exact (Runs.fc a { a.fc with crowded := none } rfl rfl rfl rfl).trans (runs_fcTest _)
  · exact .refl a

theorem runs_claimStands (t : Time) (n : Nat) (s u : State) (e : execClaimStands t n s = .next u) : Runs s u := by
  have h0 := runs_advance t s
  unfold execClaimStands at e; dsimp only at e; generalize s.advance t = a at h0 e
  cases e; refine h0.trans ?_
  split
  · split
    · exact (Runs.fc a (a.fc.stand n) rfl rfl rfl rfl).trans (runs_fcJudge _ _ _)
    · exact .refl a
  · exact .refl a

theorem runs_contestWindowEnd (t : Time) (s u : State) (e : execContestWindowEnd t s = .next u) : Runs s u := by
  have h0 := runs_advance t s
  unfold execContestWindowEnd at e; dsimp only at e; generalize s.advance t = a at h0 e
  cases e; refine h0.trans ?_
  split
  · rename_i hs _ _
    split
    · rename_i hn
      exact ⟨changes_fcSpeak _ _ _ hn,
        fun h => speak_fcSpeak _ _ _ (h.quiet (by simp [hs]) (by simp [hs])).2⟩
    · exact .refl a
  · exact .refl a

theorem runs_spacingEnd (t : Time) (s u : State) (e : execSpacingEnd t s = .next u) : Runs s u := by
  have h0 := runs_advance t s
  unfold execSpacingEnd at e; dsimp only at e; generalize s.advance t = a at h0 e
  cases e; refine h0.trans ?_
  split
  · rename_i h
    simp only [Bool.and_eq_true, beq_iff_eq] at h
    refine Runs.trans ?_ (runs_takeHead _)
    refine ⟨.same rfl, fun g => ?_⟩
    exact Quiet.speak (s := { a with fc := _ }) (g.quiet (by simp [h.1]) (by simp [h.1]))
  · exact .refl a

theorem runs_refillEnd (t : Time) (d : List Byte) (s u : State) (e : execRefillEnd t d s = .next u) : Runs s u := by
  have h0 := runs_advance t s
  unfold execRefillEnd at e; dsimp only at e; generalize s.advance t = a at h0 e
  cases e; refine h0.trans ?_
  split
  · have h : Runs a { a with psp := a.psp.finish a.now } := runs_startup a _ rfl
    exact (h.trans (.same (kernel_vpTakeRefill _ _) (voices_vpTakeRefill _ _))).trans (runs_vpRefill _)
  · exact .refl a

theorem runs_arbiterGrant (t : Time) (s u : State) (e : execArbiterGrant t s = .next u) : Runs s u := by
  have h0 := runs_advance t s
  unfold execArbiterGrant at e; dsimp only at e; generalize s.advance t = a at h0 e
  cases e; refine h0.trans ?_
  split
  · split
    · refine runs_startup a _ ?_
      have g := congrArg PhraseStore.phase (settled_arbitrate a.psp a.now)
      exact g
    · exact .refl a
  all_goals exact .refl a

theorem runs_utterancePlayedWhole (t : Time) (s u : State) (e : execUtterancePlayedWhole t s = .next u) : Runs s u := by
  have h0 := runs_advance t s
  unfold execUtterancePlayedWhole at e; dsimp only at e; generalize s.advance t = a at h0 e
  cases e; refine h0.trans ?_
  split
  · rename_i hs
    split
    · exact ⟨changes_soundOver _ _, fun h => speak_soundOver _ _ h (by simp [hs])⟩
    · exact .refl a
  · exact .refl a

theorem runs_cutComplete (t : Time) (s u : State) (e : execCutComplete t s = .next u) : Runs s u := by
  have h0 := runs_advance t s
  unfold execCutComplete at e; dsimp only at e; generalize s.advance t = a at h0 e
  cases e; refine h0.trans ?_
  split
  · rename_i hs
    split
    · exact ⟨changes_soundOver _ _, fun h => speak_soundOver _ _ h (by simp [hs])⟩
    · exact .refl a
  · exact .refl a

theorem runs_hardStop (t : Time) (s u : State) (e : execHardStop t s = .next u) : Runs s u := by
  have h0 := runs_advance t s
  unfold execHardStop at e; dsimp only at e; generalize s.advance t = a at h0 e
  cases e; refine h0.trans ?_
  split
  · rename_i hs
    split
    · exact ⟨changes_soundOver _ _, fun h => speak_soundOver _ _ h (by simp [hs])⟩
    · exact .refl a
  · exact .refl a

theorem runs_hardStopFade (t : Time) (s u : State) (e : execHardStopFade t s = .next u) : Runs s u := by
  have h0 := runs_advance t s
  unfold execHardStopFade at e; dsimp only at e; generalize s.advance t = a at h0 e
  cases e; refine h0.trans ?_
  split
  · split
    · exact .same (kernel_vpHardFade a) (voices_vpHardFade a)
    · exact .refl a
  · exact .refl a

theorem runs_toneSoundEnd (t : Time) (s u : State) (e : execToneSoundEnd t s = .next u) : Runs s u := by
  have h0 := runs_advance t s
  unfold execToneSoundEnd at e; dsimp only at e; generalize s.advance t = a at h0 e
  cases e; refine h0.trans ?_
  split
  · split
    · refine .same rfl ?_
      unfold VoicePlayer.ampIdle; dsimp only; split <;> rfl
    · exact .refl a
  · exact .refl a

theorem runs_ampReleaseExpire (t : Time) (s u : State) (e : execAmpReleaseExpire t s = .next u) : Runs s u := by
  have h0 := runs_advance t s
  unfold execAmpReleaseExpire at e; dsimp only at e; generalize s.advance t = a at h0 e
  cases e; refine h0.trans ?_
  split
  · exact .same rfl rfl
  · exact .refl a

theorem runs_dimTimeout (t : Time) (s u : State) (e : execDimTimeout t s = .next u) : Runs s u := by
  have h0 := runs_advance t s
  unfold execDimTimeout at e; dsimp only at e; generalize s.advance t = a at h0 e
  cases e; refine h0.trans ?_
  split
  · exact .aside a _ _ _ _ _ _
  · exact .refl a

theorem runs_darkTimeout (t : Time) (s u : State) (e : execDarkTimeout t s = .next u) : Runs s u := by
  have h0 := runs_advance t s
  unfold execDarkTimeout at e; dsimp only at e; generalize s.advance t = a at h0 e
  cases e; exact h0.trans (runs_darkFirst a)

theorem runs_repromptTimeout (t : Time) (s u : State) (e : execRepromptTimeout t s = .next u) : Runs s u := by
  have h0 := runs_advance t s
  unfold execRepromptTimeout at e; dsimp only at e; generalize s.advance t = a at h0 e
  cases e; refine h0.trans ?_
  split
  · exact runs_then a _ _ _ _ _
  · exact .refl a

theorem runs_samplePeriod (t : SampleTick) (s u : State) (e : execSamplePeriod t s = .next u) : Runs s u := by
  have h0 := runs_advance t.moment s
  unfold execSamplePeriod at e; dsimp only at e; generalize s.advance t.moment = a at h0 e
  cases e; refine h0.trans ?_
  split
  · unfold vpSample; dsimp only
    refine Runs.trans ?_ (runs_vpRefill _)
    have h : (streamValue (a.vp.receive t.bytes a.arrivals) a.now).1.stream = a.vp.stream := by
      rw [stream_streamValue]; unfold VoicePlayer.receive; split <;> rfl
    exact .same rfl (by simp only [State.voices, h])
  · exact .refl a

/-- A byte read back leaves the queue and the frame on the line as they are. -/
theorem runs_takeByte (n : Time) (b : Byte) (x : Bool) (s : State) : Runs s { s with lp := s.lp.takeByte n b x } := by
  refine runs_lp s _ rfl (.fewer _ _ _ (List.Sublist.refl _) (map_line s.lp _ ?_))
  intro y; unfold Tx.readBack; split <;> exact ⟨rfl, rfl⟩

theorem runs_multiplexSlot (t : Time) (s u : State) (e : execMultiplexSlot t s = .next u) : Runs s u := by
  have h0 := runs_advance t s
  unfold execMultiplexSlot at e; dsimp only at e; generalize s.advance t = a at h0 e
  cases e; refine h0.trans ?_
  split
  · exact .aside a _ _ _ _ _ _
  · exact .refl a

/-! ## The remaining commands -/

theorem runs_headerReadEnd (t : Time) (d : List Byte) (b : Bool) (s u : State)
    (e : execHeaderReadEnd t d b s = .next u) : Runs s u := by
  have h0 := runs_advance t s
  unfold execHeaderReadEnd at e; dsimp only at e; generalize s.advance t = a at h0 e
  cases e; refine h0.trans ?_
  split
  · rename_i h
    have hp : a.psp.phase ≠ .run := by
      simp only [Bool.and_eq_true, beq_iff_eq] at h; rw [h.1.1]; decide
    split
    · exact runs_imageTake _ _ _ _ hp
    · unfold tonesOnlyStart
      have h1 : Runs a { a with psp := { a.psp with tonesOnly := true } } := runs_startup a _ rfl
      exact (h1.trans (runs_fixLanguages _ _)).trans (runs_beginListen _ _ hp)
  · exact .refl a

theorem runs_imageReadEnd (t : Time) (d : List Byte) (b : Bool) (s u : State)
    (e : execImageReadEnd t d b s = .next u) : Runs s u := by
  have h0 := runs_advance t s
  unfold execImageReadEnd at e; dsimp only at e; generalize s.advance t = a at h0 e
  cases e; refine h0.trans ?_
  split
  · split
    · rename_i h
      have hp : a.psp.phase ≠ .run := by
        simp only [Bool.and_eq_true, beq_iff_eq] at h; rw [h.1.1]; decide
      exact runs_imageTake _ _ _ _ hp
    · exact .refl a
  · exact .refl a

/-- A withdrawn attempt is over, and at most its frame leaves the list. -/
theorem withdraw_shape (l : LinePort) : l.withdraw.1.clash = l.clash ∧ l.withdraw.1.queue.Sublist l.queue ∧
    l.withdraw.1.tx = none := by
  unfold LinePort.withdraw; dsimp only; split
  · exact ⟨rfl, List.Sublist.refl _, ‹_›⟩
  · split
    · split_ifs
      · exact ⟨rfl, List.filter_sublist, rfl⟩
      · exact ⟨rfl, List.filter_sublist, rfl⟩
      · exact ⟨rfl, List.Sublist.refl _, rfl⟩
    all_goals exact ⟨rfl, List.Sublist.refl _, rfl⟩

/-- A complete attempt is over, and at most its frame leaves the list. -/
theorem complete_shape (l : LinePort) : l.complete.1.clash = l.clash ∧
    l.complete.1.queue.Sublist l.queue ∧ l.complete.1.tx = none := by
  unfold LinePort.complete; split
  · exact ⟨rfl, List.Sublist.refl _, ‹_›⟩
  · refine ⟨rfl, ?_, rfl⟩
    dsimp only; split
    · exact List.filter_sublist
    · exact List.Sublist.refl _

/-- What makes the head ready (R13, R17). -/
theorem ready_spec (l : LinePort) (own : Nat) (n : Time) {p : Place} (h : l.ready own n = some p) :
    p ∈ l.queue ∧ l.clash = false := by
  unfold LinePort.ready at h; split at h
  · rename_i hq _
    split at h
    · rename_i hc
      cases h
      simp only [Bool.and_eq_true, Bool.not_eq_true'] at hc
      exact ⟨by rw [hq]; exact List.mem_cons_self, hc.1.1.2⟩
    · cases h
  · cases h

/-- A frame's attempts counted (R13). -/
theorem queueChange_counted (s : State) (p : Place) : QueueChange s.kernel
    (s.lp.queue.map fun q => if q.kind = p.kind then { q with attempts := q.attempts + 1 } else q) s.lp.tx where
  frames x hx := by
    obtain ⟨y, hy, rfl⟩ := List.mem_map.1 hx
    exact .inl ⟨y, hy, by split <;> rfl, by split <;> rfl⟩
  kinds c := by
    have : (Place.kind ∘ fun q : Place => if q.kind = p.kind then { q with attempts := q.attempts + 1 } else q)
        = Place.kind := by funext q; simp only [Function.comp]; split <;> rfl
    rw [List.map_map, this]; exact c
  quiet _ e := by simpa [State.kernel] using e
  line x hx := ⟨x, hx, rfl, rfl⟩

theorem runs_attemptStart (t : Time) (s u : State) (e : execAttemptStart t s = .next u) : Runs s u := by
  have h0 := runs_advance t s
  unfold execAttemptStart at e; dsimp only at e; generalize s.advance t = a at h0 e
  cases e; refine h0.trans ?_
  split
  · rename_i hr
    split
    · rename_i p hp
      have g := ready_spec a.lp _ _ hp
      have h1 : Runs a { a with lp := { a.lp with tx := (a.lp.begin p a.now).tx } } :=
        ⟨(Change.begin a.kernel p _ g.1 g.2 (by simpa [State.running, State.kernel] using hr) rfl rfl).one, SpeakLaw.of_voices rfl⟩
      refine h1.trans (runs_lp { a with lp := { a.lp with tx := (a.lp.begin p a.now).tx } } (a.lp.begin p a.now) rfl ?_)
      exact queueChange_counted _ p
    · exact .refl a
  · exact .refl a

theorem runs_failAttempt (s : State) : Runs s (failAttempt s) := by
  have h : Runs s { s with lp := s.lp.withdraw.1 } :=
    runs_lp s _ (withdraw_shape s.lp).1 (.fewer _ _ _ (withdraw_shape s.lp).2.1 (by simp [(withdraw_shape s.lp).2.2]))
  exact (h.trans (runs_lineChanged _ _)).trans (runs_deliverReports _ _)

theorem runs_attemptWithdrawn (t : Time) (s u : State)
    (e : execAttemptWithdrawn t s = .next u) : Runs s u := by
  have h0 := runs_advance t s
  unfold execAttemptWithdrawn at e; dsimp only at e; generalize s.advance t = a at h0 e
  cases e; refine h0.trans ?_
  split
  · exact runs_failAttempt a
  · exact .refl a

theorem runs_byteReceived (t : Time) (b : Byte) (x : Bool) (s u : State) (e : execByteReceived t b x s = .next u) : Runs s u := by
  have h0 := runs_advance t s
  unfold execByteReceived at e; dsimp only at e; generalize s.advance t = a at h0 e
  cases e; refine h0.trans ?_
  split
  · split
    · split
      · exact (runs_takeByte _ _ _ a).trans (runs_failAttempt _)
      · exact runs_takeByte _ _ _ a
    · exact .refl a
  · exact .refl a

theorem runs_transmissionComplete (t : Time) (s u : State) (e : execTransmissionComplete t s = .next u) : Runs s u := by
  have h0 := runs_advance t s
  unfold execTransmissionComplete at e; dsimp only at e; generalize s.advance t = a at h0 e
  cases e; refine h0.trans ?_
  split
  · split
    · have h1 : Runs a { a with lp := a.lp.complete.1 } :=
        runs_lp a _ (complete_shape a.lp).1
          (.fewer _ _ _ (complete_shape a.lp).2.1 (by simp [(complete_shape a.lp).2.2]))
      exact h1.trans (runs_deliverReports _ _)
    · split
      · exact runs_failAttempt a
      · exact .refl a
  · exact .refl a

theorem runs_startBitEdge (t : Time) (g : Option Time) (s u : State) (e : execStartBitEdge t g s = .next u) :
    Runs s u := by
  have h0 := runs_advance t s
  unfold execStartBitEdge at e; dsimp only at e; generalize s.advance t = a at h0 e
  cases e; refine h0.trans ?_
  split
  · have h (x : State) : Runs x (match g with
        | some d => { x with lp := x.lp.glitch x.now d }
        | none => { x with lp := x.lp.startBit x.now }) := by
      cases g
      · exact .lp x _ (by unfold LinePort.startBit; split <;> rfl) (by unfold LinePort.startBit; split <;> rfl) (by unfold LinePort.startBit; split <;> rfl)
      · exact .lp x _ (by rfl) (by rfl) (by rfl)
    refine Runs.trans ?_ (h _)
    split
    · split
      · exact runs_closeReception _ _
      · exact .refl a
    · exact .refl a
  · exact .refl a

/-- Every command is a run of changes of the kernel and keeps `SpeakLaw`. -/
theorem exec_runs (i : Instr) (s u : State) (e : exec i s = .next u) : Runs s u := by
  cases i
  case reset t => cases e; exact runs_reset t s
  case resetRelease => exact runs_resetRelease _ _ s u e
  case headerReadEnd => exact runs_headerReadEnd _ _ _ s u e
  case imageReadEnd => exact runs_imageReadEnd _ _ _ s u e
  case lampTestEnd => exact runs_lampTestEnd _ s u e
  case listenEnd => exact runs_listenEnd _ _ _ s u e
  case e1WindowEnd => exact runs_e1WindowEnd _ s u e
  case receptionClose => exact runs_receptionClose _ s u e
  case lineHeldSet => exact runs_lineHeldSet _ s u e
  case lineHeldClear => exact runs_lineHeldClear _ s u e
  case attemptStart => exact runs_attemptStart _ s u e
  case attemptWithdrawn => exact runs_attemptWithdrawn _ s u e
  case transmissionComplete => exact runs_transmissionComplete _ s u e
  case freshnessTimeout => exact runs_freshnessTimeout _ s u e
  case requestDeadline => exact runs_requestDeadline _ s u e
  case rosterEntryExpire => exact runs_rosterEntryExpire _ _ s u e
  case knobTransition => exact runs_knobTransition _ _ _ s u e
  case keyPressAccepted => exact runs_keyPressAccepted _ _ _ s u e
  case keyReleaseAccepted => exact runs_keyReleaseAccepted _ _ _ s u e
  case stepRepeat => exact runs_stepRepeat _ s u e
  case settleTimeout => exact runs_settleTimeout _ s u e
  case cancelHold => exact runs_cancelHold _ s u e
  case startHold => exact runs_startHold _ s u e
  case helpWindowClose => exact runs_helpWindowClose _ s u e
  case languageHold => exact runs_languageHold _ s u e
  case hushToggle => exact runs_hushToggle _ s u e
  case queueItemExpire => exact runs_queueItemExpire _ _ s u e
  case callTimerExpire => exact runs_callTimerExpire _ _ s u e
  case composerReadEnd => exact runs_composerReadEnd _ _ s u e
  case compositionEnd => exact runs_compositionEnd _ s u e
  case currentItemExpire => exact runs_currentItemExpire _ s u e
  case viewEntryExpire => exact runs_viewEntryExpire _ _ s u e
  case crowdedClear => exact runs_crowdedClear _ s u e
  case claimStands => exact runs_claimStands _ _ s u e
  case contestWindowEnd => exact runs_contestWindowEnd _ s u e
  case refillEnd => exact runs_refillEnd _ _ s u e
  case arbiterGrant => exact runs_arbiterGrant _ s u e
  case utterancePlayedWhole => exact runs_utterancePlayedWhole _ s u e
  case cutComplete => exact runs_cutComplete _ s u e
  case hardStopFade => exact runs_hardStopFade _ s u e
  case hardStop => exact runs_hardStop _ s u e
  case spacingEnd => exact runs_spacingEnd _ s u e
  case toneSoundEnd => exact runs_toneSoundEnd _ s u e
  case ampReleaseExpire => exact runs_ampReleaseExpire _ s u e
  case dimTimeout => exact runs_dimTimeout _ s u e
  case darkTimeout => exact runs_darkTimeout _ s u e
  case repromptTimeout => exact runs_repromptTimeout _ s u e
  case samplePeriod => exact runs_samplePeriod _ s u e
  case startBitEdge => exact runs_startBitEdge _ _ s u e
  case byteReceived => exact runs_byteReceived _ _ _ s u e
  case multiplexSlot => exact runs_multiplexSlot _ s u e

end Sys2Proof.Machine
end

