-- ==== Sys2Proof/Laws/Sets.lean ====
section
/-! SUPPORT. The keyed sets (the floor view, the roster, the prompt items): what putting and dropping an element
does to their order, their length and their members. -/

namespace Sys2Proof.Machine

/-- What is in the set after `x` is put: `x`, and what was in it under another key. -/
theorem mem_putBy {α : Type} (key : α → Nat) (x : α) {l : List α}
    (h : l.Pairwise fun a b => key a < key b) (y : α) :
    y ∈ putBy key x l ↔ y = x ∨ (y ∈ l ∧ key y ≠ key x) := by
  induction l with
  | nil => simp [putBy]
  | cons z zs ih =>
    rw [List.pairwise_cons] at h
    have g := ih h.2
    unfold putBy
    split_ifs <;> simp only [List.mem_cons, g] <;> grind

/-- Putting an element keeps the set in ascending order of its key. -/
theorem sorted_putBy {α : Type} (key : α → Nat) (x : α) (l : List α)
    (h : l.Pairwise fun a b => key a < key b) :
    (putBy key x l).Pairwise fun a b => key a < key b := by
  induction l with
  | nil => simp [putBy]
  | cons z zs ih =>
    rw [List.pairwise_cons] at h
    have g := mem_putBy key x h.2
    have i := ih h.2
    unfold putBy
    split_ifs <;> simp only [List.pairwise_cons, List.mem_cons] <;> grind

/-- Putting an element adds at most one. -/
theorem length_putBy {α : Type} (key : α → Nat) (x : α) (l : List α) :
    (putBy key x l).length ≤ l.length + 1 := by
  induction l with
  | nil => simp [putBy]
  | cons z zs ih =>
    unfold putBy
    split_ifs
    · simp
    · simp
    · simp only [List.length_cons]; omega

/-- An element put in place of one of its key adds none. -/
theorem length_putBy_known {α : Type} (key : α → Nat) (x : α) (l : List α)
    (h : l.Pairwise fun a b => key a < key b) (hx : ∃ y ∈ l, key y = key x) :
    (putBy key x l).length ≤ l.length := by
  induction l with
  | nil => simp at hx
  | cons z zs ih =>
    rw [List.pairwise_cons] at h
    unfold putBy
    split_ifs with h1 h2
    · grind
    · simp
    · have g := ih h.2 (by grind)
      simp only [List.length_cons]; omega

/-- What is left of the set without a key. -/
theorem mem_dropKey {α : Type} (key : α → Nat) (k : Nat) (l : List α) (y : α) :
    y ∈ dropKey key k l ↔ y ∈ l ∧ key y ≠ k := by simp [dropKey]

theorem sublist_dropKey {α : Type} (key : α → Nat) (k : Nat) (l : List α) : (dropKey key k l).Sublist l :=
  List.filter_sublist

/-- A member of a set in order is what its key finds. -/
theorem findKey_of_mem {α : Type} (key : α → Nat) {l : List α} (h : l.Pairwise fun a b => key a < key b)
    {y : α} (hy : y ∈ l) : findKey key (key y) l = some y := by
  induction l with
  | nil => simp at hy
  | cons z zs ih =>
    rw [List.pairwise_cons] at h
    unfold findKey
    rcases List.mem_cons.1 hy with rfl | g
    · simp
    · have := h.1 y g
      simp only [List.find?_cons]
      rw [show (key z == key y) = false by simpa using by omega]
      exact ih h.2 g

/-- R94, R95: placing an item of a class that is not queued keeps the queue in class order and within its
capacity. -/
theorem placeItem_keeps (it : Item) (l : List Item) (h : l.Pairwise fun a b => a.rank < b.rank)
    (hn : l.length ≤ Config.queueCapacity) :
    (placeItem it l).1.Pairwise (fun a b => a.rank < b.rank) ∧
      (placeItem it l).1.length ≤ Config.queueCapacity := by
  unfold placeItem
  split
  · exact ⟨sorted_putBy _ _ _ h, (length_putBy _ _ _).trans ‹_›⟩
  · split
    · rename_i g _ _
      split
      · refine ⟨sorted_putBy _ _ _ (h.sublist (List.dropLast_sublist _)), (length_putBy _ _ _).trans ?_⟩
        rw [List.length_dropLast]
        have : Config.queueCapacity = 8 := rfl
        omega
      · exact ⟨h, hn⟩
    · exact ⟨h, hn⟩

end Sys2Proof.Machine
end

