-- ==== Sys2Proof/Laws/State.lean ====
section
/-! SUPPORT. One lemma for each field of each named update, so that no proof need unfold an update. -/

namespace Sys2Proof.Machine

/-! ## The whole part -/

@[simp] theorem advance_now (t : Time) (s : State) : (s.advance t).now = max s.now t := rfl
@[simp] theorem advance_pending (t : Time) (s : State) : (s.advance t).pending = s.pending := rfl
@[simp] theorem advance_psp (t : Time) (s : State) : (s.advance t).psp = s.psp := rfl
@[simp] theorem advance_lp (t : Time) (s : State) : (s.advance t).lp = s.lp := rfl
@[simp] theorem advance_pm (t : Time) (s : State) : (s.advance t).pm = s.pm := rfl
@[simp] theorem advance_roster (t : Time) (s : State) : (s.advance t).roster = s.roster := rfl
@[simp] theorem advance_pu (t : Time) (s : State) : (s.advance t).pu = s.pu := rfl
@[simp] theorem advance_dc (t : Time) (s : State) : (s.advance t).dc = s.dc := rfl
@[simp] theorem advance_pq (t : Time) (s : State) : (s.advance t).pq = s.pq := rfl
@[simp] theorem advance_cp (t : Time) (s : State) : (s.advance t).cp = s.cp := rfl
@[simp] theorem advance_fc (t : Time) (s : State) : (s.advance t).fc = s.fc := rfl
@[simp] theorem advance_vp (t : Time) (s : State) : (s.advance t).vp = s.vp := rfl
@[simp] theorem advance_au (t : Time) (s : State) : (s.advance t).au = s.au := rfl
@[simp] theorem advance_ind (t : Time) (s : State) : (s.advance t).ind = s.ind := rfl
@[simp] theorem untracked_now (s : State) : s.untracked.now = s.now := rfl
@[simp] theorem untracked_pending (s : State) : s.untracked.pending = s.pending := rfl
@[simp] theorem untracked_psp (s : State) : s.untracked.psp = s.psp := rfl
@[simp] theorem untracked_lp (s : State) : s.untracked.lp = s.lp := rfl
@[simp] theorem untracked_roster (s : State) : s.untracked.roster = s.roster := rfl
@[simp] theorem untracked_pu (s : State) : s.untracked.pu = s.pu := rfl
@[simp] theorem untracked_dc (s : State) : s.untracked.dc = s.dc := rfl
@[simp] theorem untracked_pq (s : State) : s.untracked.pq = s.pq := rfl
@[simp] theorem untracked_cp (s : State) : s.untracked.cp = s.cp := rfl
@[simp] theorem untracked_fc (s : State) : s.untracked.fc = s.fc := rfl
@[simp] theorem untracked_vp (s : State) : s.untracked.vp = s.vp := rfl
@[simp] theorem untracked_au (s : State) : s.untracked.au = s.au := rfl
@[simp] theorem untracked_ind (s : State) : s.untracked.ind = s.ind := rfl
@[simp] theorem untracked_pm_record (s : State) : s.untracked.pm.record = s.pm.record := rfl
@[simp] theorem untracked_pm_freshness (s : State) : s.untracked.pm.freshness = s.pm.freshness := rfl
@[simp] theorem untracked_pm_freshTimer (s : State) : s.untracked.pm.freshTimer = s.pm.freshTimer := rfl
@[simp] theorem untracked_pm_lastMark (s : State) : s.untracked.pm.lastMark = s.pm.lastMark := rfl
@[simp] theorem untracked_inFlight (s : State) : s.untracked.pm.inFlight = none := rfl

/-- R18, R187: a part in RUN receives. -/
theorem receiving_of_running (s : State) (h : s.running = true) : s.receiving = true := by
  simp only [State.running, beq_iff_eq] at h
  simp [State.receiving, h]

/-! ## Line port -/

@[simp] theorem setCount_queue (l : LinePort) (c : Nat) : (l.setCount c).queue = l.queue := rfl
@[simp] theorem setCount_tx (l : LinePort) (c : Nat) : (l.setCount c).tx = l.tx := rfl
@[simp] theorem setCount_lineHeld (l : LinePort) (c : Nat) : (l.setCount c).lineHeld = l.lineHeld := rfl
@[simp] theorem setCount_clash (l : LinePort) (c : Nat) : (l.setCount c).clash = l.clash := rfl
@[simp] theorem setCount_claimOut (l : LinePort) (c : Nat) : (l.setCount c).claimOut = l.claimOut := rfl
@[simp] theorem setCount_rx (l : LinePort) (c : Nat) : (l.setCount c).rx = l.rx := rfl
@[simp] theorem setCount_edge (l : LinePort) (c : Nat) : (l.setCount c).edge = l.edge := rfl
@[simp] theorem setCount_armed (l : LinePort) (c : Nat) : (l.setCount c).armed = l.armed := rfl
@[simp] theorem setCount_idleSince (l : LinePort) (c : Nat) : (l.setCount c).idleSince = l.idleSince := rfl
@[simp] theorem setCount_recessiveSince (l : LinePort) (c : Nat) :
    (l.setCount c).recessiveSince = l.recessiveSince := rfl
@[simp] theorem setCount_dominantSince (l : LinePort) (c : Nat) :
    (l.setCount c).dominantSince = l.dominantSince := rfl
@[simp] theorem setCount_stopBitEnd (l : LinePort) (c : Nat) : (l.setCount c).stopBitEnd = l.stopBitEnd := rfl
@[simp] theorem setCount_errCount (l : LinePort) (c : Nat) : (l.setCount c).errCount = c := rfl
@[simp] theorem setTxPlace_queue (l : LinePort) (k : FrameKind) (p : TxPlace) :
    (l.setTxPlace k p).queue = l.queue := rfl
@[simp] theorem setTxPlace_errCount (l : LinePort) (k : FrameKind) (p : TxPlace) :
    (l.setTxPlace k p).errCount = l.errCount := rfl
@[simp] theorem setTxPlace_degraded (l : LinePort) (k : FrameKind) (p : TxPlace) :
    (l.setTxPlace k p).degraded = l.degraded := rfl
@[simp] theorem setTxPlace_lineHeld (l : LinePort) (k : FrameKind) (p : TxPlace) :
    (l.setTxPlace k p).lineHeld = l.lineHeld := rfl
@[simp] theorem setTxPlace_clash (l : LinePort) (k : FrameKind) (p : TxPlace) :
    (l.setTxPlace k p).clash = l.clash := rfl
@[simp] theorem setTxPlace_claimOut (l : LinePort) (k : FrameKind) (p : TxPlace) :
    (l.setTxPlace k p).claimOut = l.claimOut := rfl
@[simp] theorem setTxPlace_rx (l : LinePort) (k : FrameKind) (p : TxPlace) : (l.setTxPlace k p).rx = l.rx := rfl
@[simp] theorem setTxPlace_edge (l : LinePort) (k : FrameKind) (p : TxPlace) : (l.setTxPlace k p).edge = l.edge := rfl
@[simp] theorem setTxPlace_armed (l : LinePort) (k : FrameKind) (p : TxPlace) :
    (l.setTxPlace k p).armed = l.armed := rfl
@[simp] theorem setTxPlace_idleSince (l : LinePort) (k : FrameKind) (p : TxPlace) :
    (l.setTxPlace k p).idleSince = l.idleSince := rfl
@[simp] theorem setTxPlace_recessiveSince (l : LinePort) (k : FrameKind) (p : TxPlace) :
    (l.setTxPlace k p).recessiveSince = l.recessiveSince := rfl
@[simp] theorem setTxPlace_dominantSince (l : LinePort) (k : FrameKind) (p : TxPlace) :
    (l.setTxPlace k p).dominantSince = l.dominantSince := rfl
@[simp] theorem setTxPlace_stopBitEnd (l : LinePort) (k : FrameKind) (p : TxPlace) :
    (l.setTxPlace k p).stopBitEnd = l.stopBitEnd := rfl
@[simp] theorem remove_errCount (l : LinePort) (k : FrameKind) : (l.remove k).errCount = l.errCount := rfl
@[simp] theorem remove_degraded (l : LinePort) (k : FrameKind) : (l.remove k).degraded = l.degraded := rfl
@[simp] theorem remove_lineHeld (l : LinePort) (k : FrameKind) : (l.remove k).lineHeld = l.lineHeld := rfl
@[simp] theorem remove_clash (l : LinePort) (k : FrameKind) : (l.remove k).clash = l.clash := rfl
@[simp] theorem remove_claimOut (l : LinePort) (k : FrameKind) : (l.remove k).claimOut = l.claimOut := rfl
@[simp] theorem remove_rx (l : LinePort) (k : FrameKind) : (l.remove k).rx = l.rx := rfl
@[simp] theorem remove_edge (l : LinePort) (k : FrameKind) : (l.remove k).edge = l.edge := rfl
@[simp] theorem remove_armed (l : LinePort) (k : FrameKind) : (l.remove k).armed = l.armed := rfl
@[simp] theorem remove_idleSince (l : LinePort) (k : FrameKind) : (l.remove k).idleSince = l.idleSince := rfl
@[simp] theorem remove_recessiveSince (l : LinePort) (k : FrameKind) :
    (l.remove k).recessiveSince = l.recessiveSince := rfl
@[simp] theorem remove_dominantSince (l : LinePort) (k : FrameKind) :
    (l.remove k).dominantSince = l.dominantSince := rfl
@[simp] theorem remove_stopBitEnd (l : LinePort) (k : FrameKind) : (l.remove k).stopBitEnd = l.stopBitEnd := rfl
@[simp] theorem begin_errCount (l : LinePort) (p : Place) (n : Time) : (l.begin p n).errCount = l.errCount := rfl
@[simp] theorem begin_degraded (l : LinePort) (p : Place) (n : Time) : (l.begin p n).degraded = l.degraded := rfl
@[simp] theorem begin_lineHeld (l : LinePort) (p : Place) (n : Time) : (l.begin p n).lineHeld = l.lineHeld := rfl
@[simp] theorem begin_clash (l : LinePort) (p : Place) (n : Time) : (l.begin p n).clash = l.clash := rfl
@[simp] theorem begin_claimOut (l : LinePort) (p : Place) (n : Time) : (l.begin p n).claimOut = l.claimOut := rfl
@[simp] theorem begin_rx (l : LinePort) (p : Place) (n : Time) : (l.begin p n).rx = l.rx := rfl
@[simp] theorem begin_edge (l : LinePort) (p : Place) (n : Time) : (l.begin p n).edge = l.edge := rfl
@[simp] theorem begin_armed (l : LinePort) (p : Place) (n : Time) : (l.begin p n).armed = l.armed := rfl
@[simp] theorem begin_idleSince (l : LinePort) (p : Place) (n : Time) : (l.begin p n).idleSince = l.idleSince := rfl
@[simp] theorem begin_recessiveSince (l : LinePort) (p : Place) (n : Time) :
    (l.begin p n).recessiveSince = l.recessiveSince := rfl
@[simp] theorem begin_dominantSince (l : LinePort) (p : Place) (n : Time) :
    (l.begin p n).dominantSince = l.dominantSince := rfl
@[simp] theorem begin_stopBitEnd (l : LinePort) (p : Place) (n : Time) :
    (l.begin p n).stopBitEnd = l.stopBitEnd := rfl
@[simp] theorem glitch_queue (l : LinePort) (n d : Time) : (l.glitch n d).queue = l.queue := rfl
@[simp] theorem glitch_tx (l : LinePort) (n d : Time) : (l.glitch n d).tx = l.tx := rfl
@[simp] theorem glitch_errCount (l : LinePort) (n d : Time) : (l.glitch n d).errCount = l.errCount := rfl
@[simp] theorem glitch_degraded (l : LinePort) (n d : Time) : (l.glitch n d).degraded = l.degraded := rfl
@[simp] theorem glitch_lineHeld (l : LinePort) (n d : Time) : (l.glitch n d).lineHeld = l.lineHeld := rfl
@[simp] theorem glitch_clash (l : LinePort) (n d : Time) : (l.glitch n d).clash = l.clash := rfl
@[simp] theorem glitch_claimOut (l : LinePort) (n d : Time) : (l.glitch n d).claimOut = l.claimOut := rfl
@[simp] theorem glitch_rx (l : LinePort) (n d : Time) : (l.glitch n d).rx = l.rx := rfl
@[simp] theorem glitch_edge (l : LinePort) (n d : Time) : (l.glitch n d).edge = l.edge := rfl
@[simp] theorem glitch_idleSince (l : LinePort) (n d : Time) :
    (l.glitch n d).idleSince = some (l.countFrom (n + d)) := rfl
@[simp] theorem glitch_recessiveSince (l : LinePort) (n d : Time) :
    (l.glitch n d).recessiveSince = some (n + d) := rfl
@[simp] theorem glitch_dominantSince (l : LinePort) (n d : Time) : (l.glitch n d).dominantSince = none := rfl
@[simp] theorem glitch_stopBitEnd (l : LinePort) (n d : Time) : (l.glitch n d).stopBitEnd = l.stopBitEnd := rfl
@[simp] theorem quiet_queue (l : LinePort) (n : Time) : (l.quiet n).queue = l.queue := rfl
@[simp] theorem quiet_tx (l : LinePort) (n : Time) : (l.quiet n).tx = l.tx := rfl
@[simp] theorem quiet_errCount (l : LinePort) (n : Time) : (l.quiet n).errCount = l.errCount := rfl
@[simp] theorem quiet_degraded (l : LinePort) (n : Time) : (l.quiet n).degraded = l.degraded := rfl
@[simp] theorem quiet_lineHeld (l : LinePort) (n : Time) : (l.quiet n).lineHeld = l.lineHeld := rfl
@[simp] theorem quiet_clash (l : LinePort) (n : Time) : (l.quiet n).clash = l.clash := rfl
@[simp] theorem quiet_claimOut (l : LinePort) (n : Time) : (l.quiet n).claimOut = l.claimOut := rfl
@[simp] theorem quiet_edge (l : LinePort) (n : Time) : (l.quiet n).edge = l.edge := rfl
@[simp] theorem quiet_rx (l : LinePort) (n : Time) : (l.quiet n).rx = none := rfl
@[simp] theorem quiet_armed (l : LinePort) (n : Time) : (l.quiet n).armed = true := rfl
@[simp] theorem quiet_dominantSince (l : LinePort) (n : Time) : (l.quiet n).dominantSince = none := rfl
@[simp] theorem quiet_idleSince (l : LinePort) (n : Time) :
    (l.quiet n).idleSince = some (l.idleSince.getD (n - delimiter)) := rfl
@[simp] theorem quiet_recessiveSince (l : LinePort) (n : Time) :
    (l.quiet n).recessiveSince = some (l.recessiveSince.getD (n - delimiter)) := rfl
@[simp] theorem quiet_stopBitEnd (l : LinePort) (n : Time) : (l.quiet n).stopBitEnd = l.stopBitEnd := rfl
@[simp] theorem startBit_queue (l : LinePort) (n : Time) : (l.startBit n).queue = l.queue := rfl
@[simp] theorem takeByte_queue (l : LinePort) (n : Time) (b : Byte) (x : Bool) :
    (l.takeByte n b x).queue = l.queue := rfl
@[simp] theorem startBit_tx (l : LinePort) (n : Time) : (l.startBit n).tx = l.tx := rfl
@[simp] theorem startBit_errCount (l : LinePort) (n : Time) : (l.startBit n).errCount = l.errCount := rfl
@[simp] theorem takeByte_errCount (l : LinePort) (n : Time) (b : Byte) (x : Bool) :
    (l.takeByte n b x).errCount = l.errCount := rfl
@[simp] theorem startBit_degraded (l : LinePort) (n : Time) : (l.startBit n).degraded = l.degraded := rfl
@[simp] theorem takeByte_degraded (l : LinePort) (n : Time) (b : Byte) (x : Bool) :
    (l.takeByte n b x).degraded = l.degraded := rfl
@[simp] theorem startBit_lineHeld (l : LinePort) (n : Time) : (l.startBit n).lineHeld = l.lineHeld := rfl
@[simp] theorem takeByte_lineHeld (l : LinePort) (n : Time) (b : Byte) (x : Bool) :
    (l.takeByte n b x).lineHeld = l.lineHeld := rfl
@[simp] theorem startBit_clash (l : LinePort) (n : Time) : (l.startBit n).clash = l.clash := rfl
@[simp] theorem takeByte_clash (l : LinePort) (n : Time) (b : Byte) (x : Bool) :
    (l.takeByte n b x).clash = l.clash := rfl
@[simp] theorem startBit_claimOut (l : LinePort) (n : Time) : (l.startBit n).claimOut = l.claimOut := rfl
@[simp] theorem takeByte_claimOut (l : LinePort) (n : Time) (b : Byte) (x : Bool) :
    (l.takeByte n b x).claimOut = l.claimOut := rfl
@[simp] theorem startBit_edge (l : LinePort) (n : Time) : (l.startBit n).edge = some n := rfl
@[simp] theorem startBit_idleSince (l : LinePort) (n : Time) : (l.startBit n).idleSince = none := rfl
@[simp] theorem startBit_recessiveSince (l : LinePort) (n : Time) : (l.startBit n).recessiveSince = none := rfl
@[simp] theorem startBit_dominantSince (l : LinePort) (n : Time) : (l.startBit n).dominantSince = some n := rfl
@[simp] theorem startBit_stopBitEnd (l : LinePort) (n : Time) : (l.startBit n).stopBitEnd = l.stopBitEnd := rfl
@[simp] theorem takeByte_edge (l : LinePort) (n : Time) (b : Byte) (y : Bool) : (l.takeByte n b y).edge = none := rfl
@[simp] theorem takeByte_armed (l : LinePort) (n : Time) (b : Byte) (y : Bool) :
    (l.takeByte n b y).armed = l.armed := rfl
@[simp] theorem takeByte_tx (l : LinePort) (n : Time) (b : Byte) (y : Bool) :
    (l.takeByte n b y).tx = l.tx.map fun x => x.readBack n b y := rfl
@[simp] theorem takeByte_idleSince (l : LinePort) (n : Time) (b : Byte) (y : Bool) :
    (l.takeByte n b y).idleSince = if y then some (stopEnd n) else none := rfl
@[simp] theorem takeByte_recessiveSince (l : LinePort) (n : Time) (b : Byte) (y : Bool) :
    (l.takeByte n b y).recessiveSince = if y then some (recessiveFrom n b) else none := rfl
@[simp] theorem takeByte_dominantSince (l : LinePort) (n : Time) (b : Byte) (y : Bool) :
    (l.takeByte n b y).dominantSince = if y then none else some (dominantFrom n b) := rfl
@[simp] theorem takeByte_stopBitEnd (l : LinePort) (n : Time) (b : Byte) (y : Bool) :
    (l.takeByte n b y).stopBitEnd = some (stopEnd n) := rfl
/-- R2, R13: the recessive count begins neither before the end of the last stop bit nor before that of the level. -/
theorem le_countFrom (l : LinePort) (e : Time) :
    e ≤ l.countFrom e ∧ ∀ t, l.stopBitEnd = some t → t ≤ l.countFrom e := by
  refine ⟨Nat.le_max_right _ _, fun t h => ?_⟩
  rw [LinePort.countFrom, h]; exact Nat.le_max_left _ _
@[simp] theorem readBack_kind (x : Tx) (n : Time) (b : Byte) (y : Bool) :
    (x.readBack n b y).kind = x.kind := by
  unfold Tx.readBack; split <;> rfl
@[simp] theorem readBack_bytes (x : Tx) (n : Time) (b : Byte) (y : Bool) :
    (x.readBack n b y).bytes = x.bytes := by
  unfold Tx.readBack; split <;> rfl
@[simp] theorem readBack_reassert (x : Tx) (n : Time) (b : Byte) (y : Bool) :
    (x.readBack n b y).reassert = x.reassert := by
  unfold Tx.readBack; split <;> rfl
@[simp] theorem readBack_start (x : Tx) (n : Time) (b : Byte) (y : Bool) :
    (x.readBack n b y).start = x.start := by
  unfold Tx.readBack; split <;> rfl
@[simp] theorem readBack_place (x : Tx) (n : Time) (b : Byte) (y : Bool) :
    (x.readBack n b y).place = x.place := by
  unfold Tx.readBack; split <;> rfl
@[simp] theorem readBack_noRetry (x : Tx) (n : Time) (b : Byte) (y : Bool) :
    (x.readBack n b y).noRetry = x.noRetry := by
  unfold Tx.readBack; split <;> rfl

/-! ## Phrase store port -/

@[simp] theorem grant_phase (p : PhraseStore) (u : PortUser) (r : ReadReq) (n : Time) (d : Bool) :
    (p.grant u r n d).phase = p.phase := rfl
@[simp] theorem finish_phase (p : PhraseStore) (n : Time) : (p.finish n).phase = p.phase := rfl
@[simp] theorem grant_tonesOnly (p : PhraseStore) (u : PortUser) (r : ReadReq) (n : Time) (d : Bool) :
    (p.grant u r n d).tonesOnly = p.tonesOnly := rfl
@[simp] theorem finish_tonesOnly (p : PhraseStore) (n : Time) : (p.finish n).tonesOnly = p.tonesOnly := rfl
@[simp] theorem grant_machine (p : PhraseStore) (u : PortUser) (r : ReadReq) (n : Time) (d : Bool) :
    (p.grant u r n d).machine = p.machine := rfl
@[simp] theorem finish_machine (p : PhraseStore) (n : Time) : (p.finish n).machine = p.machine := rfl
@[simp] theorem grant_strapLang (p : PhraseStore) (u : PortUser) (r : ReadReq) (n : Time) (d : Bool) :
    (p.grant u r n d).strapLang = p.strapLang := rfl
@[simp] theorem finish_strapLang (p : PhraseStore) (n : Time) : (p.finish n).strapLang = p.strapLang := rfl
@[simp] theorem grant_panel (p : PhraseStore) (u : PortUser) (r : ReadReq) (n : Time) (d : Bool) :
    (p.grant u r n d).panel = p.panel := rfl
@[simp] theorem finish_panel (p : PhraseStore) (n : Time) : (p.finish n).panel = p.panel := rfl
@[simp] theorem grant_header (p : PhraseStore) (u : PortUser) (r : ReadReq) (n : Time) (d : Bool) :
    (p.grant u r n d).header = p.header := rfl
@[simp] theorem finish_header (p : PhraseStore) (n : Time) : (p.finish n).header = p.header := rfl
@[simp] theorem grant_profile (p : PhraseStore) (u : PortUser) (r : ReadReq) (n : Time) (d : Bool) :
    (p.grant u r n d).profile = p.profile := rfl
@[simp] theorem finish_profile (p : PhraseStore) (n : Time) : (p.finish n).profile = p.profile := rfl
@[simp] theorem grant_imageProfile (p : PhraseStore) (u : PortUser) (r : ReadReq) (n : Time) (d : Bool) :
    (p.grant u r n d).imageProfile = p.imageProfile := rfl
@[simp] theorem finish_imageProfile (p : PhraseStore) (n : Time) : (p.finish n).imageProfile = p.imageProfile := rfl
@[simp] theorem grant_tables (p : PhraseStore) (u : PortUser) (r : ReadReq) (n : Time) (d : Bool) :
    (p.grant u r n d).tables = p.tables := rfl
@[simp] theorem finish_tables (p : PhraseStore) (n : Time) : (p.finish n).tables = p.tables := rfl
@[simp] theorem grant_langs (p : PhraseStore) (u : PortUser) (r : ReadReq) (n : Time) (d : Bool) :
    (p.grant u r n d).langs = p.langs := rfl
@[simp] theorem finish_langs (p : PhraseStore) (n : Time) : (p.finish n).langs = p.langs := rfl
@[simp] theorem grant_imageRead (p : PhraseStore) (u : PortUser) (r : ReadReq) (n : Time) (d : Bool) :
    (p.grant u r n d).imageRead = p.imageRead := rfl
@[simp] theorem finish_imageRead (p : PhraseStore) (n : Time) : (p.finish n).imageRead = p.imageRead := rfl
@[simp] theorem grant_waitRefill (p : PhraseStore) (u : PortUser) (r : ReadReq) (n : Time) (d : Bool) :
    (p.grant u r n d).waitRefill = p.waitRefill := rfl
@[simp] theorem finish_waitRefill (p : PhraseStore) (n : Time) : (p.finish n).waitRefill = p.waitRefill := rfl
@[simp] theorem grant_waitComposer (p : PhraseStore) (u : PortUser) (r : ReadReq) (n : Time) (d : Bool) :
    (p.grant u r n d).waitComposer = p.waitComposer := rfl
@[simp] theorem finish_waitComposer (p : PhraseStore) (n : Time) : (p.finish n).waitComposer = p.waitComposer := rfl
@[simp] theorem grant_listenStart (p : PhraseStore) (u : PortUser) (r : ReadReq) (n : Time) (d : Bool) :
    (p.grant u r n d).listenStart = p.listenStart := rfl
@[simp] theorem finish_listenStart (p : PhraseStore) (n : Time) : (p.finish n).listenStart = p.listenStart := rfl
@[simp] theorem grant_runStart (p : PhraseStore) (u : PortUser) (r : ReadReq) (n : Time) (d : Bool) :
    (p.grant u r n d).runStart = p.runStart := rfl
@[simp] theorem finish_runStart (p : PhraseStore) (n : Time) : (p.finish n).runStart = p.runStart := rfl
@[simp] theorem grant_port (p : PhraseStore) (u : PortUser) (r : ReadReq) (n : Time) (d : Bool) :
    (p.grant u r n d).port = .reading u r (n + readTime r.size) d := rfl
@[simp] theorem adopt_phase (p : PhraseStore) : p.adopt.phase = p.phase := rfl
@[simp] theorem adopt_tonesOnly (p : PhraseStore) : p.adopt.tonesOnly = p.tonesOnly := rfl
@[simp] theorem adopt_machine (p : PhraseStore) : p.adopt.machine = p.machine := rfl
@[simp] theorem adopt_strapLang (p : PhraseStore) : p.adopt.strapLang = p.strapLang := rfl
@[simp] theorem adopt_panel (p : PhraseStore) : p.adopt.panel = p.panel := rfl
@[simp] theorem adopt_header (p : PhraseStore) : p.adopt.header = p.header := rfl
@[simp] theorem adopt_imageProfile (p : PhraseStore) : p.adopt.imageProfile = p.imageProfile := rfl
@[simp] theorem adopt_tables (p : PhraseStore) : p.adopt.tables = p.tables := rfl
@[simp] theorem adopt_langs (p : PhraseStore) : p.adopt.langs = p.langs := rfl
@[simp] theorem adopt_imageRead (p : PhraseStore) : p.adopt.imageRead = p.imageRead := rfl
@[simp] theorem adopt_waitRefill (p : PhraseStore) : p.adopt.waitRefill = p.waitRefill := rfl
@[simp] theorem adopt_waitComposer (p : PhraseStore) : p.adopt.waitComposer = p.waitComposer := rfl
@[simp] theorem adopt_listenStart (p : PhraseStore) : p.adopt.listenStart = p.listenStart := rfl
@[simp] theorem adopt_runStart (p : PhraseStore) : p.adopt.runStart = p.runStart := rfl
@[simp] theorem adopt_profile (p : PhraseStore) : p.adopt.profile = p.imageProfile.getD p.profile := rfl
@[simp] theorem adopt_port (p : PhraseStore) : p.adopt.port = p.port := rfl
@[simp] theorem finish_port (p : PhraseStore) (n : Time) : (p.finish n).port = .gap (n + portGap) := rfl

/-! ## Panel unit -/

@[simp] theorem setKey_quarter (p : PanelUnit) (k : Key) (x : KeyState) :
    (p.setKey k x).quarter = p.quarter := by cases k <;> rfl
@[simp] theorem setKey_refA (p : PanelUnit) (k : Key) (x : KeyState) :
    (p.setKey k x).refA = p.refA := by cases k <;> rfl
@[simp] theorem setKey_refB (p : PanelUnit) (k : Key) (x : KeyState) :
    (p.setKey k x).refB = p.refB := by cases k <;> rfl
@[simp] theorem setKey_listLen (p : PanelUnit) (k : Key) (x : KeyState) :
    (p.setKey k x).listLen = p.listLen := by cases k <;> rfl
@[simp] theorem setKey_position (p : PanelUnit) (k : Key) (x : KeyState) :
    (p.setKey k x).position = p.position := by cases k <;> rfl
@[simp] theorem setKey_snapshot (p : PanelUnit) (k : Key) (x : KeyState) :
    (p.setKey k x).snapshot = p.snapshot := by cases k <;> rfl
@[simp] theorem setKey_settle (p : PanelUnit) (k : Key) (x : KeyState) :
    (p.setKey k x).settle = p.settle := by cases k <;> rfl
@[simp] theorem setKey_stepRepeat (p : PanelUnit) (k : Key) (x : KeyState) :
    (p.setKey k x).stepRepeat = p.stepRepeat := by cases k <;> rfl
@[simp] theorem setKey_helpCount (p : PanelUnit) (k : Key) (x : KeyState) :
    (p.setKey k x).helpCount = p.helpCount := by cases k <;> rfl
@[simp] theorem setKey_helpWindow (p : PanelUnit) (k : Key) (x : KeyState) :
    (p.setKey k x).helpWindow = p.helpWindow := by cases k <;> rfl
@[simp] theorem setKey_chord (p : PanelUnit) (k : Key) (x : KeyState) :
    (p.setKey k x).chord = p.chord := by cases k <;> rfl
@[simp] theorem setKey_chordTimer (p : PanelUnit) (k : Key) (x : KeyState) :
    (p.setKey k x).chordTimer = p.chordTimer := by cases k <;> rfl
@[simp] theorem setKey_chordFired (p : PanelUnit) (k : Key) (x : KeyState) :
    (p.setKey k x).chordFired = p.chordFired := by cases k <;> rfl
@[simp] theorem setKey_key (p : PanelUnit) (k : Key) (x : KeyState) : (p.setKey k x).key k = x := by
  cases k <;> rfl
theorem setKey_other (p : PanelUnit) (k j : Key) (x : KeyState) (h : j ≠ k) : (p.setKey k x).key j = p.key j := by
  cases k <;> cases j <;> first | rfl | exact absurd rfl h
@[simp] theorem openList_quarter (p : PanelUnit) (l n : Nat) : (p.openList l n).quarter = p.quarter := rfl
@[simp] theorem closeList_quarter (p : PanelUnit) : p.closeList.quarter = p.quarter := rfl
@[simp] theorem openList_refA (p : PanelUnit) (l n : Nat) : (p.openList l n).refA = p.refA := rfl
@[simp] theorem closeList_refA (p : PanelUnit) : p.closeList.refA = p.refA := rfl
@[simp] theorem openList_refB (p : PanelUnit) (l n : Nat) : (p.openList l n).refB = p.refB := rfl
@[simp] theorem closeList_refB (p : PanelUnit) : p.closeList.refB = p.refB := rfl
@[simp] theorem closeList_position (p : PanelUnit) : p.closeList.position = p.position := rfl
@[simp] theorem closeList_snapshot (p : PanelUnit) : p.closeList.snapshot = p.snapshot := rfl
@[simp] theorem openList_stepRepeat (p : PanelUnit) (l n : Nat) : (p.openList l n).stepRepeat = p.stepRepeat := rfl
@[simp] theorem closeList_stepRepeat (p : PanelUnit) : p.closeList.stepRepeat = p.stepRepeat := rfl
@[simp] theorem openList_helpCount (p : PanelUnit) (l n : Nat) : (p.openList l n).helpCount = p.helpCount := rfl
@[simp] theorem closeList_helpCount (p : PanelUnit) : p.closeList.helpCount = p.helpCount := rfl
@[simp] theorem openList_helpWindow (p : PanelUnit) (l n : Nat) : (p.openList l n).helpWindow = p.helpWindow := rfl
@[simp] theorem closeList_helpWindow (p : PanelUnit) : p.closeList.helpWindow = p.helpWindow := rfl
@[simp] theorem openList_chord (p : PanelUnit) (l n : Nat) : (p.openList l n).chord = p.chord := rfl
@[simp] theorem closeList_chord (p : PanelUnit) : p.closeList.chord = p.chord := rfl
@[simp] theorem openList_chordTimer (p : PanelUnit) (l n : Nat) : (p.openList l n).chordTimer = p.chordTimer := rfl
@[simp] theorem closeList_chordTimer (p : PanelUnit) : p.closeList.chordTimer = p.chordTimer := rfl
@[simp] theorem openList_chordFired (p : PanelUnit) (l n : Nat) : (p.openList l n).chordFired = p.chordFired := rfl
@[simp] theorem closeList_chordFired (p : PanelUnit) : p.closeList.chordFired = p.chordFired := rfl
@[simp] theorem openList_listLen (p : PanelUnit) (l n : Nat) : (p.openList l n).listLen = some l := rfl
@[simp] theorem openList_position (p : PanelUnit) (l n : Nat) : (p.openList l n).position = min n (l - 1) := rfl
@[simp] theorem openList_snapshot (p : PanelUnit) (l n : Nat) : (p.openList l n).snapshot = min n (l - 1) := rfl
@[simp] theorem openList_settle (p : PanelUnit) (l n : Nat) : (p.openList l n).settle = none := rfl
@[simp] theorem closeList_listLen (p : PanelUnit) : p.closeList.listLen = none := rfl
@[simp] theorem closeList_settle (p : PanelUnit) : p.closeList.settle = none := rfl
@[simp] theorem openList_select (p : PanelUnit) (l n : Nat) : (p.openList l n).select = p.select := rfl
@[simp] theorem closeList_select (p : PanelUnit) : p.closeList.select = p.select := rfl
@[simp] theorem openList_back (p : PanelUnit) (l n : Nat) : (p.openList l n).back = p.back := rfl
@[simp] theorem closeList_back (p : PanelUnit) : p.closeList.back = p.back := rfl
@[simp] theorem openList_start (p : PanelUnit) (l n : Nat) : (p.openList l n).start = p.start := rfl
@[simp] theorem closeList_start (p : PanelUnit) : p.closeList.start = p.start := rfl
@[simp] theorem openList_help (p : PanelUnit) (l n : Nat) : (p.openList l n).help = p.help := rfl
@[simp] theorem closeList_help (p : PanelUnit) : p.closeList.help = p.help := rfl
@[simp] theorem openList_up (p : PanelUnit) (l n : Nat) : (p.openList l n).up = p.up := rfl
@[simp] theorem closeList_up (p : PanelUnit) : p.closeList.up = p.up := rfl
@[simp] theorem openList_down (p : PanelUnit) (l n : Nat) : (p.openList l n).down = p.down := rfl
@[simp] theorem closeList_down (p : PanelUnit) : p.closeList.down = p.down := rfl

/-! ## Prompt queue -/

@[simp] theorem supersede_items (q : PromptQueue) : q.supersede.items = q.items := rfl
@[simp] theorem withdrawMark_items (q : PromptQueue) : q.withdraw.items = q.items := rfl
@[simp] theorem supersede_hush (q : PromptQueue) : q.supersede.hush = q.hush := rfl
@[simp] theorem withdrawMark_hush (q : PromptQueue) : q.withdraw.hush = q.hush := rfl
@[simp] theorem supersede_last (q : PromptQueue) : q.supersede.last = q.last := rfl
@[simp] theorem withdrawMark_last (q : PromptQueue) : q.withdraw.last = q.last := rfl
@[simp] theorem supersede_fault (q : PromptQueue) : q.supersede.fault = q.fault := rfl
@[simp] theorem withdrawMark_fault (q : PromptQueue) : q.withdraw.fault = q.fault := rfl
@[simp] theorem supersede_actionFirst (q : PromptQueue) : q.supersede.actionFirst = q.actionFirst := rfl
@[simp] theorem withdrawMark_actionFirst (q : PromptQueue) : q.withdraw.actionFirst = q.actionFirst := rfl
@[simp] theorem supersede_actionSecond (q : PromptQueue) : q.supersede.actionSecond = q.actionSecond := rfl
@[simp] theorem withdrawMark_actionSecond (q : PromptQueue) : q.withdraw.actionSecond = q.actionSecond := rfl
@[simp] theorem supersede_payment (q : PromptQueue) : q.supersede.payment = q.payment := rfl
@[simp] theorem withdrawMark_payment (q : PromptQueue) : q.withdraw.payment = q.payment := rfl
@[simp] theorem supersede_unload (q : PromptQueue) : q.supersede.unload = q.unload := rfl
@[simp] theorem withdrawMark_unload (q : PromptQueue) : q.withdraw.unload = q.unload := rfl
@[simp] theorem supersede_doneSince (q : PromptQueue) : q.supersede.doneSince = q.doneSince := rfl
@[simp] theorem withdrawMark_doneSince (q : PromptQueue) : q.withdraw.doneSince = q.doneSince := rfl
@[simp] theorem setSeries_current (q : PromptQueue) (r : Series) (x : SeriesState) :
    (q.setSeries r x).current = q.current := by cases r <;> rfl
@[simp] theorem setSeries_hush (q : PromptQueue) (r : Series) (x : SeriesState) :
    (q.setSeries r x).hush = q.hush := by cases r <;> rfl
@[simp] theorem setSeries_last (q : PromptQueue) (r : Series) (x : SeriesState) :
    (q.setSeries r x).last = q.last := by cases r <;> rfl
@[simp] theorem setSeries_doneSince (q : PromptQueue) (r : Series) (x : SeriesState) :
    (q.setSeries r x).doneSince = q.doneSince := by cases r <;> rfl
@[simp] theorem setSeries_series (q : PromptQueue) (r : Series) (x : SeriesState) :
    (q.setSeries r x).series r = x := by cases r <;> rfl
theorem setSeries_other (q : PromptQueue) (r j : Series) (x : SeriesState) (h : j ≠ r) :
    (q.setSeries r x).series j = q.series j := by
  cases r <;> cases j <;> first | rfl | exact absurd rfl h

/-! ## Floor controller -/

@[simp] theorem forget_crowded (c : Floor) (a : Nat) : (c.forget a).crowded = c.crowded := rfl
@[simp] theorem stand_crowded (c : Floor) (a : Nat) : (c.stand a).crowded = c.crowded := rfl
@[simp] theorem forget_state (c : Floor) (a : Nat) : (c.forget a).state = c.state := rfl
@[simp] theorem stand_state (c : Floor) (a : Nat) : (c.stand a).state = c.state := rfl
@[simp] theorem store_state (c : Floor) (a : Nat) (l : Level) (u : Nat) (n : Time) :
    (c.store a l u n).state = c.state := by
  unfold Floor.store; dsimp only; split <;> rfl
@[simp] theorem forget_item (c : Floor) (a : Nat) : (c.forget a).item = c.item := rfl
@[simp] theorem stand_item (c : Floor) (a : Nat) : (c.stand a).item = c.item := rfl
@[simp] theorem store_item (c : Floor) (a : Nat) (l : Level) (u : Nat) (n : Time) :
    (c.store a l u n).item = c.item := by
  unfold Floor.store; dsimp only; split <;> rfl
@[simp] theorem forget_utterance (c : Floor) (a : Nat) : (c.forget a).utterance = c.utterance := rfl
@[simp] theorem stand_utterance (c : Floor) (a : Nat) : (c.stand a).utterance = c.utterance := rfl
@[simp] theorem store_utterance (c : Floor) (a : Nat) (l : Level) (u : Nat) (n : Time) :
    (c.store a l u n).utterance = c.utterance := by
  unfold Floor.store; dsimp only; split <;> rfl
@[simp] theorem forget_playStart (c : Floor) (a : Nat) : (c.forget a).playStart = c.playStart := rfl
@[simp] theorem stand_playStart (c : Floor) (a : Nat) : (c.stand a).playStart = c.playStart := rfl
@[simp] theorem store_playStart (c : Floor) (a : Nat) (l : Level) (u : Nat) (n : Time) :
    (c.store a l u n).playStart = c.playStart := by
  unfold Floor.store; dsimp only; split <;> rfl
@[simp] theorem forget_contestEnd (c : Floor) (a : Nat) : (c.forget a).contestEnd = c.contestEnd := rfl
@[simp] theorem stand_contestEnd (c : Floor) (a : Nat) : (c.stand a).contestEnd = c.contestEnd := rfl
@[simp] theorem store_contestEnd (c : Floor) (a : Nat) (l : Level) (u : Nat) (n : Time) :
    (c.store a l u n).contestEnd = c.contestEnd := by
  unfold Floor.store; dsimp only; split <;> rfl
@[simp] theorem forget_reasserted (c : Floor) (a : Nat) : (c.forget a).reasserted = c.reasserted := rfl
@[simp] theorem stand_reasserted (c : Floor) (a : Nat) : (c.stand a).reasserted = c.reasserted := rfl
@[simp] theorem store_reasserted (c : Floor) (a : Nat) (l : Level) (u : Nat) (n : Time) :
    (c.store a l u n).reasserted = c.reasserted := by
  unfold Floor.store; dsimp only; split <;> rfl
@[simp] theorem forget_releasePending (c : Floor) (a : Nat) : (c.forget a).releasePending = c.releasePending := rfl
@[simp] theorem stand_releasePending (c : Floor) (a : Nat) : (c.stand a).releasePending = c.releasePending := rfl
@[simp] theorem store_releasePending (c : Floor) (a : Nat) (l : Level) (u : Nat) (n : Time) :
    (c.store a l u n).releasePending = c.releasePending := by
  unfold Floor.store; dsimp only; split <;> rfl
@[simp] theorem forget_cutOrder (c : Floor) (a : Nat) : (c.forget a).cutOrder = c.cutOrder := rfl
@[simp] theorem stand_cutOrder (c : Floor) (a : Nat) : (c.stand a).cutOrder = c.cutOrder := rfl
@[simp] theorem store_cutOrder (c : Floor) (a : Nat) (l : Level) (u : Nat) (n : Time) :
    (c.store a l u n).cutOrder = c.cutOrder := by
  unfold Floor.store; dsimp only; split <;> rfl
@[simp] theorem forget_spacing (c : Floor) (a : Nat) : (c.forget a).spacing = c.spacing := rfl
@[simp] theorem stand_spacing (c : Floor) (a : Nat) : (c.stand a).spacing = c.spacing := rfl
@[simp] theorem store_spacing (c : Floor) (a : Nat) (l : Level) (u : Nat) (n : Time) :
    (c.store a l u n).spacing = c.spacing := by
  unfold Floor.store; dsimp only; split <;> rfl
@[simp] theorem forget_composed (c : Floor) (a : Nat) : (c.forget a).composed = c.composed := rfl
@[simp] theorem stand_composed (c : Floor) (a : Nat) : (c.stand a).composed = c.composed := rfl
@[simp] theorem store_composed (c : Floor) (a : Nat) (l : Level) (u : Nat) (n : Time) :
    (c.store a l u n).composed = c.composed := by
  unfold Floor.store; dsimp only; split <;> rfl
@[simp] theorem forget_swapped (c : Floor) (a : Nat) : (c.forget a).swapped = c.swapped := rfl
@[simp] theorem stand_swapped (c : Floor) (a : Nat) : (c.stand a).swapped = c.swapped := rfl
@[simp] theorem store_swapped (c : Floor) (a : Nat) (l : Level) (u : Nat) (n : Time) :
    (c.store a l u n).swapped = c.swapped := by
  unfold Floor.store; dsimp only; split <;> rfl
@[simp] theorem forget_spacingOver (c : Floor) (a : Nat) : (c.forget a).spacingOver = c.spacingOver := rfl
@[simp] theorem stand_spacingOver (c : Floor) (a : Nat) : (c.stand a).spacingOver = c.spacingOver := rfl
@[simp] theorem store_spacingOver (c : Floor) (a : Nat) (l : Level) (u : Nat) (n : Time) :
    (c.store a l u n).spacingOver = c.spacingOver := by
  unfold Floor.store; dsimp only; split <;> rfl

/-! ## Voice player -/

@[simp] theorem ampOn_stream (v : VoicePlayer) : v.ampOn.stream = v.stream := rfl
@[simp] theorem ampIdle_stream (v : VoicePlayer) (n : Time) :
    (v.ampIdle n).stream = v.stream := by
  unfold VoicePlayer.ampIdle; split <;> rfl
@[simp] theorem ampOn_buffer (v : VoicePlayer) : v.ampOn.buffer = v.buffer := rfl
@[simp] theorem ampIdle_buffer (v : VoicePlayer) (n : Time) :
    (v.ampIdle n).buffer = v.buffer := by
  unfold VoicePlayer.ampIdle; split <;> rfl
@[simp] theorem ampOn_fetch (v : VoicePlayer) : v.ampOn.fetch = v.fetch := rfl
@[simp] theorem ampIdle_fetch (v : VoicePlayer) (n : Time) :
    (v.ampIdle n).fetch = v.fetch := by
  unfold VoicePlayer.ampIdle; split <;> rfl
@[simp] theorem ampOn_playPos (v : VoicePlayer) : v.ampOn.playPos = v.playPos := rfl
@[simp] theorem ampIdle_playPos (v : VoicePlayer) (n : Time) :
    (v.ampIdle n).playPos = v.playPos := by
  unfold VoicePlayer.ampIdle; split <;> rfl
@[simp] theorem ampOn_refill (v : VoicePlayer) : v.ampOn.refill = v.refill := rfl
@[simp] theorem ampIdle_refill (v : VoicePlayer) (n : Time) :
    (v.ampIdle n).refill = v.refill := by
  unfold VoicePlayer.ampIdle; split <;> rfl
@[simp] theorem ampOn_tone (v : VoicePlayer) : v.ampOn.tone = v.tone := rfl
@[simp] theorem ampIdle_tone (v : VoicePlayer) (n : Time) :
    (v.ampIdle n).tone = v.tone := by
  unfold VoicePlayer.ampIdle; split <;> rfl
@[simp] theorem ampOn_aout (v : VoicePlayer) : v.ampOn.aout = v.aout := rfl
@[simp] theorem ampIdle_aout (v : VoicePlayer) (n : Time) :
    (v.ampIdle n).aout = v.aout := by
  unfold VoicePlayer.ampIdle; split <;> rfl
@[simp] theorem ampOn_periodStart (v : VoicePlayer) : v.ampOn.periodStart = v.periodStart := rfl
@[simp] theorem ampIdle_periodStart (v : VoicePlayer) (n : Time) :
    (v.ampIdle n).periodStart = v.periodStart := by
  unfold VoicePlayer.ampIdle; split <;> rfl
@[simp] theorem ampOn_ampEn (v : VoicePlayer) : v.ampOn.ampEn = true := rfl
@[simp] theorem ampOn_ampRelease (v : VoicePlayer) : v.ampOn.ampRelease = none := rfl
@[simp] theorem ampIdle_ampEn (v : VoicePlayer) (n : Time) :
    (v.ampIdle n).ampEn = v.ampEn := by
  unfold VoicePlayer.ampIdle; split <;> rfl
@[simp] theorem receive_stream (v : VoicePlayer) (w : List Byte) (k : Nat) :
    (v.receive w k).stream = v.stream := by
  unfold VoicePlayer.receive; split <;> rfl
@[simp] theorem receive_fetch (v : VoicePlayer) (w : List Byte) (k : Nat) :
    (v.receive w k).fetch = v.fetch := by
  unfold VoicePlayer.receive; split <;> rfl
@[simp] theorem receive_playPos (v : VoicePlayer) (w : List Byte) (k : Nat) :
    (v.receive w k).playPos = v.playPos := by
  unfold VoicePlayer.receive; split <;> rfl
@[simp] theorem receive_tone (v : VoicePlayer) (w : List Byte) (k : Nat) :
    (v.receive w k).tone = v.tone := by
  unfold VoicePlayer.receive; split <;> rfl
@[simp] theorem receive_aout (v : VoicePlayer) (w : List Byte) (k : Nat) :
    (v.receive w k).aout = v.aout := by
  unfold VoicePlayer.receive; split <;> rfl
@[simp] theorem receive_periodStart (v : VoicePlayer) (w : List Byte) (k : Nat) :
    (v.receive w k).periodStart = v.periodStart := by
  unfold VoicePlayer.receive; split <;> rfl
@[simp] theorem receive_ampEn (v : VoicePlayer) (w : List Byte) (k : Nat) :
    (v.receive w k).ampEn = v.ampEn := by
  unfold VoicePlayer.receive; split <;> rfl

/-- The samples that arrive take up the refill where it stood. -/
@[simp] theorem refillSamples_length (r : Refill) (b : List Byte) (k : Nat) :
    (refillSamples r b k).length = min r.size k - r.arrived := by simp [refillSamples]

/-- R138, R150: what is taken back of the series changes nothing else of the prompt queue. -/
@[simp] theorem undoSeries_items (b a q : PromptQueue) : (b.undoSeries a q).items = q.items := rfl
@[simp] theorem undoSeries_current (b a q : PromptQueue) : (b.undoSeries a q).current = q.current := rfl
@[simp] theorem undoSeries_hush (b a q : PromptQueue) : (b.undoSeries a q).hush = q.hush := rfl
@[simp] theorem undoSeries_last (b a q : PromptQueue) : (b.undoSeries a q).last = q.last := rfl
@[simp] theorem undoSeries_doneSince (b a q : PromptQueue) : (b.undoSeries a q).doneSince = q.doneSince := rfl
@[simp] theorem strike_view (c : Floor) (m : PromptClass → CondKey → Bool) : (c.strike m).view = c.view := rfl
@[simp] theorem strike_crowded (c : Floor) (m : PromptClass → CondKey → Bool) :
    (c.strike m).crowded = c.crowded := rfl
@[simp] theorem strike_state (c : Floor) (m : PromptClass → CondKey → Bool) :
    (c.strike m).state = c.state := rfl
@[simp] theorem strike_item (c : Floor) (m : PromptClass → CondKey → Bool) : (c.strike m).item = c.item := rfl
@[simp] theorem strike_utterance (c : Floor) (m : PromptClass → CondKey → Bool) :
    (c.strike m).utterance = c.utterance := rfl
@[simp] theorem strike_playStart (c : Floor) (m : PromptClass → CondKey → Bool) :
    (c.strike m).playStart = c.playStart := rfl
@[simp] theorem strike_contestEnd (c : Floor) (m : PromptClass → CondKey → Bool) :
    (c.strike m).contestEnd = c.contestEnd := rfl
@[simp] theorem strike_reasserted (c : Floor) (m : PromptClass → CondKey → Bool) :
    (c.strike m).reasserted = c.reasserted := rfl
@[simp] theorem strike_releasePending (c : Floor) (m : PromptClass → CondKey → Bool) :
    (c.strike m).releasePending = c.releasePending := rfl
@[simp] theorem strike_cutOrder (c : Floor) (m : PromptClass → CondKey → Bool) :
    (c.strike m).cutOrder = c.cutOrder := rfl
@[simp] theorem strike_spacing (c : Floor) (m : PromptClass → CondKey → Bool) :
    (c.strike m).spacing = c.spacing := rfl
@[simp] theorem strike_composed (c : Floor) (m : PromptClass → CondKey → Bool) :
    (c.strike m).composed = c.composed := rfl
/-- R99: no item that a withdrawal means is still noted as having left the queue in its moment. -/
theorem strike_meets (c : Floor) (m : PromptClass → CondKey → Bool) :
    (∀ o, (c.strike m).spacingOver = some o → ∀ x ∈ o.said, ∀ it, x.item = some it → m it.cls it.key = false) ∧
    ∀ w, (c.strike m).swapped = some w → ∀ it, w.gone = some it → m it.cls it.key = false := by
  constructor
  · intro o h x hx it hi
    obtain ⟨p, -, rfl⟩ := Option.map_eq_some_iff.1 h
    obtain ⟨y, -, rfl⟩ := List.mem_map.1 hx
    split at hi
    · cases hi
    · rename_i g; simpa [hi] using g
  · intro w h it hi
    obtain ⟨v, -, rfl⟩ := Option.map_eq_some_iff.1 h
    split at hi
    · cases hi
    · rename_i g; simpa [hi] using g
@[simp] theorem unsay_items (q : PromptQueue) (x : Said) : (q.unsay x).items = q.items := rfl
@[simp] theorem unsay_current (q : PromptQueue) (x : Said) : (q.unsay x).current = q.current := rfl
@[simp] theorem unsay_last (q : PromptQueue) (x : Said) : (q.unsay x).last = x.before.last := rfl
/-- A series goes back to what it was, unless it is no longer what the change left. -/
@[simp] theorem undoSeries_series (b a q : PromptQueue) (r : Series) :
    (b.undoSeries a q).series r = if q.series r = a.series r then b.series r else q.series r := by cases r <;> rfl

/-- R88: before the dark timer is due a resolution finds the part as it was; when it is due the part is DARK and the
dialogue in VIEW. -/
theorem darkFirst_cases (s : State) :
    s.darkDue = false ∧ darkFirst s = s ∨ s.darkDue = true ∧ darkFirst s = goDark s := by
  unfold darkFirst; cases s.darkDue <;> simp

/-- R61: all that the debounce of a key asks. -/
theorem debounced_iff (s : State) (k : Key) (d : Time) : s.debounced k d = true ↔
    s.psp.profile.debounceOf k ≤ d ∧ ∃ f, s.steadyFrom k = some f ∧ f + s.psp.profile.debounceOf k ≤ s.now := by
  unfold State.debounced; cases s.steadyFrom k <;> simp [due]

/-- R14: LRX is compared in the middle of each bit of the attempt, and at no other moment. -/
theorem compares_iff (l : LinePort) (n : Time) : l.compares n = true ↔ ∃ x, l.tx = some x ∧ x.start ≤ n ∧
    n < x.ends ∧ (n - x.start) % bitTime = halfBit := by
  unfold LinePort.compares; split
  · rename_i x h; simp [h, and_assoc]
  · rename_i h; simp [h]

/-! ## Attention unit -/

theorem timers_state (a : AttentionUnit) (x y : Option Time) :
    ({ a with dim := x, dark := y } : AttentionUnit).state = a.state := rfl
@[simp] theorem restart_state (a : AttentionUnit) (p : Profile) (n : Time) :
    (a.restart p n).state = a.state := timers_state a _ _
theorem timers_reprompt (a : AttentionUnit) (x y : Option Time) :
    ({ a with dim := x, dark := y } : AttentionUnit).reprompt = a.reprompt := rfl
@[simp] theorem restart_reprompt (a : AttentionUnit) (p : Profile) (n : Time) :
    (a.restart p n).reprompt = a.reprompt := timers_reprompt a _ _
theorem timers_count (a : AttentionUnit) (x y : Option Time) :
    ({ a with dim := x, dark := y } : AttentionUnit).count = a.count := rfl
@[simp] theorem restart_count (a : AttentionUnit) (p : Profile) (n : Time) :
    (a.restart p n).count = a.count := timers_count a _ _
theorem reminders_state (a : AttentionUnit) (x : Option Time) (c : Nat) :
    ({ a with reprompt := x, count := c } : AttentionUnit).state = a.state := rfl
@[simp] theorem reminder_state (a : AttentionUnit) (p : Profile) (n : Time) :
    (a.reminder p n).state = a.state := reminders_state a _ _
@[simp] theorem noReminder_state (a : AttentionUnit) : a.noReminder.state = a.state := rfl
theorem reminders_dim (a : AttentionUnit) (x : Option Time) (c : Nat) :
    ({ a with reprompt := x, count := c } : AttentionUnit).dim = a.dim := rfl
@[simp] theorem reminder_dim (a : AttentionUnit) (p : Profile) (n : Time) :
    (a.reminder p n).dim = a.dim := reminders_dim a _ _
@[simp] theorem noReminder_dim (a : AttentionUnit) : a.noReminder.dim = a.dim := rfl
theorem reminders_dark (a : AttentionUnit) (x : Option Time) (c : Nat) :
    ({ a with reprompt := x, count := c } : AttentionUnit).dark = a.dark := rfl
@[simp] theorem reminder_dark (a : AttentionUnit) (p : Profile) (n : Time) :
    (a.reminder p n).dark = a.dark := reminders_dark a _ _
@[simp] theorem noReminder_dark (a : AttentionUnit) : a.noReminder.dark = a.dark := rfl
@[simp] theorem noReminder_reprompt (a : AttentionUnit) : a.noReminder.reprompt = none := rfl
@[simp] theorem noReminder_count (a : AttentionUnit) : a.noReminder.count = 0 := rfl

end Sys2Proof.Machine
end

