-- ==== Sys2Proof/Tests/Slice0.lean ====
section
/-! SUPPORT. The model's own tests: an ill-formed command for each check of WellFormed; the worked examples
of the spec; and, for each obligation that has hypotheses, a state and operands that meet them all. -/

namespace Sys2Proof.Tests

open Sys2Proof Sys2Proof.Machine

/-! ## Well-formedness: each check refuses -/

theorem test_wf_header : WellFormed (.headerReadEnd 0 [0x42#8] true) = false := by decide
theorem test_wf_image : WellFormed (.imageReadEnd 0 [] true) = false := by decide
theorem test_wf_roster : WellFormed (.rosterEntryExpire 0 32) = false := by decide
theorem test_wf_class : WellFormed (.queueItemExpire 0 .cycleDone) = false := by decide
theorem test_wf_composer : WellFormed (.composerReadEnd 0 []) = false := by decide
theorem test_wf_refill : WellFormed (.refillEnd 0 (List.replicate 65 0#8)) = false := by decide
theorem test_wf_sample : WellFormed (.samplePeriod ⟨0, List.replicate 65 0#8⟩) = false := by decide
theorem test_wf_view : WellFormed (.viewEntryExpire 0 32) = false := by decide
theorem test_wf_claim : WellFormed (.claimStands 0 64) = false := by decide
theorem test_wf_glitch : WellFormed (.startBitEdge 0 (some 626)) = false := by decide
theorem test_wf_passes : WellFormed (.startBitEdge 0 (some 625)) = true ∧
    WellFormed (.claimStands 0 63) = true ∧ WellFormed (.queueItemExpire 0 .welcome) = true := by decide

/-! ## Words: no row of the table has bits -/

theorem test_no_word (n w : Nat) : decodeTableWord n w = none := rfl
theorem test_no_fetch (s : State) (n w : Nat) : s.withFetchWord n w = s := rfl

/-! ## Worked examples of the spec -/

/-- Chapter 12, "A claim on the wire": station 44 claims ROUTINE, ROOM, F = 24. -/
theorem test_claim_on_the_wire :
    buildFrame .claim 44 (claimPayload .routine .room 24) = [0x22#8, 0x2C#8, 0x02#8, 0x18#8, 0x56#8] := by
  decide +kernel

/-- Chapter 1, the RELEASE of station 44: 30h, 2Ch, 49h. -/
theorem test_release_on_the_wire : buildFrame .release 44 [] = [0x30#8, 0x2C#8, 0x49#8] := by
  decide +kernel

/-- The entries of chapter 7, "Composing a finished cycle", with addresses of the test's own. -/
def finishedCycle : List Entry := [.clip 108 0 48, .clip 12 3840 42, .clip 140 7200 75]

/-- Chapter 7, "Composing a finished cycle": U = 237, F = 24; at LOCAL reach 177 and 18. -/
theorem test_finished_cycle_length : utteranceUnits .room 6 finishedCycle = 237 ∧ floorUnits 237 = 24 ∧
    utteranceUnits .loc 6 finishedCycle = 177 ∧ floorUnits 177 = 18 := by decide

/-- The entries of chapter 7, "A long reminder cut to the limit". -/
def longReminder : List Entry := [.clip 160 0 1200, .clip 161 0 900, .clip 5 0 40, .clip 104 0 55, .clip 162 0 400]

/-- Chapter 7, "A long reminder cut to the limit": the fifth entry is dropped, U = 2,330 and F = 233; at LOCAL
reach U = 2,270 and F = 227. -/
theorem test_long_reminder : utteranceUnits .room 25 longReminder = 2755 ∧
    trim .room 25 longReminder 5 = longReminder.take 4 ∧ utteranceUnits .room 25 (longReminder.take 4) = 2330 ∧
    floorUnits 2330 = 233 ∧ trim .loc 25 longReminder 5 = longReminder.take 4 ∧
    utteranceUnits .loc 25 (longReminder.take 4) = 2270 ∧ floorUnits 2270 = 227 := by decide

/-- Chapter 7, the table "Minutes as spoken". -/
theorem test_minutes_as_spoken : minutesClips 1023 = [106] ∧ minutesClips 0 = [105] ∧ minutesClips 1 = [1, 103] ∧
    minutesClips 13 = [13, 104] ∧ minutesClips 16 = [15, 104] ∧ minutesClips 18 = [20, 104] ∧
    minutesClips 58 = [1, 101] ∧ minutesClips 62 = [1, 101] ∧ minutesClips 87 = [1, 101, 25, 104] ∧
    minutesClips 120 = [2, 102] ∧ minutesClips 999 = [16, 102, 40, 104] := by decide

/-- R119: 305, 999 and 100 as numbers, 17 and 1023 as digits. -/
theorem test_numbers : numberClips 305 = [3, 100, 5] ∧ numberClips 999 = [9, 100, 99] ∧
    numberClips 100 = [1, 100] ∧ digitClips 17 = [1, 7] ∧ digitClips 1023 = [1, 0, 2, 3] := by decide

/-- R154: −100 at step 8 gives −53, 127 at 15 gives 127, 1 at 8 gives 0. -/
theorem test_gain : applyGain (-100) 8 = -53 ∧ applyGain 127 15 = 127 ∧ applyGain 1 8 = 0 := by decide

/-- R157: 2 kHz repeats two samples high and two low; 200 Hz runs 20 high and 20 low. -/
theorem test_square : [0, 1, 2, 3, 4].map (square 2000) = [96, 96, -96, -96, 96] ∧ square 200 19 = 96 ∧
    square 200 20 = -96 ∧ square 200 39 = -96 ∧ square 200 40 = 96 := by decide

/-- R166: prescaler 1 s, tens 2, ones 13 gives 29 s; the longest gives 790 s; and the default T_DARK is 120 s. -/
theorem test_timers : timerValue 0x2D#8 = 29 * second ∧ timerValue 0xFD#8 = 790 * second ∧
    timerValue 0x92#8 = 120 * second := by decide

/-- R193: CLIP 140 is coded 108Ch, OWN_NUMBER 2000h, OPTION(1) 7001h; erased flash reads as END. -/
theorem test_template_items : templateItemOf 0x108C = .clip 140 ∧ templateItemOf 0x2000 = .ownNumber ∧
    templateItemOf 0x7001 = .option 1 ∧ templateItemOf 0xFFFF = .done := by decide

/-- R124: the machine list 5, 9. -/
theorem test_machine_list : machinesClips [5, 9] = [108, 5, 107, 9] ∧ machinesClips [] = [] ∧
    machinesClips [2, 5, 9] = [108, 2, 5, 107, 9] := by decide

/-- R175: 52 minutes, 125 as 2.05, 600 as 10.00, 999 as 16.39, and UNKNOWN as two dashes. -/
theorem test_minutes_view : minutesGlyphs (some 52) = [.blank, .blank, .digit 5, .digit 2] ∧
    minutesGlyphs (some 125) = [.blank, .digit 2, .digit 0, .digit 5] ∧
    minutesGlyphs (some 600) = [.digit 1, .digit 0, .digit 0, .digit 0] ∧
    minutesGlyphs (some 999) = [.digit 1, .digit 6, .digit 3, .digit 9] ∧
    minutesGlyphs none = [.blank, .blank, .dash, .dash] ∧ (View.minutes (some 125)).separator = true ∧
    (View.minutes (some 99)).separator = false := by decide

/-- R1: a byte on the line, least significant bit first between a dominant start and a recessive stop. -/
theorem test_byte_bits : byteBits 0x22#8 =
    [false, false, true, false, false, false, true, false, false, true] := by decide

/-- R180: the read of address 012345h. -/
theorem test_read_command : readCommand { addr := 0x012345, size := 10 } = [0x03#8, 0x01#8, 0x23#8, 0x45#8] := by
  decide

/-- R20, R21, R189: a STATUS payload: a DRYER, RUNNING, door closed, program 2, DRY, 258 minutes, action 3,
credits over 99, fault 17, START accepted with mark 1. -/
theorem test_status_fields :
    (recordOf [0x53#8, 0x52#8, 0x02#8, 0x0D#8, 0x78#8, 0x11#8, 0x81#8, 0x19#8, 0x00#8]).kind = .dryer ∧
    (recordOf [0x53#8, 0x52#8, 0x02#8, 0x0D#8, 0x78#8, 0x11#8, 0x81#8, 0x19#8, 0x00#8]).state = .running ∧
    (recordOf [0x53#8, 0x52#8, 0x02#8, 0x0D#8, 0x78#8, 0x11#8, 0x81#8, 0x19#8, 0x00#8]).minutes = some 258 ∧
    (recordOf [0x53#8, 0x52#8, 0x02#8, 0x0D#8, 0x78#8, 0x11#8, 0x81#8, 0x19#8, 0x00#8]).action = 3 ∧
    (recordOf [0x53#8, 0x52#8, 0x02#8, 0x0D#8, 0x78#8, 0x11#8, 0x81#8, 0x19#8, 0x00#8]).credits = 99 ∧
    (recordOf [0x53#8, 0x52#8, 0x02#8, 0x0D#8, 0x78#8, 0x11#8, 0x81#8, 0x19#8, 0x00#8]).ansKind = some .start := by
  decide

/-! ## Witnesses of the obligations' hypotheses

Each theorem names the obligation whose hypotheses its state and operands meet, every clause of it in turn,
with the time-driven ones at the very moment they fall due. -/

/-- Station 44 in RUN on an idle line, its partner FRESH and FREE. -/
def inRoom : State :=
  { State.reset with
    psp := { PhraseStore.reset with phase := .run, machine := 12, listenStart := some 0, runStart := some 0 }
    lp := { LinePort.reset with armed := true, idleSince := some 0, recessiveSince := some 0 }
    pm := { PartnerMonitor.reset with freshness := .fresh, freshTimer := some (6 * second) } }

/-- Every command is answered with a next state. -/
theorem exec_answers (i : Instr) (s : State) : ∃ u, exec i s = .next u := by
  cases i <;> exact ⟨_, rfl⟩

/-- Every step is answered with a next state. -/
theorem step_answers (s : State) : ∃ u, step s = .next u := by
  unfold step
  split
  · exact ⟨_, rfl⟩
  · exact exec_answers _ _

/-! ### Laws -/

/-- An item of a class, placed at 0. -/
def itemOf (c : PromptClass) : Item :=
  { cls := c, params := { p0 := 0, p1 := 0, p2 := 0, p3 := 0 }, machines := none, reach := baseReach c,
    expiry := lifetime c, key := classKey c, enqueued := 0 }

/-- An utterance of two entries at LOCAL reach: U = 40 and F = 4. -/
def shortUtterance : Utterance :=
  { cls := .welcome, level := .routine, reach := .loc, lang := 0, gap := 5,
    entries := [.clip 1 4096 20, .clip 2 8192 15], units := 40, floor := 4 }

theorem shortUtterance_lawful : shortUtterance.lawful := by
  refine ⟨by decide, by decide, by decide, by decide, by decide, 1, 4096, 20, by decide, by decide⟩

/-- A claim of station 40, URGENT, heard at 0. -/
def heardClaim : ViewEntry :=
  { addr := 40, level := .urgent, arrival := 0, expiry := 24 * floorUnit + claimGrace, speaking := false }

/-- A full queue of eight items, with an expiry due. -/
def fullQueue : State :=
  { inRoom with
    pending := [.queueItemExpire (3 * second) .pleaseWait]
    pq := { PromptQueue.reset with
            items := [.faultCall, .partnerLost, .paymentDue, .timeCall, .reprompt, .outOfService, .welcome,
                      .pleaseWait].map itemOf } }

theorem meets_StepKeepsTheQueueInOrder : QueueLaw fullQueue ∧ fullQueue.pq.items.length = 8 ∧
    ∃ u, step fullQueue = .next u :=
  ⟨⟨by decide, by decide⟩, by decide, step_answers _⟩

/-- A view of one claim, which lapses. -/
def claimed : State :=
  { inRoom with
    pending := [.viewEntryExpire (24 * floorUnit + claimGrace) 40]
    fc := { Floor.reset with view := [heardClaim] } }

theorem meets_StepKeepsTheView : ViewLaw claimed ∧ ∃ u, step claimed = .next u :=
  ⟨⟨by decide, by decide, by decide, by decide⟩, step_answers _⟩

/-- Machine 13, a free dryer, heard at 0. -/
def neighbour : RosterEntry := { machine := 13, kind := .dryer, coarse := .free, minutes := none, arrival := 0 }

/-- A roster of one machine, whose 20 s are over. -/
def withNeighbour : State :=
  { inRoom with pending := [.rosterEntryExpire (20 * second) 13], roster := [neighbour] }

theorem meets_StepKeepsTheRoster : RosterLaw withNeighbour ∧ ∃ u, step withNeighbour = .next u :=
  ⟨⟨by decide, by decide, by decide⟩, step_answers _⟩

/-- A CLAIM of the station's, not yet sent. -/
def claimPlace : Place :=
  { kind := .claim, bytes := buildFrame .claim 44 (claimPayload .routine .room 24), reassert := false, attempts := 0 }

/-- A REQUEST of the station's: START with mark 1, in its sixteenth attempt. -/
def requestPlace : Place :=
  { kind := .request, bytes := buildFrame .request 44 (requestPayload .start true 0 0), reassert := false,
    attempts := 16 }

/-- A RELEASE of the station's. -/
def releasePlace : Place :=
  { kind := .release, bytes := buildFrame .release 44 [], reassert := false, attempts := 1 }

/-- All three frames in the list, none of them begun, the gap of a CLAIM (12 + 4 bit times) complete. -/
def threeFrames : State :=
  { inRoom with
    pending := [.attemptStart (16 * bitTime)]
    lp := { LinePort.reset with queue := [claimPlace, releasePlace, requestPlace], armed := true,
                                idleSince := some 0 } }

theorem meets_StepKeepsOneFrameOfAKind : TransmitLaw threeFrames ∧ ∃ u, step threeFrames = .next u :=
  ⟨by unfold TransmitLaw; decide, step_answers _⟩

/-- The count at its end, with the line held. -/
def noisy : State :=
  { inRoom with
    pending := [.lineHeldClear (10 * milli)]
    lp := { LinePort.reset with errCount := 31, degraded := true, lineHeld := true, idleSince := some 0,
                                recessiveSince := some 0 } }

theorem meets_StepKeepsTheErrorCount : CountLaw noisy ∧ ∃ u, step noisy = .next u :=
  ⟨⟨by decide, by decide, by decide⟩, step_answers _⟩

/-- CLASH latched, with nothing in the list. -/
def clashed : State :=
  { inRoom with pending := [.attemptStart 0], lp := { LinePort.reset with clash := true, idleSince := some 0 } }

theorem meets_StepKeepsTheLineSilent : SilenceLaw clashed ∧ clashed.lp.clash = true ∧
    ∃ u, step clashed = .next u :=
  ⟨⟨by decide, by decide⟩, by decide, step_answers _⟩

/-- A list of 16 open at its last place, with a step key held to its repeat. -/
def browsing : State :=
  { inRoom with
    pending := [.stepRepeat (600 * milli)]
    pu := { PanelUnit.reset with listLen := some 16, position := 15, snapshot := 0, settle := some (300 * milli),
                                 stepRepeat := some { up := true, due := 600 * milli } }
    dc := { Dialogue.reset with state := .browseProgram } }

theorem meets_StepKeepsThePanelInItsList : PanelLaw browsing ∧ ∃ u, step browsing = .next u :=
  ⟨⟨fun _ h => by cases h; decide, fun _ h => by cases h⟩, step_answers _⟩

/-- A CLAIM in the list, a playback under way. -/
def speakingAt (n : Time) : State :=
  { inRoom with
    now := n
    lp := { LinePort.reset with queue := [claimPlace], armed := true, claimOut := true, idleSince := some 0 }
    pq := { PromptQueue.reset with
            current := some { cls := .welcome, key := .none, superseded := false, withdrawn := false } }
    fc := { Floor.reset with state := .speaking, item := some (itemOf .welcome), utterance := some shortUtterance,
                             playStart := some 0, view := [heardClaim] }
    vp := { VoicePlayer.reset with
            stream := some { sound := .utterance shortUtterance, gain := 8, start := 0, early := none,
                             hardStop := some (600 * milli) } } }

theorem meets_StepKeepsClaimsWithinFloorUnits : UnitsLaw (speakingAt 0) ∧ SpeakLaw (speakingAt 0) ∧
    ∃ u, step (speakingAt 0) = .next u := by
  refine ⟨⟨fun p hp _ => ?_, fun _ h _ => (by cases h), fun x hx => ?_, fun _ h => (by cases h), fun p hp => ?_⟩,
    ⟨fun _ => rfl, fun h => by cases h⟩, step_answers _⟩
  · have : p = claimPlace := by simpa [speakingAt, inRoom] using hp
    exact ⟨44, .routine, .room, 24, by decide, by decide, this ▸ rfl⟩
  · have : shortUtterance = x := by simpa [speakingAt, inRoom] using hx
    exact this ▸ shortUtterance_lawful
  · have : 0 = p := by simpa [speakingAt, inRoom] using hp
    exact this ▸ Nat.zero_le _

theorem meets_StepSoundsOnlyInSpeaking : SpeakLaw (speakingAt 0) ∧ (speakingAt 0).vp.stream.isSome = true ∧
    ∃ u, step (speakingAt 0) = .next u :=
  ⟨⟨fun _ => rfl, fun h => by cases h⟩, rfl, step_answers _⟩

/-- A START request in flight. -/
def startRequest : Request :=
  { kind := .start, mark := true, program := 0, options := 0, deadline := 3 * second, sent := false }

/-- The dialogue awaits the answer to a START asked in CONFIRM. -/
def awaiting : State :=
  { inRoom with
    pending := [.requestDeadline (3 * second)]
    pm := { inRoom.pm with inFlight := some startRequest, lastMark := true }
    dc := { Dialogue.reset with state := .awaitAnswer, ret := some .confirm } }

theorem meets_StepKeepsTheDialogueHonest : DialogueLaw awaiting ∧ ∃ u, step awaiting = .next u :=
  ⟨⟨by decide, by decide⟩, step_answers _⟩

/-! ### Frames -/

theorem meets_StepRunsTheFrontCommand : State.reset.pending = [] := rfl
theorem meets_SpeakingCommandsFrame :
    Instr.hardStop 0 ∈ [.composerReadEnd 0 [], .compositionEnd 0, .currentItemExpire 0, .contestWindowEnd 0,
      .refillEnd 0 [], .arbiterGrant 0, .utterancePlayedWhole 0, .cutComplete 0, .hardStopFade 0, .hardStop 0,
      .spacingEnd 0, .queueItemExpire 0 .welcome] ∧
    ∃ u, exec (.hardStop (600 * milli)) (speakingAt 0) = .next u := ⟨by decide, exec_answers _ _⟩
theorem meets_ViewTimersFrame :
    Instr.claimStands 0 40 ∈ [.viewEntryExpire 0 40, .crowdedClear 0, .claimStands 0 40] ∧
    ∃ u, exec (.claimStands (80 * milli) 40) claimed = .next u := ⟨by decide, exec_answers _ _⟩
theorem meets_TimedPromptsFrame :
    Instr.dimTimeout 0 ∈ [.callTimerExpire 0 .fault, .dimTimeout 0, .repromptTimeout 0] ∧
    ∃ u, exec (.callTimerExpire 0 .fault) inRoom = .next u := ⟨by decide, exec_answers _ _⟩
theorem meets_PanelCommandsFrame :
    Instr.stepRepeat 0 ∈ [.knobTransition 0 true true, .keyPressAccepted 0 .up 0, .keyReleaseAccepted 0 .up 0,
      .stepRepeat 0, .settleTimeout 0, .cancelHold 0, .startHold 0, .helpWindowClose 0, .languageHold 0,
      .hushToggle 0, .darkTimeout 0] ∧
    ∃ u, exec (.stepRepeat (600 * milli)) browsing = .next u := ⟨by decide, exec_answers _ _⟩
theorem meets_PartnerTimersFrame : Instr.requestDeadline 0 ∈ [.freshnessTimeout 0, .requestDeadline 0] ∧
    ∃ u, exec (.requestDeadline (3 * second)) awaiting = .next u := ⟨by decide, exec_answers _ _⟩
theorem meets_LineCommandsFrame :
    Instr.attemptStart 0 ∈ [.receptionClose 0, .lineHeldSet 0, .lineHeldClear 0, .attemptStart 0, .attemptWithdrawn 0,
      .transmissionComplete 0, .startBitEdge 0 none, .byteReceived 0 0 true] ∧
    ∃ u, exec (.attemptStart (16 * bitTime)) threeFrames = .next u := ⟨by decide, exec_answers _ _⟩
theorem meets_OutputTicksFrame :
    (Instr.samplePeriod ⟨0, []⟩ ∈ [.samplePeriod ⟨0, []⟩, .toneSoundEnd 0, .ampReleaseExpire 0] ∧
      ∃ u, exec (.samplePeriod ⟨0, []⟩) (speakingAt 0) = .next u) ∧
    Instr.multiplexSlot 0 ∈ [.multiplexSlot 0, .lampTestEnd 0, .e1WindowEnd 0] ∧
    ∃ u, exec (.multiplexSlot 0) inRoom = .next u := ⟨⟨by decide, exec_answers _ _⟩, by decide, exec_answers _ _⟩
theorem meets_StartUpFrame :
    Instr.resetRelease 0 0x2C#8 ∈ [.resetRelease 0 0x2C#8, .headerReadEnd 0 [] true, .imageReadEnd 0 [] true] ∧
    ∃ u, exec (.resetRelease 0 0x2C#8) State.reset = .next u := ⟨by decide, exec_answers _ _⟩

/-! ### Start-up -/

theorem meets_ResetReleaseReadsTheStraps : State.reset.psp.phase = .held ∧ (0x80#8).toNat % 32 = 0 ∧
    (0x2C#8).toNat % 32 ≠ 0 := by decide

/-- A header of an image with language 0 alone: blocks at 1000h, the profile at 2000h, the tables at 3000h. -/
def goodHeader : List Byte :=
  [0x42#8, 0x50#8, 0x37#8, 0x47#8, 0x01#8, 0x01#8, 0x00#8, 0x10#8, 0x00#8] ++ List.replicate 9 0x00#8 ++
    [0x00#8, 0x20#8, 0x00#8, 0x00#8, 0x30#8, 0x00#8] ++ List.replicate 7 0x00#8

/-- The same with its check byte. -/
def checkedHeader : List Byte := goodHeader ++ [crc8 goodHeader]

/-- The part in IMAGE, with a read of the port that ends at 0. -/
def inImage (r : ImageRead) (h : Option Header) : State :=
  { State.reset with
    psp := { PhraseStore.reset with phase := .image, machine := 12, strapLang := 0, header := h, imageRead := some r
                                    port := .reading .image { addr := 0, size := 32 } 0 false } }

theorem meets_header_passes : headerPasses checkedHeader = true ∧ headerPasses (List.replicate 32 0xFF#8) = false := by
  decide +kernel

theorem meets_ImageIsReadBlockByBlock :
    ((inImage .header none).psp.phase = .image ∧ (inImage .header none).psp.imageRead = some .header) ∧
    ((inImage .profile (some (headerOf checkedHeader))).psp.imageRead = some .profile) ∧
    nextRead (headerOf checkedHeader) (.language 0) = none ∧
    (inImage (.language 0) (some (headerOf checkedHeader))).psp.langs.length = 4 := by
  refine ⟨⟨rfl, rfl⟩, rfl, by decide +kernel, rfl⟩

/-- A header with two languages. -/
def twoLanguages (mask : BitVec 4) : Header :=
  { version := 1, mask := mask, langAddr := [0x1000, 0x1100, 0x1200, 0x1300], profileAdr := 0x2000,
    tablesAdr := 0x3000 }

/-- R183: after the tables the first language present, and after one the next present, here 1 and 3. -/
theorem meets_language_reads :
    (inImage .tables (some (twoLanguages 0b1010#4))).psp.imageRead = some .tables ∧
    (twoLanguages 0b1010#4).present 1 = true ∧ (twoLanguages 0b1010#4).present 3 = true ∧
    (∀ j, j < 1 → (twoLanguages 0b1010#4).present j = false) ∧
    (∀ j, 1 < j → j < 3 → (twoLanguages 0b1010#4).present j = false) ∧
    nextRead (twoLanguages 0b1010#4) .tables = some (.language 1) ∧
    nextRead (twoLanguages 0b1010#4) (.language 1) = some (.language 3) := by
  refine ⟨rfl, by decide, by decide, by decide, fun j h g => ?_, by decide, by decide⟩
  obtain rfl : j = 2 := by omega
  decide

/-- R180: FCS_N is high through the 500 ns before an image read, then FSCK begins with its low half. -/
theorem test_port_pins :
    let psp := PhraseStore.reset.readImage (twoLanguages 1#4) .profile portGap
    psp.selected 11 = false ∧ psp.selected 12 = true ∧ psp.fsck 14 = false ∧ psp.fsck 15 = true ∧
      psp.fmosi (12 + 6 * portBit) = some true ∧ psp.selected (12 + 14 * portByte) = false := by decide +kernel

/-- The part in LISTEN, begun at 0. -/
def inListen : State :=
  { inRoom with psp := { inRoom.psp with phase := .listen, runStart := none }, ind := { Indicator.reset with lampTest := true } }

theorem meets_RunBegins : inListen.psp.phase = .listen ∧ inListen.psp.listenStart = some 0 ∧
    0 + 1000 * milli ≤ (inListen.advance (1000 * milli)).now := by decide

/-! ### The line -/

/-- A reception of one byte, its stop bit ended at 0. -/
def oneByte : Reception :=
  { bytes := [0x22#8], count := 1, faulted := false, overlong := false, own := false, lastStop := 0 }

/-- The line with a reception open, and a byte under way from its edge. -/
def receivingOf (r : Reception) (edge : Option Time) : State :=
  { inRoom with lp := { inRoom.lp with rx := some r, edge := edge } }

theorem meets_BytesJoinTheReception :
    (inRoom.receiving = true ∧ inRoom.lp.edge = none ∧ inRoom.lp.rx = none ∧ inRoom.lp.idleSince = some 0 ∧
      0 + 4 * bitTime ≤ (inRoom.advance (4 * bitTime)).now) ∧
    ((receivingOf oneByte none).lp.armed = true ∧ (receivingOf oneByte none).lp.idleSince = some 0 ∧
      ((receivingOf oneByte none).advance (2 * bitTime)).now < 0 + 4 * bitTime) ∧
    ((receivingOf oneByte (some 0)).receiving = true ∧ (receivingOf oneByte (some 0)).lp.edge = some 0 ∧
      ((receivingOf oneByte (some 0)).advance (9 * bitTime + 624)).now < 0 + 9 * bitTime + halfBit ∧
      0 + 9 * bitTime + halfBit ≤ ((receivingOf oneByte (some 0)).advance (9 * bitTime + 625)).now) ∧
    ((receivingOf oneByte none).lp.idleSince = some 0 ∧
      ((receivingOf oneByte none).advance (4 * bitTime - 1)).now < 0 + 4 * bitTime) := by decide

/-- R2, R13: after a glitch in the second half of a stop bit the gap and the delimiter count from the end of that stop
bit; after a later one, from its own end. -/
theorem test_glitch_within_the_stop_bit :
    let l := LinePort.reset.takeByte 0 0x22#8 true
    (l.glitch (9 * bitTime + halfBit) 100).idleSince = some (10 * bitTime) ∧
      (l.glitch (10 * bitTime) 100).idleSince = some (10 * bitTime + 100) := by decide

/-- R14: the first byte that is driven counts as read back, with a recessive stop bit, in its own place; another
does not. -/
theorem test_read_back (x : Tx) (h : x.bytes = [0x22#8]) (g : x.read = 0) (z : x.start = 0) :
    (x.readBack 0 0x22#8 true).read = 1 ∧ (x.readBack 0 0x22#8 false).read = 0 ∧
    (x.readBack 0 0x23#8 true).read = 0 ∧ (x.readBack 625 0x22#8 true).read = 0 := by
  simp [Tx.readBack, Tx.hears, h, g, z, midBit, halfBit, bitTime]

/-- R8: the last dominant bit of 22h is its eighth, and of FFh its start bit. -/
theorem test_recessive_from : recessiveFrom 0 0x22#8 = 9 * bitTime ∧ recessiveFrom 0 0xFF#8 = bitTime ∧
    recessiveFrom 0 0x80#8 = 8 * bitTime := by decide

/-- R1, R2: 2 bit times of recessive continue a reception unharmed, one tick more faults it. -/
theorem test_start_bit_gap :
    ((receivingOf oneByte none).lp.startBit (2 * bitTime)).rx.map Reception.faulted = some false ∧
    ((receivingOf oneByte none).lp.startBit (2 * bitTime + 1)).rx.map Reception.faulted = some true := by decide

/-- A frame of a header, a source and a payload, received whole, its last stop bit ended at 0. -/
def frameFrom (header source : Byte) (payload : List Byte) : Reception :=
  { bytes := header :: source :: payload ++ [crc8 (header :: source :: payload)], count := payload.length + 3,
    faulted := false, overlong := false, own := false, lastStop := 0 }

/-- A STATUS of machine 13, and a partner's of machine 12. -/
def statusOf (m : Byte) : Reception := frameFrom 0x19#8 m (List.replicate 9 0x00#8)

theorem meets_judged : judge (statusOf 0x0D#8) =
      .good .status 13 [0x00#8, 0x00#8, 0x00#8, 0x00#8, 0x00#8, 0x00#8, 0x00#8, 0x00#8, 0x00#8] ∧
    judge (statusOf 0x0C#8) =
      .good .status 12 [0x00#8, 0x00#8, 0x00#8, 0x00#8, 0x00#8, 0x00#8, 0x00#8, 0x00#8, 0x00#8] ∧
    judge { statusOf 0x0D#8 with faulted := true } = .bad ∧ (statusOf 0x0D#8).count = 12 ∧
    judge (frameFrom 0x50#8 0x2C#8 []) = .unknownKind ∧ judge (frameFrom 0x50#8 0x2C#8 []) ≠ .fragment ∧
    judge (statusOf 0x28#8) = .wrongRange ∧ judge { oneByte with count := 2 } = .fragment ∧
    judge { statusOf 0x0D#8 with overlong := true } = .bad := by decide +kernel

theorem meets_ReceptionIsJudged : (receivingOf (statusOf 0x0D#8) none).receiving = true ∧
    (receivingOf (statusOf 0x0D#8) none).lp.edge = none ∧
    (receivingOf (statusOf 0x0D#8) none).lp.idleSince = some 0 ∧
    0 + 4 * bitTime ≤ ((receivingOf (statusOf 0x0D#8) none).advance (4 * bitTime)).now ∧
    13 ≠ inRoom.psp.machine ∧ 13 ≠ inRoom.ownAddress ∧ (statusOf 0x0D#8).own = false := by decide

/-- A good frame of a kind from a station. -/
def frameOf (k : FrameKind) (station : Nat) (payload : List Byte) : Reception :=
  { bytes := buildFrame k station payload, count := payload.length + 3, faulted := false, overlong := false,
    own := false, lastStop := 0 }

/-- A claim heard from a station at 0. -/
def heardFrom (station : Nat) : ViewEntry := { heardClaim with addr := station }

/-- A view of the eight stations 45 to 52. -/
def fullView : State :=
  { receivingOf (frameOf .claim 40 (claimPayload .urgent .room 24)) none with
    fc := { Floor.reset with view := [45, 46, 47, 48, 49, 50, 51, 52].map heardFrom } }

theorem meets_floor_frames :
    judge (frameOf .claim 40 (claimPayload .urgent .room 24)) = .good .claim 40 [0x03#8, 0x18#8] ∧
    judge (frameOf .release 40 []) = .good .release 40 [] ∧
    judge (frameOf .request 40 (requestPayload .start true 0 0)) = .good .request 40 [0x09#8, 0x00#8, 0x00#8] ∧
    judge (frameOf .release 44 []) = .good .release inRoom.ownAddress [] ∧ 40 ≠ inRoom.ownAddress ∧
    inRoom.lp.clash = false ∧ inRoom.fc.view.length < 8 ∧ (∃ e ∈ claimed.fc.view, e.addr = 40) ∧
    (∀ e ∈ fullView.fc.view, e.addr ≠ 40) ∧ 8 ≤ fullView.fc.view.length := by decide +kernel

theorem meets_PartnerStatusIsTaken : (receivingOf (statusOf 0x0C#8) none).psp.machine = 12 ∧
    (statusOf 0x0C#8).own = false ∧ (receivingOf (statusOf 0x0C#8) none).lp.idleSince = some 0 := by decide

/-- The partner's STATUS of a payload, heard in ENDING over a record of the partner. -/
def partnerSays (payload : List Byte) (f : Freshness) (old : Record) : State :=
  { receivingOf (frameFrom 0x19#8 0x0C#8 payload) none with
    fc := { Floor.reset with state := .ending }
    pm := { inRoom.pm with freshness := f, record := old } }

/-- A payload: state, minutes with the action code above them, fault, answer. -/
def payloadOf (state action fault answer : Byte) : List Byte :=
  [state, 0x00#8, 0x05#8, action <<< 2, 0x00#8, fault, 0x00#8, answer, 0x00#8]

/-- The answer ACCEPTED to a START with mark 1, with an empty report. -/
def answered : State :=
  { partnerSays (payloadOf 0 0 0 0x19#8) .fresh (recordOf (payloadOf 0 0 0 0)) with
    pm := { inRoom.pm with record := recordOf (payloadOf 0 0 0 0),
                           inFlight := some { awaiting.pm.inFlight.getD startRequest with sent := true } }
    dc := awaiting.dc }

theorem meets_answer_in_the_dark :
    let s : State := { answered with au := { answered.au with dark := some (4 * bitTime) } }
    s.au.state ≠ .dark ∧ 4 * bitTime ≤ (s.advance (4 * bitTime)).now ∧ s.dc.state ≠ .view ∧
      (answered.advance (4 * bitTime)).darkDue = false := by decide

theorem meets_machine_report :
    machineReport (recordOf (payloadOf 3 0 0 0)) (recordOf (payloadOf 5 0 0 0)) = [.cycleDone] ∧
    machineReport (recordOf (payloadOf 0 0 17 0)) (recordOf (payloadOf 0 0 0 0)) = [.cleared .fault] ∧
    machineReport (recordOf (payloadOf 3 0 0 0)) (recordOf (payloadOf 5 2 0 0)) = [.cycleDone, .action 2] ∧
    (partnerSays (payloadOf 5 2 0 0) .fresh (recordOf (payloadOf 3 0 0 0))).fc.state = .ending ∧
    (partnerSays (payloadOf 5 2 0 0) .lost .zero).pq.current = none ∧
    (partnerSays (payloadOf 5 2 0 0) .lost .zero).pm.inFlight = none ∧
    judge (frameFrom 0x19#8 0x0C#8 (payloadOf 5 2 0 0)) = .good .status 12 (payloadOf 5 2 0 0) ∧
    (recordOf (payloadOf 5 2 0 0)).shows .done = true ∧
    (answered.pm.inFlight.map fun q => q.answered (recordOf (payloadOf 0 0 0 0x19#8))) = some true ∧
    (answered.pm.inFlight.map fun q => q.answered (recordOf (payloadOf 0 0 0 0x29#8))) = some true ∧
    (answered.pm.inFlight.map fun q => q.answered (recordOf (payloadOf 0 0 0 0x11#8))) = some false ∧
    machineReport answered.pm.record (recordOf (payloadOf 0 0 0 0x19#8)) = [] ∧
    answered.dc.state = .awaitAnswer ∧ answered.dc.ret = some .confirm := by decide +kernel

theorem meets_report_laws : QueueLaw (partnerSays (payloadOf 5 2 0 0) .fresh (recordOf (payloadOf 3 0 0 0))) ∧
    CountLaw (partnerSays (payloadOf 5 2 0 0) .fresh (recordOf (payloadOf 3 0 0 0))) ∧
    (partnerSays (payloadOf 5 2 0 0) .fresh (recordOf (payloadOf 3 0 0 0))).pq.items = [] :=
  ⟨⟨List.Pairwise.nil, Nat.zero_le _⟩, ⟨by decide, by decide, by decide⟩, rfl⟩

/-- Chapter 2, "One STATUS, several events", and chapter 6 after it: CYCLE_DONE, FREE_MACHINES and ACTION_NEEDED
stand in the queue, in class order. -/
theorem test_report_of_the_end :
    ((dispatch .status 12 (payloadOf 5 2 0 0) 0
      (partnerSays [] .fresh (recordOf (payloadOf 3 0 0 0)))).pq.items.map Item.cls) =
        [.actionNeeded, .cycleDone, .freeMachines] := by decide +kernel

/-- R4, R5: a frame of two bytes is a fragment; the station's own address is in range. -/
theorem test_judging : judge { oneByte with count := 2 } = .fragment ∧ isStation 44 = true ∧ isStation 32 = false ∧
    isController 31 = true ∧ isController 32 = false := by decide

theorem meets_ClaimFrameIsReadBack : 33 ≤ 44 ∧ 44 ≤ 63 ∧ 1 ≤ 255 := by decide

/-- The line dominant since 0. -/
def pulledDown : State := { inRoom with lp := { inRoom.lp with idleSince := none, dominantSince := some 0 } }

theorem meets_LineHeldFollowsTheLine : pulledDown.receiving = true ∧ pulledDown.lp.lineHeld = false ∧
    pulledDown.lp.edge = none ∧ pulledDown.lp.dominantSince = some 0 ∧
    (pulledDown.advance (2 * milli - 1)).now < 0 + 2 * milli ∧ 0 + 2 * milli ≤ (pulledDown.advance (2 * milli)).now ∧
    noisy.receiving = true ∧ noisy.lp.lineHeld = true ∧ noisy.lp.recessiveSince = some 0 ∧
    (∀ j, j < 8 → (0xFF#8).getLsbD j = true) ∧ (0x7F#8).getLsbD 7 = false ∧
    (noisy.advance (10 * milli - 1)).now < 0 + 10 * milli ∧ 0 + 10 * milli ≤ (noisy.advance (10 * milli)).now := by decide

theorem meets_AttemptStartsAfterTheGap : threeFrames.psp.phase = .run ∧
    threeFrames.lp.queue = claimPlace :: [releasePlace, requestPlace] ∧ threeFrames.lp.tx = none ∧
    threeFrames.lp.idleSince = some 0 ∧ threeFrames.lp.lineHeld = false ∧ threeFrames.lp.clash = false ∧
    threeFrames.lp.edge = none ∧
    0 + (12 + threeFrames.ownAddress % 8) * bitTime ≤ (threeFrames.advance (16 * bitTime)).now :=
  ⟨rfl, rfl, rfl, rfl, rfl, rfl, rfl, by decide⟩

/-- R13: one tick before its gap is complete nothing begins. -/
theorem test_gap : threeFrames.lp.ready 44 (16 * bitTime) = some claimPlace ∧
    threeFrames.lp.ready 44 (16 * bitTime - 1) = none := by decide +kernel

/-- An attempt of a place, begun at 0, all of its bytes read back. -/
def txOf (p : Place) : Tx :=
  { kind := p.kind, bytes := p.bytes, reassert := p.reassert, start := 0, read := p.bytes.length, place := .intact,
    noRetry := false }

/-- The attempt under way. -/
def attemptOf (p : Place) : State :=
  { inRoom with lp := { inRoom.lp with queue := [p], idleSince := none, tx := some (txOf p) } }

/-- The REQUEST of the request in flight, in its sixteenth attempt. -/
def lastAttempt : State :=
  { attemptOf requestPlace with pm := { inRoom.pm with inFlight := some startRequest, lastMark := true } }

theorem meets_FailedAttemptIsRetriedUpToSixteen :
    (attemptOf claimPlace).lp.tx = some (txOf claimPlace) ∧ 49 < 10 * (txOf claimPlace).bytes.length ∧
    ((attemptOf claimPlace).advance (49 * bitTime + halfBit)).now = (txOf claimPlace).start + 49 * bitTime + halfBit ∧
    0 < 10 * (txOf requestPlace).bytes.length ∧ 0 < 10 * (txOf releasePlace).bytes.length ∧
    (attemptOf { requestPlace with attempts := 15 }).lp.attemptsOf .request < 16 ∧
    { txOf claimPlace with place := .removed }.place ≠ .intact ∧ { txOf claimPlace with noRetry := true }.noRetry = true ∧
    (attemptOf claimPlace).fc.state ≠ .claiming ∧ CountLaw (attemptOf claimPlace) ∧
    16 ≤ (attemptOf { claimPlace with attempts := 16 }).lp.attemptsOf .claim ∧
    16 ≤ (attemptOf { releasePlace with attempts := 16 }).lp.attemptsOf .release ∧
    16 ≤ (attemptOf requestPlace).lp.attemptsOf .request ∧ (attemptOf requestPlace).pm.inFlight = none ∧
    ((attemptOf requestPlace).lp.addErrors 4).mode = (attemptOf requestPlace).lp.mode ∧
    lastAttempt.pm.inFlight = some startRequest ∧ requestMark (txOf requestPlace).bytes = startRequest.mark := by
  unfold CountLaw; decide +kernel

/-- An attempt of which a byte was not read back, at its end; and one that hears a byte it drives, or another. -/
theorem meets_attempt_misread :
    { txOf claimPlace with read := 4 }.read ≠ (txOf claimPlace).bytes.length ∧
    0 + 10 * (txOf claimPlace).bytes.length * bitTime ≤ ((attemptOf claimPlace).advance (50 * bitTime)).now ∧
    { txOf claimPlace with read := 0 }.bytes[0]? = some 0x22#8 ∧ (0 + halfBit - 0) / bitTime = 10 * 0 ∧
    { txOf claimPlace with read := 0 }.bytes[0]? ≠ some 0x23#8 ∧
    (txOf claimPlace).read = (txOf claimPlace).bytes.length := by decide +kernel

/-- R14: a byte that is not the one driven makes the attempt fail, and one that is does not. -/
theorem test_misread :
    let s : State :=
      { attemptOf claimPlace with
        lp := { (attemptOf claimPlace).lp with edge := some 0, tx := some { txOf claimPlace with read := 0 } } }
    s.lp.belies 0 0x23#8 true = true ∧ s.lp.belies 0 0x22#8 true = false ∧
      (failAttempt s).lp.tx = none ∧ (failAttempt s).lp.queue = [claimPlace] := by decide +kernel

/-- R14: LRX is compared at the middle of each bit, and not past the attempt's end. -/
theorem test_compares : (attemptOf claimPlace).lp.compares halfBit = true ∧
    (attemptOf claimPlace).lp.compares 624 = false ∧ (attemptOf claimPlace).lp.compares (49 * bitTime + halfBit) = true ∧
    (attemptOf claimPlace).lp.compares (50 * bitTime + halfBit) = false := by decide +kernel

/-- R15: of the sixteenth failure DROPPED is reported, and the count gains 4. -/
theorem test_sixteenth : (attemptOf requestPlace).lp.withdraw.1.errCount = 4 ∧
    ((attemptOf requestPlace).lp.withdraw.2.map Report.fate) = [.dropped] ∧
    (attemptOf { requestPlace with attempts := 15 }).lp.withdraw.2 = [] := by decide

theorem meets_CompletedFrameIsReported :
    0 + 10 * claimPlace.bytes.length * bitTime ≤ ((attemptOf claimPlace).advance (50 * bitTime)).now ∧
    0 + 10 * releasePlace.bytes.length * bitTime ≤ ((attemptOf releasePlace).advance (30 * bitTime)).now ∧
    (txOf claimPlace).read = (txOf claimPlace).bytes.length ∧ (txOf claimPlace).place = .intact ∧
    { (attemptOf claimPlace).fc with state := .claiming }.state = .claiming ∧
    { (attemptOf releasePlace).fc with state := .ending }.state = .ending ∧ (attemptOf releasePlace).pq.items = [] ∧
    (attemptOf releasePlace).fc.state = .idle ∧ requestMark requestPlace.bytes = startRequest.mark := by decide

/-- The outcome of one command; the state itself where there is none. -/
def after (i : Instr) (s : State) : State :=
  match exec i s with
  | .next u => u
  | _ => s

/-! ### The partner and the roster -/

/-- LISTEN or RUN before the first STATUS. -/
def beforePartner : State := { inRoom with pm := { PartnerMonitor.reset with freshTimer := some (6 * second) } }

theorem meets_SilentPartnerIsLost : inRoom.receiving = true ∧ inRoom.pm.freshTimer = some (6 * second) ∧
    6 * second ≤ (inRoom.advance (6 * second)).now ∧ inRoom.pm.freshness = .fresh ∧
    beforePartner.pm.freshness = .none := by decide

/-- The same with T_DARK of 3 s, run out with the deadline. -/
def darkening : State := { awaiting with au := { awaiting.au with dark := some (3 * second) } }

theorem meets_DeadlineResolvesTheRequest : awaiting.pm.inFlight = some startRequest ∧
    startRequest.deadline ≤ (awaiting.advance (3 * second)).now ∧ awaiting.dc.state = .awaitAnswer ∧
    awaiting.dc.ret = some .confirm ∧ awaiting.selectable = true ∧ awaiting.psp.phase = .run ∧
    { awaiting.fc with state := .ending }.state = .ending ∧ awaiting.pq.queued .noAnswer = false ∧
    awaiting.pq.items.length < 8 ∧ (awaiting.advance (3 * second)).darkDue = false ∧
    (darkening.advance (3 * second)).darkDue = true ∧ darkening.pm.inFlight = some startRequest := by decide

/-- R88, R168: the deadline in the moment of DARK leaves the dialogue in VIEW with the selection discarded and NO_ANSWER
placed, in either order of the two. -/
theorem test_dark_at_the_resolution :
    let u := after (.darkTimeout (3 * second)) (after (.requestDeadline (3 * second)) darkening)
    u = after (.requestDeadline (3 * second)) (after (.darkTimeout (3 * second)) darkening) ∧
      u.dc = Dialogue.reset ∧ u.fc.item.map Item.cls = some .noAnswer := by decide +kernel

/-- A current item WAITING, its expiry at 5 s. -/
def waiting : State :=
  { inRoom with fc := { Floor.reset with state := .waiting, item := some (itemOf .welcome),
                                         utterance := some shortUtterance } }

theorem meets_LapsedEntriesLeave : neighbour ∈ withNeighbour.roster ∧
    neighbour.arrival + 20 * second ≤ (withNeighbour.advance (20 * second)).now ∧
    itemOf .pleaseWait ∈ fullQueue.pq.items ∧ (itemOf .pleaseWait).expiry = some (3 * second) ∧
    heardClaim ∈ claimed.fc.view ∧ heardClaim.expiry ≤ (claimed.advance heardClaim.expiry).now ∧
    waiting.fc.state = .waiting ∧ (itemOf .welcome).expiry = some (5 * second) ∧ waiting.psp.tonesOnly = false ∧
    waiting.pq.items = [] := by
  decide

theorem meets_CROWDED_clears : { inRoom.fc with crowded := some 0 }.crowded = some 0 := rfl

theorem meets_RosterQueriesReadBusyMachines : ∀ e ∈ [neighbour, { neighbour with minutes := some 999 }], ∀ w,
    e.minutes = some w → w ≤ 999 := by simp [neighbour]

theorem meets_FreeListNamesTheFirstThree : RosterLaw withNeighbour ∧ 1 ≤ withNeighbour.psp.machine ∧
    withNeighbour.psp.machine ≤ 31 :=
  ⟨⟨by decide, by decide, by decide⟩, by decide, by decide⟩

/-- Chapter 3, "A roster at work": the free dryers and the soonest one. -/
theorem test_roster_queries :
    freeList (some .dryer) [neighbour, { neighbour with machine := 14, kind := .washerDryer },
      { neighbour with machine := 15, coarse := .busy, minutes := some 18 }] = { machines := [13, 14], count := 2 } ∧
    soonest (some .dryer) [neighbour, { neighbour with machine := 15, coarse := .busy, minutes := some 18 }] =
      some 18 := by decide

/-! ### The panel and the dialogue -/

/-- The program list of the generic table open, three quarter-steps counted. -/
def turning (q : Int) : State := { browsing with pu := { browsing.pu with quarter := q } }

theorem meets_KnobCountsQuarterSteps : (turning 3).psp.phase = .run ∧ (turning 3).psp.panel = .knob ∧
    3 + quarterOf (turning 3).pu.refA (turning 3).pu.refB false true = 4 ∧
    -3 + quarterOf (turning (-3)).pu.refA (turning (-3)).pu.refB true false = -4 ∧
    (turning 3).dc.state = .browseProgram ∧ (turning 3).au.state ≠ .dark ∧ (turning 3).pu.listLen = some 16 := by
  decide

/-- The dark part. -/
def darkRoom : State := { inRoom with au := { AttentionUnit.reset with state := .dark } }

theorem meets_PressOpensTheProgramList : (inRoom.advance (20 * milli)).debounced .start (20 * milli) = true ∧
    (darkRoom.advance (20 * milli)).debounced .start (20 * milli) = true ∧
    inRoom.pu.start.down = false ∧ inRoom.au.state ≠ .dark ∧ darkRoom.au.state = .dark ∧
    darkRoom.pu.start.down = false ∧ (inRoom.advance (20 * milli)).debounced .select (20 * milli) = true ∧
    inRoom.pu.select.down = false ∧ inRoom.dc.state = .view ∧ inRoom.selectable = true ∧
    inRoom.pu.settle = none := by decide

/-- The station's dialogue in a state, on a STEP panel, with a table whose one program allows the options given. -/
def choosing (d : DialogueState) (allowed : BitVec 8) : State :=
  { inRoom with
    psp := { inRoom.psp with
      panel := .step
      tables := some { washer := { count := 1, dflt := 0, programs := [{ genericProgram with allowed := allowed }] },
                       dryer := genericTable, washerDryer := genericTable, optionNames := [], phrases := [] } }
    pu := { PanelUnit.reset with back := { down := true, since := 0, freed := none, spent := false } }
    dc := { Dialogue.reset with state := d, cursor := 0 } }

theorem meets_dialogue_moves :
    (choosing .browseProgram 5).optionList = [1, 3] ∧ (choosing .browseProgram 0).optionList = [] ∧
    (choosing .browseOption 5).optionList[(choosing .browseOption 5).dc.cursor]? = some 1 ∧
    (choosing .browseOption 5).optionList[2]? = none ∧ (choosing .confirm 5).dc.state = .confirm ∧
    (choosing .confirm 5).au.state ≠ .dark ∧ (choosing .confirm 5).pu.settle = none ∧
    (choosing .confirm 5).pu.up.down = false ∧ (choosing .confirm 5).pu.down.down = false ∧
    (choosing .confirm 5).psp.panel = .step ∧
    ((choosing .confirm 5).advance (20 * milli)).debounced .up (20 * milli) = true ∧
    ((choosing .confirm 5).advance (20 * milli)).debounced .select (20 * milli) = true ∧
    ((choosing .confirm 5).advance (2000 * milli - 1)).debounced .back (20 * milli) = true ∧
    (choosing .confirm 5).pu.select.down = false ∧ (choosing .confirm 5).pu.back.down = true ∧
    (choosing .confirm 5).pu.chord = false ∧
    ((choosing .confirm 5).advance (2000 * milli - 1)).now < (choosing .confirm 5).pu.back.since + 2000 * milli := by
  decide

/-- START let go at 1 s. -/
def letGo : State :=
  { inRoom with pu := { PanelUnit.reset with start := { KeyState.released with freed := some second } } }

/-- R61: a press a tick short of its 20 ms in RUN is not accepted, and a key let go at 1 s can be pressed again 20 ms
after its next sample. -/
theorem test_debounce :
    (inRoom.advance (20 * milli)).accepts .start (20 * milli) = true ∧
    (inRoom.advance (20 * milli)).accepts .start (20 * milli - 1) = false ∧
    (inRoom.advance (20 * milli - 1)).accepts .start (20 * milli) = false ∧
    (inRoom.advance (20 * milli)).accepts .up (20 * milli) = false ∧
    (letGo.advance (second + 20 * milli + 250 * micro)).debounced .start (20 * milli) = true ∧
    (letGo.advance (second + 20 * milli + 250 * micro - 1)).debounced .start (20 * milli) = false := by decide

/-- HELP and BACK in turn: one is down since 0, with one press of HELP counted. -/
def pairing (helpDown : Bool) : State :=
  { inRoom with
    pu := { PanelUnit.reset with
            help := { KeyState.released with down := helpDown }
            back := { KeyState.released with down := !helpDown }
            helpCount := 1, helpWindow := some (700 * milli) } }

theorem meets_chord :
    ((inRoom.advance (20 * milli)).debounced .help (20 * milli) = true ∧ inRoom.pu.help.down = false ∧
      inRoom.pu.back.down = false ∧ inRoom.au.state ≠ .dark) ∧
    ((darkRoom.advance (20 * milli)).debounced .help (20 * milli) = true ∧ darkRoom.pu.back.down = false ∧
      darkRoom.au.state = .dark) ∧
    ((pairing false).au.state ≠ .dark ∧ ((pairing false).advance (20 * milli)).debounced .help (20 * milli) = true ∧
      (pairing false).pu.help.down = false ∧ (pairing false).pu.back.down = true) ∧
    (((pairing true).advance (20 * milli)).debounced .back (20 * milli) = true ∧
      (pairing true).pu.back.down = false ∧ (pairing true).pu.help.down = true) ∧
    (inRoom.advance 0).debounced .help (20 * milli) = false := by decide

/-- R65, R66: the count gains 1, and the chord clears it. -/
theorem test_help_press :
    (pressKey .help inRoom).pu.helpCount = 1 ∧ (pressKey .help inRoom).pu.helpWindow = some (700 * milli) ∧
    (pressKey .help (pairing false)).pu.helpCount = 0 ∧
    (pressKey .back (pairing true)).pu.chordTimer = some (3000 * milli) := by decide

/-- A key held since 0, in a dialogue state. -/
def holding (d : DialogueState) : State :=
  { inRoom with
    psp := { inRoom.psp with panel := .step }
    pu := { PanelUnit.reset with
            back := { down := true, since := 0, freed := none, spent := false }
            start := { down := true, since := 0, freed := none, spent := false }
            up := { down := true, since := 0, freed := none, spent := false }
            down := { down := true, since := 0, freed := none, spent := false }
            stepRepeat := some { up := true, due := 600 * milli } }
    dc := { Dialogue.reset with state := d } }

theorem meets_ReleaseMakesTheShortEvent :
    ((holding .browseProgram).pu.back.down = true ∧ (holding .browseProgram).pu.back.spent = false ∧
      ((holding .browseProgram).advance (2000 * milli - 1)).now < (holding .browseProgram).pu.back.since + 2000 * milli ∧
      (holding .browseProgram).pu.chord = false ∧ (holding .browseProgram).au.state ≠ .dark ∧
      (holding .browseProgram).pu.settle = none) ∧
    ((holding .confirm).pu.start.down = true ∧ (holding .confirm).pu.start.spent = false ∧
      ((holding .confirm).advance (800 * milli - 1)).now < (holding .confirm).pu.start.since + 800 * milli ∧
      (holding .confirm).dc.state = .confirm ∧ (holding .confirm).pq.queued .holdStartHint = false ∧
      (holding .confirm).pq.items.length < 8 ∧ { (holding .confirm).fc with state := .ending }.state = .ending) ∧
    ((holding .view).dc.state = .view ∧ (holding .view).selectable = true ∧ (holding .view).pu.start.down = true) ∧
    ((holding .view).psp.panel = .step ∧ (holding .view).pu.up.down = true ∧
      ((holding .view).advance (800 * milli - 1)).debounced .up (20 * milli) = true ∧
      ((holding .view).advance (800 * milli - 1)).debounced .start (20 * milli) = true ∧
      ((holding .view).advance (2000 * milli - 1)).debounced .back (20 * milli) = true ∧
      (holding .view).pu.down.down = true ∧
      ((holding .view).advance (800 * milli - 1)).debounced .down (20 * milli) = true) := by decide

theorem meets_StepsMoveThePosition :
    (browsing.psp.phase = .run ∧ browsing.pu.stepRepeat = some { up := true, due := 600 * milli } ∧
      600 * milli ≤ (browsing.advance (600 * milli)).now ∧ browsing.au.state ≠ .dark ∧
      browsing.dc.state = .browseProgram ∧ browsing.pu.listLen = some 16) ∧
    (browsing.pu.settle = some (300 * milli) ∧ 300 * milli ≤ (browsing.advance (300 * milli)).now ∧
      browsing.pu.snapshot ≠ browsing.pu.position) := by decide

/-- The settle in a list whose snapshot is its position already. -/
theorem meets_settle_unchanged : { browsing.pu with snapshot := 15 }.snapshot = browsing.pu.position := rfl

/-- BACK held in VIEW while the machine runs. -/
def cancelling : State :=
  { holding .view with pm := { inRoom.pm with record := { Record.zero with state := .running } } }

theorem meets_HoldsAskForRequests :
    ((holding .confirm).pu.start.since + 800 * milli ≤ ((holding .confirm).advance (800 * milli)).now ∧
      (holding .confirm).pm.freshness = .fresh ∧ (holding .confirm).lp.clash = false ∧
      (holding .confirm).pm.inFlight = none) ∧
    (cancelling.pu.back.since + 2000 * milli ≤ (cancelling.advance (2000 * milli)).now ∧
      cancelling.dc.state = .view ∧ cancelling.pm.record.state = .running ∧ cancelling.pm.inFlight = none) ∧
    ((holding .browseProgram).pm.record.state = .free ∧ (holding .browseProgram).pm.freshness = .fresh) := by decide

/-- HELP held since 0, or a chord begun at 0. -/
def helpHeld : State :=
  { inRoom with
    pu := { PanelUnit.reset with help := { down := true, since := 0, freed := none, spent := false },
                                 chordTimer := some (3000 * milli) } }

theorem meets_LanguageMovesAndHushInverts :
    (helpHeld.pu.help.since + 2000 * milli ≤ (helpHeld.advance (2000 * milli)).now ∧ helpHeld.pu.help.down = true ∧
      helpHeld.pu.help.spent = false ∧ helpHeld.au.state ≠ .dark ∧ helpHeld.pu.settle = none) ∧
    (helpHeld.pu.chordTimer = some (3000 * milli) ∧ 3000 * milli ≤ (helpHeld.advance (3000 * milli)).now ∧
      helpHeld.pq.hush = false) ∧
    ({ helpHeld with au := darkRoom.au }.au.state = .dark ∧
      { helpHeld with au := darkRoom.au }.pu.chordTimer = some (3000 * milli)) := by decide

/-! ### The prompt queue, the composer and the floor -/

/-- The HELP window open with two presses counted, the floor controller in ENDING. -/
def helpTwice : State :=
  { inRoom with
    pu := { PanelUnit.reset with helpCount := 2, helpWindow := some (700 * milli) }
    fc := { Floor.reset with state := .ending } }

theorem meets_HelpTwiceDescribesTheState : helpTwice.psp.phase = .run ∧
    helpTwice.pu.helpWindow = some (700 * milli) ∧ 700 * milli ≤ (helpTwice.advance (700 * milli)).now ∧
    helpTwice.pu.help.down = false ∧ helpTwice.au.state ≠ .dark ∧ helpTwice.pu.settle = none ∧
    helpTwice.pu.helpCount = 2 ∧ helpTwice.fc.state = .ending ∧ helpTwice.pq.queued .stateDescription = false ∧
    helpTwice.pq.items.length < 8 := by decide

/-- HELP pressed once or three times, the last-completed record absent or holding a class. -/
def helpAsks (n : Nat) (last : Option LastCompleted) : State :=
  { helpTwice with pu := { helpTwice.pu with helpCount := n }, pq := { PromptQueue.reset with last := last } }

theorem meets_help_once_and_thrice :
    (helpAsks 3 none).pu.helpCount = 3 ∧ (helpAsks 3 none).pq.queued .roomSummary = false ∧
    (helpAsks 1 none).pq.last = none ∧ inRoom.holds (classKey .faultCall) = false ∧
    inRoom.holds (classKey .welcome) = true ∧ (helpAsks 1 none).pq.isCurrent .welcome = false ∧
    (speakingAt 0).pq.isCurrent .welcome = true ∧ (helpAsks 1 none).pq.queued .welcome = false := by decide

/-- A fault call due, the floor controller in ENDING. -/
def faultDue (code : Nat) : State :=
  { inRoom with
    pm := { inRoom.pm with record := { Record.zero with fault := code } }
    pq := { PromptQueue.reset with fault := { timer := some (60 * second), count := 1 } }
    fc := { Floor.reset with state := .ending } }

theorem meets_CallTimerPlacesItsClass : ((faultDue 17).pq.series .fault).timer = some (60 * second) ∧
    60 * second ≤ ((faultDue 17).advance (60 * second)).now ∧ (faultDue 0).holds (seriesKey .fault) = false ∧
    (faultDue 17).holds (seriesKey .fault) = true ∧ (faultDue 17).pq.queued (seriesClass .fault) = false ∧
    (faultDue 17).pq.isCurrent (seriesClass .fault) = false ∧ (faultDue 17).fc.state = .ending ∧
    (faultDue 17).pq.items.length < 8 ∧ (faultDue 17).psp.phase = .run := by decide

/-- A composition of the class's item, at a stage, with its read at the port over. -/
def composing (g : Stage) : State :=
  { inRoom with
    psp := { inRoom.psp with port := .reading .composer { addr := 4096, size := 32 } 0 false }
    cp := { Composer.reset with
            work := some { item := itemOf .welcome, level := .routine, reach := .loc, kind := .washer, lang := 0,
                           gap := 5, dirCount := 200, dirAddr := 8192, entries := [], stage := g } }
    pq := { PromptQueue.reset with
            current := some { cls := .welcome, key := .none, superseded := false, withdrawn := false } }
    fc := { Floor.reset with item := some (itemOf .welcome) } }

theorem meets_ComposerTakesItsRead :
    (composing .template).psp.port = .reading .composer { addr := 4096, size := 32 } 0 false ∧
    0 ≤ ((composing .template).advance 0).now ∧ (composing .template).cp.work.isSome = true := by decide

/-- R118, R125: CLIP 140 of a template waits for its directory entry. -/
theorem test_composer_reads_the_directory :
    ((composing .template).cp.work.map fun w =>
      (w.take ((composing .template).psp.readings .washer) 32 ([0x8C#8, 0x10#8] ++ List.replicate 30 0xFF#8)).stage) =
      some (.entry 140 [] []) := by decide +kernel

theorem meets_CompositionReachesTheFloor :
    (composing (.finished (some shortUtterance))).cp.work.map Work.stage = some (.finished (some shortUtterance)) ∧
    (composing (.finished (some shortUtterance))).fc.item = some (itemOf .welcome) ∧
    (composing (.finished (some shortUtterance))).pq.marked = false ∧ (itemOf .welcome).expired 0 = false ∧
    (composing (.finished (some shortUtterance))).headBefore = false ∧
    (composing (.finished (some shortUtterance))).lp.mode = .normal ∧
    (composing (.finished (some shortUtterance))).fc.releasePending = false ∧
    (composing (.finished (some shortUtterance))).fc.view = [] ∧
    (composing (.finished (some shortUtterance))).fc.crowded = none ∧
    (composing (.finished (some shortUtterance))).lp.queue = [] := by decide

theorem meets_EMPTY : (composing (.finished none)).cp.work.map Work.stage = some (.finished none) ∧
    (composing (.finished none)).fc.state = .idle ∧ (composing (.finished none)).fc.item = some (itemOf .welcome) ∧
    (composing (.finished none)).pq.items = [] := by decide

/-- R138, R140: a mark in the moment of the result, its CLAIM not yet begun, finds the floor controller WAITING
still; with the utterance composed before, it gives the floor up in ENDING. -/
theorem test_mark_at_the_result :
    let s (c : Option Time) : State :=
      { composing .template with
        cp := .reset
        lp := { inRoom.lp with queue := [claimPlace] }
        fc := { (composing .template).fc with state := .claiming, utterance := some shortUtterance, composed := c } }
    ((fcMark (s (some 0))).fc.state = .idle ∧ (fcMark (s (some 0))).lp.queue = []) ∧
      (fcMark { s none with now := 1 }).fc.state = .spacing := by decide +kernel

/-- R138, R140: an item gave way in the moment of its result to a head of its own key. The end of the condition in
that moment finds the item waiting and the head in the queue; a tick later it finds the head current. -/
theorem test_mark_after_the_swap :
    let s (n : Time) : State :=
      withdraw .selecting { fcResult (some shortUtterance) { composing .template with
        pq := { (composing .template).pq with
          items := [itemOf .programName]
          current := some { cls := .confirmSummary, key := .selecting, superseded := false, withdrawn := false } }
        fc := { Floor.reset with item := some (itemOf .confirmSummary) } } with now := n }
    ((s 0).pq.items = [] ∧ (s 0).pq.current = none ∧ (s 0).fc.item = none) ∧
      (s 1).fc.item.map Item.cls = some .programName := by decide +kernel

/-- A composed PAYMENT_DUE behind a FAULT_CALL in a full queue, whose last item is an UNLOAD_REMINDER. -/
def crowded : State :=
  { composing (.finished (some shortUtterance)) with
    pm := { inRoom.pm with record := { Record.zero with state := .done } }
    pq := { PromptQueue.reset with
            items := [.faultCall, .actionCall, .partnerLost, .requestRefused, .noAnswer, .faultCleared, .cycleDone,
                      .unloadReminder].map itemOf
            current := some { cls := .paymentDue, key := .payment, superseded := false, withdrawn := false } }
    fc := { Floor.reset with item := some (itemOf .paymentDue) } }

/-- R138: the item that the swap drops from the full queue starts its series again (R109); the end of PAYMENT in that
moment puts both back as they were. -/
theorem test_mark_puts_the_dropped_item_back :
    let u := fcResult (some shortUtterance) crowded
    let v := withdraw .payment u
    (u.pq.queued .unloadReminder = false ∧ u.pq.unload.timer = some (300 * second)) ∧
      v.pq.queued .unloadReminder = true ∧ v.pq.unload = .stopped ∧ v.pq.queued .paymentDue = false ∧
      v.fc.item.map Item.cls = some .faultCall := by decide +kernel

/-- In SOLO the utterance speaks at once. -/
theorem meets_solo_speaks :
    { (composing (.finished (some shortUtterance))).lp with degraded := true }.mode = .solo ∧
    (composing (.finished (some shortUtterance))).lp.lineHeld = false := by decide

/-- The same with a RELEASE still awaited. -/
theorem meets_composition_waits :
    { (composing (.finished (some shortUtterance))).fc with releasePending := true }.releasePending = true := rfl

theorem meets_PrecedenceNeverTies : (40 : Nat) ≠ 44 ∧ precedes .urgent 40 .routine 44 = true ∧
    precedes .routine 44 .routine 50 = true ∧ (speakingAt 0).fc.state = .speaking ∧
    (speakingAt 0).fc.playStart = some 0 ∧ (speakingAt 0).fc.cutOrder = none ∧ 40 ∉ (speakingAt 0).fc.reasserted ∧
    { (speakingAt 0).fc with state := .claiming }.state = .claiming := by decide

theorem meets_ClaimThatStandsIsJudged : ViewLaw (speakingAt 0) ∧ heardClaim ∈ (speakingAt 0).fc.view ∧
    heardClaim.speaking = false ∧ heardClaim.arrival + 80 * milli ≤ ((speakingAt 0).advance (80 * milli)).now ∧
    (speakingAt 0).fc.utterance = some shortUtterance ∧
    precedes heardClaim.level heardClaim.addr shortUtterance.level (speakingAt 0).ownAddress = true ∧
    precedes .routine 50 shortUtterance.level (speakingAt 0).ownAddress = false :=
  ⟨⟨by decide, by decide, by decide, by decide⟩, by decide, by decide, by decide, by decide, by decide, by decide⟩

/-- R146: a re-assertion at 80 ms of a 400 ms playback claims 4 floor units, at 301 ms one. -/
theorem test_reassert_units : reassertUnits shortUtterance 0 (80 * milli) = 4 ∧
    reassertUnits shortUtterance 0 (301 * milli) = 1 ∧ reassertUnits shortUtterance 0 (500 * milli) = 1 := by decide

/-- The contest window at its end. -/
def contesting : State :=
  { inRoom with fc := { Floor.reset with state := .contest, item := some (itemOf .welcome),
                                         utterance := some shortUtterance, contestEnd := some (80 * milli) } }

theorem meets_ContestEndsInSpeaking : contesting.fc.state = .contest ∧ contesting.fc.contestEnd = some (80 * milli) ∧
    80 * milli ≤ (contesting.advance (80 * milli)).now ∧ contesting.fc.utterance = some shortUtterance := by decide

theorem meets_SoundEndsInEnding : (speakingAt 0).vp.stream.map Stream.early = some none ∧
    (speakingAt 0).vp.stream.map Stream.wholeAt = some (400 * milli) ∧
    (speakingAt 0).vp.stream.bind Stream.hardStop = some (600 * milli) ∧
    (speakingAt 0).fc.item = some (itemOf .welcome) ∧ (speakingAt 0).psp.tonesOnly = false ∧
    (speakingAt 0).lp.mode = .normal ∧ (speakingAt 0).lp.claimOut = true ∧
    (speakingAt 0).fc.releasePending = false := by decide

/-- A cut ordered in a clip of the utterance: it fades 20 ms from its point. -/
theorem meets_cut_complete :
    ((vpCut (speakingAt 0)).vp.stream.bind Stream.early) =
      some { point := 200 * milli, segEnd := 200 * milli, hard := false } := by decide +kernel

/-- The cut at its end, ordered to return the item. -/
def cutAt : State :=
  { speakingAt 0 with
    fc := { (speakingAt 0).fc with cutOrder := some .giveBack }
    vp := (vpCut (speakingAt 0)).vp }

theorem meets_cut_returns : cutAt.fc.cutOrder = some .giveBack ∧ cutAt.pq.queued .welcome = false ∧
    (itemOf .welcome).expired (220 * milli) = false ∧ cutAt.pq.items.length < 8 ∧
    200 * milli + 20 * milli ≤ (cutAt.advance (220 * milli)).now ∧ { cutAt.fc with cutOrder := some .discard }.cutOrder ≠
      some .giveBack := by decide +kernel

/-- An item of a series' class that sounds, its condition holding, with its series at a count. -/
def calling (c : PromptClass) (n : Nat) : State :=
  { speakingAt 0 with
    pm := { inRoom.pm with record := { Record.zero with fault := 17, action := 2, state := .done } }
    pq := { PromptQueue.reset with
            fault := { timer := none, count := n }, actionFirst := { timer := none, count := n }
            current := some { cls := c, key := classKey c, superseded := false, withdrawn := false } }
    fc := { (speakingAt 0).fc with item := some (itemOf c) } }

theorem meets_series_advance :
    (calling .faultCall 0).holds (seriesKey .fault) = true ∧ seriesOf .faultCall = some .fault ∧
    ((calling .faultCall 0).pq.series .fault).count + 1 < seriesLimit .fault ∧
    ((calling .faultCall 4).pq.series .fault).count + 1 = seriesLimit .fault ∧
    ((calling .actionNeeded 2).pq.series .actionFirst).count + 1 = seriesLimit .actionFirst ∧
    seriesLimit .fault ≤ ((calling .faultCall 5).pq.series .fault).count ∧
    (calling .cycleDone 0).holds .done = true ∧ (calling .cycleDone 0).pq.unload = { timer := none, count := 0 } ∧
    (calling .faultCall 0).pq.marked = false ∧ (calling .faultCall 0).pq.queued .faultCall = false ∧
    ((calling .faultCall 0).pq.series .fault).timer = none ∧ (speakingAt 0).holds .fault = false := by decide

/-- R105: the third ACTION_NEEDED begins the second stage. -/
theorem test_second_stage :
    (saidSeries .actionNeeded (calling .actionNeeded 2)).pq.actionSecond =
      { timer := some (60 * second), count := 0 } := by decide

/-- The rendering of an item in tones-only mode, its stream whole at 400 ms. -/
def rendering : State :=
  { speakingAt 0 with
    psp := { (speakingAt 0).psp with tonesOnly := true }
    fc := { (speakingAt 0).fc with utterance := none, playStart := none }
    vp := { VoicePlayer.reset with
            stream := some { sound := .chime, gain := 15, start := 0, early := none, hardStop := none } } }

theorem meets_rendering_ends : rendering.psp.tonesOnly = true ∧ rendering.fc.cutOrder ≠ some .giveBack ∧
    rendering.pq.items = [] ∧ rendering.fc.item = some (itemOf .welcome) ∧
    rendering.vp.stream.map Stream.wholeAt = some (400 * milli) ∧
    ((vpCut rendering).vp.stream.bind Stream.early) = some { point := 0, segEnd := 400 * milli, hard := false } := by
  decide +kernel

/-- The spacing at its end, with an item waiting or none. -/
def spaced (items : List Item) : State :=
  { inRoom with
    fc := { Floor.reset with state := .spacing, spacing := some (600 * milli) }
    pq := { PromptQueue.reset with items := items } }

theorem meets_SpacingEndTakesTheHead : (spaced []).fc.spacing = some (600 * milli) ∧
    600 * milli ≤ ((spaced []).advance (600 * milli)).now ∧ (spaced []).fc.item = none ∧ (spaced []).pq.items = [] ∧
    (spaced [itemOf .welcome]).pq.items = itemOf .welcome :: [] ∧
    (itemOf .welcome).expired (600 * milli) = false ∧ (spaced []).psp.tonesOnly = false ∧
    (spaced []).psp.phase = .run := by decide

/-- R150: an URGENT notice in the moment the spacing ran out is taken before the head that was; a tick later the
head stays. -/
theorem test_urgent_at_the_spacing_end :
    let s : State :=
      { composing .template with
        fc := { (composing .template).fc with
                spacingOver := some { moment := 0, said := [] } }
        pm := { inRoom.pm with record := { Record.zero with fault := 17 } } }
    ((trigger .faultCall (.one 17) s).fc.item.map Item.cls = some .faultCall ∧
        (trigger .faultCall (.one 17) s).pq.items.map Item.cls = [.welcome]) ∧
      (trigger .faultCall (.one 17) { s with now := 1 }).fc.item.map Item.cls = some .welcome := by
  decide +kernel

/-- The spacing at its end in tones-only mode, with an item waiting, and an ACTION due. -/
def tonesSpaced (items : List Item) : State :=
  { spaced items with
    psp := { inRoom.psp with tonesOnly := true }
    pm := { inRoom.pm with record := { Record.zero with action := 2, fault := 17 } } }

theorem meets_renderings : (tonesSpaced [itemOf .faultCall]).psp.tonesOnly = true ∧
    classLevel .faultCall = .urgent ∧ (itemOf .cycleDone).reach = .room ∧
    classLevel .actionNeeded = .routine ∧ (itemOf .actionNeeded).reach = .loc ∧
    (itemOf .actionNeeded).expired (600 * milli) = false ∧ (tonesSpaced []).lp.mode = .normal := by decide

/-- R150, R151: a ROUTINE item that the spacing's end has ended SAID without a sound is in the queue again, its series
as it was, when an URGENT item is placed in that moment. -/
theorem test_urgent_unsays :
    let u := after (.spacingEnd (600 * milli)) (tonesSpaced [itemOf .actionNeeded])
    let v := trigger .faultCall (.one 17) u
    (u.pq.items = [] ∧ u.pq.actionFirst.count = 1) ∧ v.fc.item.map Item.cls = some .faultCall ∧
      v.pq.items.map Item.cls = [.actionNeeded] ∧ v.pq.actionFirst = .stopped ∧ v.pq.last = none := by
  decide +kernel

/-- The same spacing with three ACTION_NEEDED said and the second stage due at its end, or in SOLO with a CYCLE_DONE
waiting, a chord at its 3,000 ms and the FAULT series due. -/
def callingAtTheEnd : State :=
  { tonesSpaced [itemOf .actionNeeded] with
    pq := { PromptQueue.reset with
            items := [itemOf .actionNeeded], actionFirst := { timer := none, count := 3 },
            actionSecond := { timer := some (600 * milli), count := 0 } } }
def hushingAtTheEnd : State :=
  { tonesSpaced [itemOf .cycleDone] with
    lp := { inRoom.lp with degraded := true }
    pm := { inRoom.pm with record := { Record.zero with state := .done, fault := 17 } }
    pu := { PanelUnit.reset with chordTimer := some (600 * milli) }
    pq := { PromptQueue.reset with
            items := [itemOf .cycleDone], fault := { timer := some (600 * milli), count := 1 } } }

/-- R106: the second stage that expires as the spacing ends stays stopped, though ACTION_NEEDED is in the queue again. -/
theorem test_unsay_leaves_the_expired_timer :
    let u := after (.callTimerExpire (600 * milli) .actionSecond) (after (.spacingEnd (600 * milli)) callingAtTheEnd)
    u.fc.item.map Item.cls = some .actionCall ∧ u.pq.items.map Item.cls = [.actionNeeded] ∧
      u.pq.actionSecond = .stopped ∧ u.pq.actionFirst = { timer := none, count := 3 } := by decide +kernel

/-- R110: HUSH set in that moment lowers the CYCLE_DONE that is in the queue again. -/
theorem test_unsay_under_hush :
    let u := after (.callTimerExpire (600 * milli) .fault)
      (after (.hushToggle (600 * milli)) (after (.spacingEnd (600 * milli)) hushingAtTheEnd))
    u.fc.item.map Item.cls = some .faultCall ∧
      u.pq.items.map (fun it => (it.cls, it.reach)) = [(.cycleDone, .loc)] := by decide +kernel

/-- R107, R111: of two sayings of one class in that moment the later is in the queue again, here with action code 3, and
an item placed and said after the spacing's end is in the queue with them; the last-completed record and the
series are as the ACTION left them. -/
theorem test_unsay_keeps_the_new_value :
    let u := after (.spacingEnd (600 * milli)) (tonesSpaced [itemOf .actionNeeded])
    let v := trigger .actionNeeded (.one 3) (beginSeries (.action 3) (600 * milli) u)
    let w := trigger .faultCall (.one 17) (trigger .languageName .zero v)
    (v.pq.last.map LastCompleted.params = some (.one 3) ∧ v.pq.items = []) ∧
      w.fc.item.map Item.cls = some .faultCall ∧
      w.pq.items.map (fun it => (it.cls, it.params)) = [(.actionNeeded, .one 3), (.languageName, .zero)] ∧
      w.pq.last = none ∧ w.pq.actionFirst = .stopped := by decide +kernel

/-- R99: a CONFIRM_SUMMARY said without a sound as the spacing ended, whose SELECTING has ended and begun anew in that
moment, is not in the queue again; one whose SELECTING goes on is. -/
theorem test_unsay_leaves_the_withdrawn :
    let s : State := { tonesSpaced [itemOf .confirmSummary] with dc := { Dialogue.reset with state := .confirm } }
    let u := after (.spacingEnd (600 * milli)) s
    ((trigger .faultCall (.one 17) u).pq.items.map Item.cls = [.confirmSummary] ∧ u.pq.items = []) ∧
      (selectingBegins (selectingEnds u)).dc.state.selecting = true ∧
      (trigger .faultCall (.one 17) (selectingBegins (selectingEnds u))).pq.items = [] ∧
      (trigger .faultCall (.one 17) (selectingBegins (selectingEnds u))).pq.last = none := by decide +kernel

/-- R151: the alarm that an URGENT notice puts in the place of a chime of that moment has no cut order of the chime's. -/
theorem test_retake_clears_the_cut :
    (fcRetake { rendering with fc := { rendering.fc with cutOrder := some .discard } }).fc.cutOrder = none := by
  decide +kernel

/-! ### Sounds, attention and lights -/

theorem meets_SoundEndsBeforeTheHardStop : shortUtterance.lawful ∧
    (vpPlay shortUtterance 0 inRoom).vp.stream.map Stream.wholeAt = some (400 * milli) ∧
    (vpPlay shortUtterance 0 inRoom).vp.stream.bind Stream.hardStop = some (600 * milli) :=
  ⟨shortUtterance_lawful, by decide, by decide⟩

/-- A click that began at 0, with the release timer of an earlier sound at 20 ms. -/
def clicking : State :=
  { inRoom with vp := { VoicePlayer.reset with tone := some { kind := .click, gain := 8, start := 0 }, ampEn := true,
                                               ampRelease := some (20 * milli) } }

theorem meets_SoundTimersRun :
    ((speakingAt 0).vp.stream.bind Stream.hardStop = some (600 * milli) ∧
      600 * milli ≤ ((speakingAt 0).advance (580 * milli)).now + 20 * milli) ∧
    (clicking.vp.tone = some { kind := .click, gain := 8, start := 0 } ∧
      0 + 40 * samplePeriod ≤ (clicking.advance (5 * milli)).now) ∧
    (clicking.vp.ampRelease = some (20 * milli) ∧ 20 * milli ≤ (clicking.advance (20 * milli)).now) := by decide

/-- A refill of two samples whose read is over. -/
def refilling (discard : Bool) : State :=
  { speakingAt 0 with
    psp := { inRoom.psp with port := .reading .refill { addr := 4096, size := 2 } 0 false }
    vp := { (speakingAt 0).vp with
            refill := some { first := { entry := 0, offset := 0 }, size := 2, arrived := 0, discard := discard } } }

theorem meets_RefillJoinsTheBuffer :
    (refilling false).psp.port = .reading .refill { addr := 4096, size := 2 } 0 false ∧
    SamplePlace.before { entry := 0, offset := 0 } (refilling false).vp.playPos = false ∧
    (refilling false).vp.refill.map Refill.discard = some false ∧
    (refilling true).vp.refill.map Refill.discard = some true ∧ [0x01#8, 0xFF#8].length = 2 - 0 := by decide

/-- The gap after the first clip, at 200 ms, with a refill of two of the next clip's samples whose first byte is in
since 2 µs. -/
def arriving : State :=
  { speakingAt (200 * milli) with
    psp := { inRoom.psp with
             port := .reading .refill { addr := 8192, size := 2 } (200 * milli - 5 * portByte + 6 * portByte) false }
    vp := { (speakingAt 0).vp with
            refill := some { first := { entry := 1, offset := 0 }, size := 2, arrived := 0, discard := false }
            playPos := { entry := 0, offset := 1600 } } }

theorem meets_arrivals : arriving.psp.phase ≠ .held ∧ arriving.vp.newPeriod (arriving.advance 0).now = true ∧
    SamplePlace.before { entry := 1, offset := 0 } arriving.vp.playPos = false ∧
    (arriving.vp.stream.map fun st => due st.hardStop (200 * milli)) = some false ∧
    (arriving.vp.stream.bind fun st => locate st.sound.segs 0 ((200 * milli - st.start) / samplePeriod)) =
      some (.silence, 0, 2000) ∧
    (200 * milli - (200 * milli - 5 * portByte)) / portByte - 4 = 1 ∧ [0x01#8].length = 1 - 0 := by decide +kernel

/-- R155: of the two samples the one that has arrived joins the buffer, and REFILL_END brings the other. -/
theorem test_arrivals :
    (vpSample [0x01#8] arriving).vp.buffer = [{ place := { entry := 1, offset := 0 }, value := 0x01#8 }] ∧
    (vpTakeRefill [0xFF#8] (vpSample [0x01#8] arriving)).vp.buffer =
      [{ place := { entry := 1, offset := 0 }, value := 0x01#8 },
       { place := { entry := 1, offset := 1 }, value := 0xFF#8 }] := by decide +kernel

/-- R155, R180: a sample that arrives within its own sample period is played there as the byte read for it: 40h at
LOCAL gain 8 gives 34. -/
theorem test_arrived_sample :
    let s := speakingAt samplePeriod
    (vpSample [0x10#8, 0x40#8]
      { s with
        psp := { s.psp with port := .reading .refill { addr := 8192, size := 64 } (68 * portByte) false }
        vp := { s.vp with refill := some { first := { entry := 0, offset := 0 }, size := 64, arrived := 0, discard := false }
                          playPos := { entry := 0, offset := 1 } } }).vp.aout = 34 := by decide +kernel

theorem meets_SampleIsPresented : clicking.psp.phase ≠ .held ∧ clicking.vp.newPeriod 0 = true ∧
    clicking.vp.stream = none ∧ clicking.vp.refill = none ∧ 39 < 40 ∧ (clicking.advance (39 * samplePeriod)).now = 0 + 39 * samplePeriod ∧
    inRoom.vp.tone = none := by decide

/-- R157: the click's first four values at LOCAL gain 8: 51, 51, −51, −51. -/
theorem test_click_values : [0, 1, 2, 3].map (fun k => toneValue clicking.vp (k * samplePeriod)) = [51, 51, -51, -51] := by
  decide +kernel

/-- The attention timers at their ends, in BROWSE_PROGRAM. -/
def idling : State :=
  { browsing with au := { state := .active, dim := some (30 * second), dark := some (120 * second),
                          reprompt := some (15 * second), count := 1 } }

theorem meets_AttentionTimersRun : idling.au.state = .active ∧ idling.au.dim = some (30 * second) ∧
    30 * second ≤ (idling.advance (30 * second)).now ∧ idling.au.state ≠ .dark ∧
    idling.au.dark = some (120 * second) ∧ 120 * second ≤ (idling.advance (120 * second)).now ∧
    idling.dc.state.selecting = true ∧ idling.au.reprompt = some (15 * second) ∧
    idling.pq.queued .reprompt = false ∧ idling.pq.items.length < 8 ∧
    { idling.fc with state := .ending }.state = .ending ∧
    15 * second ≤ (idling.advance (15 * second)).now := by decide

/-- The slot of DIG3, 2 ms old. -/
def lastDigit (s : State) : State := { s with ind := { s.ind with slot := some 3, slotStart := 0 } }

theorem meets_IndicatorFollowsItsTimers : (lastDigit inRoom).psp.phase = .run ∧ (lastDigit inRoom).ind.slot = some 3 ∧
    (lastDigit inRoom).ind.slotStart + 2 * milli ≤ ((lastDigit inRoom).advance (2 * milli)).now ∧
    (lastDigit inListen).psp.phase = .listen ∧ (lastDigit inListen).ind.lampTest = true ∧
    (lastDigit State.reset).ind.slot = some 3 ∧ inRoom.ind.slot = none ∧
    { (lastDigit inRoom).psp with phase := .strapHalt }.phase = .strapHalt ∧
    (lastDigit darkRoom).au.state = .dark ∧ (lastDigit inRoom).au.state = .active ∧
    { (lastDigit inRoom).au with state := .dim }.state = .dim ∧ (lastDigit (inImage .header none)).psp.phase = .image ∧
    inListen.ind.lampTest = true ∧ inListen.psp.listenStart = some 0 ∧
    0 + 500 * milli ≤ (inListen.advance (500 * milli)).now ∧ inRoom.psp.runStart = some 0 ∧
    0 + 3000 * milli ≤ (inRoom.advance (3000 * milli)).now := by decide

/-- The port's gap at its end. -/
def portOf (x y : Option ReadReq) : State :=
  { inRoom with psp := { inRoom.psp with port := .gap portGap, waitRefill := x, waitComposer := y } }

theorem meets_RefillGoesBeforeTheComposer : (portOf none none).psp.port = .gap 12 ∧
    12 ≤ ((portOf none none).advance 12).now ∧
    (portOf (some { addr := 0, size := 64 }) none).psp.waitRefill = some { addr := 0, size := 64 } ∧
    (portOf none (some { addr := 0, size := 5 })).psp.waitComposer = some { addr := 0, size := 5 } ∧
    (portOf none none).psp.waitRefill = none := by decide

end Sys2Proof.Tests
end

