-- ==== Sys2Proof/Proofs/Roster.lean ====
section
/-! PROOFS. The roster (chapter 3): what a taken STATUS puts into it, and what the soonest-minutes query reads
out of it. -/

namespace Sys2Proof.Machine

/-! ## The entries of the roster -/

/-- Putting `x` brings in nothing but `x`, whether or not the set is in order. -/
theorem eq_or_mem_of_mem_putBy {α : Type} (key : α → Nat) (x : α) {l : List α} {y : α}
    (hy : y ∈ putBy key x l) : y = x ∨ y ∈ l := by
  induction l with
  | nil => simpa [putBy] using hy
  | cons z zs ih =>
    unfold putBy at hy
    split_ifs at hy with before same
    · exact List.mem_cons.1 hy
    · exact (List.mem_cons.1 hy).imp_right (List.mem_cons_of_mem z)
    · rcases List.mem_cons.1 hy with rfl | later
      · exact .inr List.mem_cons_self
      · exact (ih later).imp_right (List.mem_cons_of_mem z)

/-- R20: minutes that are known are clamped. -/
theorem minutesOf_le {code v : Nat} (h : minutesOf code = some v) : v ≤ 999 := by
  unfold minutesOf at h
  split at h
  case isTrue => cases h
  case isFalse =>
    cases h
    exact min_le_right code 999

theorem recordOf_minutes_le {payload : List Byte} {v : Nat} (h : (recordOf payload).minutes = some v) : v ≤ 999 :=
  minutesOf_le h

/-- R44: the entry that a STATUS gives has the minutes of its record; the others were there before. -/
theorem mem_rosterTake_minutes {m : Nat} {p : List Byte} {n : Time} {es : List RosterEntry} {e : RosterEntry}
    (he : e ∈ rosterTake m p n es) : e.minutes = (recordOf p).minutes ∨ e ∈ es := by
  rcases eq_or_mem_of_mem_putBy _ _ he with rfl | kept
  · exact .inl rfl
  · exact .inr kept

/-! ## The soonest-minutes query (R49) -/

/-- The minutes that R49's query takes the least of. -/
def busyMinutes (sel : Option MachineKind) (es : List RosterEntry) : List Nat :=
  (es.filter fun e => belongs sel e.kind && e.coarse == .busy).filterMap RosterEntry.minutes

theorem soonest_eq_min? (sel : Option MachineKind) (es : List RosterEntry) :
    soonest sel es = (busyMinutes sel es).min? := rfl

theorem mem_busyMinutes {sel : Option MachineKind} {es : List RosterEntry} {v : Nat} :
    v ∈ busyMinutes sel es ↔
      ∃ e ∈ es, belongs sel e.kind = true ∧ e.coarse = .busy ∧ e.minutes = some v := by
  simp [busyMinutes, and_assoc]

theorem soonest_eq_some_iff {sel : Option MachineKind} {es : List RosterEntry} {v : Nat} :
    soonest sel es = some v ↔
      (∃ e ∈ es, belongs sel e.kind = true ∧ e.coarse = .busy ∧ e.minutes = some v) ∧
        ∀ e ∈ es, belongs sel e.kind = true → e.coarse = .busy → ∀ w, e.minutes = some w → v ≤ w := by
  rw [soonest_eq_min?, List.min?_eq_some_iff, mem_busyMinutes]
  refine and_congr_right fun _ => ⟨fun least e he hk hc w hw => ?_, fun least w hw => ?_⟩
  · exact least w (mem_busyMinutes.2 ⟨e, he, hk, hc, hw⟩)
  · obtain ⟨e, he, hk, hc, hw⟩ := mem_busyMinutes.1 hw
    exact least e he hk hc w hw

theorem soonest_eq_none_iff {sel : Option MachineKind} {es : List RosterEntry} :
    soonest sel es = none ↔
      ∀ e ∈ es, belongs sel e.kind = true → e.coarse = .busy → e.minutes = none := by
  rw [soonest_eq_min?, List.min?_eq_none_iff, List.eq_nil_iff_forall_not_mem]
  refine ⟨fun empty e he hk hc => ?_, fun unknown v hv => ?_⟩
  · exact Option.eq_none_iff_forall_ne_some.2 fun v hv => empty v (mem_busyMinutes.2 ⟨e, he, hk, hc, hv⟩)
  · obtain ⟨e, he, hk, hc, known⟩ := mem_busyMinutes.1 hv
    cases known.symm.trans (unknown e he hk hc)

/-! ## Minutes up to 999 -/

section
variable {es : List RosterEntry} (bound : ∀ e ∈ es, ∀ w, e.minutes = some w → w ≤ 999)
include bound

theorem soonest_le {sel : Option MachineKind} {v : Nat} (h : soonest sel es = some v) : v ≤ 999 := by
  obtain ⟨⟨e, he, _, _, hv⟩, _⟩ := soonest_eq_some_iff.1 h
  exact bound e he v hv

theorem rosterTake_minutes_le {m : Nat} {p : List Byte} {n : Time} {e : RosterEntry}
    (he : e ∈ rosterTake m p n es) {w : Nat} (hw : e.minutes = some w) : w ≤ 999 := by
  rcases mem_rosterTake_minutes he with taken | kept
  · exact recordOf_minutes_le (taken ▸ hw)
  · exact bound e kept w hw

end

/-! ## The statement -/

/-- Settles O37. The tables of R43 and R47 are the definitions' own equations; R49's query is the least element of
`busyMinutes`. -/
theorem rosterQueriesReadBusyMachines : Obligations.RosterQueriesReadBusyMachines := by
  refine ⟨fun k => ⟨rfl, rfl, rfl⟩, ⟨rfl, rfl, rfl, rfl, rfl, rfl, rfl, rfl⟩, fun sel es =>
    ⟨fun v => soonest_eq_some_iff, soonest_eq_none_iff, fun bound => ⟨fun v => soonest_le bound, ?_⟩⟩⟩
  exact fun m p n e he w hw => rosterTake_minutes_le bound he hw

end Sys2Proof.Machine
end

