-- ==== Sys2Proof/Proofs/Numbers.lean ====
section
/-! PROOFS. Numbers as clips (R119): the clips of NUMBER and OWN_NUMBER by range, and the clips of DIGITS as the
library's decimal digits. -/

namespace Sys2Proof.Machine

/-! ## NUMBER and OWN_NUMBER -/

theorem numberClips_of_le_99 {v : Nat} (small : v ≤ 99) : numberClips v = [v] := by
  have clamp : min v 999 = v := min_eq_left (by omega)
  simp [numberClips, clamp, Nat.lt_succ_of_le small]

theorem numberClips_of_hundreds {v : Nat} (low : 100 ≤ v) (high : v ≤ 999) :
    numberClips v = if v % 100 = 0 then [v / 100, 100] else [v / 100, 100, v % 100] := by
  have more : ¬ v < 100 := by omega
  by_cases whole : v % 100 = 0
  · simp [numberClips, min_eq_left high, more, whole]
  · simp [numberClips, min_eq_left high, more, whole]

theorem numberClips_of_gt_999 {v : Nat} (large : 999 < v) : numberClips v = numberClips 999 := by
  simp only [numberClips, min_eq_right large.le, min_self]

theorem expand_ownNumber (r : Readings) (it : Item) :
    expand r it .ownNumber = plain (numberClips r.machine) := rfl

theorem expand_number_of_not_coded {r : Readings} {it : Item} {p : Nat}
    (free : codedPosition it.cls p (it.params.get p) = none) :
    expand r it (.number p) = plain (numberClips (it.params.get p)) := by
  simp only [expand, free]

/-! ## DIGITS -/

theorem expand_digits (r : Readings) (it : Item) (p : Nat) :
    expand r it (.digits p) = plain (digitClips (it.params.get p)) := rfl

theorem digitClips_zero : digitClips 0 = [0] := rfl

/-- Each branch of `digitClips` is for one count of digits, and peels off that many of the library's. The library
gives 0 no digit, and the part says ZERO. -/
theorem digitClips_eq_reverse_digits {v : Nat} (pos : v ≠ 0) (bound : v < 10000) :
    digitClips v = (Nat.digits 10 v).reverse := by
  have peel {n : Nat} (more : 10 ≤ n) : Nat.digits 10 n = n % 10 :: Nat.digits 10 (n / 10) :=
    Nat.digits_of_two_le_of_pos (by decide) (by omega)
  have hundreds : v / 10 / 10 = v / 100 := Nat.div_div_eq_div_mul v 10 10
  have thousands : v / 100 / 10 = v / 1000 := Nat.div_div_eq_div_mul v 100 10
  unfold digitClips
  split_ifs with one two three
  · rw [Nat.digits_of_lt 10 v pos one]; rfl
  · rw [peel (by omega), Nat.digits_of_lt 10 _ (by omega) (by omega)]; rfl
  · rw [peel (by omega), peel (by omega), hundreds, Nat.digits_of_lt 10 _ (by omega) (by omega)]; rfl
  · have top : v / 1000 % 10 = v / 1000 := Nat.mod_eq_of_lt (by omega)
    rw [top, peel (by omega), peel (by omega), hundreds, peel (by omega), thousands,
      Nat.digits_of_lt 10 _ (by omega) (by omega)]
    rfl

section
variable {v : Nat} (bound : v < 10000)
include bound

theorem foldl_digitClips : (digitClips v).foldl (fun acc d => 10 * acc + d) 0 = v := by
  by_cases zero : v = 0
  · rw [zero, digitClips_zero]; rfl
  · calc (digitClips v).foldl (fun acc d => 10 * acc + d) 0
        = (Nat.digits 10 v).foldr (fun d acc => 10 * acc + d) 0 := by
          rw [digitClips_eq_reverse_digits zero bound, List.foldl_reverse]
      _ = Nat.ofDigits 10 (Nat.digits 10 v) := by simp only [Nat.ofDigits_eq_foldr, Nat.cast_id, add_comm]
      _ = v := Nat.ofDigits_digits 10 v

theorem le_nine_of_mem_digitClips {d : Nat} (hd : d ∈ digitClips v) : d ≤ 9 := by
  by_cases zero : v = 0
  · rw [zero, digitClips_zero, List.mem_singleton] at hd
    omega
  · rw [digitClips_eq_reverse_digits zero bound, List.mem_reverse] at hd
    exact Nat.le_of_lt_succ (Nat.digits_lt_base (by decide) hd)

theorem head?_digitClips_ne_zero (pos : v ≠ 0) : (digitClips v).head? ≠ some 0 := by
  rw [digitClips_eq_reverse_digits pos bound, List.head?_reverse,
    List.getLast?_eq_getLast_of_ne_nil (Nat.digits_ne_nil_iff_ne_zero.2 pos)]
  exact fun leading => Nat.getLast_digit_ne_zero 10 pos (Option.some.inj leading)

end

/-! ## The statement -/

/-- Settles O46. NUMBER by the ranges of R119; DIGITS through the decimal digits of the library. -/
theorem numbersAreClips : Obligations.NumbersAreClips := by
  refine ⟨fun v => numberClips_of_le_99, fun v => numberClips_of_hundreds, fun v => numberClips_of_gt_999,
    fun r it _ own => ?_, fun r it p => expand_number_of_not_coded, expand_digits, fun v range => ?_⟩
  · rw [expand_ownNumber, numberClips_of_le_99 (by omega)]; rfl
  · have bound : v < 10000 := by omega
    refine ⟨foldl_digitClips bound, fun d => le_nine_of_mem_digitClips bound, ?_, head?_digitClips_ne_zero bound⟩
    rintro rfl
    exact digitClips_zero

end Sys2Proof.Machine
end

