-- ==== Sys2Proof/Proofs/Precedence.lean ====
section
/-! PROOFS. Precedence of claims (R135): the strict lexicographic order of level and address, and where the floor
controller compares a claim it receives with its own. -/

namespace Sys2Proof.Machine

/-! ## Precedence as an order -/

/-- R135: what two claims are ordered by. The level counts before the address, and URGENT comes first. -/
def claimKey : Level → Nat → Nat ×ₗ Nat
  | .urgent, a => toLex (0, a)
  | .routine, a => toLex (1, a)

theorem precedes_same_level (l : Level) (a b : Nat) : precedes l a l b = decide (a < b) := by
  cases l <;> simp [precedes]

theorem urgent_precedes_routine (a b : Nat) : precedes .urgent a .routine b = true := rfl

theorem not_routine_precedes_urgent (a b : Nat) : precedes .routine a .urgent b = false := rfl

theorem precedes_iff_claimKey_lt (l m : Level) (a b : Nat) :
    precedes l a m b = true ↔ claimKey l a < claimKey m b := by
  cases l <;> cases m <;> simp [precedes, claimKey, Prod.Lex.toLex_lt_toLex]

theorem claimKey_ne_of_addr_ne {a b : Nat} (l m : Level) (different : a ≠ b) : claimKey l a ≠ claimKey m b := by
  cases l <;> cases m <;> simp [claimKey, different]

theorem precedes_trans {l m k : Level} {a b c : Nat} (first : precedes l a m b = true)
    (second : precedes m b k c = true) : precedes l a k c = true := by
  rw [precedes_iff_claimKey_lt] at first second ⊢
  exact first.trans second

theorem precedes_eq_not_precedes {a b : Nat} (l m : Level) (different : a ≠ b) :
    precedes l a m b = !precedes m b l a := by
  have untied : claimKey l a ≠ claimKey m b := claimKey_ne_of_addr_ne l m different
  rw [Bool.eq_iff_iff, Bool.not_eq_true', ← Bool.not_eq_true, precedes_iff_claimKey_lt, precedes_iff_claimKey_lt,
    not_lt, untied.le_iff_lt]

/-! ## Where a received claim meets the own one -/

/-- R145: the first claim of an address that stands while the station speaks is yielded to or re-asserted against. -/
theorem fcJudge_of_speaking {addr : Nat} {level : Level} {x : Utterance} {p : Time} {s : State}
    (speaking : s.fc.state = .speaking) (current : s.fc.utterance = some x) (start : s.fc.playStart = some p)
    (uncut : s.fc.cutOrder = none) (fresh : addr ∉ s.fc.reasserted) :
    fcJudge addr level s =
      if precedes level addr x.level s.ownAddress then orderCut .giveBack s else fcReassert x p addr s := by
  simp [fcJudge, speaking, current, start, uncut, fresh]

@[simp] theorem ownAddress_withFloor (s : State) (fc : Floor) : { s with fc := fc }.ownAddress = s.ownAddress := rfl

/-- R142, R143: a claim heard before the station speaks is stored, and one that precedes makes it give up its own. -/
theorem fcClaimReceived_of_claimed {addr units : Nat} {level : Level} {n : Time} {x : Utterance} {s : State}
    (claimed : s.fc.state = .claiming ∨ s.fc.state = .contest) (current : s.fc.utterance = some x) :
    fcClaimReceived addr level units n s =
      (let heard := { s with fc := s.fc.store addr level units n }
       if precedes level addr x.level s.ownAddress then fcTest (backToWaiting (fcRelease heard)) else heard) := by
  rcases claimed with claiming | contest
  · simp [fcClaimReceived, claiming, current]
  · simp [fcClaimReceived, contest, current]

/-! ## The statement -/

/-- Settles O49. Precedence is the strict order of `claimKey`, which no two addresses share. -/
theorem precedenceNeverTies : Obligations.PrecedenceNeverTies :=
  ⟨fun a b => ⟨urgent_precedes_routine a b, not_routine_precedes_urgent a b⟩, precedes_same_level,
    fun l m _ _ => precedes_eq_not_precedes l m, fun _ _ _ _ _ _ => precedes_trans,
    fun _ _ _ _ _ => fcJudge_of_speaking, fun _ _ _ _ _ _ => fcClaimReceived_of_claimed⟩

end Sys2Proof.Machine
end

