-- ==== Sys2Proof/Proofs/KernelLaws.lean ====
section
/-! PROOFS. The step, the reset state, and the laws over the kernel: each is kept by the twelve cases of `Change`,
so `Changes.keep` carries it along every step. -/

namespace Sys2Proof.Machine

/-! ## The step -/

/-- Settles O1. -/
theorem stepRunsTheFrontCommand : Obligations.StepRunsTheFrontCommand :=
  ⟨fun _ _ _ => rfl, fun s idle => by simp only [step, idle]⟩

/-- A step idles, or it is a command's, run with the queue's rest. -/
theorem step_cases {s u : State} (h : step s = .next u) :
    u = s ∨ ∃ c rest, s.pending = c :: rest ∧ exec c { s with pending := rest } = .next u := by
  unfold step at h
  split at h
  case h_1 => cases h; exact .inl rfl
  case h_2 c rest front => exact .inr ⟨c, rest, front, h⟩

/-- A law that does not read the waiting commands is kept by a step once every command keeps it. -/
theorem step_keeps {P : State → Prop} (blind : ∀ s rest, P s → P { s with pending := rest })
    (keeps : ∀ i s u, P s → exec i s = .next u → P u) {s u : State} (hs : P s) (h : step s = .next u) : P u := by
  rcases step_cases h with rfl | ⟨c, rest, -, ran⟩
  · exact hs
  · exact keeps c _ u (blind s rest hs) ran

theorem step_changes {s u : State} (h : step s = .next u) : Changes s.kernel u.kernel := by
  rcases step_cases h with rfl | ⟨c, rest, -, ran⟩
  · exact .refl _
  · exact (exec_runs c { s with pending := rest } u ran).changes

/-! ## Reset -/

/-- Settles O2. -/
theorem resetRestoresEveryBlock : Obligations.ResetRestoresEveryBlock := by
  refine ⟨fun t s => rfl, by decide, by decide, by decide, ⟨rfl, rfl, rfl, rfl, rfl, rfl, rfl, rfl, rfl, rfl, ?_⟩,
    by decide, ⟨rfl, rfl, rfl, rfl, rfl, ?_⟩, by decide, by decide, by decide, by decide, rfl⟩
  · intro k; cases k <;> rfl
  · intro r; cases r <;> rfl

/-- Settles O3. Everything that a law speaks of is empty, closed or 0 after reset. -/
theorem resetMeetsTheLaws : Obligations.ResetMeetsTheLaws := by
  refine ⟨?_, ?_, ?_, ?_, ?_, ?_, ?_, ?_, ?_, ?_⟩
  · simp [QueueLaw, State.reset, PromptQueue.reset]
  · simp [ViewLaw, State.reset, Floor.reset]
  · simp [RosterLaw, State.reset]
  · simp [TransmitLaw, State.reset, LinePort.reset]
  · simp [CountLaw, State.reset, LinePort.reset]
  · simp [SilenceLaw, State.reset, LinePort.reset]
  · simp [PanelLaw, State.reset, PanelUnit.reset, PhraseStore.reset]
  · simp [UnitsLaw, State.reset, LinePort.reset, Floor.reset, Composer.reset]
  · simp [SpeakLaw, State.reset, VoicePlayer.reset, Composer.reset]
  · simp [DialogueLaw, State.reset, Dialogue.reset, DialogueState.selecting]

/-! ## The prompt queue (R94) -/

/-- R94 as a law over the kernel. -/
def Kernel.Ordered (k : Kernel) : Prop :=
  k.items.Pairwise (fun a b => a.rank < b.rank) ∧ k.items.length ≤ Config.queueCapacity

/-- An update that keeps the classes keeps the class order. -/
theorem pairwise_rank_map {f : Item → Item} (classes : ∀ x, (f x).cls = x.cls) {l : List Item}
    (h : l.Pairwise fun a b => a.rank < b.rank) : (l.map f).Pairwise fun a b => a.rank < b.rank := by
  refine List.pairwise_map.2 (h.imp fun {a b} lt => ?_)
  simpa only [Item.rank, classes] using lt

theorem ordered_change {a b : Kernel} (c : Change a b) (h : a.Ordered) : b.Ordered := by
  obtain ⟨sorted, short⟩ := h
  cases c with
  | leave l sub => exact ⟨sorted.sublist sub, sub.length_le.trans short⟩
  | place it _ => exact placeItem_keeps it a.items sorted short
  | update f classes =>
    exact ⟨pairwise_rank_map classes sorted, (List.length_map f).trans_le short⟩
  | reset n => exact ⟨.nil, Nat.zero_le _⟩
  | transmit | begin | latch | phase | utter | play | work | tick => exact ⟨sorted, short⟩

/-- Settles O4. -/
theorem stepKeepsTheQueueInOrder : Obligations.StepKeepsTheQueueInOrder := fun _ _ law ran =>
  (step_changes ran).keep (P := Kernel.Ordered) (fun _ _ => ordered_change) law

/-! ## The transmit queue (R9) -/

/-- R9 as a law over the kernel. -/
def Kernel.OneOfAKind (k : Kernel) : Prop := (k.queue.map Place.kind).Nodup

theorem oneOfAKind_change {a b : Kernel} (c : Change a b) (h : a.OneOfAKind) : b.OneOfAKind := by
  cases c with
  | transmit queue tx change => exact change.kinds h
  | latch => exact List.nodup_nil
  | reset n => exact List.nodup_nil
  | leave | place | update | begin | phase | utter | play | work | tick => exact h

/-- Settles O7. -/
theorem stepKeepsOneFrameOfAKind : Obligations.StepKeepsOneFrameOfAKind := fun _ _ law ran =>
  (step_changes ran).keep (P := Kernel.OneOfAKind) (fun _ _ => oneOfAKind_change) law

/-! ## Silence (R17, R18) -/

/-- R17 and R18 as a law over the kernel. -/
def Kernel.Silent (k : Kernel) : Prop :=
  (k.clash = true → k.queue = [] ∧ k.tx = none) ∧ (k.phase ≠ .run → k.tx = none)

/-- No attempt comes out of a change of the transmit queue that had none before it. -/
theorem QueueChange.tx_none {k : Kernel} {q : List Place} {t : Option Tx} (h : QueueChange k q t)
    (idle : k.tx = none) : t = none := by
  refine Option.eq_none_iff_forall_ne_some.2 fun x sending => ?_
  obtain ⟨y, was, -⟩ := h.line x sending
  exact absurd (idle.symm.trans was) (by simp)

theorem silent_change {a b : Kernel} (c : Change a b) (h : a.Silent) : b.Silent := by
  obtain ⟨latched, outside⟩ := h
  cases c with
  | transmit queue tx change =>
    exact ⟨fun clash => ⟨change.quiet clash (latched clash).1, change.tx_none (latched clash).2⟩,
      fun away => change.tx_none (outside away)⟩
  | begin p x _ clear running =>
    exact ⟨fun clash => absurd (clear.symm.trans clash) (by decide), fun away => absurd running away⟩
  | latch => exact ⟨fun _ => ⟨rfl, rfl⟩, fun _ => rfl⟩
  | phase p away => exact ⟨latched, fun _ => outside away⟩
  | reset n => exact ⟨fun _ => ⟨rfl, rfl⟩, fun _ => rfl⟩
  | leave | place | update | utter | play | work | tick => exact ⟨latched, outside⟩

theorem ltx_of_tx_none {l : LinePort} (h : l.tx = none) (n : Time) : l.ltx n = true := by
  simp only [LinePort.ltx, h]

/-- Settles O9. With no attempt under way LTX is released. -/
theorem stepKeepsTheLineSilent : Obligations.StepKeepsTheLineSilent := by
  intro s u law ran
  have kept : u.kernel.Silent := (step_changes ran).keep (P := Kernel.Silent) (fun _ _ => silent_change) law
  refine ⟨kept, fun mute n => ltx_of_tx_none ?_ n⟩
  exact mute.elim (fun clash => (kept.1 clash).2) kept.2

/-! ## Floor units (R129, R146) -/

theorem utteranceUnits_room (g : Nat) (es : List Entry) :
    utteranceUnits .room g es = utteranceUnits .loc g es + 60 := rfl

/-- A clip entry of a length takes at least one clip unit. -/
theorem one_le_utteranceUnits {r : Reach} {g : Nat} {es : List Entry} {id addr len : Nat}
    (mem : Entry.clip id addr len ∈ es) (pos : 1 ≤ len) : 1 ≤ utteranceUnits r g es := by
  have counted : len ≤ (es.map Entry.len).sum :=
    List.le_sum_of_mem (List.mem_map.2 ⟨.clip id addr len, mem, rfl⟩)
  simp only [utteranceUnits]
  omega

/-- R129: a lawful utterance lowered to LOCAL reach is lawful. -/
theorem Utterance.lawful_lower {u : Utterance} (h : u.lawful) : u.lower.lawful := by
  cases reach : u.reach with
  | loc => simpa only [Utterance.lower, reach] using h
  | room =>
    obtain ⟨units, -, high, -, room, id, addr, len, mem, pos⟩ := h
    have least : 1 ≤ utteranceUnits .loc u.gap u.entries := one_le_utteranceUnits mem pos
    have opening : u.units = utteranceUnits .loc u.gap u.entries + 60 := by
      rw [units, reach, utteranceUnits_room]
    have lowered : u.units - 60 = utteranceUnits .loc u.gap u.entries := by omega
    simp only [Utterance.lower, reach, Utterance.lawful, lowered]
    exact ⟨trivial, least, by omega, trivial, room, id, addr, len, mem, pos⟩

/-- R129 and R146 as a law over the kernel. -/
def Kernel.InUnits (k : Kernel) : Prop :=
  (∀ p ∈ k.queue, p.kind = .claim → claimFrame p.bytes) ∧
    (∀ x, k.tx = some x → x.kind = .claim → claimFrame x.bytes) ∧
    (∀ u, k.utterance = some u → u.lawful) ∧ (∀ w, k.work = some w → w.lawful) ∧
    ∀ p, k.playStart = some p → p ≤ k.now

theorem inUnits_change {a b : Kernel} (c : Change a b) (h : a.InUnits) : b.InUnits := by
  obtain ⟨queue, line, current, composing, past⟩ := h
  cases c with
  | transmit q t change =>
    refine ⟨fun p mem claim => ?_, fun x sending claim => ?_, current, composing, past⟩
    · rcases change.frames p mem with ⟨old, was, kind, bytes⟩ | fresh
      · exact bytes ▸ queue old was (kind.trans claim)
      · exact fresh ⟨current, past⟩ claim
    · obtain ⟨old, was, kind, bytes⟩ := change.line x sending
      exact bytes ▸ line old was (kind.trans claim)
  | begin p x mem _ _ kind bytes =>
    refine ⟨queue, fun y sending claim => ?_, current, composing, past⟩
    cases sending
    exact bytes ▸ queue p mem (kind.symm.trans claim)
  | latch => exact ⟨by simp, by simp, current, composing, past⟩
  | utter u source =>
    refine ⟨queue, line, fun v now => ?_, composing, past⟩
    rcases source v now with same | ⟨w, was, rfl⟩ | ⟨w, was, finished⟩
    · exact current v same
    · exact Utterance.lawful_lower (current w was)
    · obtain ⟨-, -, -, result⟩ := composing w was
      exact result v finished
  | play p began => exact ⟨queue, line, current, composing, began⟩
  | work w source =>
    refine ⟨queue, line, current, fun v now => ?_, past⟩
    rcases source v now with lawful | ⟨old, was, keeps⟩
    · exact lawful
    · exact keeps (composing old was)
  | tick n => exact ⟨queue, line, current, composing, fun p now => (past p now).trans (le_max_left _ _)⟩
  | reset n =>
    exact ⟨by simp [State.kernel, State.reset, LinePort.reset], by simp [State.kernel, State.reset, LinePort.reset],
      by simp [State.kernel, State.reset, Floor.reset], by simp [State.kernel, State.reset, Composer.reset],
      by simp [State.kernel, State.reset, Floor.reset]⟩
  | leave | place | update | phase => exact ⟨queue, line, current, composing, past⟩

/-- Settles O11. -/
theorem stepKeepsClaimsWithinFloorUnits : Obligations.StepKeepsClaimsWithinFloorUnits := fun _ _ law ran =>
  (step_changes ran).keep (P := Kernel.InUnits) (fun _ _ => inUnits_change) law

/-! ## Sounds and compositions (R144, R137) -/

/-- Settles O12. -/
theorem stepSoundsOnlyInSpeaking : Obligations.StepSoundsOnlyInSpeaking := fun _ _ law ran =>
  step_keeps (P := SpeakLaw) (fun _ _ => SpeakLaw.of_voices rfl)
    (fun i s u hs run => (exec_runs i s u run).speak hs) law ran

end Sys2Proof.Machine
end

