-- ==== Sys2Proof/Proofs/CommandFrames.lean ====
section
/-! PROOFS. What each family of commands leaves as it is, from the frames of the operations that the command's
meaning is made of. -/

namespace Sys2Proof.Machine

/-! ## The composer, the voice player, the port and the floor timers -/

/-- A change of the phrase store port's arbiter alone. -/
theorem outside_arbiter (s : State) (p : PhraseStore) (h : p.settled = s.psp.settled) :
    { s with psp := p }.outside = s.outside := by
  simp only [State.outside, h]

theorem outside_pq (s : State) (q : PromptQueue) : { s with pq := q }.outside = s.outside := rfl

/-- Settles O14. -/
theorem speakingCommandsFrame : Obligations.SpeakingCommandsFrame := by
  intro t d c i s u mem ran
  simp only [List.mem_cons, List.not_mem_nil, or_false] at mem
  generalize clock : s.advance t = a
  rcases mem with rfl | rfl | rfl | rfl | rfl | rfl | rfl | rfl | rfl | rfl | rfl | rfl
  all_goals cases ran; simp only [clock]
  · split                                             -- COMPOSER_READ_END
    · exact (outside_cpAsk _ _).trans (outside_arbiter a _ (settled_finish _ _))
    · rfl
  · split                                             -- COMPOSITION_END
    · exact outside_fcResult _ _
    · rfl
  · split                                             -- CURRENT_ITEM_EXPIRE
    · split
      · exact outside_fcDiscard _
      · rfl
    · rfl
  · split                                             -- CONTEST_WINDOW_END
    · split
      · exact outside_fcSpeak _ _ _
      · rfl
    · rfl
  · split                                             -- REFILL_END
    · rw [outside_vpRefill, outside_vpTakeRefill]
      exact outside_arbiter a _ (settled_finish _ _)
    · rfl
  · split                                             -- ARBITER_GRANT
    · split
      · exact outside_arbiter a _ (settled_arbitrate _ _)
      · rfl
    · rfl
    · rfl
  · split                                             -- UTTERANCE_PLAYED_WHOLE
    · split
      · exact outside_soundOver _ _
      · rfl
    · rfl
  · split                                             -- CUT_COMPLETE
    · split
      · exact outside_soundOver _ _
      · rfl
    · rfl
  · split                                             -- HARD_STOP_FADE
    · split
      · exact outside_vpHardFade _
      · rfl
    · rfl
  · split                                             -- HARD_STOP
    · split
      · exact outside_soundOver _ _
      · rfl
    · rfl
  · split                                             -- SPACING_END
    · exact outside_takeHead _
    · rfl
  · split                                             -- QUEUE_ITEM_EXPIRE
    · exact outside_pq a _
    · rfl

/-! ## The timers of the view -/

/-- What the speaking side leaves as it is, the floor view aside. -/
def State.unheard (s : State) : State := { s.outside with fc := .reset }

theorem unheard_of_outside {s t : State} (h : t.outside = s.outside) : t.unheard = s.unheard := by
  simp only [State.unheard, h]

/-- The floor controller changes, and then the speaking side acts. -/
theorem unheard_then {s t : State} {fc : Floor} (h : t.outside = { s with fc := fc }.outside) :
    t.unheard = s.unheard := unheard_of_outside (s := { s with fc := fc }) h

/-- Settles O15. -/
theorem viewTimersFrame : Obligations.ViewTimersFrame := by
  intro t n i s u mem ran
  change u.unheard = (s.advance t).unheard
  simp only [List.mem_cons, List.not_mem_nil, or_false] at mem
  generalize clock : s.advance t = a
  rcases mem with rfl | rfl | rfl
  all_goals cases ran; simp only [clock]
  · split                                             -- VIEW_ENTRY_EXPIRE
    · split
      · exact unheard_then (outside_fcTest _)
      · rfl
    · rfl
  · split                                             -- CROWDED_CLEAR
    · exact unheard_then (outside_fcTest _)
    · rfl
  · split                                             -- CLAIM_STANDS
    · split
      · exact unheard_then (outside_fcJudge _ _ _)
      · rfl
    · rfl

/-! ## Call timers, the dim timer and the reprompt -/

theorem beyond_of_outside {s t : State} (h : t.outside = s.outside) : t.beyond = s.beyond := by
  simp only [State.beyond, h]

theorem beyond_au (s : State) (x : AttentionUnit) : { s with au := x }.beyond = s.beyond := rfl

theorem beyond_activity (s : State) : (activity s).beyond = s.beyond := by
  unfold activity
  split
  · exact beyond_au s _
  · rfl

theorem beyond_callExpiry (r : Series) (s : State) : (callExpiry r s).beyond = s.beyond := by
  unfold callExpiry
  extract_lets c _ s'
  have stopped : s'.beyond = s.beyond := beyond_of_outside (outside_pq s _)
  split
  · exact ((beyond_of_outside (outside_triggerAs _ _ _ _ _)).trans (beyond_activity _)).trans stopped
  · exact stopped

theorem beyond_reprompt (s : State) : (reprompt s).beyond = s.beyond :=
  (beyond_of_outside (outside_trigger _ _ _)).trans (beyond_au s _)

/-- Settles O16. -/
theorem timedPromptsFrame : Obligations.TimedPromptsFrame := by
  intro t r i s u mem ran
  simp only [List.mem_cons, List.not_mem_nil, or_false] at mem
  generalize clock : s.advance t = a
  rcases mem with rfl | rfl | rfl
  all_goals cases ran; simp only [clock]
  · split                                             -- CALL_TIMER_EXPIRE
    · exact beyond_callExpiry r a
    · rfl
  · split                                             -- DIM_TIMEOUT
    · exact beyond_au a _
    · rfl
  · split                                             -- REPROMPT_TIMEOUT
    · exact beyond_reprompt a
    · rfl

/-! ## The panel and the dark timer -/

theorem apart_button_of (s : State) (e : PanelEvent) (p : PanelUnit) (c : Prop) [Decidable c] :
    Apart s (if c then buttonEvent e { s with pu := p } else s) := by
  split
  · exact apart_button s p e
  · exact .refl s

/-- Settles O17. -/
theorem panelCommandsFrame : Obligations.PanelCommandsFrame := by
  intro t x y k d i s u mem ran
  change Apart (s.advance t) u
  simp only [List.mem_cons, List.not_mem_nil, or_false] at mem
  generalize clock : s.advance t = a
  rcases mem with rfl | rfl | rfl | rfl | rfl | rfl | rfl | rfl | rfl | rfl | rfl
  all_goals cases ran; simp only [clock]
  · split                                             -- KNOB_TRANSITION
    · exact apart_knobSample x y a
    · exact .refl a
  · split                                             -- KEY_PRESS_ACCEPTED
    · exact apart_pressKey k a
    · exact .refl a
  · split                                             -- KEY_RELEASE_ACCEPTED
    · exact apart_releaseKey k a
    · exact .refl a
  · split                                             -- STEP_REPEAT
    · split
      · exact (Apart.aside a _ _ _).trans (apart_makeStep _ _)
      · exact .refl a
    · exact .refl a
  · split                                             -- SETTLE_TIMEOUT
    · exact apart_settleNow a
    · exact .refl a
  · exact apart_button_of a _ _ _                     -- CANCEL_HOLD
  · exact apart_button_of a _ _ _                     -- START_HOLD
  · exact apart_button_of a _ _ _                     -- HELP_WINDOW_CLOSE
  · exact apart_button_of a _ _ _                     -- LANGUAGE_HOLD
  · exact apart_button_of a _ _ _                     -- HUSH_TOGGLE
  · exact apart_darkFirst a                           -- DARK_TIMEOUT

/-! ## The partner's timers -/

/-- Settles O18. -/
theorem partnerTimersFrame : Obligations.PartnerTimersFrame := by
  intro t i s u mem ran
  change Room (s.advance t) u
  simp only [List.mem_cons, List.not_mem_nil, or_false] at mem
  generalize clock : s.advance t = a
  rcases mem with rfl | rfl
  all_goals cases ran; simp only [clock]
  · split                                             -- FRESHNESS_TIMEOUT
    · exact room_freshnessLost a
    · exact .refl a
  · split                                             -- REQUEST_DEADLINE
    · split
      · exact (room_remove a .request).trans (room_resolveNoAnswer _ _)
      · exact .refl a
    · exact .refl a

/-! ## The line -/

/-- From `s` to `t` nothing changes of what the line's commands leave as it is. -/
def Still (s t : State) : Prop := t.still = s.still

theorem Still.refl (s : State) : Still s s := rfl

theorem Still.trans {a b c : State} (h : Still a b) (g : Still b c) : Still a c := Eq.trans g h

theorem Still.of_room {s t : State} (h : Room s t) : Still s t := by
  unfold Still State.still
  rw [show t.room = s.room from h]

theorem Still.of_outside {s t : State} (h : t.outside = s.outside) : Still s t :=
  .of_room (.of_apart (.of_outside h))

/-- A change of the line port and of the floor controller. -/
theorem Still.aside (s : State) (l : LinePort) (c : Floor) : Still s { s with lp := l, fc := c } := rfl

theorem still_deliverReport (s : State) (r : Report) : Still s (deliverReport s r) := by
  unfold deliverReport
  split
  · exact .of_outside (outside_fcClaimReport _ _)
  · exact .of_outside (outside_fcReleaseReport _)
  · exact .of_room (room_pmReport _ _)

theorem still_deliverReports (rs : List Report) (s : State) : Still s (deliverReports rs s) := by
  unfold deliverReports
  induction rs generalizing s with
  | nil => exact .refl s
  | cons r rs ih => exact (still_deliverReport s r).trans (ih _)

theorem still_lineChanged (old : LinePort) (s : State) : Still s (lineChanged old s) := by
  unfold lineChanged
  extract_lets r s'
  have entered : Still s s' := by
    simp only [s']
    split
    · exact (Still.aside s r.1 _).trans (still_deliverReports _ _)
    · exact .refl s
  split
  · exact entered.trans (.of_outside (outside_fcLineChange _))
  · exact entered

theorem still_latchClash (s : State) : Still s (latchClash s) := by
  unfold latchClash
  split
  · exact .refl s
  · extract_lets r
    have latched : Still s (fcClash { s with lp := r.1 }) :=
      (Still.aside s r.1 _).trans (.of_outside (outside_fcClash _))
    exact (latched.trans (still_deliverReports _ _)).trans (.of_outside (outside_fcLineChange _))

theorem still_fcClaimReceived (n : Nat) (l : Level) (k : Nat) (t : Time) (s : State) :
    Still s (fcClaimReceived n l k t s) := by
  have acts {x : State} (h : x.outside = { s with fc := s.fc.store n l k t }.outside) : Still s x :=
    (Still.aside s _ (s.fc.store n l k t)).trans (.of_outside h)
  unfold fcClaimReceived
  extract_lets stored s' first
  split
  · exact acts (outside_fcTest _)
  · split
    · exact acts ((outside_fcTest _).trans ((outside_backToWaiting _).trans (outside_fcRelease _)))
    · exact acts rfl
  · split
    · exact acts ((outside_fcTest _).trans ((outside_backToWaiting _).trans (outside_fcRelease _)))
    · exact acts rfl
  · split
    · exact acts rfl
    · exact acts (outside_fcJudge _ _ _)
  all_goals exact acts rfl

theorem still_dispatch (k : RxKind) (n : Nat) (p : List Byte) (t : Time) (s : State) :
    Still s (dispatch k n p t s) := by
  unfold dispatch
  split
  · split
    · exact .of_room (room_pmStatus _ _ _)
    · exact .of_room (Room.aside s _ _ _ _ _)
  · exact still_fcClaimReceived _ _ _ _ _
  · exact (Still.aside s _ (s.fc.forget n)).trans (.of_outside (outside_fcTest _))
  · exact .refl s

theorem still_takeReception (r : Reception) (s : State) : Still s (takeReception r s) := by
  unfold takeReception
  extract_lets v old s'
  have counted : Still s s' := (Still.aside s _ _).trans (still_lineChanged _ _)
  clear_value s' v
  split
  · split
    · exact counted.trans (still_latchClash _)
    · exact counted.trans (still_dispatch _ _ _ _ _)
  all_goals exact counted

theorem still_closeReception (r : Reception) (s : State) : Still s (closeReception r s) := by
  have closed : Still s { s with lp := s.lp.quiet s.now } := .aside s _ _
  unfold closeReception
  dsimp only
  split
  · exact closed
  · exact closed.trans (still_takeReception _ _)

theorem still_failAttempt (s : State) : Still s (failAttempt s) :=
  ((Still.aside s _ _).trans (still_lineChanged _ _)).trans (still_deliverReports _ _)

/-- Settles O19. -/
theorem lineCommandsFrame : Obligations.LineCommandsFrame := by
  intro t b x g i s u mem ran
  change Still (s.advance t) u
  simp only [List.mem_cons, List.not_mem_nil, or_false] at mem
  generalize clock : s.advance t = a
  have line (l : LinePort) (z : State) : Still z { z with lp := l } := .aside z l _
  rcases mem with rfl | rfl | rfl | rfl | rfl | rfl | rfl | rfl
  all_goals cases ran; simp only [clock]
  · split                                             -- RECEPTION_CLOSE
    · split
      · exact still_closeReception _ a
      · exact line _ a
    · exact .refl a
  · split                                             -- LINE_HELD_SET
    · exact (line _ a).trans (still_lineChanged _ _)
    · exact .refl a
  · split                                             -- LINE_HELD_CLEAR
    · exact (line _ a).trans (still_lineChanged _ _)
    · exact .refl a
  · split                                             -- ATTEMPT_START
    · split
      · exact line _ a
      · exact .refl a
    · exact .refl a
  · split                                             -- ATTEMPT_WITHDRAWN
    · exact still_failAttempt a
    · exact .refl a
  · split                                             -- TRANSMISSION_COMPLETE
    · split
      · exact (line _ a).trans (still_deliverReports _ _)
      · split
        · exact still_failAttempt a
        · exact .refl a
    · exact .refl a
  · split                                             -- START_BIT_EDGE
    · have edge (z : State) : Still z (match g with
          | some d => { z with lp := z.lp.glitch z.now d }
          | none => { z with lp := z.lp.startBit z.now }) := by
        cases g
        · exact line _ z
        · exact line _ z
      refine Still.trans ?_ (edge _)
      split
      · split
        · exact still_closeReception _ a
        · exact .refl a
      · exact .refl a
    · exact .refl a
  · split                                             -- BYTE_RECEIVED
    · split
      · split
        · exact (line _ a).trans (still_failAttempt _)
        · exact line _ a
      · exact .refl a
    · exact .refl a

/-! ## The outputs -/

/-- All but the voice player and the port's arbiter. -/
def State.soundless (s : State) : State := { s with vp := .reset, psp := s.psp.settled }

theorem soundless_vp (s : State) (v : VoicePlayer) : { s with vp := v }.soundless = s.soundless := rfl

theorem soundless_vpRefill (s : State) : (vpRefill s).soundless = s.soundless := by
  unfold vpRefill
  split
  · split
    · split
      · simp only [State.soundless, settled_askRefill]
      · rfl
    · rfl
  · rfl

theorem soundless_vpSample (d : List Byte) (s : State) : (vpSample d s).soundless = s.soundless :=
  (soundless_vpRefill _).trans (soundless_vp s _)

/-- Settles O20. -/
theorem outputTicksFrame : Obligations.OutputTicksFrame := by
  refine ⟨fun t d i s u mem ran => ?_, fun t i s u mem ran => ?_⟩
  · change u.soundless = (s.advance t).soundless
    simp only [List.mem_cons, List.not_mem_nil, or_false] at mem
    generalize clock : s.advance t = a
    rcases mem with rfl | rfl | rfl
    all_goals cases ran; simp only [clock]
    · split                                           -- SAMPLE_PERIOD
      · exact soundless_vpSample d a
      · rfl
    · split                                           -- TONE_SOUND_END
      · split
        · exact soundless_vp a _
        · rfl
      · rfl
    · split                                           -- AMP_RELEASE_EXPIRE
      · exact soundless_vp a _
      · rfl
  · have shown (z : State) (x : Indicator) : { { z with ind := x } with ind := Indicator.reset } =
        { z with ind := Indicator.reset } := rfl
    simp only [List.mem_cons, List.not_mem_nil, or_false] at mem
    generalize clock : s.advance t = a
    rcases mem with rfl | rfl | rfl
    all_goals cases ran; simp only [clock]
    · split                                           -- MULTIPLEX_SLOT
      · exact shown a _
      · rfl
    · split                                           -- LAMP_TEST_END
      · exact shown a _
      · rfl
    · split                                           -- E1_WINDOW_END
      · exact shown a _
      · rfl

/-! ## Start-up -/

/-- All that start-up leaves as it is. -/
def State.started (s : State) : State :=
  { s with
    psp := .reset, ind := .reset, cp := { s.cp with defaultLang := 0, currentLang := 0 },
    lp := { s.lp with armed := false, idleSince := none, recessiveSince := none, dominantSince := none },
    pm := { s.pm with freshTimer := none } }

theorem started_psp (s : State) (p : PhraseStore) : { s with psp := p }.started = s.started := rfl

theorem started_beginListen (r : Bool) (s : State) : (beginListen r s).started = s.started := rfl

theorem started_fixLanguages (k : Nat) (s : State) : (fixLanguages k s).started = s.started := rfl

theorem started_imageTake (r : ImageRead) (d : List Byte) (b : Bool) (s : State) :
    (imageTake r d b s).started = s.started := by
  unfold imageTake
  dsimp only
  split
  · exact started_psp s _
  · exact (started_beginListen b _).trans ((started_fixLanguages _ _).trans (started_psp s _))

/-- Settles O21. -/
theorem startUpFrame : Obligations.StartUpFrame := by
  intro t x d b i s u mem ran
  change u.started = (s.advance t).started
  simp only [List.mem_cons, List.not_mem_nil, or_false] at mem
  generalize clock : s.advance t = a
  rcases mem with rfl | rfl | rfl
  all_goals cases ran; simp only [clock]
  · split                                             -- RESET_RELEASE
    · split
      · exact started_psp a _
      · exact started_psp a _
    · rfl
  · split                                             -- HEADER_READ_END
    · split
      · exact started_imageTake _ _ _ _
      · exact (started_beginListen b _).trans ((started_fixLanguages _ _).trans (started_psp a _))
    · rfl
  · split                                             -- IMAGE_READ_END
    · split
      · exact started_imageTake _ _ _ _
      · rfl
    · rfl

end Sys2Proof.Machine
end

