-- ==== Sys2Proof/Proofs/Frames.lean ====
section
/-! PROOFS. The frames once more, field by field: what `Apart` keeps, the partner monitor's and the line port's
operations as operations of `Apart`, and the parts that all but a few commands leave as they are. -/

namespace Sys2Proof.Machine

/-! ## What `outside` and `Apart` keep -/

section
variable {s t : State} (h : t.outside = s.outside)
include h

theorem outside_now : t.now = s.now := (congrArg State.now h :)
theorem outside_psp_settled : t.psp.settled = s.psp.settled := (congrArg State.psp h :)
theorem outside_lp_settled : t.lp.settled = s.lp.settled := (congrArg State.lp h :)
theorem outside_pm : t.pm = s.pm := (congrArg State.pm h :)
theorem outside_roster : t.roster = s.roster := (congrArg State.roster h :)
theorem outside_pu : t.pu = s.pu := (congrArg State.pu h :)
theorem outside_dc : t.dc = s.dc := (congrArg State.dc h :)
theorem outside_au : t.au = s.au := (congrArg State.au h :)
theorem outside_ind : t.ind = s.ind := (congrArg State.ind h :)
theorem outside_view : t.fc.view = s.fc.view := (congrArg (·.fc.view) h :)
theorem outside_crowded : t.fc.crowded = s.fc.crowded := (congrArg (·.fc.crowded) h :)
theorem outside_currentLang : t.cp.currentLang = s.cp.currentLang := (congrArg (·.cp.currentLang) h :)
theorem outside_defaultLang : t.cp.defaultLang = s.cp.defaultLang := (congrArg (·.cp.defaultLang) h :)

end

section
variable {s t : State} (h : Apart s t)
include h

theorem Apart.now_eq : t.now = s.now := (congrArg State.now h :)
theorem Apart.psp_settled : t.psp.settled = s.psp.settled := (congrArg State.psp h :)
theorem Apart.lp_settled : t.lp.settled = s.lp.settled := (congrArg State.lp h :)
theorem Apart.roster_eq : t.roster = s.roster := (congrArg State.roster h :)
theorem Apart.ind_eq : t.ind = s.ind := (congrArg State.ind h :)
theorem Apart.view_eq : t.fc.view = s.fc.view := (congrArg (·.fc.view) h :)
theorem Apart.crowded_eq : t.fc.crowded = s.fc.crowded := (congrArg (·.fc.crowded) h :)
theorem Apart.defaultLang_eq : t.cp.defaultLang = s.cp.defaultLang := (congrArg (·.cp.defaultLang) h :)
theorem Apart.record_eq : t.pm.record = s.pm.record := (congrArg (·.pm.record) h :)
theorem Apart.freshness_eq : t.pm.freshness = s.pm.freshness := (congrArg (·.pm.freshness) h :)
theorem Apart.freshTimer_eq : t.pm.freshTimer = s.pm.freshTimer := (congrArg (·.pm.freshTimer) h :)

theorem Apart.phase_eq : t.psp.phase = s.psp.phase := (congrArg PhraseStore.phase h.psp_settled :)
theorem Apart.machine_eq : t.psp.machine = s.psp.machine := (congrArg PhraseStore.machine h.psp_settled :)
theorem Apart.tables_eq : t.psp.tables = s.psp.tables := (congrArg PhraseStore.tables h.psp_settled :)

theorem Apart.selectable_eq : t.selectable = s.selectable := by
  simp only [State.selectable, PartnerMonitor.isFresh, h.record_eq, h.freshness_eq]

theorem Apart.table_eq : t.table = s.table := by
  simp only [State.table, PhraseStore.tableFor, h.record_eq, h.tables_eq]

end

theorem Apart.of_pq_fc (s : State) (q : PromptQueue) (c : Floor) (hc : c.heard = s.fc.heard) :
    Apart s { s with pq := q, fc := c } := .of_outside (by simp only [State.outside, hc])

/-! ## The partner monitor -/

theorem apart_untracked (s : State) : Apart s s.untracked := .track s none s.pm.lastMark

theorem apart_remove (s : State) (k : FrameKind) : Apart s { s with lp := s.lp.remove k } :=
  .lp s _ (settled_remove _ _)

theorem apart_placeTrigger (c : PromptClass) (p : Params) (r : Reach) (b : Bool) (s : State) :
    Apart s (placeTrigger c p r b s) := .of_outside (outside_placeTrigger _ _ _ _ _)

theorem apart_reportTrigger (c : PromptClass) (p : Params) (s : State) : Apart s (reportTrigger c p s) :=
  (apart_activity s).trans (apart_placeTrigger _ _ _ _ _)

theorem apart_endCondition (k : CondKey) (s : State) : Apart s (endCondition k s) :=
  .of_outside (outside_endCondition _ _)

theorem apart_beginSeries (e : ReportEntry) (n : Time) (s : State) : Apart s (beginSeries e n s) := by
  unfold beginSeries
  split
  · exact .pq s _
  · exact .pq s _
  · exact .pq s _
  · exact (Apart.pq s _).trans (.of_outside (outside_withdrawMeant _ _))
  · exact .refl s

theorem apart_takeEntry (n : Time) (s : State) (e : ReportEntry) : Apart s (takeEntry n s e) := by
  cases e with
  | partnerLost | started | paused | resumed | outOfService | timeCall => exact apart_reportTrigger _ _ _
  | partnerBack => exact apart_withdraw _ _
  | baseline => exact .pq s _
  | lossEnd => exact apart_endCondition _ _
  | cleared k =>
    unfold takeEntry
    dsimp only
    split
    · exact (apart_endCondition _ _).trans (apart_reportTrigger _ _ _)
    · exact apart_endCondition _ _
  | cycleDone =>
    exact ((apart_beginSeries _ _ _).trans (apart_reportTrigger _ _ _)).trans (apart_reportTrigger _ _ _)
  | paymentDue | action | fault => exact (apart_beginSeries _ _ _).trans (apart_reportTrigger _ _ _)
  | phase =>
    unfold takeEntry
    dsimp only
    split
    · exact apart_reportTrigger _ _ _
    · exact .refl s

theorem apart_takeHead (s : State) : Apart s (takeHead s) := .of_outside (outside_takeHead s)

theorem apart_takeEntries (n : Time) (es : List ReportEntry) (s : State) : Apart s (es.foldl (takeEntry n) s) := by
  induction es generalizing s with
  | nil => exact .refl s
  | cons e es ih => exact (apart_takeEntry n s e).trans (ih _)

theorem apart_takeReport (n : Time) (es : List ReportEntry) (s : State) : Apart s (takeReport n es s) :=
  (apart_takeEntries n es s).trans (apart_takeHead _)

theorem apart_resolveNoAnswer (r : Request) (s : State) : Apart s (resolveNoAnswer r s) :=
  (((apart_darkFirst s).trans (apart_untracked _)).trans (apart_busyTrigger _ _ _)).trans (apart_dcResolved _ _)

theorem apart_resolveAnswered (r : Request) (a : AnswerResult) (s : State) : Apart s (resolveAnswered r a s) := by
  unfold resolveAnswered
  extract_lets s1 s2
  have placed : Apart s s2 := by
    simp only [s2]
    split_ifs
    · exact (apart_untracked s).trans (apart_busyTrigger _ _ _)
    · exact apart_untracked s
    · exact (apart_untracked s).trans (apart_busyTrigger _ _ _)
  exact placed.trans (apart_dcResolved _ _)

theorem apart_offerAnswer (s : State) : Apart s (offerAnswer s) := by
  unfold offerAnswer
  split
  · split
    · exact apart_resolveAnswered _ _ _
    · exact .refl s
  · exact .refl s

theorem apart_pmReport (r : Report) (s : State) : Apart s (pmReport r s) := by
  unfold pmReport
  split
  · split
    · split
      · exact .track s _ s.pm.lastMark
      · exact apart_resolveNoAnswer _ _
      · exact apart_resolveNoAnswer _ _
    · exact .refl s
  · exact .refl s

/-! ## The line port -/

theorem apart_deliverReport (s : State) (r : Report) : Apart s (deliverReport s r) := by
  unfold deliverReport
  split
  · exact .of_outside (outside_fcClaimReport _ _)
  · exact .of_outside (outside_fcReleaseReport _)
  · exact apart_pmReport _ _

theorem apart_deliverReports (rs : List Report) (s : State) : Apart s (deliverReports rs s) := by
  unfold deliverReports
  induction rs generalizing s with
  | nil => exact .refl s
  | cons r rs ih => exact (apart_deliverReport s r).trans (ih _)

theorem apart_lineChanged (old : LinePort) (s : State) : Apart s (lineChanged old s) := by
  unfold lineChanged
  extract_lets r s'
  have entered : Apart s s' := by
    simp only [s']
    split
    · exact (Apart.lp s r.1 (settled_enterSolo s.lp)).trans (apart_deliverReports _ _)
    · exact .refl s
  split
  · exact entered.trans (.of_outside (outside_fcLineChange _))
  · exact entered

/-- What follows CLASH, once it is latched. -/
theorem apart_latchClash (s : State) : s.lp.clash = true ∧ latchClash s = s ∨
    s.lp.clash = false ∧ Apart { s with lp := s.lp.latchClash.1 } (latchClash s) := by
  unfold latchClash
  split
  · exact .inl ⟨‹_›, rfl⟩
  · rename_i clear
    refine .inr ⟨by simpa using clear, ?_⟩
    exact ((Apart.of_outside (outside_fcClash _)).trans (apart_deliverReports _ _)).trans
      (.of_outside (outside_fcLineChange _))

/-- What follows a failed attempt, once it is out of the line port. -/
theorem apart_failAttempt (s : State) : Apart { s with lp := s.lp.withdraw.1 } (failAttempt s) :=
  (apart_lineChanged _ _).trans (apart_deliverReports _ _)

/-- What the floor controller does about a claim, once it is in the view. -/
theorem outside_fcClaimReceived (n : Nat) (l : Level) (k : Nat) (t : Time) (s : State) :
    (fcClaimReceived n l k t s).outside = { s with fc := s.fc.store n l k t }.outside := by
  unfold fcClaimReceived
  extract_lets stored s' first
  split
  · exact outside_fcTest _
  · split
    · exact (outside_fcTest _).trans ((outside_backToWaiting _).trans (outside_fcRelease _))
    · rfl
  · split
    · exact (outside_fcTest _).trans ((outside_backToWaiting _).trans (outside_fcRelease _))
    · rfl
  · split
    · rfl
    · exact outside_fcJudge _ _ _
  all_goals rfl

/-! ## What nearly every command keeps -/

/-- The clock, the waiting commands, the received side of the line, the roster, the floor view, the phrase store but
for its arbiter, and the default language. -/
def State.base (s : State) : State := { s.apart with pm := .reset, vp := .reset, ind := .reset }

/-- From `s` to `t` none of those parts changes. -/
def Based (s t : State) : Prop := t.base = s.base

theorem Based.refl (s : State) : Based s s := rfl

theorem Based.trans {a b c : State} (h : Based a b) (g : Based b c) : Based a c := Eq.trans g h

theorem Based.of_apart {s t : State} (h : Apart s t) : Based s t := by
  unfold Based State.base
  rw [show t.apart = s.apart from h]

theorem Based.of_beyond {s t : State} (h : t.beyond = s.beyond) : Based s t := by
  have aside (x : State) : x.base = { x.beyond with
      pu := .reset, dc := .reset, pm := .reset, cp := { x.beyond.cp with currentLang := 0 },
      vp := .reset, ind := .reset } := rfl
  unfold Based
  rw [aside t, aside s, h]

theorem Based.of_outside {s t : State} (h : t.outside = s.outside) : Based s t := .of_apart (.of_outside h)

theorem Based.pm (s : State) (m : PartnerMonitor) : Based s { s with pm := m } := rfl

theorem Based.of_soundless {s t : State} (h : t.soundless = s.soundless) : Based s t := by
  have aside (x : State) : x.base = x.soundless.base := rfl
  unfold Based
  rw [aside t, aside s, h]

theorem Based.of_indicator {s t : State} (h : { t with ind := Indicator.reset } = { s with ind := Indicator.reset }) :
    Based s t := by
  have aside (x : State) : x.base = { x with ind := Indicator.reset }.base := rfl
  unfold Based
  rw [aside t, aside s, h]

section
variable {s t : State} (h : Based s t)
include h

theorem Based.lp_settled : t.lp.settled = s.lp.settled := (congrArg State.lp h :)
theorem Based.roster_eq : t.roster = s.roster := (congrArg State.roster h :)
theorem Based.view_eq : t.fc.view = s.fc.view := (congrArg (·.fc.view) h :)
theorem Based.psp_settled : t.psp.settled = s.psp.settled := (congrArg State.psp h :)
theorem Based.phase_eq : t.psp.phase = s.psp.phase := (congrArg PhraseStore.phase h.psp_settled :)
theorem Based.machine_eq : t.psp.machine = s.psp.machine := (congrArg PhraseStore.machine h.psp_settled :)

end

theorem based_freshnessLost (s : State) : Based s (freshnessLost s) := by
  have loss (m : PartnerMonitor) (es : List ReportEntry) :
      Based s (dcForced (takeReport s.now es { s with pm := m })) :=
    (Based.pm s m).trans (.of_apart ((apart_takeReport _ _ _).trans (apart_dcForced _)))
  unfold freshnessLost
  dsimp only
  split
  · exact .pm s _
  · exact .pm s _
  · have lost := loss { s.pm with freshTimer := none, freshness := .lost } (lossReport s.pm.record)
    generalize dcForced _ = x at lost ⊢
    split
    · exact lost.trans (.of_apart (((apart_untracked x).trans (apart_remove _ .request)).trans (apart_dcResolved _ _)))
    · exact lost

theorem based_pmStatus (p : List Byte) (n : Time) (s : State) : Based s (pmStatus p n s) := by
  have taken (x : State) (m : PartnerMonitor) (es : List ReportEntry) :
      Based x (offerAnswer (dcReport (takeReport n es { x with pm := m }))) :=
    (Based.pm x m).trans (.of_apart (((apart_takeReport n es _).trans (apart_dcReport _)).trans (apart_offerAnswer _)))
  unfold pmStatus
  extract_lets old got x timer
  have dark : Based s x := by
    simp only [x]
    split
    · exact .of_apart (apart_darkFirst s)
    · exact .refl s
  clear_value x
  refine dark.trans ?_
  split
  · exact taken _ _ _
  · exact taken _ _ _
  · exact taken _ _ _

theorem based_requestDeadline {t : Time} {s u : State} (ran : exec (.requestDeadline t) s = .next u) :
    Based (s.advance t) u := by
  generalize clock : s.advance t = a
  cases ran
  simp only [clock]
  split
  · split
    · exact .of_apart ((apart_remove a .request).trans (apart_resolveNoAnswer _ _))
    · exact .refl a
  · exact .refl a

theorem based_freshnessTimeout {t : Time} {s u : State} (ran : exec (.freshnessTimeout t) s = .next u) :
    Based (s.advance t) u := by
  generalize clock : s.advance t = a
  cases ran
  simp only [clock]
  split
  · exact based_freshnessLost a
  · exact .refl a

/-! ## The commands by their frames -/

/-- The family of a command: the list of a frame that has it, or one of its own. -/
inductive Kin (i : Instr) : Prop
  | reset (t : Time) (h : i = .reset t := by rfl)
  | startUp (t : Time) (x : BitVec 8) (d : List Byte) (b : Bool)
      (h : i ∈ [.resetRelease t x, .headerReadEnd t d b, .imageReadEnd t d b] := by repeat constructor)
  | run (t : Time) (x y : Bool) (h : i = .listenEnd t x y := by rfl)
  | roster (t : Time) (m : Nat) (h : i = .rosterEntryExpire t m := by rfl)
  | view (t : Time) (n : Nat)
      (h : i ∈ [.viewEntryExpire t n, .crowdedClear t, .claimStands t n] := by repeat constructor)
  | line (t : Time) (b : Byte) (x : Bool) (g : Option Time)
      (h : i ∈ [.receptionClose t, .lineHeldSet t, .lineHeldClear t, .attemptStart t, .attemptWithdrawn t,
        .transmissionComplete t, .startBitEdge t g, .byteReceived t b x] := by repeat constructor)
  | speaking (t : Time) (d : List Byte) (c : PromptClass)
      (h : i ∈ [.composerReadEnd t d, .compositionEnd t, .currentItemExpire t, .contestWindowEnd t, .refillEnd t d,
        .arbiterGrant t, .utterancePlayedWhole t, .cutComplete t, .hardStopFade t, .hardStop t, .spacingEnd t,
        .queueItemExpire t c] := by repeat constructor)
  | timed (t : Time) (r : Series)
      (h : i ∈ [.callTimerExpire t r, .dimTimeout t, .repromptTimeout t] := by repeat constructor)
  | panel (t : Time) (x y : Bool) (k : Key) (d : Time)
      (h : i ∈ [.knobTransition t x y, .keyPressAccepted t k d, .keyReleaseAccepted t k d, .stepRepeat t,
        .settleTimeout t, .cancelHold t, .startHold t, .helpWindowClose t, .languageHold t, .hushToggle t,
        .darkTimeout t] := by repeat constructor)
  | fresh (t : Time) (h : i = .freshnessTimeout t := by rfl)
  | deadline (t : Time) (h : i = .requestDeadline t := by rfl)
  | sound (t : Time) (d : List Byte)
      (h : i ∈ [.samplePeriod { moment := t, bytes := d }, .toneSoundEnd t, .ampReleaseExpire t] := by
        repeat constructor)
  | lights (t : Time) (h : i ∈ [.multiplexSlot t, .lampTestEnd t, .e1WindowEnd t] := by repeat constructor)

theorem kin_of (i : Instr) : Kin i := by
  cases i with
  | reset t => exact .reset t
  | resetRelease t x => exact .startUp t x [] false
  | headerReadEnd t d b | imageReadEnd t d b => exact .startUp t 0 d b
  | listenEnd t x y => exact .run t x y
  | rosterEntryExpire t m => exact .roster t m
  | viewEntryExpire t n | claimStands t n => exact .view t n
  | crowdedClear t => exact .view t 0
  | receptionClose t | lineHeldSet t | lineHeldClear t | attemptStart t | attemptWithdrawn t
  | transmissionComplete t => exact .line t 0 true none
  | startBitEdge t g => exact .line t 0 true g
  | byteReceived t b x => exact .line t b x none
  | freshnessTimeout t => exact .fresh t
  | requestDeadline t => exact .deadline t
  | composerReadEnd t d | refillEnd t d => exact .speaking t d .welcome
  | queueItemExpire t c => exact .speaking t [] c
  | compositionEnd t | currentItemExpire t | contestWindowEnd t | arbiterGrant t | utterancePlayedWhole t
  | cutComplete t | hardStopFade t | hardStop t | spacingEnd t => exact .speaking t [] .welcome
  | callTimerExpire t r => exact .timed t r
  | dimTimeout t | repromptTimeout t => exact .timed t .fault
  | knobTransition t x y => exact .panel t x y .help 0
  | keyPressAccepted t k d | keyReleaseAccepted t k d => exact .panel t true true k d
  | stepRepeat t | settleTimeout t | cancelHold t | startHold t | helpWindowClose t | languageHold t | hushToggle t
  | darkTimeout t => exact .panel t true true .help 0
  | samplePeriod p => exact .sound p.moment p.bytes
  | toneSoundEnd t | ampReleaseExpire t => exact .sound t []
  | multiplexSlot t | lampTestEnd t | e1WindowEnd t => exact .lights t

/-- The commands that may change the base, each family by itself, and what is known of all others. -/
inductive Family (s : State) (i : Instr) (u : State) : Prop
  | reset (t : Time) (h : i = .reset t)
  | startUp (t : Time) (x : BitVec 8) (d : List Byte) (b : Bool)
      (h : i ∈ [.resetRelease t x, .headerReadEnd t d b, .imageReadEnd t d b])
  | run (t : Time) (x y : Bool) (h : i = .listenEnd t x y)
  | roster (t : Time) (m : Nat) (h : i = .rosterEntryExpire t m)
  | view (t : Time) (n : Nat) (h : i ∈ [.viewEntryExpire t n, .crowdedClear t, .claimStands t n])
  | line (t : Time) (b : Byte) (x : Bool) (g : Option Time)
      (h : i ∈ [.receptionClose t, .lineHeldSet t, .lineHeldClear t, .attemptStart t, .attemptWithdrawn t,
        .transmissionComplete t, .startBitEdge t g, .byteReceived t b x])
  | other (t : Time) (h : Based (s.advance t) u)

theorem exec_family {i : Instr} {s u : State} (ran : exec i s = .next u) : Family s i u := by
  cases kin_of i with
  | reset t h => exact .reset t h
  | startUp t x d b h => exact .startUp t x d b h
  | run t x y h => exact .run t x y h
  | roster t m h => exact .roster t m h
  | view t n h => exact .view t n h
  | line t b x g h => exact .line t b x g h
  | speaking t d c h => exact .other t (.of_outside (speakingCommandsFrame t d c i s u h ran))
  | timed t r h => exact .other t (.of_beyond (timedPromptsFrame t r i s u h ran))
  | panel t x y k d h => exact .other t (.of_apart (panelCommandsFrame t x y k d i s u h ran))
  | fresh t h => exact .other t (based_freshnessTimeout (h ▸ ran))
  | deadline t h => exact .other t (based_requestDeadline (h ▸ ran))
  | sound t d h => exact .other t (.of_soundless (outputTicksFrame.1 t d i s u h ran))
  | lights t h => exact .other t (.of_indicator (outputTicksFrame.2 t i s u h ran))

end Sys2Proof.Machine
end

