-- ==== Sys2Proof/Proofs/LineLaws.lean ====
section
/-! PROOFS. The laws over what the line brings in: the error count, the floor view and the roster. What a law must
be kept by for every line command to keep it is said once, in `Heard`; each law then meets it. -/

namespace Sys2Proof.Machine

/-! ## What the line's commands do -/

/-- The error count stands, or is set with DEGRADED by its thresholds, to a count that stays within 0..31. -/
def Counted (a b : LinePort) : Prop :=
  b.errCount = a.errCount ∧ b.degraded = a.degraded ∨
    ∃ c, (a.errCount ≤ 31 → c ≤ 31) ∧ b.errCount = c ∧ b.degraded = (a.setCount c).degraded

theorem Counted.stands (a b : LinePort) (h : b.errCount = a.errCount := by rfl)
    (g : b.degraded = a.degraded := by rfl) : Counted a b := .inl ⟨h, g⟩

theorem counted_addErrors (l : LinePort) (n : Nat) : Counted l (l.addErrors n) :=
  .inr ⟨_, fun _ => Nat.min_le_left _ _, rfl, rfl⟩

theorem counted_goodFrame (l : LinePort) : Counted l l.goodFrame :=
  .inr ⟨_, fun h => (Nat.sub_le _ _).trans h, rfl, rfl⟩

theorem counted_countVerdict (v : Verdict) (l : LinePort) : Counted l (countVerdict v l) := by
  cases v with
  | fragment | unknownKind => exact .stands l l
  | bad => exact counted_addErrors l 1
  | wrongRange | good => exact counted_goodFrame l

theorem counted_withdraw (l : LinePort) : Counted l l.withdraw.1 := by
  unfold LinePort.withdraw
  split
  · exact .stands l l
  · dsimp only
    split
    · split_ifs
      · exact counted_addErrors l 4
      · exact .stands _ _
      · exact .stands _ _
    all_goals exact .stands _ _

/-- A law that every line command keeps: it reads nothing but the base, and it is kept by a counted line port, by
a STATUS of another machine, by a CLAIM and by a RELEASE of another station. -/
structure Heard (P : State → Prop) : Prop where
  based : ∀ {s t}, Based s t → P s → P t
  line : ∀ {s} (l : LinePort), Counted s.lp l → P s → P { s with lp := l }
  roster : ∀ {s m} p n, s.psp.phase ≠ .held → 1 ≤ m → m ≤ 31 → m ≠ s.psp.machine → P s →
    P { s with roster := rosterTake m p n s.roster }
  store : ∀ {s n} l k t, s.psp.phase ≠ .held → 33 ≤ n → n ≤ 63 → n ≠ s.ownAddress → P s →
    P { s with fc := s.fc.store n l k t }
  forget : ∀ {s} n, P s → P { s with fc := s.fc.forget n }

/-- A frame that is judged good comes from an address of its kind's range. -/
theorem rightRange_of_judge {r : Reception} {k : RxKind} {n : Nat} {p : List Byte} (good : judge r = .good k n p) :
    rightRange k n = true := by
  unfold judge at good
  dsimp only at good
  iterate 4 (split at good; next => cases good)
  split at good
  · cases good
  · iterate 3 (split at good; next => cases good)
    cases good
    simpa using ‹¬(!rightRange _ _) = true›

theorem phase_ne_held_of_receiving {s : State} (h : s.receiving = true) : s.psp.phase ≠ .held := by
  intro held
  simp [State.receiving, held] at h

section
variable {P : State → Prop} (heard : Heard P)
include heard

theorem Heard.apart {s t : State} (h : Apart s t) (law : P s) : P t := heard.based (.of_apart h) law

theorem Heard.failAttempt {s : State} (law : P s) : P (failAttempt s) :=
  heard.apart (apart_failAttempt s) (heard.line _ (counted_withdraw _) law)

theorem Heard.latchClash {s : State} (law : P s) : P (latchClash s) := by
  rcases apart_latchClash s with ⟨-, same⟩ | ⟨-, latched⟩
  · rwa [same]
  · exact heard.apart latched (heard.line _ (.stands _ _) law)

theorem Heard.dispatch {s : State} {k : RxKind} {n : Nat} (p : List Byte) (t : Time) (awake : s.psp.phase ≠ .held)
    (range : rightRange k n = true) (other : n ≠ s.ownAddress) (law : P s) : P (dispatch k n p t s) := by
  cases k with
  | status =>
    obtain ⟨low, high⟩ : 1 ≤ n ∧ n ≤ 31 := by simpa [rightRange, isController] using range
    unfold Machine.dispatch
    dsimp only
    split
    · exact heard.based (based_pmStatus _ _ _) law
    · exact heard.roster _ _ awake low high ‹_› law
  | claim =>
    obtain ⟨low, high⟩ : 33 ≤ n ∧ n ≤ 63 := by simpa [rightRange, isStation] using range
    exact heard.based (.of_outside (outside_fcClaimReceived _ _ _ _ _)) (heard.store _ _ _ awake low high other law)
  | release => exact heard.based (.of_outside (outside_fcTest _)) (heard.forget n law)
  | request => exact law

theorem Heard.takeReception {s : State} (r : Reception) (awake : s.psp.phase ≠ .held) (law : P s) :
    P (takeReception r s) := by
  have counted : P { s with lp := countVerdict (judge r) s.lp } := heard.line _ (counted_countVerdict _ _) law
  unfold Machine.takeReception
  extract_lets v old x
  have changed : Based { s with lp := countVerdict v s.lp } x := .of_apart (apart_lineChanged _ _)
  have lawful : P x := heard.based changed counted
  have good : judge r = v := rfl
  clear_value x v
  cases v with
  | good k n p =>
    dsimp only
    split
    · exact heard.latchClash lawful
    · exact heard.dispatch p _ (changed.phase_eq ▸ awake) (rightRange_of_judge good) ‹_› lawful
  | fragment | bad | unknownKind | wrongRange => exact lawful

theorem Heard.closeReception {s : State} (r : Reception) (awake : s.psp.phase ≠ .held) (law : P s) :
    P (closeReception r s) := by
  have quiet : P { s with lp := s.lp.quiet s.now } := heard.line _ (.stands _ _) law
  unfold Machine.closeReception
  split
  · exact quiet
  · exact heard.takeReception r awake quiet

/-- Such a law is kept by every line command. -/
theorem Heard.keeps {t : Time} {b : Byte} {x : Bool} {g : Option Time} {i : Instr} {s u : State}
    (mem : i ∈ [.receptionClose t, .lineHeldSet t, .lineHeldClear t, .attemptStart t, .attemptWithdrawn t,
      .transmissionComplete t, .startBitEdge t g, .byteReceived t b x])
    (ran : exec i s = .next u) (law : P (s.advance t)) : P u := by
  simp only [List.mem_cons, List.not_mem_nil, or_false] at mem
  generalize clock : s.advance t = a at law
  rcases mem with rfl | rfl | rfl | rfl | rfl | rfl | rfl | rfl
  · cases ran
    simp only [clock]
    split
    · rename_i on
      have awake := phase_ne_held_of_receiving (Bool.and_eq_true_iff.1 on).1
      split
      · exact heard.closeReception _ awake law
      · exact heard.line _ (.stands _ _) law
    · exact law
  · cases ran
    simp only [clock]
    split
    · exact heard.apart (apart_lineChanged _ _) (heard.line _ (.stands _ _) law)
    · exact law
  · cases ran
    simp only [clock]
    split
    · exact heard.apart (apart_lineChanged _ _) (heard.line _ (.stands _ _) law)
    · exact law
  · cases ran
    simp only [clock]
    split
    · split
      · exact heard.line _ (.stands _ _) law
      · exact law
    · exact law
  · cases ran
    simp only [clock]
    split
    · exact heard.failAttempt law
    · exact law
  · cases ran
    simp only [clock]
    split
    · split_ifs
      · refine heard.apart (apart_deliverReports _ _) (heard.line _ ?_ law)
        unfold LinePort.complete
        split
        · exact .stands _ _
        · exact .stands _ _
      · exact heard.failAttempt law
      · exact law
    · exact law
  · cases ran
    simp only [clock]
    split
    · rename_i on
      have awake := phase_ne_held_of_receiving (Bool.and_eq_true_iff.1 on).1
      have closed : P (match a.lp.rx, a.lp.idleSince with
          | some r, some i => if i + delimiter ≤ a.now then Machine.closeReception r a else a
          | _, _ => a) := by
        split
        · split
          · exact heard.closeReception _ awake law
          · exact law
        · exact law
      split
      · exact heard.line _ (.stands _ _) closed
      · exact heard.line _ (.stands _ _) closed
    · exact law
  · cases ran
    simp only [clock]
    split
    · rename_i e _
      have taken : P { a with lp := a.lp.takeByte e b x } := heard.line _ (.stands _ _) law
      split_ifs
      · exact heard.failAttempt taken
      · exact taken
      · exact law
    · exact law

end

/-! ## The error count (R7, R16) -/

theorem countLaw_congr {s t : State} (h : t.lp.errCount = s.lp.errCount) (g : t.lp.degraded = s.lp.degraded)
    (law : CountLaw s) : CountLaw t := by
  simpa only [CountLaw, h, g] using law

theorem countLaw_counted {s : State} {l : LinePort} (h : Counted s.lp l) (law : CountLaw s) :
    CountLaw { s with lp := l } := by
  rcases h with ⟨same, still⟩ | ⟨c, bound, count, degraded⟩
  · exact countLaw_congr same still law
  · obtain ⟨most, -⟩ := law
    have := bound most
    simp only [CountLaw, count, degraded, LinePort.setCount]
    refine ⟨this, fun high => by simp [high], fun low => ?_⟩
    simp [low, Nat.not_le.2 (Nat.lt_of_le_of_lt low (by decide : 8 < 24))]

theorem countLaw_settled {s t : State} (h : t.lp.settled = s.lp.settled) (law : CountLaw s) : CountLaw t :=
  countLaw_congr (congrArg LinePort.errCount h :) (congrArg LinePort.degraded h :) law

theorem heard_countLaw : Heard CountLaw where
  based h := countLaw_settled h.lp_settled
  line _ := countLaw_counted
  roster _ _ _ _ _ _ law := law
  store _ _ _ _ _ _ _ law := law
  forget _ law := law

theorem exec_keeps_countLaw (i : Instr) (s u : State) (law : CountLaw s) (ran : exec i s = .next u) :
    CountLaw u := by
  cases exec_family ran with
  | reset t h => subst h; cases ran; exact resetMeetsTheLaws.2.2.2.2.1
  | startUp t x d b h =>
    have frame := startUpFrame t x d b i s u h ran
    exact countLaw_congr (congrArg (·.lp.errCount) frame :) (congrArg (·.lp.degraded) frame :) law
  | run t x y h =>
    subst h
    cases ran
    split
    · exact countLaw_settled (outside_lp_settled (outside_takeHead _)) law
    · exact law
  | roster t m h =>
    subst h
    cases ran
    split
    · split
      · exact law
      · exact law
    · exact law
  | view t n h =>
    have frame := viewTimersFrame t n i s u h ran
    exact countLaw_settled (congrArg State.lp frame :) law
  | line t b x g h => exact heard_countLaw.keeps h ran law
  | other t h => exact countLaw_settled h.lp_settled law

/-- R16: the mode from the count, LINE_HELD and CLASH. -/
theorem mode_solo_of_countLaw {s : State} (law : CountLaw s)
    (cause : 24 ≤ s.lp.errCount ∨ s.lp.lineHeld = true ∨ s.lp.clash = true) : s.lp.mode = .solo := by
  obtain ⟨-, degrades, -⟩ := law
  rcases cause with many | held | clash
  · simp [LinePort.mode, degrades many]
  · simp [LinePort.mode, held]
  · simp [LinePort.mode, clash]

/-- Settles O8. -/
theorem stepKeepsTheErrorCount : Obligations.StepKeepsTheErrorCount := fun _ u law ran =>
  have kept : CountLaw u := step_keeps (fun _ _ => id) exec_keeps_countLaw law ran
  ⟨kept, mode_solo_of_countLaw kept⟩

/-! ## Start-up as the view and the roster see it -/

/-- Start-up changes the machine number while RESET_N is held low alone, and does not go back there. -/
def StartsFrom (s u : State) : Prop :=
  s.psp.phase = .held ∨ u.psp.machine = s.psp.machine ∧ (u.psp.phase = .held → s.psp.phase = .held)

theorem machine_cache (p : PhraseStore) (r : ImageRead) (d : List Byte) : (p.cache r d).machine = p.machine := by
  cases r <;> rfl

theorem startsFrom_imageTake (r : ImageRead) (d : List Byte) (b : Bool) (s : State) (h : s.psp.phase = .image) :
    StartsFrom s (imageTake r d b s) := by
  unfold imageTake
  extract_lets x
  have phase : x.psp.phase = .image := (phase_cache s.psp r d).trans h
  split
  · exact .inr ⟨machine_cache s.psp r d, fun held => absurd (phase.symm.trans held) (by decide)⟩
  · exact .inr ⟨machine_cache s.psp r d, fun held => absurd (show Phase.listen = .held from held) (by decide)⟩

theorem startsFrom_startUp {t : Time} {x : BitVec 8} {d : List Byte} {b : Bool} {i : Instr} {s u : State}
    (mem : i ∈ [.resetRelease t x, .headerReadEnd t d b, .imageReadEnd t d b]) (ran : exec i s = .next u) :
    StartsFrom s u := by
  have stays : StartsFrom s (s.advance t) := .inr ⟨rfl, id⟩
  simp only [List.mem_cons, List.not_mem_nil, or_false] at mem
  rcases mem with rfl | rfl | rfl
  · cases ran
    split
    · rename_i on
      exact .inl (by simpa using on)
    · exact stays
  · cases ran
    split
    · rename_i on
      have phase : s.psp.phase = .image := by simp at on; exact on.1.1
      split
      · exact startsFrom_imageTake .header d b (s.advance t) phase
      · exact .inr ⟨rfl, fun held => absurd (show Phase.listen = .held from held) (by decide)⟩
    · exact stays
  · cases ran
    split
    · rename_i r _
      split
      · rename_i on
        have phase : s.psp.phase = .image := by simp at on; exact on.1.1
        exact startsFrom_imageTake r d b (s.advance t) phase
      · exact stays
    · exact stays

theorem startsFrom_listenEnd {t : Time} {x y : Bool} {s u : State} (ran : exec (.listenEnd t x y) s = .next u) :
    StartsFrom s u := by
  cases ran
  split
  · have settled := outside_psp_settled (outside_takeHead { (s.advance t) with
      psp := { s.psp with phase := .run, runStart := some (s.advance t).now }
      pu := { s.pu with refA := x, refB := y, quarter := 0 }
      au := { s.au.restart s.psp.profile (s.advance t).now with state := .active } })
    refine .inr ⟨(congrArg PhraseStore.machine settled :), fun held => ?_⟩
    have run : Phase.held = Phase.run := held.symm.trans (congrArg PhraseStore.phase settled :)
    cases run
  · exact .inr ⟨rfl, id⟩

theorem startsFrom_settled {s u : State} (h : u.psp.settled = s.psp.settled) : StartsFrom s u :=
  have phase : u.psp.phase = s.psp.phase := (congrArg PhraseStore.phase h :)
  .inr ⟨(congrArg PhraseStore.machine h :), fun held => phase ▸ held⟩

/-! ## The floor view (R131) -/

theorem viewLaw_congr {s u : State} (h : u.fc.view = s.fc.view) (g : StartsFrom s u) (law : ViewLaw s) :
    ViewLaw u := by
  obtain ⟨sorted, short, range, empty⟩ := law
  rcases g with held | ⟨machine, stays⟩
  · simp [ViewLaw, h, empty held]
  · have own : u.ownAddress = s.ownAddress := by simp only [State.ownAddress, machine]
    exact ⟨h ▸ sorted, h ▸ short, fun e mem => own ▸ range e (h ▸ mem), fun held => h.trans (empty (stays held))⟩

theorem viewLaw_of_outside {s u : State} (h : u.outside = s.outside) (law : ViewLaw s) : ViewLaw u :=
  viewLaw_congr (outside_view h) (startsFrom_settled (outside_psp_settled h)) law

theorem view_store_cases (fc : Floor) (n : Nat) (l : Level) (k : Nat) (t : Time) :
    (fc.store n l k t).view = fc.view ∨
      ((findKey ViewEntry.addr n fc.view).isSome ∨ fc.view.length < Config.viewCapacity) ∧
        ∃ e, e.addr = n ∧ (fc.store n l k t).view = putBy ViewEntry.addr e fc.view := by
  unfold Floor.store
  dsimp only
  split
  · rename_i place
    rw [Bool.or_eq_true, decide_eq_true_eq] at place
    exact .inr ⟨place, _, rfl, rfl⟩
  · exact .inl rfl

theorem viewLaw_store {s : State} {n : Nat} (l : Level) (k : Nat) (t : Time) (awake : s.psp.phase ≠ .held)
    (low : 33 ≤ n) (high : n ≤ 63) (other : n ≠ s.ownAddress) (law : ViewLaw s) :
    ViewLaw { s with fc := s.fc.store n l k t } := by
  obtain ⟨sorted, short, range, empty⟩ := law
  rcases view_store_cases s.fc n l k t with same | ⟨place, e, addr, put⟩
  · exact viewLaw_congr same (.inr ⟨rfl, id⟩) ⟨sorted, short, range, empty⟩
  · simp only [ViewLaw, put]
    refine ⟨sorted_putBy _ _ _ sorted, ?_, fun y mem => ?_, fun held => absurd held awake⟩
    · rcases place with known | room
      · obtain ⟨y, found⟩ := Option.isSome_iff_exists.1 known
        have key : y.addr = n := by simpa using List.find?_some found
        exact (length_putBy_known _ e _ sorted ⟨y, List.mem_of_find?_eq_some found, key.trans addr.symm⟩).trans short
      · exact (length_putBy _ e _).trans room
    · rcases (mem_putBy _ e sorted y).1 mem with rfl | ⟨old, -⟩
      · rw [addr]
        exact ⟨low, high, other⟩
      · exact range y old

theorem viewLaw_forget {s : State} (n : Nat) (law : ViewLaw s) : ViewLaw { s with fc := s.fc.forget n } := by
  obtain ⟨sorted, short, range, empty⟩ := law
  have sub : (s.fc.forget n).view.Sublist s.fc.view := sublist_dropKey _ _ _
  exact ⟨sorted.sublist sub, sub.length_le.trans short, fun e mem => range e (sub.subset mem),
    fun held => List.sublist_nil.1 (empty held ▸ sub)⟩

theorem viewLaw_stand {s : State} (n : Nat) (law : ViewLaw s) : ViewLaw { s with fc := s.fc.stand n } := by
  obtain ⟨sorted, short, range, empty⟩ := law
  have addr (e : ViewEntry) : (if e.addr = n then { e with speaking := true } else e).addr = e.addr := by
    split <;> rfl
  refine ⟨List.pairwise_map.2 (sorted.imp fun {a b} lt => by simpa only [addr] using lt),
    (List.length_map _).trans_le short, fun e mem => ?_, fun held => by simp [Floor.stand, empty held]⟩
  obtain ⟨x, old, rfl⟩ := List.mem_map.1 mem
  rw [addr x]
  exact range x old

theorem heard_viewLaw : Heard ViewLaw where
  based h := viewLaw_congr h.view_eq (startsFrom_settled h.psp_settled)
  line _ _ law := law
  roster _ _ _ _ _ _ law := law
  store := viewLaw_store
  forget := viewLaw_forget

theorem viewTimers_keep_viewLaw {t : Time} {n : Nat} {i : Instr} {s u : State}
    (mem : i ∈ [.viewEntryExpire t n, .crowdedClear t, .claimStands t n]) (ran : exec i s = .next u)
    (law : ViewLaw (s.advance t)) : ViewLaw u := by
  simp only [List.mem_cons, List.not_mem_nil, or_false] at mem
  generalize clock : s.advance t = a at law
  rcases mem with rfl | rfl | rfl
  · cases ran
    simp only [clock]
    split
    · split
      · exact viewLaw_of_outside (outside_fcTest _) (viewLaw_forget n law)
      · exact law
    · exact law
  · cases ran
    simp only [clock]
    split
    · exact viewLaw_of_outside (outside_fcTest _) law
    · exact law
  · cases ran
    simp only [clock]
    split
    · split
      · exact viewLaw_of_outside (outside_fcJudge _ _ _) (viewLaw_stand n law)
      · exact law
    · exact law

theorem exec_keeps_viewLaw (i : Instr) (s u : State) (law : ViewLaw s) (ran : exec i s = .next u) : ViewLaw u := by
  cases exec_family ran with
  | reset t h => subst h; cases ran; exact resetMeetsTheLaws.2.1
  | startUp t x d b h =>
    have frame := startUpFrame t x d b i s u h ran
    exact viewLaw_congr (s := s) (congrArg (·.fc.view) frame :) (startsFrom_startUp h ran) law
  | run t x y h =>
    subst h
    have starts := startsFrom_listenEnd ran
    cases ran
    split at starts
    · rw [if_pos ‹_›]
      exact viewLaw_congr (s := s) ((outside_view (outside_takeHead _)).trans rfl) starts law
    · rw [if_neg ‹_›]
      exact law
  | roster t m h =>
    subst h
    cases ran
    split
    · split
      · exact law
      · exact law
    · exact law
  | view t n h => exact viewTimers_keep_viewLaw h ran law
  | line t b x g h => exact heard_viewLaw.keeps h ran law
  | other t h => exact viewLaw_congr h.view_eq (startsFrom_settled h.psp_settled) law

/-- Settles O5. -/
theorem stepKeepsTheView : Obligations.StepKeepsTheView := fun _ _ law ran =>
  step_keeps (fun _ _ => id) exec_keeps_viewLaw law ran

/-! ## The roster (R41) -/

theorem rosterLaw_congr {s u : State} (h : u.roster = s.roster) (g : StartsFrom s u) (law : RosterLaw s) :
    RosterLaw u := by
  obtain ⟨sorted, range, empty⟩ := law
  rcases g with held | ⟨machine, stays⟩
  · simp [RosterLaw, h, empty held]
  · exact ⟨h ▸ sorted, fun e mem => machine ▸ range e (h ▸ mem), fun held => h.trans (empty (stays held))⟩

theorem rosterLaw_take {s : State} {m : Nat} (p : List Byte) (n : Time) (awake : s.psp.phase ≠ .held)
    (low : 1 ≤ m) (high : m ≤ 31) (other : m ≠ s.psp.machine) (law : RosterLaw s) :
    RosterLaw { s with roster := rosterTake m p n s.roster } := by
  obtain ⟨sorted, range, -⟩ := law
  refine ⟨sorted_putBy _ _ _ sorted, fun e mem => ?_, fun held => absurd held awake⟩
  rcases (mem_putBy _ _ sorted e).1 mem with rfl | ⟨old, -⟩
  · exact ⟨low, high, other⟩
  · exact range e old

theorem rosterLaw_drop {s : State} (m : Nat) (law : RosterLaw s) :
    RosterLaw { s with roster := dropKey RosterEntry.machine m s.roster } := by
  obtain ⟨sorted, range, empty⟩ := law
  have sub := sublist_dropKey RosterEntry.machine m s.roster
  exact ⟨sorted.sublist sub, fun e mem => range e (sub.subset mem), fun held => List.sublist_nil.1 (empty held ▸ sub)⟩

theorem heard_rosterLaw : Heard RosterLaw where
  based h := rosterLaw_congr h.roster_eq (startsFrom_settled h.psp_settled)
  line _ _ law := law
  roster := rosterLaw_take
  store _ _ _ _ _ _ _ law := law
  forget _ law := law

theorem exec_keeps_rosterLaw (i : Instr) (s u : State) (law : RosterLaw s) (ran : exec i s = .next u) :
    RosterLaw u := by
  cases exec_family ran with
  | reset t h => subst h; cases ran; exact resetMeetsTheLaws.2.2.1
  | startUp t x d b h =>
    have frame := startUpFrame t x d b i s u h ran
    exact rosterLaw_congr (s := s) (congrArg State.roster frame :) (startsFrom_startUp h ran) law
  | run t x y h =>
    subst h
    have starts := startsFrom_listenEnd ran
    cases ran
    split at starts
    · rw [if_pos ‹_›]
      exact rosterLaw_congr (s := s) ((outside_roster (outside_takeHead _)).trans rfl) starts law
    · rw [if_neg ‹_›]
      exact law
  | roster t m h =>
    subst h
    cases ran
    split
    · split
      · exact rosterLaw_drop (s := s.advance t) m law
      · exact law
    · exact law
  | view t n h =>
    have frame := viewTimersFrame t n i s u h ran
    exact rosterLaw_congr (s := s.advance t) (congrArg State.roster frame :)
      (startsFrom_settled (congrArg State.psp frame :)) law
  | line t b x g h => exact heard_rosterLaw.keeps h ran law
  | other t h => exact rosterLaw_congr h.roster_eq (startsFrom_settled h.psp_settled) law

/-- Settles O6. -/
theorem stepKeepsTheRoster : Obligations.StepKeepsTheRoster := fun _ _ law ran =>
  step_keeps (fun _ _ => id) exec_keeps_rosterLaw law ran

end Sys2Proof.Machine
end

