-- ==== Sys2Proof/Proofs/Desk.lean ====
section
/-! PROOFS. The two laws of the panel and the dialogue, R58 with R73 and R77 with R86, carried along every operation
together: `Deals s t` says that both survive from `s` to `t`. -/

namespace Sys2Proof.Machine

/-! ## What the two laws read -/

/-- R58: the open list of a panel unit. -/
def PanelUnit.fits (p : PanelUnit) : Prop :=
  ∀ l, p.listLen = some l → 1 ≤ l ∧ l ≤ 16 ∧ p.position < l ∧ p.snapshot < l

/-- R73: the cached program tables. -/
def PhraseStore.sized (p : PhraseStore) : Prop :=
  ∀ t, p.tables = some t → ∀ k : MachineKind, 1 ≤ (p.tableFor k).count ∧ (p.tableFor k).count ≤ 16

theorem panelLaw_iff (s : State) : PanelLaw s ↔ s.pu.fits ∧ s.psp.sized := Iff.rfl

/-- R86: an answer is awaited only while a request is in flight. -/
def State.awaits (s : State) : Prop := s.dc.state = .awaitAnswer → s.pm.inFlight.isSome = true

theorem fits_openList (p : PanelUnit) {len : Nat} (pos : Nat) (low : 1 ≤ len) (high : len ≤ 16) :
    (p.openList len pos).fits := by
  intro l h
  cases h
  have last : min pos (len - 1) < len := by omega
  exact ⟨low, high, last, last⟩

theorem fits_closeList (p : PanelUnit) : p.closeList.fits := fun _ h => nomatch h

/-- A list that stays open, with its position, fits as before. -/
theorem fits_congr {p q : PanelUnit} (l : q.listLen = p.listLen) (x : q.position = p.position)
    (y : q.snapshot = p.snapshot) (h : p.fits) : q.fits := by
  simpa only [PanelUnit.fits, l, x, y] using h

theorem fits_step {p : PanelUnit} (up : Bool) (n : Time) (h : p.fits) : (p.step up n).fits := by
  unfold PanelUnit.step
  split
  · rename_i len isOpen
    intro l eq
    cases isOpen.symm.trans eq
    obtain ⟨low, high, place, snap⟩ := h len isOpen
    refine ⟨low, high, ?_, snap⟩
    dsimp only
    split_ifs <;> omega
  · exact h

theorem fits_settle {p : PanelUnit} (n : Option Time) (h : p.fits) :
    { p with settle := n, snapshot := p.position }.fits := fun l eq =>
  have ⟨low, high, place, _⟩ := h l eq
  ⟨low, high, place, place⟩

theorem sized_congr {p q : PhraseStore} (h : q.tables = p.tables) (law : p.sized) : q.sized := by
  simpa only [PhraseStore.sized, PhraseStore.tableFor, h] using law

theorem sized_settled {p q : PhraseStore} (h : q.settled = p.settled) (law : p.sized) : q.sized :=
  sized_congr (congrArg PhraseStore.tables h :) law

theorem table_count {s : State} (law : s.psp.sized) : 1 ≤ s.table.count ∧ s.table.count ≤ 16 := by
  cases cached : s.psp.tables with
  | none => simp [State.table, PhraseStore.tableFor, cached, genericTable]
  | some t => exact law t cached s.pm.record.kind

theorem optionList_length (s : State) : s.optionList.length ≤ 8 := by
  unfold State.optionList optionsIn
  rw [List.length_map]
  exact List.length_filter_le _ _

theorem tableOf_count (d : List Byte) (k : Nat) : 1 ≤ (tableOf d k).count ∧ (tableOf d k).count ≤ 16 := by
  unfold tableOf
  dsimp only
  split
  · exact ⟨Nat.le_refl _, by decide⟩
  · dsimp only
    omega

theorem sized_cache {p : PhraseStore} (r : ImageRead) (d : List Byte) (law : p.sized) : (p.cache r d).sized := by
  cases r with
  | tables =>
    intro t h k
    cases h
    cases k
    · exact tableOf_count d 0
    · exact tableOf_count d 1
    · exact tableOf_count d 2
  | header | profile | language => exact law

/-! ## Both laws together -/

/-- Both laws survive from `s` to `t`. -/
structure Deals (s t : State) : Prop where
  panel : PanelLaw s → PanelLaw t
  dialogue : DialogueLaw s → DialogueLaw t

theorem Deals.refl (s : State) : Deals s s := ⟨id, id⟩

theorem Deals.trans {a b c : State} (h : Deals a b) (g : Deals b c) : Deals a c :=
  ⟨g.panel ∘ h.panel, g.dialogue ∘ h.dialogue⟩

/-- The partner can take a selection, or one is open. -/
def State.selects (s : State) : Prop := s.dc.state.selecting = true ∨ s.selectable = true

/-- A move of the panel and the dialogue alone: a selection comes from one or from a partner that can take it. -/
theorem Deals.move {s t : State} (lists : s.psp.sized → s.pu.fits → t.pu.fits)
    (selects : t.dc.state.selecting = true → s.selects)
    (waits : t.dc.state = .awaitAnswer → s.dc.state = .awaitAnswer)
    (pm : t.pm = s.pm := by rfl) (psp : t.psp.settled = s.psp.settled := by rfl) : Deals s t where
  panel law := ⟨lists law.2 law.1, sized_settled psp law.2⟩
  dialogue law := by
    have same : t.selectable = s.selectable := by simp only [State.selectable, pm]
    refine ⟨fun sel => same.trans ?_, fun wait => pm ▸ law.2 (waits wait)⟩
    rcases selects sel with was | can
    · exact law.1 was
    · exact can

theorem Deals.of_outside {s t : State} (h : t.outside = s.outside) : Deals s t :=
  .move (fun _ fit => outside_pu h ▸ fit) (fun sel => .inl (outside_dc h ▸ sel)) (fun wait => outside_dc h ▸ wait)
    (outside_pm h) (outside_psp_settled h)

/-- Neither law reads the attention unit or the languages. -/
theorem Deals.aside (s : State) (au : AttentionUnit) (cp : Composer) : Deals s { s with au := au, cp := cp } :=
  .move (fun _ => id) .inl id

/-- A change of the panel unit that keeps its list. -/
theorem Deals.panelUnit (s : State) (p : PanelUnit) (h : s.psp.sized → s.pu.fits → p.fits) :
    Deals s { s with pu := p } :=
  .move h .inl id

theorem Deals.keys (s : State) (p : PanelUnit) (l : p.listLen = s.pu.listLen := by rfl)
    (x : p.position = s.pu.position := by rfl) (y : p.snapshot = s.pu.snapshot := by rfl) :
    Deals s { s with pu := p } :=
  .panelUnit s p fun _ => fits_congr l x y

/-! ## Prompts, activity and the wake -/

theorem deals_trigger (c : PromptClass) (p : Params) (s : State) : Deals s (trigger c p s) :=
  .of_outside (outside_trigger _ _ _)

theorem deals_activity (s : State) : Deals s (activity s) := by
  unfold activity
  split
  · exact .aside s _ _
  · exact .refl s

theorem deals_primaryActivity (s : State) : Deals s (primaryActivity s) := by
  unfold primaryActivity
  dsimp only
  split
  · exact (deals_activity s).trans (.aside _ _ _)
  · exact deals_activity s

theorem deals_busyTrigger (c : PromptClass) (p : Params) (s : State) : Deals s (busyTrigger c p s) :=
  (deals_activity s).trans (deals_trigger _ _ _)

theorem deals_vpBuzz (s : State) : Deals s (vpBuzz s) := .of_outside (outside_vpBuzz s)

theorem deals_vpClick (s : State) : Deals s (vpClick s) := .of_outside (outside_vpClick s)

theorem deals_selectingBegins (s : State) : Deals s (selectingBegins s) := .aside s _ _

theorem deals_selectingEnds (s : State) : Deals s (selectingEnds s) :=
  (Deals.aside s s.au.noReminder s.cp).trans (.of_outside (outside_withdraw _ _))

theorem deals_wake (s : State) : Deals s (wake s) := by
  unfold wake
  dsimp only
  split_ifs
  · exact (deals_primaryActivity s).trans (deals_trigger _ _ _)
  · exact (deals_primaryActivity s).trans (deals_trigger _ _ _)
  · exact deals_primaryActivity s

/-! ## Moves of the dialogue -/

theorem deals_dcDiscard (s : State) : Deals s (dcDiscard s) := by
  unfold dcDiscard
  extract_lets held _ x y
  have left : Deals s x := .move (fun _ _ => fits_closeList s.pu) (fun sel => nomatch sel) (fun wait => nomatch wait)
  have ended : Deals x y := by
    simp only [y]
    split
    · exact deals_selectingEnds x
    · exact .refl x
  exact (left.trans ended).trans (.move (fun _ => id) (fun sel => nomatch sel) (fun wait => nomatch wait))

theorem deals_dcEnter (s : State) (can : s.selectable = true) : Deals s (dcEnter s) := by
  unfold dcEnter
  extract_lets t p _ x
  have entered : Deals s x := .move
    (fun size _ => fits_openList s.pu p (table_count size).1 (table_count size).2) (fun _ => .inr can)
    (fun wait => nomatch wait)
  exact (entered.trans (deals_selectingBegins x)).trans (deals_trigger _ _ _)

theorem deals_dcOptions (s : State) (sel : s.selects) : Deals s (dcOptions s) := by
  unfold dcOptions
  extract_lets opts _ x
  have entered : Deals s x := .move
    (fun _ _ => fits_openList s.pu 0 (Nat.le_add_left _ _) (Nat.succ_le_succ ((optionList_length s).trans (by decide)))) (fun _ => sel)
    (fun wait => nomatch wait)
  exact entered.trans (deals_trigger _ _ _)

theorem deals_dcConfirm (s : State) (sel : s.selects) : Deals s (dcConfirm s) := by
  unfold dcConfirm
  extract_lets _ x
  have entered : Deals s x := .move (fun _ _ => fits_closeList s.pu) (fun _ => sel) (fun wait => nomatch wait)
  exact entered.trans (deals_trigger _ _ _)

theorem deals_dcPrograms (s : State) (sel : s.selects) : Deals s (dcPrograms s) := by
  unfold dcPrograms
  extract_lets _ x
  have entered : Deals s x := .move
    (fun size _ => fits_openList s.pu _ (table_count size).1 (table_count size).2) (fun _ => sel)
    (fun wait => nomatch wait)
  exact entered.trans (deals_trigger _ _ _)

/-- The tracker with a request in flight, or with its mark alone changed. -/
theorem Deals.tracked (s : State) (r : Option Request) (m : Bool) (h : r.isSome = true ∨ r = s.pm.inFlight) :
    Deals s { s with pm := { s.pm with inFlight := r, lastMark := m } } where
  panel law := law
  dialogue law := ⟨law.1, fun wait => h.elim id fun same => same ▸ law.2 wait⟩

theorem Deals.line (s : State) (l : LinePort) (h : l.settled = s.lp.settled) : Deals s { s with lp := l } :=
  .of_outside (by simp only [State.outside, h])

theorem deals_pmAsk (k : ReqKind) (p : Nat) (o : BitVec 8) (s : State) : Deals s (pmAsk k p o s).1 := by
  unfold pmAsk
  split
  · exact deals_busyTrigger _ _ s
  · split
    · exact deals_vpBuzz s
    · extract_lets mark r _ x
      have marked : Deals s x := .tracked s _ mark (.inr rfl)
      split
      · exact (marked.trans (.line x r.1 (settled_queueRequest _ _))).trans (.tracked _ _ mark (.inl rfl))
      · exact marked.trans (deals_busyTrigger _ _ x)

theorem deals_dcAsk (k : ReqKind) (p : Nat) (o : BitVec 8) (s : State) : Deals s (dcAsk k p o s) := by
  have asked := deals_pmAsk k p o s
  unfold dcAsk
  extract_lets confirm
  split
  · rename_i x eq
    rw [eq] at asked
    split
    · rename_i flying
      extract_lets _ y
      have waiting : Deals x y :=
        ⟨id, fun _ => ⟨fun sel => (nomatch sel), fun _ => flying⟩⟩
      split
      · exact (asked.trans waiting).trans (deals_selectingEnds y)
      · exact asked.trans waiting
    · exact asked
  · rename_i x _ _ eq
    rw [eq] at asked
    exact asked

/-! ## Panel events by dialogue state -/

theorem deals_dcEnter_if (s : State) (t : State) (h : Deals s t) :
    Deals s (if s.selectable then dcEnter s else t) := by
  split
  · exact deals_dcEnter s ‹_›
  · exact h

theorem deals_dcStep (up : Bool) (s : State) : Deals s (dcStep up s) := by
  unfold dcStep
  split
  · exact deals_dcEnter_if s s (.refl s)
  · rename_i confirm
    exact .move (fun size _ => fits_step up s.now (fits_openList s.pu _ (table_count size).1 (table_count size).2))
      (fun _ => .inl (by rw [confirm]; rfl)) (fun wait => nomatch wait)
  all_goals exact .refl s

/-- A change of the selection within its state. -/
theorem Deals.selection (s : State) (p : Nat) (o : BitVec 8) (c : Nat) :
    Deals s { s with dc := { s.dc with program := p, options := o, cursor := c } } :=
  .move (fun _ => id) .inl id

theorem deals_dcSelection (p : Nat) (s : State) : Deals s (dcSelection p s) := by
  unfold dcSelection
  split
  · exact (Deals.selection s p _ s.dc.cursor).trans (deals_trigger _ _ _)
  · extract_lets _ x
    have moved : Deals s x := .selection s s.dc.program s.dc.options p
    split
    · exact moved.trans (deals_trigger _ _ _)
    · exact moved.trans (deals_trigger _ _ _)
  all_goals exact .refl s

theorem deals_dcSelect (s : State) : Deals s (dcSelect s) := by
  unfold dcSelect
  split
  · exact deals_dcEnter_if s s (.refl s)
  · rename_i browsing
    have sel : s.selects := .inl (by rw [browsing]; rfl)
    split
    · exact deals_dcConfirm s sel
    · exact deals_dcOptions s sel
  · rename_i browsing
    have sel : s.selects := .inl (by rw [browsing]; rfl)
    split
    · exact (Deals.selection s s.dc.program _ s.dc.cursor).trans (deals_trigger _ _ _)
    · exact deals_dcConfirm s sel
  · exact deals_trigger _ _ s
  · exact .refl s

theorem deals_dcBack (s : State) : Deals s (dcBack s) := by
  unfold dcBack
  split
  · exact deals_dcDiscard s
  · rename_i browsing
    exact deals_dcPrograms s (.inl (by rw [browsing]; rfl))
  · rename_i confirm
    have sel : s.selects := .inl (by rw [confirm]; rfl)
    split
    · exact deals_dcPrograms s sel
    · exact deals_dcOptions s sel
  all_goals exact .refl s

theorem deals_dcCancelInView (s : State) : Deals s (dcCancelInView s) := by
  unfold dcCancelInView
  split
  · split
    case h_1 | h_2 | h_3 | h_4 => exact deals_dcAsk _ _ _ s
    case h_5 | h_6 | h_7 | h_8 => exact deals_vpBuzz s
  · exact deals_vpBuzz s

theorem deals_dcCancel (s : State) : Deals s (dcCancel s) := by
  unfold dcCancel
  split
  · exact deals_dcCancelInView s
  · exact (deals_dcDiscard s).trans (deals_dcCancelInView _)
  · exact (deals_dcDiscard s).trans (deals_dcCancelInView _)
  · exact (deals_dcDiscard s).trans (deals_dcCancelInView _)
  · exact deals_dcAsk _ _ _ s

theorem deals_dcStartShort (s : State) : Deals s (dcStartShort s) := by
  unfold dcStartShort
  split
  · exact deals_dcEnter_if s _ (deals_trigger _ _ s)
  · exact deals_trigger _ _ s
  · exact deals_trigger _ _ s
  · exact deals_trigger _ _ s
  · exact .refl s

theorem deals_dcStartHold (s : State) : Deals s (dcStartHold s) := by
  unfold dcStartHold
  split
  · refine deals_dcEnter_if s _ ?_
    split
    · split
      · exact deals_dcAsk _ _ _ s
      · exact deals_dcAsk _ _ _ s
      all_goals exact deals_vpBuzz s
    · exact deals_vpBuzz s
  · rename_i browsing
    exact deals_dcConfirm s (.inl (by rw [browsing]; rfl))
  · rename_i browsing
    exact deals_dcConfirm s (.inl (by rw [browsing]; rfl))
  · exact deals_dcAsk _ _ _ s
  · exact deals_dcAsk _ _ _ s

/-! ## Resolutions and forced ends -/

theorem dcDiscard_dc (s : State) : (dcDiscard s).dc = Dialogue.reset := rfl

theorem dcForced_state (s : State) : (dcForced s).dc.state = .view := by
  unfold dcForced
  split
  · assumption
  · rfl

theorem deals_dcForced (s : State) : Deals s (dcForced s) := by
  unfold dcForced
  split
  · exact .refl s
  · exact deals_dcDiscard s

theorem deals_goDark (s : State) : Deals s (goDark s) := by
  unfold goDark
  extract_lets _ x
  exact ((Deals.aside s { s.au with state := .dark, dim := none, dark := none } s.cp).trans
    (deals_dcForced _)).trans (.aside x _ _)

theorem deals_darkFirst (s : State) : Deals s (darkFirst s) := by
  unfold darkFirst
  split
  · exact deals_goDark s
  · exact .refl s

/-- A selection is open only while the partner can take one. -/
def State.honest (s : State) : Prop := s.dc.state.selecting = true → s.selectable = true

theorem honest_of_outside {s t : State} (h : t.outside = s.outside) (law : s.honest) : t.honest := by
  simpa only [State.honest, State.selectable, outside_dc h, outside_pm h] using law

theorem awaits_of_outside {s t : State} (h : t.outside = s.outside) (law : s.awaits) : t.awaits := by
  simpa only [State.awaits, outside_dc h, outside_pm h] using law

theorem honest_of_view {s : State} (h : s.dc.state = .view) : s.honest := fun sel => by
  simp [h, DialogueState.selecting] at sel

theorem dialogueLaw_of_view {s : State} (h : s.dc.state = .view) : DialogueLaw s :=
  ⟨honest_of_view h, fun wait => by simp [h] at wait⟩

/-- A resolution makes good what the emptied tracker leaves of an awaited answer. -/
theorem dialogueLaw_dcResolved (r : AnswerResult) {s : State} (law : s.honest) : DialogueLaw (dcResolved r s) := by
  unfold dcResolved
  split
  · split
    · rename_i back
      have can : s.selectable = true := (Bool.and_eq_true_iff.1 back).2
      exact ⟨fun _ => can, fun wait => nomatch wait⟩
    · exact dialogueLaw_of_view rfl
  · rename_i other
    exact ⟨law, fun wait => absurd wait other⟩

theorem panelLaw_dcResolved (r : AnswerResult) {s : State} (law : PanelLaw s) : PanelLaw (dcResolved r s) := by
  unfold dcResolved
  split
  · split
    · exact law
    · exact (deals_dcDiscard s).panel law
  · exact law

theorem honest_activity {s : State} (law : s.honest) : (activity s).honest := by
  unfold activity
  split
  · exact law
  · exact law

theorem honest_busyTrigger (c : PromptClass) (p : Params) {s : State} (law : s.honest) : (busyTrigger c p s).honest :=
  honest_of_outside (outside_trigger _ _ _) (honest_activity law)

theorem deals_resolveNoAnswer (r : Request) (s : State) : Deals s (resolveNoAnswer r s) where
  panel law := panelLaw_dcResolved _ ((deals_busyTrigger _ _ _).panel
    (show PanelLaw (darkFirst s).untracked from (deals_darkFirst s).panel law))
  dialogue law := dialogueLaw_dcResolved _ (honest_busyTrigger _ _
    (show (darkFirst s).untracked.honest from ((deals_darkFirst s).dialogue law).1))

theorem deals_resolveAnswered (r : Request) (a : AnswerResult) (s : State) : Deals s (resolveAnswered r a s) := by
  unfold resolveAnswered
  extract_lets x y
  have panel (law : PanelLaw s) : PanelLaw y := by
    have law' : PanelLaw x := law
    simp only [y]
    split_ifs
    · exact (deals_busyTrigger _ _ x).panel law'
    · exact law'
    · exact (deals_busyTrigger _ _ x).panel law'
  have honest (law : s.honest) : y.honest := by
    have law' : x.honest := law
    simp only [y]
    split_ifs
    · exact honest_busyTrigger _ _ law'
    · exact law'
    · exact honest_busyTrigger _ _ law'
  exact ⟨fun law => panelLaw_dcResolved _ (panel law), fun law => dialogueLaw_dcResolved _ (honest law.1)⟩

theorem deals_offerAnswer (s : State) : Deals s (offerAnswer s) := by
  unfold offerAnswer
  split
  · split
    · exact deals_resolveAnswered _ _ s
    · exact .refl s
  · exact .refl s

/-! ## The partner -/

theorem deals_pmReport (r : Report) (s : State) : Deals s (pmReport r s) := by
  unfold pmReport
  split
  · split
    · split
      · exact .tracked s _ s.pm.lastMark (.inl rfl)
      · exact deals_resolveNoAnswer _ s
      · exact deals_resolveNoAnswer _ s
    · exact .refl s
  · exact .refl s

theorem beyond_reportTrigger (c : PromptClass) (p : Params) (s : State) :
    (reportTrigger c p s).beyond = s.beyond :=
  (beyond_of_outside (outside_placeTrigger _ _ _ _ _)).trans (beyond_activity s)

theorem beyond_endCondition (k : CondKey) (s : State) : (endCondition k s).beyond = s.beyond :=
  beyond_of_outside (outside_endCondition _ _)

theorem beyond_beginSeries (e : ReportEntry) (n : Time) (s : State) : (beginSeries e n s).beyond = s.beyond := by
  unfold beginSeries
  split
  · rfl
  · rfl
  · rfl
  · exact beyond_of_outside (outside_withdrawMeant _ _)
  · rfl

theorem beyond_takeEntry (n : Time) (s : State) (e : ReportEntry) : (takeEntry n s e).beyond = s.beyond := by
  cases e with
  | partnerLost | started | paused | resumed | outOfService | timeCall => exact beyond_reportTrigger _ _ s
  | partnerBack => exact beyond_of_outside (outside_withdraw _ _)
  | baseline => rfl
  | lossEnd => exact beyond_endCondition _ s
  | cleared k =>
    unfold takeEntry
    dsimp only
    split
    · exact (beyond_reportTrigger _ _ _).trans (beyond_endCondition _ s)
    · exact beyond_endCondition _ s
  | cycleDone =>
    exact ((beyond_reportTrigger _ _ _).trans (beyond_reportTrigger _ _ _)).trans (beyond_beginSeries _ _ s)
  | paymentDue | action | fault => exact (beyond_reportTrigger _ _ _).trans (beyond_beginSeries _ _ s)
  | phase =>
    unfold takeEntry
    dsimp only
    split
    · exact beyond_reportTrigger _ _ s
    · rfl

theorem beyond_takeEntries (n : Time) (es : List ReportEntry) (s : State) :
    (es.foldl (takeEntry n) s).beyond = s.beyond := by
  induction es generalizing s with
  | nil => rfl
  | cons e es ih => exact (ih _).trans (beyond_takeEntry n s e)

theorem beyond_takeReport (n : Time) (es : List ReportEntry) (s : State) :
    (takeReport n es s).beyond = s.beyond :=
  (beyond_of_outside (outside_takeHead _)).trans (beyond_takeEntries n es s)

/-- What a report that the prompt queue takes leaves to the dialogue. -/
theorem takeReport_leaves (n : Time) (es : List ReportEntry) (s : State) :
    (takeReport n es s).pu = s.pu ∧ (takeReport n es s).dc = s.dc ∧ (takeReport n es s).pm = s.pm ∧
      (takeReport n es s).psp.settled = s.psp.settled :=
  have same := beyond_takeReport n es s
  ⟨(congrArg State.pu same :), (congrArg State.dc same :), (congrArg State.pm same :), (congrArg State.psp same :)⟩

theorem panelLaw_congr {s t : State} (pu : t.pu = s.pu) (psp : t.psp.settled = s.psp.settled) (law : PanelLaw s) :
    PanelLaw t := ⟨pu ▸ law.1, sized_settled psp law.2⟩

theorem panelLaw_takeReport (n : Time) (es : List ReportEntry) {s : State} (law : PanelLaw s) :
    PanelLaw (takeReport n es s) :=
  have ⟨pu, _, _, psp⟩ := takeReport_leaves n es s
  panelLaw_congr pu psp law

/-- A machine report ends a selection that has become dishonest. -/
theorem dialogueLaw_dcReport {s : State} (law : s.awaits) : DialogueLaw (dcReport s) := by
  unfold dcReport
  split
  · exact dialogueLaw_of_view rfl
  · rename_i on
    refine ⟨fun sel => ?_, law⟩
    simpa [sel] using on

theorem deals_dcReport_panel {s : State} (law : PanelLaw s) : PanelLaw (dcReport s) := by
  unfold dcReport
  split
  · exact (deals_dcDiscard s).panel law
  · exact law

theorem deals_pmStatus (p : List Byte) (n : Time) (s : State) : Deals s (pmStatus p n s) := by
  have taken (x : State) (m : PartnerMonitor) (es : List ReportEntry) (same : m.inFlight = x.pm.inFlight) :
      Deals x (offerAnswer (dcReport (takeReport n es { x with pm := m }))) := by
    obtain ⟨-, dc, pm, -⟩ := takeReport_leaves n es { x with pm := m }
    refine ⟨fun law => (deals_offerAnswer _).panel (deals_dcReport_panel (panelLaw_takeReport n es law)),
      fun law => (deals_offerAnswer _).dialogue (dialogueLaw_dcReport ?_)⟩
    simpa only [State.awaits, dc, pm, same] using law.2
  unfold pmStatus
  extract_lets old got x timer
  have dark : Deals s x := by
    simp only [x]
    split
    · exact deals_darkFirst s
    · exact .refl s
  clear_value x
  refine dark.trans ?_
  split
  · exact taken _ _ _ rfl
  · exact taken _ _ _ rfl
  · exact taken _ _ _ rfl

theorem panelLaw_freshnessLost {s : State} (law : PanelLaw s) : PanelLaw (freshnessLost s) := by
  unfold freshnessLost
  dsimp only
  split
  · exact law
  · exact law
  · have lost := (deals_dcForced _).panel (panelLaw_takeReport s.now (lossReport s.pm.record)
      (s := { s with pm := { s.pm with freshTimer := none, freshness := .lost } }) law)
    generalize dcForced _ = x at lost ⊢
    split
    · exact panelLaw_dcResolved _ lost
    · exact lost

theorem dialogueLaw_freshnessLost {s : State} (law : DialogueLaw s) : DialogueLaw (freshnessLost s) := by
  unfold freshnessLost
  dsimp only
  split
  · rename_i never
    have none' : s.pm.freshness = .none := never
    refine ⟨fun sel => ?_, law.2⟩
    have can := law.1 sel
    simp [State.selectable, PartnerMonitor.isFresh, none'] at can
  · exact law
  · generalize left : dcForced _ = x
    have view : x.dc.state = .view := left ▸ dcForced_state _
    split
    · exact dialogueLaw_dcResolved _ (honest_of_view view)
    · exact dialogueLaw_of_view view

theorem deals_freshnessLost (s : State) : Deals s (freshnessLost s) :=
  ⟨panelLaw_freshnessLost, dialogueLaw_freshnessLost⟩

end Sys2Proof.Machine
end

