-- ==== Sys2Proof/Proofs/DeskCommands.lean ====
section
/-! PROOFS. The laws of the panel and of the dialogue over every command: O10 and O13. -/

namespace Sys2Proof.Machine

/-! ## The panel unit -/

theorem deals_triggerAs (c : PromptClass) (p : Params) (r : Reach) (b : Bool) (s : State) :
    Deals s (triggerAs c p r b s) := .of_outside (outside_triggerAs _ _ _ _ _)

theorem deals_pqHelp (n : Nat) (s : State) : Deals s (pqHelp n s) := by
  unfold pqHelp
  split
  · unfold pqHelp1
    split
    · exact deals_vpBuzz s
    · split_ifs
      · exact deals_vpBuzz s
      · exact .refl s
      · exact deals_triggerAs _ _ _ _ s
  · exact deals_trigger _ _ s
  · exact deals_trigger _ _ s

theorem deals_deliver (e : PanelEvent) (s : State) : Deals s (deliver e s) := by
  unfold deliver
  refine (deals_primaryActivity s).trans ?_
  cases e with
  | step => exact deals_dcStep _ _
  | selectionChanged => exact deals_dcSelection _ _
  | select => exact deals_dcSelect _
  | back => exact deals_dcBack _
  | cancelHold => exact deals_dcCancel _
  | startShort => exact deals_dcStartShort _
  | startHold => exact deals_dcStartHold _
  | help => exact deals_pqHelp _ _
  | languageHold => exact (Deals.aside _ _ _).trans (deals_trigger _ _ _)
  | hushToggle => exact .of_outside (outside_pq _ _)

theorem deals_settleNow (s : State) : Deals s (settleNow s) := by
  unfold settleNow
  split
  · exact .refl s
  · extract_lets p changed _ x
    have settled : Deals s x := .panelUnit s _ fun _ => fits_settle none
    split
    · exact settled.trans (deals_deliver _ x)
    · exact settled

theorem deals_buttonEvent (e : PanelEvent) (s : State) : Deals s (buttonEvent e s) := by
  unfold buttonEvent
  split
  · exact deals_wake s
  · exact (deals_settleNow s).trans (deals_deliver _ _)

theorem deals_makeStep (up : Bool) (s : State) : Deals s (makeStep up s) := by
  unfold makeStep
  split
  · exact deals_wake s
  · exact (Deals.panelUnit s _ fun _ => fits_step up s.now).trans (deals_deliver _ _)

/-- An event made together with a change of the panel unit that keeps its list. -/
theorem deals_button (s : State) (e : PanelEvent) (p : PanelUnit) (l : p.listLen = s.pu.listLen := by simp)
    (x : p.position = s.pu.position := by simp) (y : p.snapshot = s.pu.snapshot := by simp) :
    Deals s (buttonEvent e { s with pu := p }) :=
  (Deals.keys s p l x y).trans (deals_buttonEvent _ _)

@[simp] theorem spend_listLen (p : PanelUnit) (k : Key) : (p.spend k).listLen = p.listLen := setKey_listLen _ _ _
@[simp] theorem spend_position (p : PanelUnit) (k : Key) : (p.spend k).position = p.position := setKey_position _ _ _
@[simp] theorem spend_snapshot (p : PanelUnit) (k : Key) : (p.spend k).snapshot = p.snapshot := setKey_snapshot _ _ _
@[simp] theorem clearHelp_listLen (p : PanelUnit) : p.clearHelp.listLen = p.listLen := rfl
@[simp] theorem clearHelp_position (p : PanelUnit) : p.clearHelp.position = p.position := rfl
@[simp] theorem clearHelp_snapshot (p : PanelUnit) : p.clearHelp.snapshot = p.snapshot := rfl

theorem chordPress_list (p : PanelUnit) (n : Time) : (p.chordPress n).listLen = p.listLen ∧
    (p.chordPress n).position = p.position ∧ (p.chordPress n).snapshot = p.snapshot := by
  simp [PanelUnit.chordPress]

theorem silence_list (p : PanelUnit) : p.silence.listLen = p.listLen ∧ p.silence.position = p.position ∧
    p.silence.snapshot = p.snapshot := by
  simp [PanelUnit.silence]

theorem chordRelease_list (p : PanelUnit) : p.chordRelease.listLen = p.listLen ∧
    p.chordRelease.position = p.position ∧ p.chordRelease.snapshot = p.snapshot := by
  unfold PanelUnit.chordRelease
  split <;> exact ⟨rfl, rfl, rfl⟩

theorem releaseStep_list (p : PanelUnit) (up : Bool) : (p.releaseStep up).listLen = p.listLen ∧
    (p.releaseStep up).position = p.position ∧ (p.releaseStep up).snapshot = p.snapshot := by
  unfold PanelUnit.releaseStep
  split
  · split <;> exact ⟨rfl, rfl, rfl⟩
  · exact ⟨rfl, rfl, rfl⟩

theorem deals_chordPress (s : State) : Deals s { s with pu := s.pu.chordPress s.now } :=
  have ⟨l, x, y⟩ := chordPress_list s.pu s.now
  .keys s _ l x y

theorem deals_silence (s : State) : Deals s { s with pu := s.pu.silence } :=
  have ⟨l, x, y⟩ := silence_list s.pu
  .keys s _ l x y

theorem deals_chordRelease (s : State) : Deals s { s with pu := s.pu.chordRelease } :=
  have ⟨l, x, y⟩ := chordRelease_list s.pu
  .keys s _ l x y

theorem deals_pressEffect (k : Key) (awake : Bool) (s : State) : Deals s (pressEffect k awake s) := by
  unfold pressEffect
  split
  · split
    · exact deals_buttonEvent _ s
    · exact .refl s
  · exact .refl s
  · split
    · exact deals_chordPress s
    · exact .refl s
  · split_ifs
    · exact deals_chordPress s
    · exact .keys s _
    · exact .refl s
  · split_ifs
    · exact deals_silence s
    · exact (Deals.keys s _).trans (deals_makeStep _ _)
    · exact .refl s
  · split_ifs
    · exact deals_silence s
    · exact (Deals.keys s _).trans (deals_makeStep _ _)
    · exact .refl s

theorem deals_setKey (s : State) (k : Key) (x : KeyState) : Deals s { s with pu := s.pu.setKey k x } :=
  .keys s _ (setKey_listLen _ _ _) (setKey_position _ _ _) (setKey_snapshot _ _ _)

theorem deals_pressKey (k : Key) (s : State) : Deals s (pressKey k s) := by
  unfold pressKey
  extract_lets awake _ x
  have pressed : Deals s x := deals_setKey s _ _
  refine (pressed.trans ?_).trans (deals_pressEffect _ _ _)
  split
  · exact deals_vpClick x
  · exact deals_wake x

theorem deals_closeHelp (s : State) : Deals s (closeHelp s) := deals_button s _ _

theorem deals_releaseKey (k : Key) (s : State) : Deals s (releaseKey k s) := by
  unfold releaseKey
  extract_lets was x
  have let_go : Deals s x := deals_setKey s _ _
  have stepKey (up : Bool) : Deals x { x with pu := x.pu.releaseStep up } :=
    have ⟨l, p, q⟩ := releaseStep_list x.pu up
    .keys x _ l p q
  refine let_go.trans ?_
  cases k with
  | select => exact .refl x
  | back =>
    refine (deals_chordRelease x).trans ?_
    dsimp only [releaseBack]
    split
    · exact deals_buttonEvent _ _
    · exact .refl _
  | start =>
    dsimp only [releaseStart]
    split
    · exact deals_buttonEvent _ _
    · exact .refl _
  | help =>
    refine (deals_chordRelease x).trans ?_
    dsimp only [releaseHelp]
    split
    · exact deals_closeHelp _
    · exact .refl _
  | up => exact stepKey true
  | down => exact stepKey false

theorem deals_knobSample (a b : Bool) (s : State) : Deals s (knobSample a b s) := by
  unfold knobSample
  extract_lets q _ x
  have turned : Deals s x := .keys s _
  split_ifs
  · exact turned.trans (deals_makeStep _ x)
  · exact turned.trans (deals_makeStep _ x)
  · exact turned

theorem deals_panelCommands {t : Time} {x y : Bool} {k : Key} {d : Time} {i : Instr} {s u : State}
    (mem : i ∈ [.knobTransition t x y, .keyPressAccepted t k d, .keyReleaseAccepted t k d, .stepRepeat t,
      .settleTimeout t, .cancelHold t, .startHold t, .helpWindowClose t, .languageHold t, .hushToggle t,
      .darkTimeout t])
    (ran : exec i s = .next u) : Deals (s.advance t) u := by
  have kept (c : Prop) [Decidable c] (a v : State) (h : Deals a v) : Deals a (if c then v else a) := by
    split
    · exact h
    · exact .refl a
  simp only [List.mem_cons, List.not_mem_nil, or_false] at mem
  generalize clock : s.advance t = a
  rcases mem with rfl | rfl | rfl | rfl | rfl | rfl | rfl | rfl | rfl | rfl | rfl
  · cases ran
    simp only [clock]
    exact kept _ a _ (deals_knobSample x y a)
  · cases ran
    simp only [clock]
    exact kept _ a _ (deals_pressKey k a)
  · cases ran
    simp only [clock]
    exact kept _ a _ (deals_releaseKey k a)
  · cases ran
    simp only [clock]
    split
    · exact kept _ a _ ((Deals.keys a _).trans (deals_makeStep _ _))
    · exact .refl a
  · cases ran
    simp only [clock]
    exact kept _ a _ (deals_settleNow a)
  · cases ran
    simp only [clock]
    exact kept _ a _ (deals_button a _ _)
  · cases ran
    simp only [clock]
    exact kept _ a _ (deals_button a _ _)
  · cases ran
    simp only [clock]
    exact kept _ a _ (deals_closeHelp a)
  · cases ran
    simp only [clock]
    exact kept _ a _ (deals_button a _ _)
  · cases ran
    simp only [clock]
    exact kept _ a _ (deals_button a _ _)
  · cases ran
    simp only [clock]
    exact deals_darkFirst a

/-! ## The line -/

theorem deals_deliverReport (s : State) (r : Report) : Deals s (deliverReport s r) := by
  unfold deliverReport
  split
  · exact .of_outside (outside_fcClaimReport _ _)
  · exact .of_outside (outside_fcReleaseReport _)
  · exact deals_pmReport _ _

theorem deals_deliverReports (rs : List Report) (s : State) : Deals s (deliverReports rs s) := by
  unfold deliverReports
  induction rs generalizing s with
  | nil => exact .refl s
  | cons r rs ih => exact (deals_deliverReport s r).trans (ih _)

/-- Neither law reads the line port, the roster or the floor view. -/
theorem Deals.lineSide (s : State) (l : LinePort) (r : List RosterEntry) (c : Floor) :
    Deals s { s with lp := l, roster := r, fc := c } :=
  .move (fun _ => id) .inl id

theorem deals_lp (s : State) (l : LinePort) : Deals s { s with lp := l } := .lineSide s l s.roster s.fc

theorem deals_lineChanged (old : LinePort) (s : State) : Deals s (lineChanged old s) := by
  unfold lineChanged
  extract_lets r x
  have entered : Deals s x := by
    simp only [x]
    split
    · exact (deals_lp s _).trans (deals_deliverReports _ _)
    · exact .refl s
  split
  · exact entered.trans (.of_outside (outside_fcLineChange _))
  · exact entered

theorem deals_latchClash (s : State) : Deals s (latchClash s) := by
  unfold latchClash
  split
  · exact .refl s
  · exact (((deals_lp s _).trans (.of_outside (outside_fcClash _))).trans (deals_deliverReports _ _)).trans
      (.of_outside (outside_fcLineChange _))

theorem deals_failAttempt (s : State) : Deals s (failAttempt s) :=
  ((deals_lp s _).trans (deals_lineChanged _ _)).trans (deals_deliverReports _ _)

theorem deals_dispatch (k : RxKind) (n : Nat) (p : List Byte) (t : Time) (s : State) :
    Deals s (dispatch k n p t s) := by
  unfold dispatch
  split
  · split
    · exact deals_pmStatus _ _ s
    · exact .lineSide s s.lp _ s.fc
  · exact (Deals.lineSide s s.lp s.roster _).trans (.of_outside (outside_fcClaimReceived _ _ _ _ _))
  · exact (Deals.lineSide s s.lp s.roster _).trans (.of_outside (outside_fcTest _))
  · exact .refl s

theorem deals_takeReception (r : Reception) (s : State) : Deals s (takeReception r s) := by
  unfold takeReception
  extract_lets v old x
  have counted : Deals s x := (deals_lp s _).trans (deals_lineChanged _ _)
  clear_value x v
  cases v with
  | good k n p =>
    dsimp only
    split
    · exact counted.trans (deals_latchClash x)
    · exact counted.trans (deals_dispatch _ _ _ _ x)
  | fragment | bad | unknownKind | wrongRange => exact counted

theorem deals_closeReception (r : Reception) (s : State) : Deals s (closeReception r s) := by
  unfold closeReception
  split
  · exact deals_lp s _
  · exact (deals_lp s _).trans (deals_takeReception r _)

theorem deals_lineCommands {t : Time} {b : Byte} {x : Bool} {g : Option Time} {i : Instr} {s u : State}
    (mem : i ∈ [.receptionClose t, .lineHeldSet t, .lineHeldClear t, .attemptStart t, .attemptWithdrawn t,
      .transmissionComplete t, .startBitEdge t g, .byteReceived t b x])
    (ran : exec i s = .next u) : Deals (s.advance t) u := by
  simp only [List.mem_cons, List.not_mem_nil, or_false] at mem
  generalize clock : s.advance t = a
  rcases mem with rfl | rfl | rfl | rfl | rfl | rfl | rfl | rfl
  · cases ran
    simp only [clock]
    split
    · split
      · exact deals_closeReception _ a
      · exact deals_lp a _
    · exact .refl a
  · cases ran
    simp only [clock]
    split
    · exact (deals_lp a _).trans (deals_lineChanged _ _)
    · exact .refl a
  · cases ran
    simp only [clock]
    split
    · exact (deals_lp a _).trans (deals_lineChanged _ _)
    · exact .refl a
  · cases ran
    simp only [clock]
    split
    · split
      · exact deals_lp a _
      · exact .refl a
    · exact .refl a
  · cases ran
    simp only [clock]
    split
    · exact deals_failAttempt a
    · exact .refl a
  · cases ran
    simp only [clock]
    split
    · split_ifs
      · exact (deals_lp a _).trans (deals_deliverReports _ _)
      · exact deals_failAttempt a
      · exact .refl a
    · exact .refl a
  · cases ran
    simp only [clock]
    split
    · have closed : Deals a (match a.lp.rx, a.lp.idleSince with
          | some r, some i => if i + delimiter ≤ a.now then closeReception r a else a
          | _, _ => a) := by
        split
        · split
          · exact deals_closeReception _ a
          · exact .refl a
        · exact .refl a
      split
      · exact closed.trans (deals_lp _ _)
      · exact closed.trans (deals_lp _ _)
    · exact .refl a
  · cases ran
    simp only [clock]
    split
    · split_ifs
      · exact (deals_lp a _).trans (deals_failAttempt _)
      · exact deals_lp a _
      · exact .refl a
    · exact .refl a

/-! ## Start-up and the rest -/

theorem sized_imageTake (r : ImageRead) (d : List Byte) (b : Bool) {s : State} (law : s.psp.sized) :
    (imageTake r d b s).psp.sized := by
  have cached : (s.psp.cache r d).sized := sized_cache r d law
  unfold imageTake
  extract_lets x
  have law' : x.psp.sized := cached
  split
  · exact sized_congr rfl law'
  · exact sized_congr rfl law'

theorem sized_startUp {t : Time} {x : BitVec 8} {d : List Byte} {b : Bool} {i : Instr} {s u : State}
    (mem : i ∈ [.resetRelease t x, .headerReadEnd t d b, .imageReadEnd t d b]) (ran : exec i s = .next u)
    (law : s.psp.sized) : u.psp.sized := by
  simp only [List.mem_cons, List.not_mem_nil, or_false] at mem
  rcases mem with rfl | rfl | rfl
  · cases ran
    split
    · split
      · exact law
      · exact law
    · exact law
  · cases ran
    split
    · split
      · exact sized_imageTake .header d b (s := s.advance t) law
      · exact law
    · exact law
  · cases ran
    split
    · split
      · exact sized_imageTake _ d b (s := s.advance t) law
      · exact law
    · exact law

/-- A move that leaves the panel unit, the dialogue and what the laws read of the partner. -/
theorem Deals.same {s t : State} (pu : t.pu = s.pu) (dc : t.dc = s.dc) (record : t.pm.record = s.pm.record)
    (fresh : t.pm.freshness = s.pm.freshness) (flight : t.pm.inFlight = s.pm.inFlight)
    (sized : s.psp.sized → t.psp.sized) : Deals s t where
  panel law := ⟨pu ▸ law.1, sized law.2⟩
  dialogue law := by
    simpa only [DialogueLaw, State.selectable, PartnerMonitor.isFresh, dc, record, fresh, flight] using law

/-- The clock is not read. -/
theorem Deals.clocked {t : Time} {s u : State} (h : Deals (s.advance t) u) : Deals s u := ⟨h.panel, h.dialogue⟩

theorem deals_reset (t : Time) {s u : State} (ran : exec (.reset t) s = .next u) : Deals s u := by
  cases ran
  exact ⟨fun _ => resetMeetsTheLaws.2.2.2.2.2.2.1, fun _ => resetMeetsTheLaws.2.2.2.2.2.2.2.2.2⟩

theorem deals_listenEnd {t : Time} {x y : Bool} {s u : State} (ran : exec (.listenEnd t x y) s = .next u) :
    Deals s u := by
  cases ran
  split
  · refine Deals.trans ?_ (.of_outside (outside_takeHead _))
    exact ⟨id, id⟩
  · exact ⟨id, id⟩

theorem deals_rosterEntryExpire {t : Time} {m : Nat} {s u : State}
    (ran : exec (.rosterEntryExpire t m) s = .next u) : Deals s u := by
  cases ran
  split
  · split
    · exact ⟨id, id⟩
    · exact ⟨id, id⟩
  · exact ⟨id, id⟩

theorem deals_freshnessTimeout {t : Time} {s u : State} (ran : exec (.freshnessTimeout t) s = .next u) :
    Deals s u := by
  generalize clock : s.advance t = a
  have dealt : Deals a u := by
    cases ran
    simp only [clock]
    split
    · exact deals_freshnessLost a
    · exact .refl a
  subst clock
  exact dealt.clocked

theorem deals_requestDeadline {t : Time} {s u : State} (ran : exec (.requestDeadline t) s = .next u) :
    Deals s u := by
  generalize clock : s.advance t = a
  have dealt : Deals a u := by
    cases ran
    simp only [clock]
    split
    · split
      · exact (deals_lp a _).trans (deals_resolveNoAnswer _ _)
      · exact .refl a
    · exact .refl a
  subst clock
  exact dealt.clocked

theorem exec_deals {i : Instr} {s u : State} (ran : exec i s = .next u) : Deals s u := by
  cases kin_of i with
  | reset t h => exact deals_reset t (h ▸ ran)
  | startUp t x d b mem =>
    have h := startUpFrame t x d b i s u mem ran
    exact .same (congrArg State.pu h :) (congrArg State.dc h :) (congrArg (·.pm.record) h :)
      (congrArg (·.pm.freshness) h :) (congrArg (·.pm.inFlight) h :) (sized_startUp mem ran)
  | run t x y h => exact deals_listenEnd (h ▸ ran)
  | roster t m h => exact deals_rosterEntryExpire (h ▸ ran)
  | view t n mem =>
    have h := viewTimersFrame t n i s u mem ran
    exact .same (congrArg State.pu h :) (congrArg State.dc h :) (congrArg (·.pm.record) h :)
      (congrArg (·.pm.freshness) h :) (congrArg (·.pm.inFlight) h :) (sized_settled (congrArg State.psp h :))
  | line t b x g mem => exact (deals_lineCommands mem ran).clocked
  | speaking t d c mem => exact (Deals.of_outside (speakingCommandsFrame t d c i s u mem ran)).clocked
  | timed t r mem =>
    have h := timedPromptsFrame t r i s u mem ran
    exact .same (congrArg State.pu h :) (congrArg State.dc h :) (congrArg (·.pm.record) h :)
      (congrArg (·.pm.freshness) h :) (congrArg (·.pm.inFlight) h :) (sized_settled (congrArg State.psp h :))
  | panel t x y k d mem => exact (deals_panelCommands mem ran).clocked
  | fresh t h => exact deals_freshnessTimeout (h ▸ ran)
  | deadline t h => exact deals_requestDeadline (h ▸ ran)
  | sound t d mem =>
    have h := outputTicksFrame.1 t d i s u mem ran
    exact .same (congrArg State.pu h :) (congrArg State.dc h :) (congrArg (·.pm.record) h :)
      (congrArg (·.pm.freshness) h :) (congrArg (·.pm.inFlight) h :) (sized_settled (congrArg State.psp h :))
  | lights t mem =>
    have h := outputTicksFrame.2 t i s u mem ran
    exact .same (congrArg State.pu h :) (congrArg State.dc h :) (congrArg (·.pm.record) h :)
      (congrArg (·.pm.freshness) h :) (congrArg (·.pm.inFlight) h :) (sized_congr (congrArg (·.psp.tables) h :))

/-- Settles O10. -/
theorem stepKeepsThePanelInItsList : Obligations.StepKeepsThePanelInItsList := fun _ _ law ran =>
  step_keeps (fun _ _ => id) (fun _ _ _ law ran => (exec_deals ran).panel law) law ran

/-- Settles O13. -/
theorem stepKeepsTheDialogueHonest : Obligations.StepKeepsTheDialogueHonest := fun _ _ law ran =>
  step_keeps (fun _ _ => id) (fun _ _ _ law ran => (exec_deals ran).dialogue law) law ran

end Sys2Proof.Machine
end

