-- ==== Sys2Proof/Proofs/StartUp.lean ====
section
/-! PROOFS. Start-up, command by command: the straps, the image's blocks and the beginning of RUN. -/

namespace Sys2Proof.Machine

/-! ## Timers -/

@[simp] theorem due_some (e n : Time) : due (some e) n = true ↔ e ≤ n := decide_eq_true_iff

theorem due_of_le {x : Option Time} {e n : Time} (set : x = some e) (late : e ≤ n) : due x n = true := by
  rw [set]
  exact (due_some e n).2 late

theorem elapsed_of_le {x : Option Time} {e n : Time} (d : Time) (set : x = some e) (late : e + d ≤ n) :
    elapsed x d n = true := by
  rw [elapsed, set]
  exact (due_some _ n).2 late

theorem elapsed_of_lt {x : Option Time} {e n : Time} (d : Time) (set : x = some e) (early : n < e + d) :
    elapsed x d n = false := by
  rw [elapsed, set]
  exact decide_eq_false (Nat.not_le.2 early)

/-! ## The straps (R186) -/

theorem strapMachine_eq (x : BitVec 8) : strapMachine x = x.toNat % 32 := by simp [strapMachine, bits]

theorem strapLanguage_eq (x : BitVec 8) : strapLanguage x = x.toNat / 32 % 4 := by simp [strapLanguage, bits]

/-- Settles O22. -/
theorem resetReleaseReadsTheStraps : Obligations.ResetReleaseReadsTheStraps := by
  intro t x s a clock held
  refine ⟨_, rfl, ?_⟩
  rw [if_pos (show ((s.advance t).psp.phase == .held) = true by simp [held])]
  by_cases zero : strapMachine x = 0
  · rw [if_pos zero]
    rw [strapMachine_eq] at zero
    exact ⟨strapMachine_eq x, strapLanguage_eq x, rfl, fun _ => ⟨rfl, rfl⟩, fun h => absurd zero h⟩
  · rw [if_neg zero]
    rw [strapMachine_eq] at zero
    exact ⟨strapMachine_eq x, strapLanguage_eq x, rfl, fun h => absurd h zero, fun _ => ⟨rfl, rfl, by rw [clock]; rfl⟩⟩

/-! ## The image's reads (R183) -/

/-- R180: a read that has ended at the port. -/
theorem ended_reading {p : PhraseStore} {v : PortUser} {q : ReadReq} {e n : Time} {z : Bool}
    (port : p.port = .reading v q e z) (late : e ≤ n) : p.ended v n = some q := by
  simp [PhraseStore.ended, port, late]

/-- R114: the languages present, ascending. -/
def Header.languages (h : Header) : List Nat := (List.range 4).filter h.present

theorem imageReads_eq (h : Header) : imageReads h = .profile :: .tables :: h.languages.map .language := rfl

theorem tail_dropWhile_ne {l : List Nat} (sorted : l.Pairwise (· < ·)) {k : Nat} (mem : k ∈ l) :
    (l.dropWhile (· != k)).tail = l.filter (k < ·) := by
  induction l with
  | nil => cases mem
  | cons x l ih =>
    obtain ⟨above, sorted'⟩ := List.pairwise_cons.1 sorted
    by_cases here : x = k
    · subst here
      have rest : l.filter (x < ·) = l := List.filter_eq_self.2 fun y hy => by simpa using above y hy
      simp [rest]
    · have later : k ∈ l := (List.mem_cons.1 mem).resolve_left (Ne.symm here)
      have small : ¬ k < x := Nat.not_lt.2 (above k later).le
      simp [here, small, ih sorted' later]

theorem languages_sorted (h : Header) : h.languages.Pairwise (· < ·) := List.pairwise_lt_range.filter _

theorem mem_languages (h : Header) (k : Nat) : k ∈ h.languages ↔ k < 4 ∧ h.present k = true := by
  simp [Header.languages]

theorem nextRead_header (h : Header) : nextRead h .header = some .profile := rfl

theorem nextRead_profile (h : Header) : nextRead h .profile = some .tables := by
  simp [nextRead, imageReads_eq]

theorem nextRead_tables (h : Header) : nextRead h .tables = h.languages.head?.map .language := by
  have pass : (ImageRead.profile != .tables) = true := rfl
  simp [nextRead, imageReads_eq, List.dropWhile, pass]

theorem nextRead_language (h : Header) {k : Nat} (low : k < 4) (present : h.present k = true) :
    nextRead h (.language k) = (h.languages.find? (k < ·)).map .language := by
  have pass : (ImageRead.profile != .language k) = true := rfl
  have pass' : (ImageRead.tables != .language k) = true := rfl
  have same : ((fun r => r != ImageRead.language k) ∘ ImageRead.language) = (· != k) := by
    funext j
    simp [Function.comp, bne, BEq.beq]
  have rest := tail_dropWhile_ne (languages_sorted h) ((mem_languages h k).2 ⟨low, present⟩)
  simp only [nextRead, imageReads_eq, List.dropWhile, pass, pass', List.dropWhile_map, same, ← List.map_tail, rest,
    List.head?_map, List.head?_filter]

/-- After the tables comes the first language present. -/
theorem nextRead_tables_of_first (h : Header) {k : Nat} (low : k < 4) (present : h.present k = true)
    (first : ∀ j, j < k → h.present j = false) : nextRead h .tables = some (.language k) := by
  have found : (List.range 4).find? h.present = some k := by
    rw [List.find?_range_eq_some]
    exact ⟨present, List.mem_range.2 low, fun j lt => by simp [first j lt]⟩
  rw [nextRead_tables, Header.languages, List.head?_filter, found]
  rfl

/-- After a language comes the next one present. -/
theorem nextRead_language_of_next (h : Header) {k n : Nat} (present : h.present k = true) (lt : k < n) (high : n < 4)
    (next : h.present n = true) (between : ∀ j, k < j → j < n → h.present j = false) :
    nextRead h (.language k) = some (.language n) := by
  have found : h.languages.find? (k < ·) = some n := by
    rw [Header.languages, List.find?_filter, List.find?_range_eq_some]
    refine ⟨by simp [lt, next], List.mem_range.2 high, fun j early => ?_⟩
    by_cases above : k < j
    · simp [between j above early]
    · simp [above]
  rw [nextRead_language h (lt.trans high) present, found]
  rfl

/-! ## Header and image (R182 to R185) -/

/-- R183: an image read with another after it: its block is cached, and the other begins 500 ns later. -/
theorem imageTake_of_next (r : ImageRead) (d : List Byte) (b : Bool) (s : State) {h : Header} {n : ImageRead}
    (header : (s.psp.cache r d).header = some h) (next : nextRead h r = some n) :
    imageTake r d b s = { s with psp := (s.psp.cache r d).readImage h n (s.now + portGap) } := by
  simp only [imageTake, header, Option.bind_some, next, Option.map_some]

/-- R183, R185: the last image read. -/
theorem imageTake_of_last (r : ImageRead) (d : List Byte) (b : Bool) (s : State) {h : Header}
    (header : (s.psp.cache r d).header = some h) (last : nextRead h r = none) :
    imageTake r d b s = beginListen b (fixLanguages (s.psp.cache r d).defaultLang
      { s with psp := (s.psp.cache r d).adopt }) := by
  simp only [imageTake, header, Option.bind_some, last, Option.map_none]

section
variable {t e : Time} {d : List Byte} {b z : Bool} {q : ReadReq} {s : State} (image : s.psp.phase = .image)
  (port : s.psp.port = .reading .image q e z) (late : e ≤ (s.advance t).now)
include image port late

theorem exec_headerReadEnd (read : s.psp.imageRead = some .header) :
    exec (.headerReadEnd t d b) s = .next (if headerPasses d then imageTake .header d b (s.advance t)
      else tonesOnlyStart b (s.advance t)) := by
  have ended := ended_reading (p := s.psp) port late
  refine congrArg Host.Outcome.next (if_pos ?_)
  show (s.psp.phase == .image && (s.psp.ended .image (s.advance t).now).isSome &&
    s.psp.imageRead == some .header) = true
  rw [image, ended, read]
  rfl

theorem exec_imageReadEnd {r : ImageRead} (read : s.psp.imageRead = some r) (after : r ≠ .header) :
    exec (.imageReadEnd t d b) s = .next (imageTake r d b (s.advance t)) := by
  have ended := ended_reading (p := s.psp) port late
  have other : (r != .header) = true := by simpa using after
  simp only [exec, execImageReadEnd, advance_psp, read]
  refine congrArg Host.Outcome.next (if_pos ?_)
  rw [image, ended, other]
  rfl

end

/-- The default language is the strapped one where its block is the one cached last. -/
theorem defaultLang_cached (p : PhraseStore) (k : Nat) (d : List Byte) (strap : p.strapLang = k)
    (room : k < p.langs.length) : (p.cache (.language k) d).defaultLang = k := by
  have present : (p.cache (.language k) d).present k = true := by
    simp [PhraseStore.present, PhraseStore.cache, room]
  have same : (p.cache (.language k) d).strapLang = k := strap
  simp [PhraseStore.defaultLang, same, present]

/-- Settles O23. -/
theorem imageIsReadBlockByBlock : Obligations.ImageIsReadBlockByBlock := by
  refine ⟨fun t d b q e z s a clock image read port late => ?_,
    fun t d b h q e z s a clock image header port late => ?_⟩
  · subst clock
    refine ⟨_, exec_headerReadEnd image port late read, fun pass => ?_, fun fail => ?_⟩
    · rw [if_pos pass, imageTake_of_next .header d b (s.advance t) rfl (nextRead_header _)]
      exact ⟨image, rfl, rfl, rfl, rfl⟩
    · rw [if_neg (by simp [fail])]
      exact ⟨rfl, rfl, rfl, rfl, rfl, rfl, rfl, rfl, rfl⟩
  · subst clock
    refine ⟨match s.psp.imageRead with
      | some r => if r = .header then s.advance t else imageTake r d b (s.advance t)
      | none => s.advance t, ?_, fun read => ?_, fun k read low present first => ?_,
      fun k n read present lt high next between => ?_, fun k read last => ?_⟩
    · cases read : s.psp.imageRead with
      | none => simp only [exec, execImageReadEnd, advance_psp, read]
      | some r =>
        by_cases first : r = .header
        · subst first
          simp [exec, execImageReadEnd, read]
        · simp only [if_neg first]
          exact exec_imageReadEnd image port late read first
    · simp only [read]
      rw [if_neg (by decide), imageTake_of_next .profile d b (s.advance t) header (nextRead_profile h)]
      exact ⟨rfl, rfl, image, rfl, rfl⟩
    · simp only [read]
      rw [if_neg (by decide),
        imageTake_of_next .tables d b (s.advance t) header (nextRead_tables_of_first h low present first)]
      exact ⟨rfl, image, rfl, rfl⟩
    · simp only [read]
      rw [if_neg (by simp), imageTake_of_next (.language k) d b (s.advance t) header
        (nextRead_language_of_next h present lt high next between)]
      exact ⟨rfl, image, rfl, rfl⟩
    · simp only [read]
      rw [if_neg (by simp), imageTake_of_last (.language k) d b (s.advance t) header last]
      exact ⟨rfl, rfl, rfl, rfl, rfl, rfl, rfl, fun strap room => defaultLang_cached s.psp k d strap room⟩

/-! ## RUN (R187) -/

theorem exec_listenEnd {t p : Time} {s : State} (x y : Bool) (listen : s.psp.phase = .listen)
    (start : s.psp.listenStart = some p) (late : p + listenTime ≤ (s.advance t).now) :
    exec (.listenEnd t x y) s = .next (beginRun x y (s.advance t)) := by
  refine congrArg Host.Outcome.next (if_pos ?_)
  show (s.psp.phase == .listen && elapsed s.psp.listenStart listenTime (s.advance t).now) = true
  rw [listen, elapsed_of_le listenTime start late]
  rfl

/-- R168: ACTIVE with both timers running. The stages are taken as they are: their lengths are never reduced. -/
theorem restart_active (au : AttentionUnit) (p : Profile) (n : Time) :
    { au.restart p n with state := .active } =
      { au with state := .active, dim := p.dim.map (n + ·), dark := p.dark.map (n + ·) } := by
  unfold AttentionUnit.restart
  generalize p.dim.map (n + ·) = dim, p.dark.map (n + ·) = dark
  rfl

theorem beginRun_spec (x y : Bool) (s : State) : (beginRun x y s).psp.phase = .run ∧
    (beginRun x y s).psp.runStart = some s.now ∧
    (beginRun x y s).pu = { s.pu with refA := x, refB := y, quarter := 0 } ∧
    (beginRun x y s).au = { s.au with
      state := .active, dim := s.psp.profile.dim.map (s.now + ·), dark := s.psp.profile.dark.map (s.now + ·) } ∧
    (beginRun x y s).lp.settled = s.lp.settled ∧ (beginRun x y s).pm = s.pm ∧ (beginRun x y s).roster = s.roster ∧
    (beginRun x y s).dc = s.dc ∧ (beginRun x y s).ind = s.ind ∧ (beginRun x y s).fc.view = s.fc.view ∧
    (beginRun x y s).cp.currentLang = s.cp.currentLang ∧ (beginRun x y s).now = s.now := by
  have kept := outside_takeHead { s with
    psp := { s.psp with phase := .run, runStart := some s.now }
    pu := { s.pu with refA := x, refB := y, quarter := 0 }
    au := { s.au.restart s.psp.profile s.now with state := .active } }
  have psp := outside_psp_settled kept
  exact ⟨(congrArg PhraseStore.phase psp :), (congrArg PhraseStore.runStart psp :), (outside_pu kept :),
    (outside_au kept).trans (restart_active _ _ _), (outside_lp_settled kept :), (outside_pm kept :), (outside_roster kept :),
    (outside_dc kept :), (outside_ind kept :), (outside_view kept :), (outside_currentLang kept :),
    (outside_now kept :)⟩

/-- Settles O24. -/
theorem runBegins : Obligations.RunBegins := by
  intro t p x y s a clock listen start late
  subst clock
  have late' : p + listenTime ≤ (s.advance t).now := by rw [listenTime]; exact late
  exact ⟨_, exec_listenEnd x y listen start late', beginRun_spec x y (s.advance t)⟩

end Sys2Proof.Machine
end

