-- ==== Sys2Proof/Proofs/Outputs.lean ====
section
/-! PROOFS. The outputs' own timers: the port's arbiter, the ends of sounds and of the amplifier, the indicator. Lengths
of time stay as they are named; `simp only` unfolds them, and nothing reduces them. -/

namespace Sys2Proof.Machine

/-! ## The arbiter (R180, R181) -/

theorem exec_arbiterGrant {t e : Time} {s : State} (port : s.psp.port = .gap e) (late : e ≤ (s.advance t).now) :
    exec (.arbiterGrant t) s = .next { s.advance t with psp := s.psp.arbitrate (s.advance t).now } := by
  simp only [exec, execArbiterGrant, advance_psp, port]
  exact congrArg Host.Outcome.next (if_pos late)

/-- Settles O60. -/
theorem refillGoesBeforeTheComposer : Obligations.RefillGoesBeforeTheComposer := by
  intro t e s a clock port late
  subst clock
  rw [exec_arbiterGrant port late]
  refine ⟨fun r refill => ?_, fun r refill composer => ?_, fun refill composer => ?_⟩
  · simp only [PhraseStore.arbitrate, refill, PhraseStore.grant, readTime]
  · simp only [PhraseStore.arbitrate, refill, composer, PhraseStore.grant, readTime]
  · simp only [PhraseStore.arbitrate, refill, composer]

/-! ## Sounds and the amplifier (R160, R164) -/

theorem exec_hardStopFade {t : Time} {st : Stream} {s : State} (stream : s.vp.stream = some st)
    (fades : st.fadesHard (s.advance t).now = true) :
    exec (.hardStopFade t) s = .next (vpHardFade (s.advance t)) := by
  simp only [exec, execHardStopFade, advance_vp, stream]
  exact congrArg Host.Outcome.next (if_pos fades)

theorem fadesHard_of_uncut {st : Stream} {h n : Time} (stop : st.hardStop = some h) (late : h ≤ n + fadeTime)
    (uncut : st.early = none) : st.fadesHard n = true := by
  simp [Stream.fadesHard, stop, uncut, late]

theorem vpHardFade_spec {st : Stream} {s : State} (stream : s.vp.stream = some st) :
    ∃ e, vpHardFade s = { s with vp := { s.vp with stream := some { st with early := some e } } } ∧
      e.point = s.now ∧ e.hard = true ∧
      ∀ g k n, locate st.sound.segs 0 ((s.now - st.start) / samplePeriod) = some (g, k, n) →
        e.segEnd = st.start + n * samplePeriod := by
  simp only [vpHardFade, stream]
  exact ⟨_, rfl, rfl, rfl, fun g k n found => by simp only [found]⟩

theorem exec_toneSoundEnd {t : Time} {x : Tone} {s : State} (tone : s.vp.tone = some x)
    (late : x.ends ≤ (s.advance t).now) :
    exec (.toneSoundEnd t) s = .next { s.advance t with
      vp := VoicePlayer.ampIdle { s.vp with tone := none } (s.advance t).now } := by
  simp only [exec, execToneSoundEnd, advance_vp, tone]
  exact congrArg Host.Outcome.next (if_pos late)

theorem toneSamples_eq (k : ToneKind) : toneSamples k = if k = .click then 40 else 1200 := by cases k <;> rfl

theorem exec_ampReleaseExpire {t e : Time} {s : State} (set : s.vp.ampRelease = some e)
    (late : e ≤ (s.advance t).now) :
    exec (.ampReleaseExpire t) s =
      .next { s.advance t with vp := { s.vp with ampEn := false, ampRelease := none } } :=
  congrArg Host.Outcome.next (if_pos (due_of_le set late))

/-- Settles O55. -/
theorem soundTimersRun : Obligations.SoundTimersRun := by
  refine ⟨fun t h st s a clock stream stop late uncut => ?_, fun t x s a clock tone late => ?_,
    fun t e s a clock set late => ?_⟩
  · subst clock
    have fades := fadesHard_of_uncut stop (by rw [fadeTime]; exact late) uncut
    obtain ⟨e, faded, spec⟩ := vpHardFade_spec (s := s.advance t) stream
    exact ⟨e, by rw [exec_hardStopFade stream fades, faded]; rfl, spec⟩
  · subst clock
    rw [exec_toneSoundEnd tone (by rw [Tone.ends, toneSamples_eq]; exact late)]
    simp only [VoicePlayer.ampIdle, ampTime]
    cases stream : s.vp.stream with
    | none => simp
    | some st => simp
  · subst clock
    exact exec_ampReleaseExpire set late

/-! ## The indicator (R173 to R179) -/

theorem exec_multiplexSlot {t : Time} {s : State} (out : s.psp.phase ≠ .held)
    (ended : s.ind.slotOver (s.advance t).now = true) :
    exec (.multiplexSlot t) s = .next (newSlot (s.advance t)) := by
  refine congrArg Host.Outcome.next (if_pos ?_)
  show (s.psp.phase != .held && s.ind.slotOver (s.advance t).now) = true
  rw [ended, Bool.and_true]
  simpa using out

theorem slotOver_of_late {i : Indicator} {n : Time} (late : i.slotStart + slotTime ≤ n) : i.slotOver n = true := by
  simp [Indicator.slotOver, late]

theorem nextSlot_some {k : Nat} (h : k ≤ 4) : nextSlot (some k) = if k = 4 then 0 else k + 1 := by
  simp only [nextSlot]
  split_ifs <;> omega

/-- R173: what slot `k` drives in RUN, in LISTEN under the lamp test, in STRAP_HALT and in IMAGE. -/
theorem driveOf_run {s : State} (run : s.psp.phase = .run) (k : Nat) :
    s.driveOf k = if k = 4 then .leds s.ledsLit else .digit (s.digitOf k) := by
  simp [State.driveOf, State.lampTest, State.shows, run]

theorem driveOf_lampTest {s : State} (listen : s.psp.phase = .listen) (lit : s.ind.lampTest = true) (k : Nat) :
    s.driveOf k = if k = 4 then .leds 0xFF#8 else .digit { glyph := .allSegments, point := true } := by
  simp [State.driveOf, State.lampTest, listen, lit]

theorem driveOf_image {s : State} (image : s.psp.phase = .image) (k : Nat) : s.driveOf k = .off := by
  simp [State.driveOf, State.lampTest, State.shows, image]

theorem digitOf_e0 {s : State} (halt : s.psp.phase = .strapHalt) (k : Nat) :
    s.digitOf k = { glyph := [.letE, .digit 0, .blank, .blank].getD k .blank, point := false } := by
  have view : s.view = .e0 := by simp [State.view, halt]
  simp [State.digitOf, State.viewOff, view, View.glyphs, View.separator]

theorem driveOf_halt {s : State} (halt : s.psp.phase = .strapHalt) (k : Nat) :
    s.driveOf k = if k = 4 then .leds 0#8
      else .digit { glyph := [.letE, .digit 0, .blank, .blank].getD k .blank, point := false } := by
  simp only [State.driveOf, halt, if_true, digitOf_e0 halt]

theorem driven_of_dark {i : Indicator} (duty : i.duty = 0) (n : Time) : i.driven n = false := by
  simp [Indicator.driven, duty]

theorem driven_iff {i : Indicator} (on : i.drive ≠ .off) (n : Time) :
    i.driven n = true ↔ 100 * (n - i.slotStart) < i.duty * slotTime := by
  simp [Indicator.driven, on]

theorem dutyOf_eq {c : Nat} : dutyOf c = if c = 0 then 5 else if c ≤ 9 then 10 * c else 100 := by
  unfold dutyOf
  split_ifs <;> omega

theorem exec_lampTestEnd {t p : Time} {s : State} (lit : s.ind.lampTest = true) (start : s.psp.listenStart = some p)
    (late : p + lampTime ≤ (s.advance t).now) :
    exec (.lampTestEnd t) s = .next { s.advance t with
      ind := { s.ind with lampTest := false, flashStart := some (s.advance t).now, e1 := s.psp.tonesOnly } } := by
  refine congrArg Host.Outcome.next (if_pos ?_)
  show (s.ind.lampTest && elapsed s.psp.listenStart lampTime (s.advance t).now) = true
  rw [lit, elapsed_of_le lampTime start late]
  rfl

theorem exec_e1WindowEnd {t p : Time} {s : State} (start : s.psp.runStart = some p)
    (late : p + e1Time ≤ (s.advance t).now) :
    exec (.e1WindowEnd t) s = .next { s.advance t with ind := { s.ind with e1 := false } } :=
  congrArg Host.Outcome.next (if_pos (elapsed_of_le e1Time start late))

/-- What a slot drives, as O59 puts it: `k` is the slot before. -/
theorem newSlot_spec {s : State} {k : Nat} (slot : s.ind.slot = some k) (small : k ≤ 4) :
    (newSlot s).ind.slot = some (if k = 4 then 0 else k + 1) ∧ (newSlot s).ind.slotStart = s.now ∧
    (newSlot s).ind.drive = s.driveOf (if k = 4 then 0 else k + 1) ∧ (newSlot s).ind.duty = s.dutyInForce := by
  simp only [newSlot, slot, nextSlot_some small, true_and]

theorem slot_leds {k : Nat} (h : k = 3) : (if k = 4 then 0 else k + 1) = 4 := by simp [h]

theorem slot_digit {k : Nat} (h : k ≠ 3) : (if k = 4 then 0 else k + 1) ≠ 4 := by
  split_ifs <;> omega

/-- Settles O59. -/
theorem indicatorFollowsItsTimers : Obligations.IndicatorFollowsItsTimers := by
  refine ⟨fun t k s a clock out slot small late => ?_, fun p c d hc hd => ?_, fun t s a clock out none' => ?_,
    fun t p s a clock lit start late => ?_, fun t p s a clock start late => ?_⟩
  · have ended : s.ind.slotOver a.now = true := slotOver_of_late (by rw [slotTime]; exact late)
    subst clock
    obtain ⟨slot', start, drive, duty⟩ := newSlot_spec (s := s.advance t) slot small
    refine ⟨_, exec_multiplexSlot out ended, slot', start, ?_⟩
    rw [drive, duty]
    refine ⟨fun run at3 => ?_, fun run digit => ?_, fun listen lit at3 => ?_, fun listen lit digit => ?_,
      fun halt => ⟨?_, fun at3 => ?_, fun digit => ?_⟩, fun run dark n => ?_, fun active => ?_, fun run dim => ?_,
      fun n on => ?_, fun image => driveOf_image (s := s.advance t) image _⟩
    · rw [driveOf_run (s := s.advance t) run, if_pos (slot_leds at3)]
    · rw [driveOf_run (s := s.advance t) run, if_neg (slot_digit digit)]
    · rw [driveOf_lampTest (s := s.advance t) listen lit, if_pos (slot_leds at3)]
    · rw [driveOf_lampTest (s := s.advance t) listen lit, if_neg (slot_digit digit)]
    · simp [State.dutyInForce, halt]
    · rw [driveOf_halt (s := s.advance t) halt, if_pos (slot_leds at3)]
    · rw [driveOf_halt (s := s.advance t) halt, if_neg (slot_digit digit)]
    · exact driven_of_dark (duty.trans (by simp [State.dutyInForce, run, dark])) n
    · rcases active with listen | ⟨run, active⟩
      · simp [State.dutyInForce, listen]
      · simp [State.dutyInForce, run, active]
    · simp [State.dutyInForce, run, dim]
    · rw [← duty, driven_iff (drive.trans_ne on), slotTime]
  · subst hc hd
    have low : bits p.duty.toNat 0 4 = p.duty.toNat % 16 := by simp [bits]
    have high : bits p.duty.toNat 4 4 = p.duty.toNat / 16 := by
      have := p.duty.isLt
      simp only [bits]
      omega
    exact ⟨by rw [Profile.activeDuty, low, dutyOf_eq], by rw [Profile.dimDuty, high, dutyOf_eq]⟩
  · subst clock
    have ended : s.ind.slotOver (s.advance t).now = true := by simp [Indicator.slotOver, none']
    exact ⟨_, exec_multiplexSlot out ended, by simp [newSlot, none', nextSlot], rfl⟩
  · subst clock
    exact exec_lampTestEnd lit start (by rw [lampTime]; exact late)
  · subst clock
    exact exec_e1WindowEnd start (by rw [e1Time]; exact late)

end Sys2Proof.Machine
end

