-- ==== Sys2Proof/Proofs/LineTimers.lean ====
section
/-! PROOFS. The line port's bits and bytes: LINE_HELD, the start of an attempt, start bits, bytes and glitches, and a
CLAIM frame as it is read back. -/

namespace Sys2Proof.Machine

/-! ## LINE_HELD (R8, R16) -/

theorem mode_of_settled {a b : LinePort} (h : a.settled = b.settled) : a.mode = b.mode := by
  have degraded : a.degraded = b.degraded := (congrArg LinePort.degraded h :)
  have held : a.lineHeld = b.lineHeld := (congrArg LinePort.lineHeld h :)
  have clash : a.clash = b.clash := (congrArg LinePort.clash h :)
  simp only [LinePort.mode, degraded, held, clash]

/-- A change of the line port that is taken in: of what the line reads it stays as it was changed. -/
theorem lineChanged_reads (old : LinePort) (s : State) : (lineChanged old s).lp.lineHeld = s.lp.lineHeld ∧
    (lineChanged old s).lp.mode = s.lp.mode ∧ (lineChanged old s).lp.errCount = s.lp.errCount ∧
    (lineChanged old s).lp.clash = s.lp.clash :=
  have h := (apart_lineChanged old s).lp_settled
  ⟨(congrArg LinePort.lineHeld h :), mode_of_settled h, (congrArg LinePort.errCount h :),
    (congrArg LinePort.clash h :)⟩

theorem holds_iff {l : LinePort} {d n : Time} (outside : l.edge = none) (since : l.dominantSince = some d) :
    l.holds n = true ↔ d + heldTime ≤ n := by
  simp [LinePort.holds, LinePort.inByte, outside, since, elapsed]

theorem freed_iff {l : LinePort} {i n : Time} (since : l.recessiveSince = some i) :
    l.freed n = true ↔ i + heldClearTime ≤ n := by
  simp [LinePort.freed, since, elapsed]

theorem exec_lineHeldSet {t : Time} {s : State} (on : s.receiving = true) (clear : s.lp.lineHeld = false) :
    exec (.lineHeldSet t) s = .next (if s.lp.holds (s.advance t).now then
      lineChanged s.lp { s.advance t with lp := { s.lp with lineHeld := true } } else s.advance t) := by
  refine congrArg Host.Outcome.next ?_
  show (if (s.receiving && !s.lp.lineHeld && s.lp.holds (s.advance t).now) = true then _ else _) = _
  rw [on, clear, Bool.not_false, Bool.true_and, Bool.true_and]
  rfl

theorem exec_lineHeldClear {t : Time} {s : State} (on : s.receiving = true) (held : s.lp.lineHeld = true) :
    exec (.lineHeldClear t) s = .next (if s.lp.freed (s.advance t).now then
      lineChanged s.lp { s.advance t with lp := { s.lp with lineHeld := false } } else s.advance t) := by
  refine congrArg Host.Outcome.next ?_
  show (if (s.receiving && s.lp.lineHeld && s.lp.freed (s.advance t).now) = true then _ else _) = _
  rw [on, held, Bool.true_and, Bool.true_and]
  rfl

/-- R8: the end of the last dominant bit of a byte whose stop bit reads recessive. -/
theorem recessiveFrom_of_last {e : Time} {b : Byte} {k : Nat} (small : k < 8) (clear : b.getLsbD k = false)
    (set : ∀ j, k < j → j < 8 → b.getLsbD j = true) : recessiveFrom e b = e + (k + 2) * bitTime := by
  have bits : (List.range 8).reverse = [7, 6, 5, 4, 3, 2, 1, 0] := rfl
  have found : (List.range 8).reverse.find? (fun j => !b.getLsbD j) = some k := by
    rw [bits]
    generalize b.getLsbD = bit at clear set ⊢
    interval_cases k <;> simp [clear, set]
  simp only [recessiveFrom, found]

theorem recessiveFrom_of_all {e : Time} {b : Byte} (set : ∀ j, j < 8 → b.getLsbD j = true) :
    recessiveFrom e b = e + bitTime := by
  have found : (List.range 8).reverse.find? (fun j => !b.getLsbD j) = none := by
    rw [List.find?_eq_none]
    intro j mem
    simp [set j (by simpa using mem)]
  simp only [recessiveFrom, found]

/-- Settles O28. -/
theorem lineHeldFollowsTheLine : Obligations.LineHeldFollowsTheLine := by
  refine ⟨fun t d s a clock on clear outside since => ⟨fun early => ?_, fun late => ?_⟩,
    fun t i s a clock on held since => ⟨fun early => ?_, fun late => ?_⟩, fun lp e b => ⟨?_, ?_⟩⟩
  · subst clock
    rw [exec_lineHeldSet on clear, if_neg]
    rw [holds_iff outside since, heldTime]
    exact Nat.not_le.2 early
  · subst clock
    rw [exec_lineHeldSet on clear, if_pos ((holds_iff outside since).2 (by rw [heldTime]; exact late))]
    obtain ⟨held, mode, count, clash⟩ := lineChanged_reads s.lp
      { s.advance t with lp := { s.lp with lineHeld := true } }
    exact ⟨_, rfl, held, mode.trans (by simp [LinePort.mode]), count, clash⟩
  · subst clock
    rw [exec_lineHeldClear on held, if_neg]
    rw [freed_iff since, heldClearTime]
    exact Nat.not_le.2 early
  · subst clock
    rw [exec_lineHeldClear on held, if_pos ((freed_iff since).2 (by rw [heldClearTime]; exact late))]
    obtain ⟨held, mode, count, clash⟩ := lineChanged_reads s.lp
      { s.advance t with lp := { s.lp with lineHeld := false } }
    exact ⟨_, rfl, held, mode.trans (by simp [LinePort.mode]), count, clash⟩
  · intro k small clear set
    rw [takeByte_recessiveSince, if_pos rfl, recessiveFrom_of_last small clear set]
  · intro set
    rw [takeByte_recessiveSince, if_pos rfl, recessiveFrom_of_all set]

/-! ## The start of an attempt (R13) -/

theorem accessGap_eq (own : Nat) (k : FrameKind) :
    accessGap own k = ((if k = .request then 16 else 12) + own % 8) * bitTime := by
  cases k <;> rfl

theorem ready_of_gap {l : LinePort} {own : Nat} {n i : Time} {p : Place} {rest : List Place}
    (queue : l.queue = p :: rest) (idle : l.tx = none) (since : l.idleSince = some i) (free : l.lineHeld = false)
    (clear : l.clash = false) (outside : l.edge = none) (late : i + accessGap own p.kind ≤ n) :
    l.ready own n = some p := by
  simp only [LinePort.ready, queue, since, idle, free, clear, LinePort.inByte, outside]
  simp [late]

theorem exec_attemptStart {t : Time} {p : Place} {s : State} (run : s.psp.phase = .run)
    (ready : s.lp.ready s.ownAddress (s.advance t).now = some p) :
    exec (.attemptStart t) s = .next { s.advance t with lp := s.lp.begin p (s.advance t).now } := by
  have same : (s.advance t).lp.ready (s.advance t).ownAddress (s.advance t).now = some p := ready
  simp only [exec, execAttemptStart, same]
  exact congrArg Host.Outcome.next (if_pos (by simp [State.running, run]))

/-- R9: an update by the kind of the head leaves the rest, where no other place has that kind. -/
theorem map_kind_head {p : Place} {rest : List Place} (f : Place → Place)
    (one : ((p :: rest).map Place.kind).Nodup) :
    (p :: rest).map (fun q => if q.kind = p.kind then f q else q) = f p :: rest := by
  obtain ⟨fresh, -⟩ := List.nodup_cons.1 one
  have others : rest.map (fun q => if q.kind = p.kind then f q else q) = rest := by
    conv_rhs => rw [← List.map_id rest]
    refine List.map_congr_left fun q mem => if_neg fun same => ?_
    exact fresh (same ▸ List.mem_map_of_mem mem)
  rw [List.map_cons, if_pos rfl, others]

/-- Settles O29. -/
theorem attemptStartsAfterTheGap : Obligations.AttemptStartsAfterTheGap := by
  intro t i p rest s a clock run queue idle since free clear outside late
  subst clock
  have gap : i + accessGap s.ownAddress p.kind ≤ (s.advance t).now := by rw [accessGap_eq]; exact late
  have ready := ready_of_gap queue idle since free clear outside gap
  refine ⟨_, exec_attemptStart run ready, rfl, rfl, ?_, fun law => ?_⟩
  · simp [LinePort.begin, queue]
  · rw [TransmitLaw, queue] at law
    show s.lp.queue.map _ = _
    rw [queue]
    exact map_kind_head (fun q => { q with attempts := q.attempts + 1 }) law

/-! ## A CLAIM read back (R3, R4, R189) -/

theorem byteAt_ofNat {data : List Byte} {i n : Nat} (h : data.getD i 0xFF#8 = BitVec.ofNat 8 n) (small : n < 256) :
    byteAt data i = n := by
  rw [byteAt, h, BitVec.toNat_ofNat]
  exact Nat.mod_eq_of_lt small

theorem judge_claim {own : Nat} {level : Level} {reach : Reach} {units : Nat} {n : Time} (low : 33 ≤ own)
    (high : own ≤ 63) :
    judge { bytes := buildFrame .claim own (claimPayload level reach units), count := 5, faulted := false,
            overlong := false, own := false, lastStop := n } =
      .good .claim own (claimPayload level reach units) := by
  have source : byteAt (buildFrame .claim own (claimPayload level reach units)) 1 = own := byteAt_ofNat rfl (by omega)
  have header : byteAt (buildFrame .claim own (claimPayload level reach units)) 0 = 0x22 := rfl
  have check : crc8 (buildFrame .claim own (claimPayload level reach units)).dropLast =
      (buildFrame .claim own (claimPayload level reach units)).getLastD 0#8 := by
    simp only [buildFrame, List.dropLast_concat, List.getLastD_concat]
  have payload : ((buildFrame .claim own (claimPayload level reach units)).drop 2).dropLast =
      claimPayload level reach units := rfl
  have station : isStation own = true := by simp [isStation, low, high]
  have kind : rxKindOf (bits 0x22 4 4) = some .claim := rfl
  have length : ¬ bits 0x22 0 4 ≠ 5 - 3 := by decide
  simp [judge, source, header, check, payload, kind, length, frameLength, station, rightRange]

theorem claimLevel_payload (level : Level) (reach : Reach) (units : Nat) :
    claimLevel (claimPayload level reach units) = level := by
  cases level <;> cases reach <;> simp [claimLevel, claimPayload, byteAt, bits]

theorem claimUnits_payload (level : Level) (reach : Reach) {units : Nat} (low : 1 ≤ units) (high : units ≤ 255) :
    claimUnits (claimPayload level reach units) = units := by
  have read : byteAt (claimPayload level reach units) 1 = units := byteAt_ofNat rfl (by omega)
  rw [claimUnits, read]
  omega

/-- Settles O27. -/
theorem claimFrameIsReadBack : Obligations.ClaimFrameIsReadBack :=
  fun _ _ level reach _ low high least most =>
    ⟨_, judge_claim low high, claimLevel_payload level reach _, claimUnits_payload level reach least most⟩

end Sys2Proof.Machine
end

