-- ==== Sys2Proof/Proofs/Heads.lean ====
section
/-! PROOFS. What the operations on the current item and on the head of the queue leave as it is, each said once as an
equation, and the statements about entries that leave in time. -/

namespace Sys2Proof.Machine

/-! ## An item that leaves, that is placed, that ends (R95, R100, R101, R109) -/

/-- The prompt queue without its series. -/
def PromptQueue.listing (q : PromptQueue) : PromptQueue :=
  { q with fault := .stopped, actionFirst := .stopped, actionSecond := .stopped, payment := .stopped,
           unload := .stopped }

theorem setSeries_listing (q : PromptQueue) (r : Series) (x : SeriesState) :
    (q.setSeries r x).listing = q.listing := by
  cases r <;> rfl

theorem advanceSeries_listing (c : PromptClass) (n : Time) (q : PromptQueue) :
    (advanceSeries c n q).listing = q.listing := by
  unfold advanceSeries
  split
  next r _ =>
    extract_lets x u
    split_ifs
    · rfl
    · exact setSeries_listing _ _ _
    · exact setSeries_listing q r _
    · exact setSeries_listing q r _
  next => split <;> rfl

theorem saidSeries_frame (c : PromptClass) (s : State) : saidSeries c s = { s with pq := (saidSeries c s).pq } := by
  unfold saidSeries
  split <;> rfl

theorem saidSeries_listing (c : PromptClass) (s : State) : (saidSeries c s).pq.listing = s.pq.listing := by
  unfold saidSeries
  split
  · exact advanceSeries_listing _ _ _
  · rfl

/-- R109: an item that leaves unsaid sets a series, or nothing. -/
theorem leaveUnsaid_cases (c : PromptClass) (s : State) :
    leaveUnsaid c s = s ∨ ∃ r x, leaveUnsaid c s = { s with pq := s.pq.setSeries r x } := by
  unfold leaveUnsaid
  split
  next r _ =>
    extract_lets x
    split
    · exact .inr ⟨r, _, rfl⟩
    · exact .inl rfl
  next => exact .inl rfl

theorem leaveUnsaid_frame (c : PromptClass) (s : State) :
    leaveUnsaid c s = { s with pq := (leaveUnsaid c s).pq } := by
  rcases leaveUnsaid_cases c s with same | ⟨r, x, set⟩
  · rw [same]
  · rw [set]

theorem leaveUnsaid_listing (c : PromptClass) (s : State) : (leaveUnsaid c s).pq.listing = s.pq.listing := by
  rcases leaveUnsaid_cases c s with same | ⟨r, x, set⟩
  · rw [same]
  · rw [set]
    exact setSeries_listing _ _ _

theorem placeNew_frame (it : Item) (s : State) : (placeNew it s).1 = { s with pq := (placeNew it s).1.pq } := by
  unfold placeNew
  extract_lets r _ t
  split
  · exact leaveUnsaid_frame _ t
  · rfl

theorem placeNew_listing (it : Item) (s : State) :
    (placeNew it s).1.pq.listing = { s.pq.listing with items := (placeItem it s.pq.items).1 } := by
  unfold placeNew
  extract_lets r _ t
  split
  · exact leaveUnsaid_listing _ t
  · rfl

/-- R95: a queue with room takes the item in its place. -/
theorem placeNew_of_room {it : Item} {s : State} (room : s.pq.items.length < 8) :
    placeNew it s = ({ s with pq := { s.pq with items := putBy Item.rank it s.pq.items } }, true) := by
  have placed : placeItem it s.pq.items = (putBy Item.rank it s.pq.items, none) := if_pos room
  simp only [placeNew, placed]

theorem returnItem_frame (it : Item) (s : State) : returnItem it s = { s with pq := (returnItem it s).pq } := by
  unfold returnItem
  extract_lets back
  split
  · exact leaveUnsaid_frame _ s
  · exact placeNew_frame _ s

/-- R100: the return of an item changes the series and the list of items alone. -/
theorem returnItem_listing (it : Item) (s : State) : ∃ l, (returnItem it s).pq.listing = { s.pq.listing with items := l } := by
  unfold returnItem
  extract_lets back
  split
  · exact ⟨_, leaveUnsaid_listing _ s⟩
  · exact ⟨_, placeNew_listing _ s⟩

theorem endItem_said {it : Item} {s : State} (item : s.fc.item = some it) :
    endItem .said s = saidSeries it.cls { s with
      pq := { s.pq with current := none, last := some { cls := it.cls, params := it.params, reach := it.reach } }
      fc := { s.fc with item := none } } := by
  simp only [endItem, item]

theorem endItem_returned {it : Item} {s : State} (item : s.fc.item = some it) :
    endItem .returned s = returnItem it { s with
      pq := { s.pq with current := none }, fc := { s.fc with item := none } } := by
  simp only [endItem, item]

theorem endItem_dropped {it : Item} {s : State} (item : s.fc.item = some it) :
    endItem .dropped s = if s.pq.marked then
      { s with pq := { s.pq with current := none }, fc := { s.fc with item := none } }
    else leaveUnsaid it.cls { s with
      pq := { s.pq with current := none }, fc := { s.fc with item := none } } := by
  simp only [endItem, item]

/-- R101: the end of the current item, whatever it is, changes the prompt queue and leaves no current item. -/
theorem endItem_frame (e : ItemEnd) (s : State) :
    endItem e s = { s with pq := (endItem e s).pq, fc := { s.fc with item := none } } := by
  cases item : s.fc.item with
  | none =>
    have none' : { s.fc with item := none } = s.fc := by rw [← item]
    have done : endItem e s = s := by simp only [endItem, item]
    rw [done, none']
  | some it =>
    cases e with
    | said => rw [endItem_said item]; exact saidSeries_frame _ _
    | returned => rw [endItem_returned item]; exact returnItem_frame _ _
    | dropped =>
      rw [endItem_dropped item]
      split
      · rfl
      · exact leaveUnsaid_frame _ _

/-- R101, R111: the end of the current item leaves no current item; a SAID fills the last-completed record, and only
a return changes the list. -/
theorem endItem_listing {it : Item} {s : State} (item : s.fc.item = some it) (e : ItemEnd) :
    ∃ l, (endItem e s).pq.listing = { s.pq.listing with
        items := l, current := none,
        last := if e = .said then some { cls := it.cls, params := it.params, reach := it.reach } else s.pq.last } ∧
      (e ≠ .returned → l = s.pq.items) := by
  cases e with
  | said =>
    rw [endItem_said item]
    exact ⟨_, saidSeries_listing _ _, fun _ => rfl⟩
  | returned =>
    rw [endItem_returned item]
    obtain ⟨l, back⟩ := returnItem_listing it { s with
      pq := { s.pq with current := none }, fc := { s.fc with item := none } }
    exact ⟨l, back, fun other => absurd rfl other⟩
  | dropped =>
    rw [endItem_dropped item]
    split
    · exact ⟨_, rfl, fun _ => rfl⟩
    · exact ⟨_, leaveUnsaid_listing _ _, fun _ => rfl⟩

theorem endItem_current {it : Item} {s : State} (item : s.fc.item = some it) (e : ItemEnd) :
    (endItem e s).pq.current = none := by
  obtain ⟨l, listing, _⟩ := endItem_listing item e
  exact (congrArg PromptQueue.current listing :)

theorem endItem_last {it : Item} {s : State} (item : s.fc.item = some it) (e : ItemEnd) :
    (endItem e s).pq.last =
      if e = .said then some { cls := it.cls, params := it.params, reach := it.reach } else s.pq.last := by
  obtain ⟨l, listing, _⟩ := endItem_listing item e
  exact (congrArg PromptQueue.last listing :)

theorem endItem_items {it : Item} {s : State} (item : s.fc.item = some it) {e : ItemEnd} (kept : e ≠ .returned) :
    (endItem e s).pq.items = s.pq.items := by
  obtain ⟨l, listing, same⟩ := endItem_listing item e
  exact (congrArg PromptQueue.items listing :).trans (same kept)

/-! ## The head of the queue (R137, R151) -/

theorem cpBegin_frame (it : Item) (r : Reach) (s : State) :
    cpBegin it r s = { s with cp := (cpBegin it r s).cp, psp := (cpBegin it r s).psp } := by
  unfold cpBegin
  dsimp only
  split <;> rfl

theorem fcUnheard_frame (s : State) : fcUnheard s = { s with
    pq := (fcUnheard s).pq, fc := { s.fc with item := none, spacingOver := (fcUnheard s).fc.spacingOver } } := by
  have ended := endItem_frame .said s
  simp only [fcUnheard]
  rw [ended]

theorem takeHead_of_busy {s : State} (busy : s.fc.state ≠ .idle) : takeHead s = s := by
  simp [takeHead, fcTake, busy]

theorem takeHead_of_empty {s : State} (empty : s.pq.items = []) : takeHead s = s := by
  unfold takeHead fcTake
  split
  · rw [empty]
  · rfl

/-- R137, R151: what one head does, if the floor controller may take it: an expired one and one that is not to be
heard leave and the next is tried, a rendering begins, or a composition. -/
theorem fcTake_succ (n : Nat) (s : State) : fcTake (n + 1) s = s ∨ ∃ it rest, s.pq.items = it :: rest ∧
    (fcTake (n + 1) s = fcTake n (endItem .dropped (takeItem it rest s)) ∨
      s.psp.tonesOnly = true ∧ (fcTake (n + 1) s = fcTake n (fcUnheard (takeItem it rest s)) ∨
        ∃ x, fcTake (n + 1) s = vpRender x
          { takeItem it rest s with fc := { (takeItem it rest s).fc with state := .speaking } }) ∨
      s.psp.tonesOnly = false ∧ ∃ r, fcTake (n + 1) s = cpBegin it r (takeItem it rest s)) := by
  rw [fcTake]
  split
  case isFalse => exact .inl rfl
  split
  next => exact .inl rfl
  next it rest head =>
    refine .inr ⟨it, rest, head, ?_⟩
    extract_lets u
    split_ifs with lapsed tones
    · exact .inl rfl
    · refine .inr (.inl ⟨tones, ?_⟩)
      split
      · exact .inl rfl
      · exact .inr ⟨_, rfl⟩
      · exact .inr ⟨_, rfl⟩
    · exact .inr (.inr ⟨Bool.eq_false_iff.2 tones, _, rfl⟩)

/-- R137: what taking the head leaves as it is: the line port and the utterance among the rest, and in speech mode the
sounds and the floor state. -/
theorem fcTake_leaves (n : Nat) (s : State) : (fcTake n s).lp = s.lp ∧ (fcTake n s).fc.utterance = s.fc.utterance ∧
    (s.psp.tonesOnly = false → (fcTake n s).fc.state = s.fc.state ∧ (fcTake n s).vp = s.vp) := by
  induction n generalizing s with
  | zero => exact ⟨rfl, rfl, fun _ => ⟨rfl, rfl⟩⟩
  | succ n ih =>
    rcases fcTake_succ n s with same | ⟨it, rest, _, expired | ⟨tones, unheard | ⟨x, rendered⟩⟩ | ⟨speech, r, begun⟩⟩
    · rw [same]
      exact ⟨rfl, rfl, fun _ => ⟨rfl, rfl⟩⟩
    · have spec := ih (endItem .dropped (takeItem it rest s))
      rw [← expired, endItem_frame] at spec
      exact spec
    · have spec := ih (fcUnheard (takeItem it rest s))
      rw [← unheard, fcUnheard_frame] at spec
      exact spec
    · rw [rendered]
      exact ⟨rfl, rfl, fun speech => absurd (tones.symm.trans speech) (by decide)⟩
    · rw [begun, cpBegin_frame]
      exact ⟨rfl, rfl, fun _ => ⟨rfl, rfl⟩⟩

theorem takeHead_lp (s : State) : (takeHead s).lp = s.lp := (fcTake_leaves _ s).1

theorem takeHead_utterance (s : State) : (takeHead s).fc.utterance = s.fc.utterance := (fcTake_leaves _ s).2.1

theorem takeHead_speech {s : State} (speech : s.psp.tonesOnly = false) :
    (takeHead s).fc.state = s.fc.state ∧ (takeHead s).vp = s.vp := (fcTake_leaves _ s).2.2 speech

end Sys2Proof.Machine
end

