-- ==== Sys2Proof/Proofs/Lapses.lean ====
section
/-! PROOFS. The free-list query (R48), the entries, items and claims that leave when their time has come (R45, R98, R133,
R140), and the reads of a composition (R116). -/

namespace Sys2Proof.Machine

/-! ## The free-list query (R48) -/

/-- The numbers of the free machines of a selector, all of them. -/
def freeMachines (sel : Option MachineKind) (es : List RosterEntry) : List Nat :=
  (es.filter fun e => belongs sel e.kind && e.coarse == .free).map RosterEntry.machine

theorem freeList_eq (sel : Option MachineKind) (es : List RosterEntry) :
    freeList sel es = { machines := (freeMachines sel es).take 3, count := (freeMachines sel es).length } := rfl

theorem mem_freeMachines {sel : Option MachineKind} {es : List RosterEntry} {m : Nat} :
    m ∈ freeMachines sel es ↔ ∃ e ∈ es, e.machine = m ∧ belongs sel e.kind = true ∧ e.coarse = .free := by
  simp only [freeMachines, List.mem_map, List.mem_filter, Bool.and_eq_true, beq_iff_eq]
  exact ⟨fun ⟨e, ⟨mem, is⟩, eq⟩ => ⟨e, mem, eq, is⟩, fun ⟨e, mem, eq, is⟩ => ⟨e, ⟨mem, is⟩, eq⟩⟩

theorem length_freeMachines (sel : Option MachineKind) (es : List RosterEntry) :
    (freeMachines sel es).length = es.countP fun e => belongs sel e.kind && e.coarse == .free := by
  rw [freeMachines, List.length_map, List.countP_eq_length_filter]

section
variable {s : State} (law : RosterLaw s) (sel : Option MachineKind)
include law

theorem freeMachines_sorted : (freeMachines sel s.roster).Pairwise (· < ·) :=
  List.pairwise_map.2 (law.1.filter _)

/-- R41, R48: the 31 numbers without the station's own leave room for 30. -/
theorem length_freeMachines_le (low : 1 ≤ s.psp.machine) (high : s.psp.machine ≤ 31) :
    (freeMachines sel s.roster).length ≤ 30 := by
  have distinct : (freeMachines sel s.roster).Nodup := (freeMachines_sorted law sel).imp Nat.ne_of_lt
  have known : (freeMachines sel s.roster).toFinset ⊆ (Finset.Icc 1 31).erase s.psp.machine := by
    intro m mem
    obtain ⟨e, inRoster, rfl, _, _⟩ := mem_freeMachines.1 (List.mem_toFinset.1 mem)
    obtain ⟨from1, to31, other⟩ := law.2.1 e inRoster
    exact Finset.mem_erase.2 ⟨other, Finset.mem_Icc.2 ⟨from1, to31⟩⟩
  calc (freeMachines sel s.roster).length
      = (freeMachines sel s.roster).toFinset.card := (List.toFinset_card_of_nodup distinct).symm
    _ ≤ ((Finset.Icc 1 31).erase s.psp.machine).card := Finset.card_le_card known
    _ = 30 := by
      rw [Finset.card_erase_of_mem (Finset.mem_Icc.2 ⟨low, high⟩), Nat.card_Icc]

end

/-- Of a list in order, what `take` leaves out comes after all that it has. -/
theorem lt_of_not_mem_take {l : List Nat} (sorted : l.Pairwise (· < ·)) {n x : Nat} (mem : x ∈ l)
    (left : x ∉ l.take n) : (l.take n).length = n ∧ ∀ y ∈ l.take n, y < x := by
  rw [← List.take_append_drop n l] at mem sorted
  have dropped : x ∈ l.drop n := (List.mem_append.1 mem).resolve_left left
  refine ⟨?_, fun y taken => (List.pairwise_append.1 sorted).2.2 y taken x dropped⟩
  have more : 0 < (l.drop n).length := List.length_pos_of_mem dropped
  rw [List.length_drop] at more
  rw [List.length_take]
  omega

/-- Settles O36. -/
theorem freeListNamesTheFirstThree : Obligations.FreeListNamesTheFirstThree := by
  intro sel s law low high
  rw [freeList_eq]
  refine ⟨length_freeMachines sel _, length_freeMachines_le law sel low high, ?_, ?_, fun m taken => ?_, ?_⟩
  · rw [List.length_take, Nat.min_comm]
  · exact (freeMachines_sorted law sel).sublist (List.take_sublist _ _)
  · exact mem_freeMachines.1 (List.mem_of_mem_take taken)
  · intro e mem fits free
    rw [or_iff_not_imp_left]
    exact lt_of_not_mem_take (freeMachines_sorted law sel) (mem_freeMachines.2 ⟨e, mem, rfl, fits, free⟩)

/-! ## Entries, items and claims that lapse (R45, R98, R133, R140) -/

theorem exec_rosterEntryExpire {t : Time} {e : RosterEntry} {s : State} (law : RosterLaw s) (mem : e ∈ s.roster)
    (old : e.arrival + rosterTime ≤ (s.advance t).now) :
    exec (.rosterEntryExpire t e.machine) s =
      .next { s.advance t with roster := dropKey RosterEntry.machine e.machine s.roster } := by
  simp only [exec, execRosterEntryExpire, advance_roster, findKey_of_mem RosterEntry.machine law.1 mem]
  exact congrArg Host.Outcome.next (if_pos old)

theorem lapsed_of_mem {q : PromptQueue} {it : Item} {n : Time} (mem : it ∈ q.items) (past : it.expired n = true) :
    q.lapsed it.cls n = true :=
  List.any_eq_true.2 ⟨it, mem, by rw [past, beq_self_eq_true]; rfl⟩

theorem exec_queueItemExpire {t : Time} {it : Item} {s : State} (mem : it ∈ s.pq.items)
    (past : it.expired (s.advance t).now = true) :
    exec (.queueItemExpire t it.cls) s = .next { s.advance t with
      pq := { s.pq with items := s.pq.items.filter (·.cls != it.cls) } } :=
  congrArg Host.Outcome.next (if_pos (lapsed_of_mem mem past))

theorem exec_viewEntryExpire {t : Time} {e : ViewEntry} {s : State} (law : ViewLaw s) (mem : e ∈ s.fc.view)
    (past : e.expiry ≤ (s.advance t).now) :
    exec (.viewEntryExpire t e.addr) s = .next (fcTest { s.advance t with fc := s.fc.forget e.addr }) := by
  simp only [exec, execViewEntryExpire, advance_fc, findKey_of_mem ViewEntry.addr law.1 mem]
  exact congrArg Host.Outcome.next (if_pos past)

theorem exec_crowdedClear {t e : Time} {s : State} (set : s.fc.crowded = some e) (past : e ≤ (s.advance t).now) :
    exec (.crowdedClear t) s = .next (fcTest { s.advance t with fc := { s.fc with crowded := none } }) :=
  congrArg Host.Outcome.next (if_pos (due_of_le set past))

theorem exec_currentItemExpire {t : Time} {it : Item} {s : State} (waiting : s.fc.state = .waiting)
    (item : s.fc.item = some it) (past : it.expired (s.advance t).now = true) :
    exec (.currentItemExpire t) s = .next (fcDiscard (s.advance t)) := by
  simp only [exec, execCurrentItemExpire, advance_fc, waiting, item]
  exact congrArg Host.Outcome.next (if_pos past)

/-- R140: a current item that is discarded makes no sound of its own, and leaves the line port as it is. -/
theorem fcDiscard_spec {it : Item} {s : State} (item : s.fc.item = some it) :
    (fcDiscard s).fc.utterance = none ∧ (fcDiscard s).lp = s.lp ∧
      (s.psp.tonesOnly = false ∨ s.pq.items = [] → (fcDiscard s).fc.state = .idle ∧ (fcDiscard s).vp = s.vp) ∧
      (s.pq.items = [] → (fcDiscard s).fc.item = none) := by
  generalize give : { s with fc := { s.fc with state := .idle, utterance := none } } = u
  have frame := endItem_frame .dropped u
  have items : (endItem .dropped u).pq.items = s.pq.items := by
    subst give
    exact endItem_items (s := { s with fc := { s.fc with state := .idle, utterance := none } }) item (e := .dropped)
      (by decide)
  have discard : fcDiscard s = takeHead (endItem .dropped u) := by rw [← give]; rfl
  have silent (empty : s.pq.items = []) : fcDiscard s = endItem .dropped u :=
    discard.trans (takeHead_of_empty (items.trans empty))
  have left : (endItem .dropped u).fc.utterance = none ∧ (endItem .dropped u).lp = s.lp ∧
      (endItem .dropped u).fc.state = .idle ∧ (endItem .dropped u).vp = s.vp ∧
      (endItem .dropped u).fc.item = none ∧ (endItem .dropped u).psp = s.psp := by
    rw [frame, ← give]
    exact ⟨rfl, rfl, rfl, rfl, rfl, rfl⟩
  obtain ⟨utterance, lp, idle, vp, none', psp⟩ := left
  refine ⟨?_, ?_, ?_, fun empty => ?_⟩
  · rw [discard, takeHead_utterance, utterance]
  · rw [discard, takeHead_lp, lp]
  · rintro (speech | empty)
    · obtain ⟨state, sounds⟩ := takeHead_speech (s := endItem .dropped u) (by rw [psp, speech])
      rw [discard, state, sounds]
      exact ⟨idle, vp⟩
    · rw [silent empty]
      exact ⟨idle, vp⟩
  · rw [silent empty, none']

/-- Settles O35. -/
theorem lapsedEntriesLeave : Obligations.LapsedEntriesLeave := by
  refine ⟨fun t m e s a clock law mem eq old => ?_, fun t e it s a clock mem set past => ?_,
    ⟨fun t e s a clock law mem past => ?_, fun t e s a clock set past => ?_⟩,
    fun t e it s a clock waiting item set past => ?_⟩
  · subst clock eq
    exact exec_rosterEntryExpire law mem (by rw [rosterTime]; exact old)
  · subst clock
    exact exec_queueItemExpire mem (due_of_le set past)
  · subst clock
    have heard := outside_fcTest { s.advance t with fc := s.fc.forget e.addr }
    exact ⟨_, exec_viewEntryExpire law mem past, (outside_view heard :), (outside_crowded heard :)⟩
  · subst clock
    have heard := outside_fcTest { s.advance t with fc := { s.fc with crowded := none } }
    exact ⟨_, exec_crowdedClear set past, (outside_view heard :), (outside_crowded heard :)⟩
  · subst clock
    exact ⟨_, exec_currentItemExpire waiting item (due_of_le set past), fcDiscard_spec (s := s.advance t) item⟩

/-! ## The reads of a composition (R116, R180) -/

theorem exec_composerReadEnd {t e : Time} {d : List Byte} {q : ReadReq} {z : Bool} {w : Work} {s : State}
    (port : s.psp.port = .reading .composer q e z) (late : e ≤ (s.advance t).now) (work : s.cp.work = some w) :
    exec (.composerReadEnd t d) s = .next (composerTake w q d (s.advance t)) := by
  have read : s.psp.ended .composer (s.advance t).now = some q := ended_reading port late
  show Host.Outcome.next (match s.psp.ended .composer (s.advance t).now, s.cp.work with | some _, some _ => _ | _, _ => _) = _
  rw [read, work]

/-- R181: within the gap a composer read that is asked waits. -/
theorem askComposer_of_gap {p : PhraseStore} {r : ReadReq} {e n : Time} (gap : p.port = .gap e) (early : n < e) :
    p.askComposer r n = { p with waitComposer := some r } := by
  have busy : p.free n = false := by simp [PhraseStore.free, gap, Nat.not_le.2 early]
  simp [PhraseStore.askComposer, busy]

theorem scan_dirAddr (w : Work) (cs : List Candidate) (es : List Entry) : (w.scan cs es).dirAddr = w.dirAddr := by
  induction cs generalizing es with
  | nil => rfl
  | cons c cs ih =>
    cases c with
    | pause n =>
      rw [Work.scan]
      split
      · rfl
      · exact ih _
    | clip ids =>
      rw [Work.scan]
      split
      · rfl
      · split
        · exact ih _
        · rfl

theorem take_dirAddr (w : Work) (r : Readings) (n : Nat) (d : List Byte) : (w.take r n d).dirAddr = w.dirAddr := by
  unfold Work.take
  split
  · exact scan_dirAddr _ _ _
  · split
    · exact scan_dirAddr _ _ _
    · exact scan_dirAddr _ _ _
  · rfl

theorem cpAsk_of_entry {w : Work} {id : Nat} {more : List Nat} {rest : List Candidate} (stage : w.stage = .entry id more rest)
    (s : State) : cpAsk w s = { s with
      cp := { s.cp with work := some w }
      psp := s.psp.askComposer { addr := w.dirAddr + 5 * id, size := 5 } s.now } := by
  simp only [cpAsk, stage]

theorem cpAsk_of_done {w : Work} (stage : ∀ id more rest, w.stage ≠ .entry id more rest) (s : State) :
    cpAsk w s = { s with cp := { s.cp with work := some w } } := by
  unfold cpAsk
  split
  next id more rest is => exact absurd is (stage id more rest)
  next => rfl
  next => rfl

/-- R116, R180: the composition takes the bytes of its read, in the gap of the port; a directory entry it needs next
waits there. -/
theorem composerTake_spec (w : Work) (q : ReadReq) (d : List Byte) (s : State) {v : Work}
    (taken : v = w.take (s.psp.readings w.kind) q.size d) :
    composerTake w q d s = { s with
      cp := { s.cp with work := some v }, psp := (composerTake w q d s).psp } ∧
    (composerTake w q d s).psp.port = .gap (s.now + portGap) ∧
    (composerTake w q d s).psp.waitRefill = s.psp.waitRefill ∧
    ∀ id more rest, v.stage = .entry id more rest →
      (composerTake w q d s).psp.waitComposer = some { addr := w.dirAddr + 5 * id, size := 5 } := by
  have asked : composerTake w q d s = cpAsk v { s with psp := s.psp.finish s.now } := by rw [taken]; rfl
  have gap (r : ReadReq) : (s.psp.finish s.now).askComposer r s.now =
      { s.psp.finish s.now with waitComposer := some r } :=
    askComposer_of_gap (finish_port _ _) (Nat.lt_add_of_pos_right (by decide))
  rw [asked]
  by_cases needs : ∃ id more rest, v.stage = .entry id more rest
  · obtain ⟨id, more, rest, stage⟩ := needs
    have addr : v.dirAddr = w.dirAddr := by rw [taken]; exact take_dirAddr _ _ _ _
    rw [cpAsk_of_entry stage, gap, addr]
    refine ⟨rfl, rfl, rfl, fun id' more' rest' stage' => ?_⟩
    cases stage.symm.trans stage'
    rfl
  · have done (id : Nat) (more : List Nat) (rest : List Candidate) : v.stage ≠ .entry id more rest :=
      fun stage => needs ⟨id, more, rest, stage⟩
    rw [cpAsk_of_done done]
    exact ⟨rfl, rfl, rfl, fun id more rest stage => absurd stage (done id more rest)⟩

/-- Settles O47. -/
theorem composerTakesItsRead : Obligations.ComposerTakesItsRead := by
  intro t e d q z w s a clock port late work
  subst clock
  obtain ⟨frame, gap, refill, next⟩ := composerTake_spec w q d (s.advance t) rfl
  refine ⟨_, exec_composerReadEnd port late work, ?_, gap, refill, next, ?_⟩
  · rw [frame]; rfl
  · rw [frame]; exact ⟨rfl, rfl, rfl, rfl⟩

end Sys2Proof.Machine
end

