-- ==== Sys2Proof/Proofs/Taking.lean ====
section
/-! PROOFS. The floor controller takes an item up and brings it to sound: the head after the spacing (R137, R150, R151), a
composition's result (R138, R139), the end of the contest window (R143, R144) and a claim that stands (R145, R146). -/

namespace Sys2Proof.Machine

/-! ## Play and rendering orders (R158, R163, R164) -/

theorem vpRefill_frame (s : State) : vpRefill s = { s with
    psp := (vpRefill s).psp
    vp := { s.vp with refill := (vpRefill s).vp.refill, fetch := (vpRefill s).vp.fetch } } := by
  unfold vpRefill
  split
  · split
    · split <;> rfl
    · rfl
  · rfl

theorem endClick_tone (v : VoicePlayer) {x : Tone} (sounds : v.endClick.tone = some x) : x.kind = .buzz := by
  unfold VoicePlayer.endClick at sounds
  cases tone : v.tone with
  | none => simp [tone] at sounds
  | some y =>
    simp only [tone] at sounds
    split at sounds
    · cases sounds
    · cases tone.symm.trans sounds
      cases kind : x.kind with
      | click => contradiction
      | buzz => rfl

/-- R158, R160, R164: a play order sounds its utterance from its start, with an empty buffer and the amplifier on. -/
theorem vpPlay_spec (x : Utterance) (n : Time) (s : State) :
    vpPlay x n s = { s with psp := (vpPlay x n s).psp, vp := (vpPlay x n s).vp } ∧
      (vpPlay x n s).vp.stream = some
        { sound := .utterance x, gain := s.gainOf x.reach, start := n, early := none,
          hardStop := some (n + x.floor * floorUnit + hardStopGrace) } ∧
      (vpPlay x n s).vp.buffer = [] ∧ (vpPlay x n s).vp.ampEn = true ∧ (vpPlay x n s).vp.ampRelease = none ∧
      ∀ y, (vpPlay x n s).vp.tone = some y → y.kind = .buzz := by
  unfold vpPlay
  extract_lets st
  rw [vpRefill_frame]
  exact ⟨rfl, rfl, rfl, rfl, rfl, fun y sounds => endClick_tone s.vp sounds⟩

theorem gainOf_eq (s : State) (r : Reach) :
    s.gainOf r = if r = .room then s.psp.profile.roomGain else s.psp.profile.localGain := by
  cases r <;> rfl

/-! ## The head after the spacing (R137, R150, R151) -/

/-- R150: the spacing has run out. -/
def State.spaced (s : State) : State :=
  { s with fc := { s.fc with
      state := .idle, spacing := none, spacingOver := some { moment := s.now, said := [] } } }

theorem exec_spacingEnd {t e : Time} {s : State} (spacing : s.fc.state = .spacing) (set : s.fc.spacing = some e)
    (late : e ≤ (s.advance t).now) : exec (.spacingEnd t) s = .next (takeHead (s.advance t).spaced) := by
  refine congrArg Host.Outcome.next (if_pos ?_)
  show (s.fc.state == .spacing && due s.fc.spacing (s.advance t).now) = true
  rw [spacing, due_of_le set late]
  rfl

section
variable {it : Item} {rest : List Item} {s : State} (run : s.psp.phase = .run) (idle : s.fc.state = .idle)
  (free : s.fc.item = none) (head : s.pq.items = it :: rest) (fresh : it.expired s.now = false)
include run idle free head fresh

theorem takeHead_of_speech (speech : s.psp.tonesOnly = false) :
    takeHead s = cpBegin it (s.fixedReach it) (takeItem it rest s) := by
  have lives : it.expired (takeItem it rest s).now = false := fresh
  have speaks : (takeItem it rest s).psp.tonesOnly = false := speech
  simp only [takeHead, head, List.length_cons, fcTake, State.running, run, idle, free, lives, speaks]
  rfl

theorem takeHead_of_tones (tones : s.psp.tonesOnly = true) :
    takeHead s = (match classLevel it.cls, s.fixedReach it with
      | .routine, .loc => fcTake (rest.length + 1) (fcUnheard (takeItem it rest s))
      | .routine, .room => vpRender .chime
          { takeItem it rest s with fc := { (takeItem it rest s).fc with state := .speaking } }
      | .urgent, _ => vpRender .alarm
          { takeItem it rest s with fc := { (takeItem it rest s).fc with state := .speaking } }) := by
  have lives : it.expired (takeItem it rest s).now = false := fresh
  have renders : (takeItem it rest s).psp.tonesOnly = true := tones
  have reach : (takeItem it rest s).fixedReach it = s.fixedReach it := rfl
  simp only [takeHead, head, List.length_cons]
  rw [fcTake]
  simp only [State.running, run, idle, free, head, lives, renders, reach]
  rfl

end

/-- R117, R137: a composition that begins, with the language, the level and the reach it is to have. -/
theorem cpBegin_work (it : Item) (r : Reach) (s : State) : ∃ w, (cpBegin it r s).cp.work = some w ∧
    w.lang = s.cp.currentLang ∧ w.level = classLevel it.cls ∧ w.reach = r := by
  unfold cpBegin
  extract_lets copy b addr w
  split
  · exact ⟨_, rfl, rfl, rfl, rfl⟩
  · exact ⟨_, rfl, rfl, rfl, rfl⟩

theorem fixedReach_eq (s : State) (it : Item) : s.fixedReach it = if s.lp.mode = .solo then .loc else it.reach := by
  unfold State.fixedReach
  cases s.lp.mode <;> rfl

theorem takeHead_cp_of_tones {s : State} (tones : s.psp.tonesOnly = true) : (takeHead s).cp = s.cp := by
  have kept (n : Nat) (u : State) (tones : u.psp.tonesOnly = true) : (fcTake n u).cp = u.cp := by
    induction n generalizing u with
    | zero => rfl
    | succ n ih =>
      rcases fcTake_succ n u with same | ⟨it, rest, _, lapsed | ⟨_, unheard | ⟨x, rendered⟩⟩ | ⟨speech, _⟩⟩
      · rw [same]
      · have frame := endItem_frame .dropped (takeItem it rest u)
        rw [lapsed, ih _ (by rw [frame]; exact tones), frame]
        rfl
      · have frame := fcUnheard_frame (takeItem it rest u)
        rw [unheard, ih _ (by rw [frame]; exact tones), frame]
        rfl
      · rw [rendered]
        rfl
      · exact absurd (tones.symm.trans speech) (by decide)
  exact kept _ s tones

/-- R151: an item that is not to be heard ends SAID, and with nothing queued behind it nothing follows. -/
theorem fcUnheard_last {it : Item} {s : State} (item : s.fc.item = some it) :
    (fcUnheard s).pq.items = s.pq.items ∧ (fcUnheard s).pq.current = none ∧
      (fcUnheard s).pq.last = some { cls := it.cls, params := it.params, reach := it.reach } :=
  ⟨endItem_items item (e := .said) (by decide), endItem_current item .said, endItem_last item .said⟩

theorem fcTake_of_empty {n : Nat} {s : State} (empty : s.pq.items = []) : fcTake n s = s := by
  cases n with
  | zero => rfl
  | succ n =>
    rcases fcTake_succ n s with same | ⟨it, rest, head, _⟩
    · exact same
    · cases empty.symm.trans head

/-- R151: what is heard of a head in tones-only mode: an URGENT one as the alarm and a ROUTINE one as the chime, both
at the ROOM gain and with no hard stop. -/
theorem takeHead_rendered {it : Item} {rest : List Item} {s : State} (run : s.psp.phase = .run)
    (idle : s.fc.state = .idle) (free : s.fc.item = none) (head : s.pq.items = it :: rest)
    (fresh : it.expired s.now = false) (tones : s.psp.tonesOnly = true)
    (heard : classLevel it.cls = .urgent ∨ it.reach = .room ∧ s.lp.mode = .normal) :
    takeHead s = vpRender (if classLevel it.cls = .urgent then .alarm else .chime)
      { takeItem it rest s with fc := { (takeItem it rest s).fc with state := .speaking } } := by
  rw [takeHead_of_tones run idle free head fresh tones]
  cases level : classLevel it.cls with
  | urgent => rfl
  | routine =>
    obtain ⟨room, normal⟩ := heard.resolve_left (by simp [level])
    have reach : s.fixedReach it = .room := by simp [fixedReach_eq, normal, room]
    rw [reach]
    rfl

/-- R151: a ROUTINE head that is to be heard at LOCAL reach leaves without a sound. -/
theorem takeHead_unheard {it : Item} {s : State} (run : s.psp.phase = .run)
    (idle : s.fc.state = .idle) (free : s.fc.item = none) (head : s.pq.items = [it])
    (fresh : it.expired s.now = false) (tones : s.psp.tonesOnly = true) (routine : classLevel it.cls = .routine)
    (quiet : it.reach = .loc ∨ s.lp.mode = .solo) : takeHead s = fcUnheard (takeItem it [] s) := by
  have reach : s.fixedReach it = .loc := by
    rw [fixedReach_eq]
    split
    next => rfl
    next normal => exact quiet.resolve_right normal
  rw [takeHead_of_tones run idle free head fresh tones, routine, reach]
  exact fcTake_of_empty (fcUnheard_last (s := takeItem it [] s) rfl).1

/-- Settles O53. -/
theorem spacingEndTakesTheHead : Obligations.SpacingEndTakesTheHead := by
  intro t e s a clock run spacing set late free
  subst clock
  rw [exec_spacingEnd spacing set late]
  refine ⟨fun empty => ?_, fun it rest head fresh speech => ?_, fun it rest head fresh tones => ?_⟩
  · rw [takeHead_of_empty (s := (s.advance t).spaced) empty]
    rfl
  · refine ⟨_, congrArg Host.Outcome.next
      (takeHead_of_speech (s := (s.advance t).spaced) run rfl free head fresh speech), ?_⟩
    obtain ⟨w, work, lang, level, reach⟩ :=
      cpBegin_work it ((s.advance t).spaced.fixedReach it) (takeItem it rest (s.advance t).spaced)
    rw [fixedReach_eq] at reach
    refine ⟨?_, ?_, ?_, w, work, lang, level, reach⟩
    all_goals rw [cpBegin_frame]
    all_goals rfl
  · refine ⟨_, rfl, takeHead_lp _, takeHead_cp_of_tones (s := (s.advance t).spaced) tones, fun heard => ?_,
      fun routine quiet last => ?_⟩
    · rw [takeHead_rendered (s := (s.advance t).spaced) run rfl free head fresh tones heard]
      exact ⟨rfl, rfl, rfl, rfl, rfl⟩
    · subst last
      rw [takeHead_unheard (s := (s.advance t).spaced) run rfl free head fresh tones routine quiet]
      obtain ⟨items, current, last⟩ := fcUnheard_last (s := takeItem it [] (s.advance t).spaced) rfl
      refine ⟨?_, ?_, items, current, last⟩
      all_goals rw [fcUnheard_frame]
      · dsimp only
        rw [free]
        rfl
      · rfl

/-! ## The contest window (R143, R144) -/

theorem exec_contestWindowEnd {t e : Time} {x : Utterance} {s : State} (contest : s.fc.state = .contest)
    (set : s.fc.contestEnd = some e) (late : e ≤ (s.advance t).now) (current : s.fc.utterance = some x) :
    exec (.contestWindowEnd t) s = .next (fcSpeak x e (s.advance t)) := by
  simp only [exec, execContestWindowEnd, advance_fc, contest, set, current]
  exact congrArg Host.Outcome.next (if_pos late)

/-- R144: SPEAKING entered: the floor controller notes the playback start, and the utterance plays from there. -/
theorem fcSpeak_spec (x : Utterance) (n : Time) (s : State) :
    fcSpeak x n s = { s with
      fc := { s.fc with state := .speaking, playStart := some n, contestEnd := none, cutOrder := none }
      psp := (fcSpeak x n s).psp, vp := (fcSpeak x n s).vp } ∧
    (fcSpeak x n s).vp.stream = some
      { sound := .utterance x, gain := if x.reach = .room then s.psp.profile.roomGain else s.psp.profile.localGain
        start := n, early := none, hardStop := some (n + x.floor * floorUnit + hardStopGrace) } ∧
    (fcSpeak x n s).vp.buffer = [] ∧ (fcSpeak x n s).vp.ampEn = true ∧ (fcSpeak x n s).vp.ampRelease = none ∧
    ∀ y, (fcSpeak x n s).vp.tone = some y → y.kind = .buzz := by
  rw [← gainOf_eq]
  exact vpPlay_spec x n { s with
    fc := { s.fc with state := .speaking, playStart := some n, contestEnd := none, cutOrder := none } }

/-- Settles O51. -/
theorem contestEndsInSpeaking : Obligations.ContestEndsInSpeaking := by
  intro t e x s a clock contest set late current
  subst clock
  obtain ⟨frame, sounds⟩ := fcSpeak_spec x e (s.advance t)
  refine ⟨_, exec_contestWindowEnd contest set late current, ?_, sounds⟩
  rw [frame]
  rfl

/-! ## A claim that stands (R145, R146) -/

/-- R134: the claim of an address speaks from now on. -/
def State.standing (addr : Nat) (s : State) : State := { s with fc := s.fc.stand addr }

theorem exec_claimStands {t : Time} {e : ViewEntry} {s : State} (law : ViewLaw s) (mem : e ∈ s.fc.view)
    (contests : e.speaking = false) (late : e.arrival + contestTime ≤ (s.advance t).now) :
    exec (.claimStands t e.addr) s =
      .next (fcJudge e.addr e.level ((s.advance t).standing e.addr)) := by
  simp only [exec, execClaimStands, advance_fc, findKey_of_mem ViewEntry.addr law.1 mem]
  refine congrArg Host.Outcome.next (if_pos ?_)
  rw [contests, decide_eq_true late]
  rfl

theorem vpCut_frame (s : State) : vpCut s = { s with vp := (vpCut s).vp } := by
  unfold vpCut
  split
  · rfl
  · split
    · extract_lets segEnd point
      split <;> rfl
    · rfl

/-- R148: a first cut order, of which nothing but the sound hears. -/
theorem orderCut_of_none {s : State} (uncut : s.fc.cutOrder = none) (e : CutEnd) :
    orderCut e s = { s with fc := { s.fc with cutOrder := some e }, vp := (orderCut e s).vp } := by
  have cut : orderCut e s = vpCut { s with fc := { s.fc with cutOrder := some e } } := by
    simp only [orderCut, uncut]
  rw [cut, vpCut_frame]

/-- R145: a claim that precedes orders the cut, whether or not it has been answered before. -/
theorem fcJudge_of_preceded {addr : Nat} {level : Level} {x : Utterance} {p : Time} {s : State}
    (speaking : s.fc.state = .speaking) (current : s.fc.utterance = some x) (start : s.fc.playStart = some p)
    (uncut : s.fc.cutOrder = none) (first : precedes level addr x.level s.ownAddress = true) :
    fcJudge addr level s = orderCut .giveBack s := by
  simp [fcJudge, speaking, current, start, uncut, first]

/-- R145: a claim that is preceded is answered, once. -/
theorem fcJudge_of_fresh {addr : Nat} {level : Level} {x : Utterance} {p : Time} {s : State}
    (speaking : s.fc.state = .speaking) (current : s.fc.utterance = some x) (start : s.fc.playStart = some p)
    (uncut : s.fc.cutOrder = none) (later : precedes level addr x.level s.ownAddress = false)
    (fresh : addr ∉ s.fc.reasserted) : fcJudge addr level s = fcReassert x p addr s := by
  rw [fcJudge_of_speaking speaking current start uncut fresh, later]
  rfl

/-- R145: a claimant that has been answered is not answered again. -/
theorem fcJudge_of_answered {addr : Nat} {level : Level} {x : Utterance} {p : Time} {s : State}
    (speaking : s.fc.state = .speaking) (current : s.fc.utterance = some x) (start : s.fc.playStart = some p)
    (uncut : s.fc.cutOrder = none) (later : precedes level addr x.level s.ownAddress = false)
    (answered : addr ∈ s.fc.reasserted) : fcJudge addr level s = s := by
  simp [fcJudge, speaking, current, start, uncut, later, answered]

/-- R146: the floor units of a re-assertion, at least 1 and, once the playback has begun, no more than the
utterance's own. -/
theorem reassertUnits_eq (x : Utterance) (p n : Nat) :
    reassertUnits x p n = max 1 ((p + x.units * clipUnit - n + (floorUnit - 1)) / floorUnit) := by
  rw [reassertUnits, ceilDiv, Nat.add_sub_assoc (by decide)]

theorem reassertUnits_le_floor {x : Utterance} {p n : Nat} (law : x.lawful) (begun : p ≤ n) :
    reassertUnits x p n ≤ x.floor := by
  have floor : x.floor = floorUnits x.units := law.2.2.2.1
  have low : 1 ≤ x.units := law.2.1
  rw [floor]
  simp only [reassertUnits, floorUnits, ceilDiv, clipUnit, floorUnit]
  have most : p + x.units * 240000 - n + 2400000 - 1 ≤ x.units * 240000 + 2399999 := by omega
  have whole : (x.units * 240000 + 2399999) / 2400000 = (x.units + 10 - 1) / 10 := by omega
  have least : 1 ≤ (x.units + 10 - 1) / 10 := by omega
  exact max_le least ((Nat.div_le_div_right most).trans_eq whole)

theorem mem_putBy_self {α : Type} (key : α → Nat) (x : α) (l : List α) : x ∈ putBy key x l := by
  induction l with
  | nil => exact List.mem_cons_self
  | cons y ys ih =>
    unfold putBy
    split_ifs
    · exact List.mem_cons_self
    · exact List.mem_cons_self
    · exact List.mem_cons_of_mem y ih

theorem mem_stand {fc : Floor} {e : ViewEntry} (mem : e ∈ fc.view) :
    { e with speaking := true } ∈ (fc.stand e.addr).view :=
  List.mem_map.2 ⟨e, mem, if_pos rfl⟩

/-- Settles O50. -/
theorem claimThatStandsIsJudged : Obligations.ClaimThatStandsIsJudged := by
  intro t p e x s a clock law mem contests late speaking current start uncut
  subst clock
  have unheard := outside_fcJudge e.addr e.level ((s.advance t).standing e.addr)
  have voices := voices_fcJudge e.addr e.level ((s.advance t).standing e.addr)
  refine ⟨_, exec_claimStands law mem contests (by rw [contestTime]; exact late), ?_,
    (congrArg (fun v => v.2.1) voices :).trans speaking, fun first => ?_, fun later fresh => ?_,
    fun later answered => ?_⟩
  · rw [(outside_view unheard :)]
    exact mem_stand mem
  · rw [fcJudge_of_preceded (s := (s.advance t).standing e.addr) speaking current start uncut first,
      orderCut_of_none (s := (s.advance t).standing e.addr) uncut]
    exact ⟨rfl, rfl, rfl⟩
  · rw [fcJudge_of_fresh (s := (s.advance t).standing e.addr) speaking current start uncut later fresh]
    exact ⟨uncut, mem_putBy_self _ _ _, rfl, reassertUnits x p (s.advance t).now, reassertUnits_eq _ _ _,
      le_max_left _ _, reassertUnits_le_floor, rfl⟩
  · rw [fcJudge_of_answered (s := (s.advance t).standing e.addr) speaking current start uncut later
      answered]
    exact ⟨uncut, rfl, rfl⟩

/-! ## A composition's result (R138, R139) -/

theorem exec_compositionEnd {t : Time} {w : Work} {r : Option Utterance} {s : State} (work : s.cp.work = some w)
    (stage : w.stage = .finished r) : exec (.compositionEnd t) s = .next (fcResult r (s.advance t)) := by
  simp only [exec, execCompositionEnd, advance_cp, work, Option.map_some, stage]

/-- R139: the floor is open to an utterance: nobody holds it, the line is free, and no RELEASE is pending or none is
needed. -/
theorem floorOpen_of_free {s : State} (l : Level) (view : s.fc.view = []) (crowded : s.fc.crowded = none)
    (line : s.lp.lineHeld = false) (claim : s.lp.mode = .solo ∨ s.fc.releasePending = false) :
    s.floorOpen l = true := by
  have mode : (s.lp.mode == .solo || !s.fc.releasePending) = true := by
    rcases claim with solo | settled
    · simp [solo]
    · simp [settled]
  simp [State.floorOpen, Floor.viewBelow, view, crowded, line, mode]

theorem floorOpen_of_pending {s : State} (l : Level) (normal : s.lp.mode = .normal)
    (pending : s.fc.releasePending = true) : s.floorOpen l = false := by
  simp [State.floorOpen, normal, pending]

section
variable {x : Utterance} {s : State} (waiting : s.fc.state = .waiting) (current : s.fc.utterance = some x)
include waiting current

theorem fcTest_of_normal (normal : s.lp.mode = .normal) :
    fcTest s = if s.floorOpen x.level then fcClaim x s else s := by
  unfold fcTest
  split
  next y _ is =>
    cases current.symm.trans is
    extract_lets z _ u
    have unlowered : z = x := if_neg (by simp [normal])
    have same : u = s := by
      show { s with fc := { s.fc with utterance := some z } } = s
      rw [unlowered, ← current]
    rw [same, unlowered]
    simp only [normal]
  next other => exact absurd current (other x waiting)

theorem fcTest_of_solo (solo : s.lp.mode = .solo)
    (free : { s with fc := { s.fc with utterance := some x.lower } }.floorOpen x.lower.level = true) :
    fcTest s = fcSpeak x.lower s.now { s with fc := { s.fc with utterance := some x.lower } } := by
  unfold fcTest
  split
  next y _ is =>
    cases current.symm.trans is
    extract_lets z _ u
    have lowered : z = x.lower := if_pos solo
    have opened : u.floorOpen z.level = true := by
      show { s with fc := { s.fc with utterance := some z } }.floorOpen z.level = true
      rw [lowered]
      exact free
    have mode : u.lp.mode = .solo := solo
    rw [if_pos opened]
    simp only [mode]
    show fcSpeak z s.now { s with fc := { s.fc with utterance := some z } } = _
    rw [lowered]
  next other => exact absurd current (other x waiting)

end

theorem Utterance.lower_eq (x : Utterance) : x.lower = if x.reach = .room then
    { x with reach := .loc, units := x.units - 60, floor := floorUnits (x.units - 60) } else x := by
  unfold Utterance.lower
  cases reach : x.reach <;> rfl

theorem Utterance.lower_reach (x : Utterance) : x.lower.reach = .loc := by
  unfold Utterance.lower
  cases reach : x.reach <;> simp [reach]

/-- R139: the CLAIM of an utterance joins an empty transmit queue. -/
theorem fcClaim_of_empty (x : Utterance) {s : State} (normal : s.lp.mode = .normal) (queue : s.lp.queue = [])
    (tx : s.lp.tx = none) : fcClaim x s = { s with
      lp := { s.lp with
        queue := [{ kind := .claim, bytes := buildFrame .claim s.ownAddress (claimPayload x.level x.reach x.floor),
                    reassert := false, attempts := 0 }] }
      fc := { s.fc with state := .claiming } } := by
  simp [fcClaim, LinePort.queueClaim, normal, LinePort.join, LinePort.listed, LinePort.transmitting, queue, tx]

/-- R138: the utterance of an item that may be said becomes current. -/
def State.composed (x : Utterance) (s : State) : State :=
  { s with
    cp := { s.cp with work := none }
    fc := { s.fc with state := .waiting, utterance := some x, reasserted := [], composed := some s.now,
                      swapped := none } }

theorem fcResult_some {it : Item} {s : State} (x : Utterance) (item : s.fc.item = some it)
    (unmarked : s.pq.marked = false) (fresh : it.expired s.now = false) (first : s.headBefore = false) :
    fcResult (some x) s = fcTest (s.composed x) := by
  unfold fcResult
  extract_lets _ u late
  have inTime : late = false := by
    show (match s.fc.item with | some q => s.pq.marked || q.expired s.now | none => true) = false
    rw [item]
    simp only [unmarked, fresh, Bool.or_false]
  have ahead : (s.composed x).headBefore = false := first
  show (if late = true then _ else if (s.composed x).headBefore = true then _ else fcTest (s.composed x)) = _
  rw [inTime, ahead]
  rfl

/-- R138: the composer is idle again once its result is taken. -/
def State.resulted (s : State) : State := { s with cp := { s.cp with work := none } }

/-- R138: EMPTY drops its item. -/
theorem fcResult_none {it : Item} {s : State} (item : s.fc.item = some it) (empty : s.pq.items = []) :
    fcResult none s = endItem .dropped s.resulted :=
  takeHead_of_empty ((endItem_items (s := s.resulted) item (e := .dropped) (by decide)).trans empty)

theorem lineHeld_of_normal {l : LinePort} (normal : l.mode = .normal) : l.lineHeld = false := by
  unfold LinePort.mode at normal
  split at normal
  · cases normal
  next clear =>
    cases held : l.lineHeld with
    | false => rfl
    | true => simp [held] at clear

/-- Settles O48. -/
theorem compositionReachesTheFloor : Obligations.CompositionReachesTheFloor := by
  refine ⟨fun t w it s a clock work stage idle item empty => ?_,
    fun t w it x s a clock work stage item unmarked fresh first => ⟨fun normal pending => ?_,
      fun solo view crowded line => ?_, fun normal settled view crowded queue tx => ?_⟩⟩
  · subst clock
    have frame := endItem_frame .dropped (s.advance t).resulted
    refine ⟨_, (exec_compositionEnd work stage).trans (congrArg _ (fcResult_none (s := s.advance t) item empty)),
      (congrArg State.fc frame :), (congrArg (fun u => u.cp.work) frame :),
      endItem_current (s := (s.advance t).resulted) item .dropped,
      (endItem_items (s := (s.advance t).resulted) item (e := .dropped) (by decide)).trans empty,
      endItem_last (s := (s.advance t).resulted) item .dropped,
      (congrArg State.lp frame :), (congrArg State.vp frame :)⟩
  · subst clock
    have waits : fcTest ((s.advance t).composed x) = (s.advance t).composed x := by
      rw [fcTest_of_normal (s := (s.advance t).composed x) rfl rfl normal,
        floorOpen_of_pending (s := (s.advance t).composed x) _ normal pending]
      rfl
    exact ⟨_, (exec_compositionEnd work stage).trans
      (congrArg _ ((fcResult_some (s := s.advance t) x item unmarked fresh first).trans waits)), rfl, rfl, rfl⟩
  · subst clock
    have speaks := fcTest_of_solo (x := x) (s := (s.advance t).composed x) rfl rfl solo
      (floorOpen_of_free (s := { (s.advance t).composed x with
        fc := { ((s.advance t).composed x).fc with utterance := some x.lower } }) _ view crowded line (.inl solo))
    obtain ⟨frame, stream, _, amp, _⟩ := fcSpeak_spec x.lower (s.advance t).now { (s.advance t).composed x with
      fc := { ((s.advance t).composed x).fc with utterance := some x.lower } }
    rw [if_neg (by simp [Utterance.lower_reach])] at stream
    refine ⟨_, x.lower, (exec_compositionEnd work stage).trans
      (congrArg _ ((fcResult_some (s := s.advance t) x item unmarked fresh first).trans speaks)), x.lower_eq,
      (congrArg State.fc frame :), (congrArg (fun u => u.cp.work) frame :), (congrArg State.lp frame :), stream, amp⟩
  · subst clock
    have claims : fcTest ((s.advance t).composed x) = fcClaim x ((s.advance t).composed x) := by
      rw [fcTest_of_normal (s := (s.advance t).composed x) rfl rfl normal,
        floorOpen_of_free (s := (s.advance t).composed x) _ view crowded (lineHeld_of_normal normal) (.inr settled)]
      rfl
    rw [fcClaim_of_empty x (s := (s.advance t).composed x) normal queue tx] at claims
    exact ⟨_, (exec_compositionEnd work stage).trans
      (congrArg _ ((fcResult_some (s := s.advance t) x item unmarked fresh first).trans claims)), rfl, rfl, rfl⟩

end Sys2Proof.Machine
end

