-- ==== Sys2Proof/Proofs/Endings.lean ====
section
/-! PROOFS. A sound ends (R101, R147 to R149, R155): what each end makes of its item's series, the floor given up, and the
three commands that bring an end. -/

namespace Sys2Proof.Machine

/-! ## What an end makes of the series (R104, R105, R109) -/

theorem classKey_of_seriesOf {c : PromptClass} {r : Series} (of : seriesOf c = some r) : classKey c = seriesKey r := by
  revert of
  cases c <;> intro of <;> cases of <;> rfl

section
variable {c : PromptClass} {r : Series} (of : seriesOf c = some r) (n : Time) (q : PromptQueue)
include of

/-- R104: a saying below the limit runs the timer again. -/
theorem advanceSeries_below (below : (q.series r).count + 1 < seriesLimit r) :
    advanceSeries c n q = q.setSeries r { timer := some (n + seriesInterval r), count := (q.series r).count + 1 } := by
  have more : ¬ seriesLimit r ≤ (q.series r).count := by omega
  simp only [advanceSeries, of, more, below, if_false, if_true]

/-- R104, R105: the last saying stops the series; that of the first ACTION stage begins the second. -/
theorem advanceSeries_last (last : (q.series r).count + 1 = seriesLimit r) :
    (advanceSeries c n q).series r = { timer := none, count := (q.series r).count + 1 } ∧
      (r = .actionFirst → (advanceSeries c n q).actionSecond =
        { timer := some (n + seriesInterval .actionSecond), count := 0 }) := by
  have more : ¬ seriesLimit r ≤ (q.series r).count := by omega
  have over' : ¬ (q.series r).count + 1 < seriesLimit r := by omega
  simp only [advanceSeries, of, more, over', if_false]
  split
  next first =>
    subst first
    exact ⟨rfl, fun _ => rfl⟩
  next other => exact ⟨setSeries_series _ _ _, fun first => absurd first other⟩

/-- R104: a series at its limit rests. -/
theorem advanceSeries_rests (rests : seriesLimit r ≤ (q.series r).count) : advanceSeries c n q = q := by
  simp only [advanceSeries, of, rests, if_true]

/-- R109: an item that leaves unsaid, with none of its class queued or current, starts its stopped series again. -/
theorem leaveUnsaid_series {s : State} (uncurrent : s.pq.isCurrent c = false) :
    (leaveUnsaid c s).pq.series r =
      if s.holds (seriesKey r) = true ∧ s.pq.queued c = false ∧ (s.pq.series r).timer = none ∧
        (s.pq.series r).count < seriesLimit r
      then { s.pq.series r with timer := some (s.now + seriesInterval r) } else s.pq.series r := by
  have key := classKey_of_seriesOf of
  by_cases below : (s.pq.series r).count < seriesLimit r
  · simp only [leaveUnsaid, retrySeries, of, below, if_true, key, uncurrent]
    by_cases may : s.holds (seriesKey r) = true ∧ s.pq.queued c = false ∧ (s.pq.series r).timer = none
    · obtain ⟨holds, unqueued, stopped⟩ := may
      simp [holds, unqueued, stopped]
    · rw [if_neg (by simpa [and_assoc] using may), if_neg (by tauto)]
  · simp only [leaveUnsaid, retrySeries, of, below, if_false, and_false]

end

/-- R104: a SAID of CYCLE_DONE begins the UNLOAD series, if it is stopped at count 0. -/
theorem advanceSeries_cycleDone (n : Time) (q : PromptQueue) :
    (advanceSeries .cycleDone n q).unload = if q.unload = { timer := none, count := 0 } then
      { timer := some (n + seriesInterval .unload), count := 0 } else q.unload := by
  simp only [advanceSeries, seriesOf]
  cases unload : q.unload with
  | mk timer count =>
    by_cases stopped : timer = none ∧ count = 0
    · obtain ⟨rfl, rfl⟩ := stopped
      simp
    · rw [if_neg (by simpa [and_comm] using stopped), if_neg (by simpa using stopped)]
      exact unload

/-- R101, R111: the prompt queue as it is said that its item was heard. -/
def PromptQueue.heard (it : Item) (q : PromptQueue) : PromptQueue :=
  { q with current := none, last := some { cls := it.cls, params := it.params, reach := it.reach } }

theorem heard_series (it : Item) (q : PromptQueue) (r : Series) : (q.heard it).series r = q.series r := by
  cases r <;> rfl

theorem uncurrent_series (q : PromptQueue) (r : Series) : { q with current := none }.series r = q.series r := by
  cases r <;> rfl

section
variable {it : Item} {s : State} (item : s.fc.item = some it)
include item

theorem endItem_said_pq : (endItem .said s).pq =
    if s.holds (classKey it.cls) then advanceSeries it.cls s.now (s.pq.heard it) else s.pq.heard it := by
  rw [endItem_said item]
  unfold saidSeries
  exact apply_ite State.pq _ _ _

/-- R104, R105: what a SAID makes of the series of its class. -/
theorem endItem_said_series {v : Series} (of : seriesOf it.cls = some v) :
    (s.holds (seriesKey v) = true → (s.pq.series v).count + 1 < seriesLimit v →
      (endItem .said s).pq.series v =
        { timer := some (s.now + seriesInterval v), count := (s.pq.series v).count + 1 }) ∧
    (s.holds (seriesKey v) = true → (s.pq.series v).count + 1 = seriesLimit v →
      (endItem .said s).pq.series v = { timer := none, count := (s.pq.series v).count + 1 } ∧
      (v = .actionFirst → (endItem .said s).pq.actionSecond =
        { timer := some (s.now + seriesInterval .actionSecond), count := 0 })) ∧
    (s.holds (seriesKey v) = false ∨ seriesLimit v ≤ (s.pq.series v).count →
      (endItem .said s).pq.series v = s.pq.series v) := by
  have key := classKey_of_seriesOf of
  have same := heard_series it s.pq v
  rw [endItem_said_pq item, key]
  refine ⟨fun holds below => ?_, fun holds last => ?_, fun rests => ?_⟩
  · rw [if_pos holds, advanceSeries_below of _ _ (by rw [same]; exact below), setSeries_series, same]
  · have spec := advanceSeries_last of s.now (s.pq.heard it) (by rw [same]; exact last)
    rw [same] at spec
    rw [if_pos holds]
    exact spec
  · split
    next holds =>
      have most := rests.resolve_left (by simp [holds])
      rw [advanceSeries_rests of _ _ (by rw [same]; exact most), same]
    next => exact same

theorem endItem_said_cycleDone (done : it.cls = .cycleDone) : (endItem .said s).pq.unload =
    if s.holds .done = true ∧ s.pq.unload = { timer := none, count := 0 } then
      { timer := some (s.now + seriesInterval .unload), count := 0 } else s.pq.unload := by
  have key : classKey it.cls = .done := by rw [done]; rfl
  rw [endItem_said_pq item, key]
  by_cases holds : s.holds .done = true
  · rw [if_pos holds, done, advanceSeries_cycleDone]
    simp only [holds, true_and]
    rfl
  · rw [if_neg holds, if_neg fun both => holds both.1]
    rfl

/-- R109: what a DROPPED makes of the series of its class. -/
theorem endItem_dropped_series {v : Series} (of : seriesOf it.cls = some v) : (endItem .dropped s).pq.series v =
    if s.pq.marked = false ∧ s.holds (seriesKey v) = true ∧ s.pq.queued it.cls = false ∧
      (s.pq.series v).timer = none ∧ (s.pq.series v).count < seriesLimit v
    then { s.pq.series v with timer := some (s.now + seriesInterval v) } else s.pq.series v := by
  have same := uncurrent_series s.pq v
  rw [endItem_dropped item]
  split
  next marked => rw [if_neg (by simp [marked])]; exact same
  next unmarked =>
    rw [leaveUnsaid_series of (s := { s with pq := { s.pq with current := none }, fc := { s.fc with item := none } }) rfl]
    have free : s.pq.marked = false := Bool.eq_false_iff.2 unmarked
    simp only [free, true_and]
    rw [same]
    rfl

end

/-- R100: an item that is given back stands in the queue again, where there is room and none of its class. -/
theorem returnItem_of_room {it : Item} {s : State} (unqueued : s.pq.queued it.cls = false)
    (fresh : it.expired s.now = false) (room : s.pq.items.length < 8) : returnItem it s = { s with
      pq := { s.pq with
        items := putBy Item.rank { it with machines := none, reach := s.hushed it.cls it.reach } s.pq.items } } := by
  unfold returnItem
  extract_lets back
  have may : (back.expired s.now || s.pq.queued back.cls) = false := by
    show (it.expired s.now || s.pq.queued it.cls) = false
    rw [fresh, unqueued]
    rfl
  rw [may, if_neg Bool.false_ne_true, placeNew_of_room room]

theorem endItem_returned_items {it : Item} {s : State} (item : s.fc.item = some it)
    (unqueued : s.pq.queued it.cls = false) (fresh : it.expired s.now = false) (room : s.pq.items.length < 8) :
    (endItem .returned s).pq.items =
      putBy Item.rank { it with machines := none, reach := s.hushed it.cls it.reach } s.pq.items := by
  rw [endItem_returned item]
  exact congrArg (fun u => u.pq.items) (returnItem_of_room (s := { s with
    pq := { s.pq with current := none }, fc := { s.fc with item := none } }) unqueued fresh room)

/-! ## The floor given up (R149, R150) -/

theorem listed_remove_self (l : LinePort) (k : FrameKind) : (l.remove k).listed k = false := by
  simp [LinePort.remove, LinePort.listed]

theorem listed_remove_other (l : LinePort) {k j : FrameKind} (other : j ≠ k) : (l.remove k).listed j = l.listed j := by
  simp only [LinePort.remove, LinePort.listed]
  rw [Bool.eq_iff_iff, List.any_eq_true, List.any_eq_true]
  refine ⟨fun ⟨p, mem, is⟩ => ⟨p, List.mem_of_mem_filter mem, is⟩, fun ⟨p, mem, is⟩ => ⟨p, ?_, is⟩⟩
  refine List.mem_filter.2 ⟨mem, ?_⟩
  rw [eq_of_beq is]
  exact bne_iff_ne.2 other

/-- R10: with its CLAIM out, a station's RELEASE is in the list and gets no answer at once. -/
theorem queueRelease_of_claimed {l : LinePort} (f : List Byte) (clear : l.clash = false) (out : l.claimOut = true) :
    (l.queueRelease f).2 = none ∧ (l.queueRelease f).1.listed .release = true := by
  have out' : (l.removeUnsent .claim).claimOut = true :=
    (congrArg LinePort.claimOut (settled_removeUnsent l .claim) :).trans out
  unfold LinePort.queueRelease
  rw [if_neg (ne_true_of_eq_false clear)]
  extract_lets rest
  split
  next listed => exact ⟨rfl, listed⟩
  next =>
    have claimed : (rest.claimOut || rest.transmitting .claim) = true := Bool.or_eq_true_iff.2 (.inl out')
    rw [if_pos claimed]
    refine ⟨rfl, ?_⟩
    simp [LinePort.listed]

/-- R141: the RELEASE of a station whose CLAIM is out is pending, and no CLAIM of its own stays in the list. -/
theorem fcRelease_of_claimed {s : State} (clear : s.lp.clash = false) (out : s.lp.claimOut = true) :
    fcRelease s = { s with lp := (fcRelease s).lp, fc := { s.fc with releasePending := true } } ∧
      (fcRelease s).lp.listed .release = true ∧ (fcRelease s).lp.listed .claim = false := by
  obtain ⟨answer, listed⟩ := queueRelease_of_claimed (buildFrame .release s.ownAddress []) clear out
  refine ⟨?_, (listed_remove_other _ (by decide)).trans listed, listed_remove_self _ _⟩
  simp only [fcRelease, answer]
  rfl

/-- R149: the floor controller in ENDING, before it gives up the floor. -/
def State.quitting (s : State) : State :=
  { s with fc := { s.fc with state := .ending, utterance := none, playStart := none, contestEnd := none,
                             reasserted := [], cutOrder := none } }

theorem enterEnding_eq (s : State) : enterEnding s =
    (let u := if s.fc.releasePending then s.quitting else fcRelease s.quitting
     if !u.fc.releasePending || u.lp.mode == .solo then enterSpacing u else u) := rfl

/-- R149: a station that claimed, in NORMAL mode, awaits the report of its RELEASE in ENDING. -/
theorem enterEnding_of_claimed {s : State} (normal : s.lp.mode = .normal) (out : s.lp.claimOut = true)
    (settled : s.fc.releasePending = false) :
    enterEnding s = { s with
      lp := (enterEnding s).lp
      fc := { s.fc with state := .ending, utterance := none, playStart := none, contestEnd := none, reasserted := [],
                        cutOrder := none, releasePending := true } } ∧
    (enterEnding s).lp.listed .release = true ∧ (enterEnding s).lp.listed .claim = false := by
  obtain ⟨frame, release, claim⟩ := fcRelease_of_claimed (s := s.quitting) (clash_mode _ normal) out
  have pending : (fcRelease s.quitting).fc.releasePending = true := by rw [frame]
  have mode : (fcRelease s.quitting).lp.mode = .normal :=
    (mode_of_settled (outside_lp_settled (outside_fcRelease s.quitting))).trans normal
  have waits : enterEnding s = fcRelease s.quitting := by
    rw [enterEnding_eq, settled, if_neg Bool.false_ne_true]
    dsimp only
    rw [pending, mode]
    rfl
  rw [waits]
  exact ⟨frame, release, claim⟩

/-- R150: SPACING follows, unless the head of the queue is URGENT. -/
theorem enterSpacing_of_routine {s : State}
    (routine : ∀ h rest, s.pq.items = h :: rest → classLevel h.cls = .routine) :
    enterSpacing s = { s with fc := { s.fc with state := .spacing, spacing := some (s.now + spacingTime) } } := by
  unfold enterSpacing
  extract_lets urgent
  have calm : urgent = false := by
    show (match s.pq.items with | it :: _ => classLevel it.cls == .urgent | [] => false) = false
    cases items : s.pq.items with
    | nil => rfl
    | cons h rest => simp [routine h rest items]
  rw [calm]
  rfl

/-! ## The commands that end a sound (R147, R148, R158 to R160) -/

/-- R155, R158: the stream channel is silent, with nothing buffered and nothing to fetch. -/
theorem vpStop_spec (s : State) : vpStop s = { s with vp := (vpStop s).vp } ∧ (vpStop s).vp.stream = none ∧
    (vpStop s).vp.buffer = [] ∧ (vpStop s).vp.fetch = none :=
  ⟨rfl, ampIdle_stream _ _, ampIdle_buffer _ _, ampIdle_fetch _ _⟩

theorem exec_utterancePlayedWhole {t : Time} {st : Stream} {s : State} (stream : s.vp.stream = some st)
    (uncut : st.early = none) (whole : st.wholeAt ≤ (s.advance t).now) :
    exec (.utterancePlayedWhole t) s = .next (soundOver .said (s.advance t)) := by
  simp only [exec, execUtterancePlayedWhole, advance_vp, stream, uncut, Option.isNone_none, Bool.true_and]
  exact congrArg Host.Outcome.next (if_pos (decide_eq_true whole))

theorem exec_cutComplete {t : Time} {st : Stream} {e : EarlyEnd} {s : State} (stream : s.vp.stream = some st)
    (cut : st.early = some e) (soft : e.hard = false) (faded : e.point + fadeTime ≤ (s.advance t).now) :
    exec (.cutComplete t) s = .next (soundOver (cutItemEnd s.fc.cutOrder) (s.advance t)) := by
  have done : st.cutOver (s.advance t).now = true := by
    simp only [Stream.cutOver, cut, soft, Bool.not_false, Bool.true_and]
    exact decide_eq_true faded
  simp only [exec, execCutComplete, advance_vp, stream]
  exact congrArg Host.Outcome.next (if_pos done)

theorem exec_hardStop {t h : Time} {st : Stream} {s : State} (stream : s.vp.stream = some st)
    (stop : st.hardStop = some h) (late : h ≤ (s.advance t).now) :
    exec (.hardStop t) s = .next (soundOver .dropped (s.advance t)) := by
  simp only [exec, execHardStop, advance_vp, stream]
  exact congrArg Host.Outcome.next (if_pos (due_of_le stop late))

/-- R101: which end of the item a command brings. -/
def EndsAs (t : Time) (order : Option CutEnd) (i : Instr) (e : ItemEnd) : Prop :=
  i = .utterancePlayedWhole t ∧ e = .said ∨ i = .cutComplete t ∧ e = cutItemEnd order ∨ i = .hardStop t ∧ e = .dropped

section
variable {t : Time} {order : Option CutEnd} {i : Instr} {e : ItemEnd} (ends : EndsAs t order i e)
include ends

theorem EndsAs.said_iff : e = .said ↔ i = .utterancePlayedWhole t := by
  rcases ends with ⟨rfl, rfl⟩ | ⟨rfl, rfl⟩ | ⟨rfl, rfl⟩
  · simp
  · cases order with
    | none => simp [cutItemEnd]
    | some x => cases x <;> simp [cutItemEnd]
  · simp

theorem EndsAs.returned_iff : e = .returned ↔ i = .cutComplete t ∧ order = some .giveBack := by
  rcases ends with ⟨rfl, rfl⟩ | ⟨rfl, rfl⟩ | ⟨rfl, rfl⟩
  · simp
  · cases order with
    | none => simp [cutItemEnd]
    | some x => cases x <;> simp [cutItemEnd]
  · simp

theorem EndsAs.dropped (drops : i = .hardStop t ∨ i = .cutComplete t ∧ order ≠ some .giveBack) : e = .dropped := by
  cases e with
  | dropped => rfl
  | said =>
    have whole := ends.said_iff.1 rfl
    rcases drops with rfl | ⟨rfl, _⟩ <;> cases whole
  | returned =>
    obtain ⟨cut, back⟩ := ends.returned_iff.1 rfl
    rcases drops with rfl | ⟨_, kept⟩
    · cases cut
    · exact absurd back kept

end

/-- R101, R149, R155: the end of a sound, of a station that claimed and speaks in NORMAL mode. -/
theorem soundOver_of_claimed (e : ItemEnd) {s : State} (speech : s.psp.tonesOnly = false) (normal : s.lp.mode = .normal)
    (out : s.lp.claimOut = true) (settled : s.fc.releasePending = false) :
    soundOver e s = { s with
      vp := (vpStop s).vp, pq := (endItem e (vpStop s)).pq, lp := (soundOver e s).lp
      fc := { s.fc with state := .ending, item := none, utterance := none, playStart := none, contestEnd := none,
                        reasserted := [], cutOrder := none, releasePending := true } } ∧
    (soundOver e s).lp.listed .release = true ∧ (soundOver e s).lp.listed .claim = false := by
  have frame := endItem_frame e (vpStop s)
  have ending : soundOver e s = enterEnding (endItem e (vpStop s)) := by
    refine if_neg (ne_true_of_eq_false ?_)
    rw [frame]
    exact speech
  have spec := enterEnding_of_claimed (s := endItem e (vpStop s)) (by rw [frame]; exact normal)
    (by rw [frame]; exact out) (by rw [frame]; exact settled)
  rw [← ending] at spec
  obtain ⟨whole, release, claim⟩ := spec
  refine ⟨?_, release, claim⟩
  rw [whole, frame]
  rfl

/-- R101, R151: the end of a rendering, of which the line port hears nothing. -/
theorem soundOver_of_tones {e : ItemEnd} {it : Item} {s : State} (item : s.fc.item = some it) (kept : e ≠ .returned)
    (tones : s.psp.tonesOnly = true) (routine : ∀ h rest, s.pq.items = h :: rest → classLevel h.cls = .routine) :
    soundOver e s = { s with
      vp := (vpStop s).vp, pq := (endItem e (vpStop s)).pq
      fc := { s.fc with state := .spacing, spacing := some (s.now + spacingTime), item := none, utterance := none,
                        playStart := none, cutOrder := none } } := by
  have frame := endItem_frame e (vpStop s)
  have items : (endItem e (vpStop s)).pq.items = s.pq.items := endItem_items (s := vpStop s) item kept
  have spacing : soundOver e s = enterSpacing { endItem e (vpStop s) with
      fc := { (endItem e (vpStop s)).fc with cutOrder := none, utterance := none, playStart := none } } := by
    refine if_pos ?_
    rw [frame]
    exact tones
  rw [spacing, enterSpacing_of_routine (s := { endItem e (vpStop s) with
      fc := { (endItem e (vpStop s)).fc with cutOrder := none, utterance := none, playStart := none } })
    (fun h rest head => routine h rest (items.symm.trans head)), frame]
  rfl

theorem exec_soundEnd {t : Time} {st : Stream} {i : Instr} {s : State} (stream : s.vp.stream = some st)
    (cause : i = .utterancePlayedWhole t ∧ st.early = none ∧ st.wholeAt ≤ (s.advance t).now ∨
      i = .cutComplete t ∧ (∃ e, st.early = some e ∧ e.hard = false ∧ e.point + fadeTime ≤ (s.advance t).now) ∨
      i = .hardStop t ∧ (∃ h, st.hardStop = some h ∧ h ≤ (s.advance t).now)) :
    ∃ e, exec i s = .next (soundOver e (s.advance t)) ∧ EndsAs t s.fc.cutOrder i e := by
  rcases cause with ⟨rfl, uncut, whole⟩ | ⟨rfl, e, cut, soft, faded⟩ | ⟨rfl, h, stop, late⟩
  · exact ⟨_, exec_utterancePlayedWhole stream uncut whole, .inl ⟨rfl, rfl⟩⟩
  · exact ⟨_, exec_cutComplete stream cut soft faded, .inr (.inl ⟨rfl, rfl⟩)⟩
  · exact ⟨_, exec_hardStop stream stop late, .inr (.inr ⟨rfl, rfl⟩)⟩

theorem said_if_played {t : Time} {order : Option CutEnd} {i : Instr} {e : ItemEnd} (ends : EndsAs t order i e)
    {α : Type} (x y : α) : (if e = .said then x else y) = if i = .utterancePlayedWhole t then x else y :=
  if_congr ends.said_iff rfl rfl

/-- Settles O52. -/
theorem soundEndsInEnding : Obligations.SoundEndsInEnding := by
  refine ⟨fun t st it i s a clock stream item speech normal out settled cause => ?_,
    fun v => ⟨by cases v <;> rfl, by cases v <;> rfl⟩,
    fun t st it i s a clock stream item tones kept routine cause => ?_⟩
  · subst clock
    obtain ⟨e, ran, ends⟩ := exec_soundEnd stream (by rw [fadeTime]; exact cause)
    obtain ⟨frame, release, claim⟩ := soundOver_of_claimed e (s := s.advance t) speech normal out settled
    obtain ⟨_, silent, buffer, fetch⟩ := vpStop_spec (s.advance t)
    have pq : (soundOver e (s.advance t)).pq = (endItem e (vpStop (s.advance t))).pq := (congrArg State.pq frame :)
    have vp : (soundOver e (s.advance t)).vp = (vpStop (s.advance t)).vp := (congrArg State.vp frame :)
    refine ⟨_, ran, ?_, ?_, ?_, ?_, ?_, ?_, ?_, ?_, ?_, release, claim, ?_, ?_, ?_, ?_, ?_, ?_, ?_⟩
    · rw [vp, silent]
    · rw [vp, buffer]
    · rw [vp, fetch]
    · rw [frame]
    · rw [frame]
    · rw [frame]
    · rw [frame]
    · rw [frame]
    · rw [frame]
    · rw [pq]
      exact endItem_current (s := vpStop (s.advance t)) item e
    · rw [pq, endItem_last (s := vpStop (s.advance t)) item e]
      exact said_if_played ends _ _
    · intro cut back unqueued fresh room
      rw [pq, ends.returned_iff.2 ⟨cut, back⟩]
      exact endItem_returned_items (s := vpStop (s.advance t)) item unqueued fresh room
    · intro other
      rw [pq]
      refine endItem_items (s := vpStop (s.advance t)) item fun returned => ?_
      obtain ⟨cut, back⟩ := ends.returned_iff.1 returned
      exact other.elim (· cut) (· back)
    · intro v x whole of eq
      subst eq
      rw [pq, ends.said_iff.2 whole]
      exact endItem_said_series (s := vpStop (s.advance t)) item of
    · intro whole done
      rw [pq, ends.said_iff.2 whole]
      exact endItem_said_cycleDone (s := vpStop (s.advance t)) item done
    · intro v x drops of eq
      subst eq
      rw [pq, ends.dropped drops]
      exact endItem_dropped_series (s := vpStop (s.advance t)) item of
  · subst clock
    obtain ⟨e, ran, ends⟩ := exec_soundEnd stream (by rw [fadeTime]; exact cause.imp_right Or.inl)
    have returned : e ≠ .returned := fun is => kept (ends.returned_iff.1 is).2
    have frame := soundOver_of_tones (s := s.advance t) item returned tones routine
    refine ⟨_, ran, ?_, ?_, ?_, ?_, ?_, ?_⟩
    · rw [frame]
      exact (vpStop_spec _).2.1
    · rw [frame]
      rfl
    · rw [frame]
      exact endItem_items (s := vpStop (s.advance t)) item returned
    · rw [frame]
      exact endItem_current (s := vpStop (s.advance t)) item e
    · rw [frame]
      rfl
    · rw [frame]
      exact (endItem_last (s := vpStop (s.advance t)) item e).trans (said_if_played ends _ _)

end Sys2Proof.Machine
end

