-- ==== Sys2Proof/Proofs/Samples.lean ====
section
/-! PROOFS. The voice player's samples: the length of a sound against its hard stop (R129, R158 to R160), the value of a
sample period (R153, R154, R157), and the samples of a refill (R155, R156). -/

namespace Sys2Proof.Machine

/-! ## A sound is over before its hard stop (R129, R158 to R160) -/

theorem segsLength_append (l m : List (Seg × Nat)) : segsLength (l ++ m) = segsLength l + segsLength m := by
  simp [segsLength]

theorem segsLength_openingSegs (r : Reach) : segsLength (openingSegs r) = samplesPerUnit * openingUnits r := by
  cases r <;> rfl

theorem entrySeg_length (i : Nat) (e : Entry) : (entrySeg i e).2 = samplesPerUnit * e.len := by
  cases e <;> rfl

/-- R127, R158: the entries with the gaps between them. -/
theorem segsLength_entrySegs (gap i : Nat) (es : List Entry) :
    segsLength (entrySegs gap i es) = samplesPerUnit * ((es.map Entry.len).sum + gap * (es.length - 1)) := by
  induction es generalizing i with
  | nil => rfl
  | cons e es ih =>
    cases es with
    | nil => simp [entrySegs, segsLength, entrySeg_length]
    | cons f rest =>
      have step : segsLength (entrySegs gap i (e :: f :: rest)) =
          (entrySeg i e).2 + (samplesPerUnit * gap + segsLength (entrySegs gap (i + 1) (f :: rest))) := rfl
      rw [step, ih, entrySeg_length]
      simp only [List.map_cons, List.sum_cons, List.length_cons, Nat.add_sub_cancel]
      ring

theorem segsLength_utterance (x : Utterance) :
    segsLength (Sound.utterance x).segs = samplesPerUnit * utteranceUnits x.reach x.gap x.entries := by
  show segsLength (openingSegs x.reach ++ entrySegs x.gap 0 x.entries) = _
  rw [segsLength_append, segsLength_openingSegs, segsLength_entrySegs, utteranceUnits]
  ring

/-- R129, R158: a lawful utterance is whole within its floor units. -/
theorem segsLength_le_floor {x : Utterance} (law : x.lawful) :
    segsLength (Sound.utterance x).segs * samplePeriod ≤ x.floor * floorUnit := by
  obtain ⟨units, _, _, floor, _⟩ := law
  rw [segsLength_utterance, ← units, floor]
  simp only [floorUnits, ceilDiv, samplesPerUnit, samplePeriod, floorUnit]
  omega

/-- R159: a cut that is ordered has its point before the sound would be whole. -/
theorem vpCut_cases {s : State} {st : Stream} (stream : s.vp.stream = some st) : vpCut s = s ∨
    ∃ e, e.point < st.wholeAt ∧
      vpCut s = { s with vp := { s.vp with stream := some { st with early := some e } } } := by
  unfold vpCut
  split
  next silent => cases stream.symm.trans silent
  next st' is =>
    cases stream.symm.trans is
    split
    next seg off last early found =>
      extract_lets segEnd point
      split
      next before => exact .inr ⟨_, before, rfl⟩
      next => exact .inl rfl
    next => exact .inl rfl

/-- R159, R160: a fade that begins before the sound is whole is over 180 ms before the hard stop. -/
theorem faded_before_stop {point start length floor : Nat} (before : point < start + length) (fits : length ≤ floor) :
    point + fadeTime + 180 * milli ≤ start + floor + hardStopGrace := by
  simp only [fadeTime, hardStopGrace, milli]
  omega

/-- Settles O54. -/
theorem soundEndsBeforeTheHardStop : Obligations.SoundEndsBeforeTheHardStop := by
  intro x start s law
  obtain ⟨_, stream, _⟩ := vpPlay_spec x start s
  have fits := segsLength_le_floor law
  refine ⟨_, _, stream, rfl, Nat.add_le_add_right (Nat.add_le_add_left fits start) _,
    fun n v st' begun before playing moment cut e early => ?_⟩
  rcases vpCut_cases playing with same | ⟨e', point, is⟩
  · rw [same] at cut
    cases playing.symm.trans cut
    cases early
  · rw [is] at cut
    cases cut
    cases early
    exact faded_before_stop point fits

/-! ## The value of a period (R153, R154, R157) -/

theorem exec_samplePeriod {t : Time} {d : List Byte} {s : State} (out : s.psp.phase ≠ .held)
    (fresh : s.vp.newPeriod (s.advance t).now = true) :
    exec (.samplePeriod { moment := t, bytes := d }) s = .next (vpSample d (s.advance t)) := by
  refine congrArg Host.Outcome.next (if_pos ?_)
  show (s.psp.phase != .held && s.vp.newPeriod (s.advance t).now) = true
  rw [fresh, bne_iff_ne.2 out]
  rfl

theorem clampSample_bounds (v : Int) : -128 ≤ clampSample v ∧ clampSample v ≤ 127 := by
  unfold clampSample
  omega

/-- R153: what is presented in a period: the sum of the two channels, clamped. -/
theorem vpSample_presents (d : List Byte) (s : State) : (vpSample d s).vp.periodStart = some s.now ∧
    (vpSample d s).vp.aout =
      clampSample ((streamValue (s.vp.receive d s.arrivals) s.now).2 + toneValue (s.vp.receive d s.arrivals) s.now) ∧
    (vpSample d s).vp.buffer = (streamValue (s.vp.receive d s.arrivals) s.now).1.buffer := by
  unfold vpSample
  extract_lets v r
  rw [vpRefill_frame]
  exact ⟨rfl, rfl, rfl⟩

theorem streamValue_of_silent {v : VoicePlayer} (silent : v.stream = none) (n : Time) : streamValue v n = (v, 0) := by
  simp only [streamValue, silent]

theorem toneValue_of_tone {v w : VoicePlayer} (same : v.tone = w.tone) (n : Time) : toneValue v n = toneValue w n := by
  simp only [toneValue, same]

theorem toneValue_of_silent {v : VoicePlayer} (silent : v.tone = none) (n : Time) : toneValue v n = 0 := by
  simp only [toneValue, silent]

theorem square_click (k : Nat) : square 2000 k = if k % 4 < 2 then 96 else -96 := by
  have half : k * 2000 % 8000 < 4000 ↔ k % 4 < 2 := by omega
  simp only [square, half]

theorem applyGain_neg (v : Int) (g : Nat) : applyGain (-v) g = -applyGain v g := by
  simp only [applyGain, neg_mul, Int.neg_tdiv]

/-- R157: sample `k` of a click. -/
theorem toneValue_click {v : VoicePlayer} {g : Nat} {b : Time} {k : Nat}
    (click : v.tone = some { kind := .click, gain := g, start := b }) (short : k < 40) :
    toneValue v (b + k * samplePeriod) =
      if k % 4 < 2 then applyGain 96 g else -applyGain 96 g := by
  have place : (b + k * samplePeriod - b) / samplePeriod = k := by
    rw [Nat.add_sub_cancel_left, Nat.mul_div_cancel _ (by decide)]
  have within : k < toneSamples .click := short
  simp only [toneValue, click, place, within, if_true]
  rw [← applyGain_neg]
  show applyGain (square 2000 k) g = _
  rw [square_click]
  exact apply_ite (applyGain · g) _ _ _

theorem applyGain_96_bounds {g : Nat} (step : g ≤ 15) : 0 ≤ applyGain 96 g ∧ applyGain 96 g ≤ 96 := by
  have whole : (96 * (g : Int)).tdiv 15 = 96 * (g : Int) / 15 := Int.tdiv_eq_ediv_of_nonneg (by omega)
  simp only [applyGain, whole]
  omega

theorem clampSample_click {g : Nat} (step : g ≤ 15) (k : Nat) :
    clampSample (0 + if k % 4 < 2 then applyGain 96 g else -applyGain 96 g) =
      if k % 4 < 2 then (96 * g : Int).tdiv 15 else -((96 * g : Int).tdiv 15) := by
  have bounds := applyGain_96_bounds step
  simp only [applyGain] at bounds ⊢
  simp only [clampSample]
  split <;> omega

theorem receive_of_discarded {v : VoicePlayer} (over' : ∀ r, v.refill = some r → r.discard = true) (d : List Byte)
    (k : Nat) : (v.receive d k).buffer = v.buffer := by
  unfold VoicePlayer.receive
  split
  next r refill => simp [over' r refill]
  next => rfl

/-- Settles O57. -/
theorem sampleIsPresented : Obligations.SampleIsPresented := by
  intro t d s a clock out fresh
  subst clock
  obtain ⟨period, value, buffer⟩ := vpSample_presents d (s.advance t)
  have silentStream (silent : s.vp.stream = none) :
      streamValue ((s.advance t).vp.receive d (s.advance t).arrivals) (s.advance t).now =
        ((s.advance t).vp.receive d (s.advance t).arrivals, 0) :=
    streamValue_of_silent ((receive_stream _ _ _).trans silent) _
  refine ⟨_, exec_samplePeriod out fresh, period, ?_, ?_, fun silent toneless => ?_,
    fun g b k silent click step short moment => ?_, fun silent discarded => ?_⟩
  · rw [value]
    exact (clampSample_bounds _).1
  · rw [value]
    exact (clampSample_bounds _).2
  · rw [value, silentStream silent, 
      toneValue_of_silent (v := (s.advance t).vp.receive d _) ((receive_tone _ _ _).trans toneless)]
    rfl
  · rw [value, silentStream silent, moment,
      toneValue_click (v := (s.advance t).vp.receive d _) ((receive_tone _ _ _).trans click) short]
    exact clampSample_click step k
  · rw [buffer, silentStream silent]
    exact receive_of_discarded (v := (s.advance t).vp) discarded _ _

/-! ## The samples of a refill (R155, R156, R180) -/

/-- R156: what comes later in an entry than a place that has not passed has not passed either. -/
theorem not_before_of_later {p q : SamplePlace} (here : p.before q = false) (k : Nat) :
    ({ entry := p.entry, offset := p.offset + k } : SamplePlace).before q = false := by
  simp only [SamplePlace.before, Bool.or_eq_false_iff, Bool.and_eq_false_iff, decide_eq_false_iff_not, not_lt,
    beq_eq_false_iff_ne] at here ⊢
  exact here.imp_right (Or.imp_right (Nat.le_trans · (Nat.le_add_right _ _)))

/-- R155: the samples of a refill, from those that have arrived up to the `k`-th, for the bytes read for them. -/
def Refill.samples (r : Refill) (d : List Byte) (n : Nat) : List Sample :=
  (List.range n).map fun j =>
    { place := { entry := r.first.entry, offset := r.first.offset + r.arrived + j }, value := d.getD j 0 }

theorem refillSamples_eq {r : Refill} {d : List Byte} {k : Nat} (all : d.length = min r.size k - r.arrived) :
    refillSamples r d k = r.samples d (min r.size k - r.arrived) := by
  refine List.map_congr_left fun j mem => ?_
  have within : j < d.length := by rw [all]; exact List.mem_range.1 mem
  rw [List.getD_eq_getElem _ _ within, List.getD_eq_getElem _ _ within]

theorem receive_of_refill {v : VoicePlayer} {r : Refill} (refill : v.refill = some r) (d : List Byte) (k : Nat) :
    v.receive d k = { v with
      refill := some { r with arrived := max r.arrived k }
      buffer := v.buffer ++
        if r.discard then [] else (refillSamples r d k).filter fun x => !x.place.before v.playPos } := by
  simp only [VoicePlayer.receive, refill]

theorem fresh_all {r : Refill} {p : SamplePlace} (here : r.first.before p = false) (d : List Byte) (k : Nat) :
    (refillSamples r d k).filter (fun x => !x.place.before p) = refillSamples r d k := by
  refine List.filter_eq_self.2 fun x mem => ?_
  obtain ⟨j, _, rfl⟩ := List.mem_map.1 mem
  have later := not_before_of_later here (r.arrived + j)
  rw [← Nat.add_assoc] at later
  rw [later]
  rfl

/-- R155: the samples whose sound goes on and whose place has not passed join the tail of the buffer. -/
theorem receive_joins {v : VoicePlayer} {r : Refill} {d : List Byte} {k : Nat} (refill : v.refill = some r)
    (wanted : r.discard = false) (here : r.first.before v.playPos = false)
    (all : d.length = min r.size k - r.arrived) :
    (v.receive d k).buffer = v.buffer ++ r.samples d (min r.size k - r.arrived) := by
  rw [receive_of_refill refill, wanted, if_neg Bool.false_ne_true, fresh_all here, refillSamples_eq all]

/-- R155, R156: nothing joins the buffer whose place has passed. -/
theorem receive_not_passed {v : VoicePlayer} {r : Refill} (refill : v.refill = some r) (d : List Byte) (k : Nat) :
    ∀ x ∈ (v.receive d k).buffer, x ∈ v.buffer ∨ x.place.before v.playPos = false := by
  rw [receive_of_refill refill]
  intro x mem
  refine (List.mem_append.1 mem).imp_right fun joined => ?_
  split at joined
  · cases joined
  · simpa using (List.mem_filter.1 joined).2

theorem vpRefill_of_outstanding {r : Refill} {s : State} (refill : s.vp.refill = some r) : vpRefill s = s := by
  unfold vpRefill
  split
  next none' => cases refill.symm.trans none'
  next => rfl

theorem streamValue_of_silence {v : VoicePlayer} {st : Stream} {n : Time} {o e : Nat} (stream : v.stream = some st)
    (uncut : st.early = none) (runs : due st.hardStop n = false)
    (found : locate st.sound.segs 0 ((n - st.start) / samplePeriod) = some (.silence, o, e)) :
    (streamValue v n).1 = v := by
  simp only [streamValue, stream, runs, found, uncut, segValue]
  rfl

/-- R155: a period within a silence of the sound: the samples that have arrived join, and no refill is asked beside the
outstanding one. -/
theorem vpSample_of_silence {s : State} {r : Refill} {st : Stream} {o e : Nat} (d : List Byte)
    (refill : s.vp.refill = some r) (stream : s.vp.stream = some st) (uncut : st.early = none)
    (runs : due st.hardStop s.now = false)
    (found : locate st.sound.segs 0 ((s.now - st.start) / samplePeriod) = some (.silence, o, e)) :
    (vpSample d s).psp = s.psp ∧ (vpSample d s).vp.refill = some { r with arrived := max r.arrived s.arrivals } ∧
      (vpSample d s).vp.buffer = (s.vp.receive d s.arrivals).buffer := by
  have silent := streamValue_of_silence (v := s.vp.receive d s.arrivals) ((receive_stream _ _ _).trans stream) uncut
    runs found
  have more : (s.vp.receive d s.arrivals).refill = some { r with arrived := max r.arrived s.arrivals } := by
    rw [receive_of_refill refill]
  unfold vpSample
  extract_lets v x y
  have kept : y = v := silent
  clear_value y
  subst kept
  rw [vpRefill_of_outstanding (s := { s with
    vp := { v with aout := clampSample (x.2 + toneValue v s.now), periodStart := some s.now } }) more]
  exact ⟨rfl, more, rfl⟩

/-- R155, R180: what has arrived of a refill that was begun at `b`. -/
theorem arrivals_of_reading {s : State} {q : ReadReq} {b : Time} {z : Bool}
    (port : s.psp.port = .reading .refill q (b + (4 + q.size) * portByte) z) :
    s.arrivals = min q.size ((s.now - b) / portByte - 4) := by
  have begun : b + (4 + q.size) * portByte - readTime q.size = b :=
    Nat.add_sub_cancel b (readTime q.size)
  simp only [State.arrivals, port, begun]

theorem exec_refillEnd {t e : Time} {q : ReadReq} {z : Bool} (d : List Byte) {s : State}
    (port : s.psp.port = .reading .refill q e z) (late : e ≤ (s.advance t).now) :
    exec (.refillEnd t d) s =
      .next (vpRefill (vpTakeRefill d { s.advance t with psp := s.psp.finish (s.advance t).now })) := by
  have read : s.psp.ended .refill (s.advance t).now = some q := ended_reading port late
  show Host.Outcome.next (match s.psp.ended .refill (s.advance t).now with | some _ => _ | none => _) = _
  rw [read]
  rfl

/-- R181: within the gap a refill that is asked waits. -/
theorem askRefill_of_gap {p : PhraseStore} {r : ReadReq} {e n : Time} (gap : p.port = .gap e) (early : n < e) :
    p.askRefill r n = { p with waitRefill := some r } := by
  have busy : p.free n = false := by simp [PhraseStore.free, gap, Nat.not_le.2 early]
  simp [PhraseStore.askRefill, busy, gap]

/-- R155, R181: a further refill that is asked within the gap waits; the composer's read waits as it did. -/
theorem vpRefill_of_gap {s : State} {e : Time} (gap : s.psp.port = .gap e) (early : s.now < e) :
    (vpRefill s).psp.port = .gap e ∧ (vpRefill s).psp.waitComposer = s.psp.waitComposer := by
  unfold vpRefill
  split
  · split
    · split
      · rw [askRefill_of_gap gap early]
        exact ⟨gap, rfl⟩
      · exact ⟨gap, rfl⟩
    · exact ⟨gap, rfl⟩
  · exact ⟨gap, rfl⟩

/-- Settles O56. -/
theorem refillJoinsTheBuffer : Obligations.RefillJoinsTheBuffer := by
  refine ⟨fun t b d q z r st o n k s a clock out fresh port refill wanted size here stream uncut runs found count all =>
    ?_, fun t e d q z r s a clock port late refill => ?_⟩
  · subst clock
    have arrivals : (s.advance t).arrivals = k := by
      rw [arrivals_of_reading (s := s.advance t) port, count, size]
    have most : min r.size k = k := by rw [count]; exact min_eq_right (min_le_left _ _)
    obtain ⟨psp, outstanding, buffer⟩ := vpSample_of_silence d (s := s.advance t) refill stream uncut runs found
    rw [arrivals] at outstanding buffer
    refine ⟨_, exec_samplePeriod out fresh, outstanding, psp, ?_⟩
    rw [buffer, receive_joins (v := (s.advance t).vp) refill wanted here (by rw [most]; exact all), most]
    rfl
  · subst clock
    have took : vpTakeRefill d { s.advance t with psp := s.psp.finish (s.advance t).now } = { s.advance t with
        psp := s.psp.finish (s.advance t).now, vp := { s.vp.receive d r.size with refill := none } } := by
      simp only [vpTakeRefill, advance_vp, refill]
    obtain ⟨gap, composer⟩ := vpRefill_of_gap (s := { s.advance t with
      psp := s.psp.finish (s.advance t).now, vp := { s.vp.receive d r.size with refill := none } })
      (finish_port _ _) (Nat.lt_add_of_pos_right (by decide))
    have ran := exec_refillEnd d port late
    rw [took] at ran
    have kept := vpRefill_frame { s.advance t with
      psp := s.psp.finish (s.advance t).now, vp := { s.vp.receive d r.size with refill := none } }
    have buffer := (congrArg (fun u => u.vp.buffer) kept :)
    refine ⟨_, ran, gap, composer, fun discard => buffer.trans ?_, fun wanted all here => buffer.trans ?_, ?_⟩
    · exact receive_of_discarded (v := s.vp) (fun x is => by cases refill.symm.trans is; exact discard) _ _
    · have joined := receive_joins (v := s.vp) (k := r.size) refill wanted here (by rw [min_self]; exact all)
      rw [min_self] at joined
      exact joined
    · intro x mem
      rw [buffer] at mem
      exact (receive_not_passed (v := s.vp) refill d r.size x mem).imp_left fun old => ⟨x, old, rfl⟩

end Sys2Proof.Machine
end

