-- ==== Sys2Proof/Proofs/Sends.lean ====
section
/-! PROOFS. Which frames an operation can put into the transmit queue. The floor controller's test queues a CLAIM
at most, its marks and notices a RELEASE, and none of them begins an attempt; so the list holds of a kind that is
not queued only what it held before, and of the others frames not yet tried. -/

namespace Sys2Proof.Machine

/-- Between the two line ports no attempt begins, and what joins the transmit queue is of the kinds `ks` and not yet
tried. -/
structure Sends (ks : List FrameKind) (l m : LinePort) : Prop where
  idle   : l.tx = none → m.tx = none
  frames : ∀ p ∈ m.queue, p ∈ l.queue ∨ p.attempts = 0 ∧ p.kind ∈ ks

theorem Sends.of_eq {l m : LinePort} (h : m = l) (ks : List FrameKind) : Sends ks l m :=
  ⟨fun idle => h ▸ idle, fun _ mem => .inl (h ▸ mem)⟩

theorem Sends.of_kernel {s t : State} (h : t.kernel = s.kernel) (ks : List FrameKind) : Sends ks s.lp t.lp :=
  have queue : t.lp.queue = s.lp.queue := congrArg Kernel.queue h
  ⟨fun idle => (congrArg Kernel.tx h).trans idle, fun _ mem => .inl (queue ▸ mem)⟩

theorem Sends.refl (ks : List FrameKind) (l : LinePort) : Sends ks l l := .of_eq rfl ks

theorem Sends.trans {ks : List FrameKind} {a b c : LinePort} (h : Sends ks a b) (g : Sends ks b c) : Sends ks a c :=
  ⟨fun idle => g.idle (h.idle idle), fun p mem => (g.frames p mem).elim (h.frames p) .inr⟩

theorem Sends.mono {ks js : List FrameKind} {l m : LinePort} (h : Sends ks l m) (sub : ks ⊆ js) : Sends js l m :=
  ⟨h.idle, fun p mem => (h.frames p mem).imp_right fun joined => ⟨joined.1, sub joined.2⟩⟩

/-- A kind that the list did not hold and that is not queued is not in the list. -/
theorem Sends.listed_false {ks : List FrameKind} {l m : LinePort} {k : FrameKind} (h : Sends ks l m)
    (none : l.listed k = false) (out : k ∉ ks) : m.listed k = false := by
  simp only [LinePort.listed, List.any_eq_false, beq_iff_eq] at none ⊢
  exact fun p mem is => (h.frames p mem).elim (none p · is) fun joined => out (is ▸ joined.2)

/-- Of a kind that the list did not hold, it holds frames not yet tried alone. -/
theorem Sends.untried {ks : List FrameKind} {l m : LinePort} {k : FrameKind} (h : Sends ks l m)
    (none : l.listed k = false) : ∀ p ∈ m.queue, p.kind = k → p.attempts = 0 := by
  simp only [LinePort.listed, List.any_eq_false, beq_iff_eq] at none
  exact fun p mem is => (h.frames p mem).elim (fun was => absurd is (none p was)) And.left

/-! ## The list of the line port -/

theorem setTxPlace_idle {l : LinePort} (idle : l.tx = none) (k : FrameKind) (p : TxPlace) :
    (l.setTxPlace k p).tx = none := by
  simp only [LinePort.setTxPlace, idle, Option.map_none]

theorem sends_join (l : LinePort) {p : Place} (new : p.attempts = 0) :
    Sends [p.kind] l (l.join p) := by
  unfold LinePort.join
  split
  · refine ⟨fun idle => setTxPlace_idle idle _ _, fun q mem => ?_⟩
    obtain ⟨x, was, rfl⟩ := List.mem_map.1 mem
    split
    · exact .inr ⟨new, List.mem_singleton_self _⟩
    · exact .inl was
  · split
    · refine ⟨fun idle => setTxPlace_idle idle _ _, fun q mem => ?_⟩
      rcases List.mem_cons.1 mem with rfl | was
      · exact .inr ⟨new, List.mem_singleton_self _⟩
      · exact .inl was
    · refine ⟨id, fun q mem => ?_⟩
      rcases List.mem_append.1 mem with was | last
      · exact .inl was
      · obtain rfl := List.mem_singleton.1 last
        exact .inr ⟨new, List.mem_singleton_self _⟩

theorem sends_remove (ks : List FrameKind) (l : LinePort) (k : FrameKind) : Sends ks l (l.remove k) :=
  ⟨fun idle => setTxPlace_idle idle _ _, fun _ mem => .inl (List.mem_of_mem_filter mem)⟩

theorem sends_removeUnsent (ks : List FrameKind) (l : LinePort) (k : FrameKind) :
    Sends ks l (l.removeUnsent k) := by
  unfold LinePort.removeUnsent
  split
  · exact .refl ks l
  · exact sends_remove ks l k

theorem sends_queueClaim (l : LinePort) (f : List Byte) (r : Bool) :
    Sends [.claim] l (l.queueClaim f r).1 := by
  unfold LinePort.queueClaim
  split
  · exact sends_join l (p := { kind := .claim, bytes := f, reassert := r, attempts := 0 }) rfl
  · exact .refl _ l

theorem sends_queueRelease (l : LinePort) (f : List Byte) :
    Sends [.release] l (l.queueRelease f).1 := by
  unfold LinePort.queueRelease
  extract_lets m
  have unsent : Sends [.release] l m := sends_removeUnsent _ l .claim
  split_ifs
  · exact .refl _ l
  · exact unsent
  · refine ⟨unsent.idle, fun q mem => ?_⟩
    rcases List.mem_append.1 mem with was | last
    · exact unsent.frames q was
    · obtain rfl := List.mem_singleton.1 last
      exact .inr ⟨rfl, List.mem_singleton_self _⟩
  · exact unsent

/-! ## The floor controller -/

theorem sends_endItem (ks : List FrameKind) (e : ItemEnd) (s : State) : Sends ks s.lp (endItem e s).lp :=
  .of_eq ((congrArg State.lp (endItem_frame e s) :)) ks

theorem sends_takeHead (ks : List FrameKind) (s : State) : Sends ks s.lp (takeHead s).lp := .of_eq (takeHead_lp s) ks

theorem enterSpacing_lp (s : State) : (enterSpacing s).lp = s.lp := by
  have h (b : Bool) :
      (if b then takeHead { s with fc := { s.fc with state := .idle, spacing := none } }
        else { s with fc := { s.fc with state := .spacing, spacing := some (s.now + spacingTime) } }).lp = s.lp := by
    cases b with
    | true => exact takeHead_lp _
    | false => rfl
  exact h _

theorem sends_enterSpacing (ks : List FrameKind) (s : State) : Sends ks s.lp (enterSpacing s).lp :=
  .of_eq (enterSpacing_lp s) ks

theorem sends_fcRelease (s : State) : Sends [.release] s.lp (fcRelease s).lp :=
  (sends_queueRelease s.lp _).trans (sends_remove _ _ .claim)

theorem sends_enterEnding (s : State) : Sends [.release] s.lp (enterEnding s).lp := by
  unfold enterEnding
  extract_lets _ a b
  have begun : Sends [.release] s.lp a.lp := .refl _ _
  have released : Sends [.release] s.lp b.lp := by
    simp only [b]
    split
    · exact begun
    · exact begun.trans (sends_fcRelease a)
  split
  · exact released.trans (sends_enterSpacing _ b)
  · exact released

theorem sends_fcSpeak (ks : List FrameKind) (u : Utterance) (n : Time) (s : State) :
    Sends ks s.lp (fcSpeak u n s).lp :=
  Sends.of_kernel (s := { s with
    fc := { s.fc with state := .speaking, playStart := some n, contestEnd := none, cutOrder := none } })
    (kernel_vpPlay u n _) ks

theorem sends_fcClaim (u : Utterance) (s : State) : Sends [.claim] s.lp (fcClaim u s).lp := by
  unfold fcClaim
  extract_lets frame r
  split
  · exact sends_queueClaim s.lp frame false
  · exact .refl _ _

/-- The test of R139 queues a CLAIM at most, and none in SOLO. -/
theorem sends_fcTest (s : State) : Sends [.claim] s.lp (fcTest s).lp ∧ (s.lp.mode = .solo → Sends [] s.lp (fcTest s).lp) := by
  unfold fcTest
  split
  · rename_i u _ _
    extract_lets v _ a
    have lowered (ks : List FrameKind) : Sends ks s.lp a.lp := .refl ks _
    split
    · constructor
      · split
        · exact (lowered _).trans (sends_fcClaim v a)
        · exact (lowered _).trans (sends_fcSpeak _ v a.now a)
      · intro solo
        rw [show a.lp.mode = .solo from solo]
        exact (lowered _).trans (sends_fcSpeak _ v a.now a)
    · exact ⟨lowered _, fun _ => lowered _⟩
  · exact ⟨.refl _ _, fun _ => .refl _ _⟩

theorem sends_fcDiscard (ks : List FrameKind) (s : State) : Sends ks s.lp (fcDiscard s).lp :=
  (sends_endItem ks .dropped { s with fc := { s.fc with state := .idle, utterance := none } }).trans
    (sends_takeHead ks _)

theorem sends_fcSwap (ks : List FrameKind) (s : State) : Sends ks s.lp (fcSwap s).lp := by
  unfold fcSwap
  extract_lets _ u
  have returned : Sends ks s.lp u.lp :=
    sends_endItem ks .returned { s with fc := { s.fc with state := .idle, utterance := none } }
  exact returned.trans (sends_takeHead ks { u with fc := { u.fc with swapped := swapOf s u } })

theorem sends_orderCut (ks : List FrameKind) (e : CutEnd) (s : State) : Sends ks s.lp (orderCut e s).lp := by
  unfold orderCut
  split
  · split
    · exact .refl ks _
    · exact .refl ks _
  · exact Sends.of_kernel (s := { s with fc := { s.fc with cutOrder := some e } }) (kernel_vpCut _) ks

theorem sends_fcUnclaim (ks : List FrameKind) (s : State) : Sends ks s.lp (fcUnclaim s).lp :=
  (sends_remove ks s.lp .claim).trans (sends_fcDiscard ks { s with lp := s.lp.remove .claim })

theorem sends_fcUnspeak (ks : List FrameKind) (s : State) : Sends ks s.lp (fcUnspeak s).lp :=
  (Sends.of_kernel (s := { s with fc := { s.fc with playStart := none } }) (kernel_vpStop _) ks).trans
    (sends_fcDiscard ks _)

/-- An item is ended, the claim given up and ENDING entered. -/
theorem sends_giveUp (e : ItemEnd) (s : State) : Sends [.release] s.lp (enterEnding (endItem e (fcRelease s))).lp :=
  ((sends_fcRelease s).trans (sends_endItem _ e _)).trans (sends_enterEnding _)

theorem sends_fcMark (s : State) : Sends [.release] s.lp (fcMark s).lp := by
  unfold fcMark
  split
  · exact sends_fcDiscard _ s
  · split
    · exact sends_fcUnclaim _ s
    · exact sends_giveUp .dropped s
  · exact sends_giveUp .dropped s
  · split
    · exact sends_fcUnspeak _ s
    · exact sends_orderCut _ _ s
  · exact .refl _ _
  · exact .refl _ _
  · exact .refl _ _

theorem sends_fcRetake (ks : List FrameKind) (s : State) : Sends ks s.lp (fcRetake s).lp :=
  sends_endItem ks _ { s with
    fc := { s.fc with state := .idle, cutOrder := none }, cp := { s.cp with work := none }
    psp := s.psp.unaskComposer s.now }

theorem sends_putBack (ks : List FrameKind) (s : State) (it : Item) : Sends ks s.lp (putBack s it).lp := by
  unfold putBack
  split
  · exact .refl ks _
  · exact .of_eq ((congrArg State.lp (placeNew_frame _ s) :)) ks

theorem sends_putBacks (ks : List FrameKind) (l : List Item) (s : State) : Sends ks s.lp (l.foldl putBack s).lp := by
  induction l generalizing s with
  | nil => exact .refl ks _
  | cons it l ih => exact (sends_putBack ks s it).trans (ih _)

theorem sends_fcReopen (ks : List FrameKind) (o : SpacingOver) (s : State) : Sends ks s.lp (fcReopen o s).lp :=
  (sends_fcRetake ks { s with
    pq := o.said.foldl PromptQueue.unsay s.pq, fc := { s.fc with spacingOver := none } }).trans
    (sends_putBacks ks _ _)

theorem sends_fcUnswap (ks : List FrameKind) (s : State) : Sends ks s.lp (fcUnswap s).lp := by
  unfold fcUnswap
  split
  · rename_i w _
    exact (sends_fcRetake ks { s with
      pq := { w.before.undoSeries w.after s.pq with items := s.pq.items.filter fun q => q.cls != w.item.cls }
      fc := { s.fc with swapped := none } }).trans (sends_putBacks ks _ _)
  · exact .refl ks _

theorem sends_fcNotice (l : Level) (s : State) : Sends [.release] s.lp (fcNotice l s).lp := by
  unfold fcNotice
  extract_lets outranked ended
  clear_value outranked ended
  split
  · split
    · exact sends_fcReopen _ _ s
    · exact .refl _ _
  · split
    · exact sends_fcSwap _ s
    · exact .refl _ _
  · split
    · exact sends_giveUp .returned s
    · exact .refl _ _
  · split
    · exact sends_giveUp .returned s
    · exact .refl _ _
  · split
    · split
      · exact sends_orderCut _ _ s
      · exact .refl _ _
    · split
      · exact (Sends.of_kernel (kernel_vpStop s) _).trans (sends_fcReopen _ _ _)
      · exact .refl _ _
  · split
    · exact .refl _ _
    · exact .refl _ _
  · exact .refl _ _

/-! ## Reports and the line mode -/

theorem sends_fcClaimReport (r : Report) (s : State) :
    Sends [.claim] s.lp (fcClaimReport r s).lp ∧ (s.lp.mode = .solo → Sends [] s.lp (fcClaimReport r s).lp) := by
  unfold fcClaimReport
  split
  · exact ⟨.refl _ _, fun _ => .refl _ _⟩
  · split
    · exact ⟨.refl _ _, fun _ => .refl _ _⟩
    · exact ⟨(sends_fcTest (backToWaiting s)).1, (sends_fcTest (backToWaiting s)).2⟩
    · exact ⟨(sends_fcTest (backToWaiting s)).1, (sends_fcTest (backToWaiting s)).2⟩

theorem sends_fcReleaseReport (s : State) : Sends [.claim] s.lp (fcReleaseReport s).lp := by
  unfold fcReleaseReport
  extract_lets _ a
  have told : Sends [.claim] s.lp a.lp := .refl _ _
  split
  · exact told.trans (sends_enterSpacing _ a)
  · exact told.trans (sends_fcTest a).1

theorem sends_fcLineChange (s : State) :
    Sends [.claim] s.lp (fcLineChange s).lp ∧ (s.lp.mode = .solo → Sends [] s.lp (fcLineChange s).lp) := by
  unfold fcLineChange
  split
  · exact ⟨sends_enterSpacing _ s, fun _ => sends_enterSpacing _ s⟩
  · exact sends_fcTest s

/-! ## Triggers, withdrawals and resolutions -/

theorem sends_placeNew (ks : List FrameKind) (it : Item) (s : State) : Sends ks s.lp (placeNew it s).1.lp :=
  .of_eq ((congrArg State.lp (placeNew_frame it s) :)) ks

theorem sends_marked (s : State) (q : PromptQueue) : Sends [.release] s.lp (fcMark { s with pq := q }).lp :=
  sends_fcMark { s with pq := q }

theorem sends_putTrigger (c : PromptClass) (p : Params) (r : Reach) (b : Bool) (s : State) :
    Sends [.release] s.lp (putTrigger c p r b s).lp := by
  unfold putTrigger
  extract_lets it mark _ a placed _ x
  split
  · have updated : Sends [.release] s.lp a.lp := .refl _ _
    split
    · exact updated.trans (sends_marked a _)
    · exact updated
  · have joined : Sends [.release] s.lp placed.1.lp := sends_placeNew _ it s
    have met : Sends [.release] s.lp x.lp := by
      simp only [x]
      split
      · exact joined.trans (sends_marked _ _)
      · exact joined
    split
    · exact met.trans (sends_fcNotice _ x)
    · exact met

theorem sends_trigger (c : PromptClass) (p : Params) (s : State) : Sends [.release] s.lp (trigger c p s).lp := by
  have met (means : Item → Bool) : Sends [.release] s.lp (meetSwapped means s).lp := by
    unfold meetSwapped
    split
    · exact sends_fcUnswap _ s
    · exact .refl _ _
  exact ((met _).trans (sends_putTrigger _ _ _ _ _)).trans (sends_takeHead _ _)

theorem sends_busyTrigger (c : PromptClass) (p : Params) (s : State) : Sends [.release] s.lp (busyTrigger c p s).lp :=
  (Sends.of_kernel (kernel_activity s) _).trans (sends_trigger c p _)

theorem sends_withdrawHeld (means : PromptClass → CondKey → Bool) (s : State) :
    Sends [.release] s.lp (withdrawHeld means s).lp := by
  unfold withdrawHeld
  extract_lets _ a
  have left : Sends [.release] s.lp a.lp := .refl _ _
  split
  · split
    · exact left.trans (sends_marked a _)
    · exact left
  · exact left

theorem sends_withdraw (k : CondKey) (s : State) : Sends [.release] s.lp (withdraw k s).lp := by
  unfold withdraw withdrawMeant
  split
  · exact ((sends_fcUnswap _ s).trans (sends_withdrawHeld _ _)).trans (sends_takeHead _ _)
  · exact sends_withdrawHeld _ s

theorem sends_dcDiscard (s : State) : Sends [.release] s.lp (dcDiscard s).lp := by
  unfold dcDiscard
  extract_lets held _ a b
  have closed : Sends [.release] s.lp a.lp := .refl _ _
  have ended : Sends [.release] s.lp b.lp := by
    simp only [b]
    split
    · exact closed.trans (sends_withdraw .selecting { a with au := a.au.noReminder })
    · exact closed
  exact ended

theorem sends_darkFirst (s : State) : Sends [.release] s.lp (darkFirst s).lp := by
  unfold darkFirst
  split
  · unfold goDark
    extract_lets _ a
    have forced : Sends [.release] s.lp a.lp := by
      simp only [a, dcForced]
      split
      · exact .refl _ _
      · exact sends_dcDiscard { s with au := { s.au with state := .dark, dim := none, dark := none } }
    exact forced
  · exact .refl _ _

theorem sends_dcResolved (r : AnswerResult) (s : State) : Sends [.release] s.lp (dcResolved r s).lp := by
  unfold dcResolved
  split
  · split
    · exact .refl _ _
    · exact sends_dcDiscard s
  · exact .refl _ _

theorem sends_resolveNoAnswer (r : Request) (s : State) : Sends [.release] s.lp (resolveNoAnswer r s).lp :=
  ((sends_darkFirst s).trans (sends_busyTrigger _ _ (darkFirst s).untracked)).trans (sends_dcResolved _ _)

theorem sends_pmReport (r : Report) (s : State) : Sends [.release] s.lp (pmReport r s).lp := by
  unfold pmReport
  split
  · split
    · split
      · exact .refl _ _
      · exact sends_resolveNoAnswer _ s
      · exact sends_resolveNoAnswer _ s
    · exact .refl _ _
  · exact .refl _ _

/-! ## The changes of the line mode and the reports of an attempt -/

theorem sends_enterSolo (ks : List FrameKind) (l : LinePort) : Sends ks l l.enterSolo.1 :=
  ⟨fun idle => by
      simp only [LinePort.enterSolo, (sends_removeUnsent ks l .claim).idle idle, Option.map_none],
    (sends_removeUnsent ks l .claim).frames⟩

/-- What leaves the list as SOLO begins is a CLAIM. -/
theorem enterSolo_reports (l : LinePort) : ∀ r ∈ l.enterSolo.2, r.kind = .claim := by
  intro r mem
  simp only [LinePort.enterSolo] at mem
  split at mem
  · exact absurd mem List.not_mem_nil
  · obtain ⟨p, listed, rfl⟩ := List.mem_map.1 mem
    exact eq_of_beq (List.mem_filter.1 listed).2

theorem settled_deliverReports (rs : List Report) (s : State) :
    (deliverReports rs s).lp.settled = s.lp.settled := (apart_deliverReports rs s).lp_settled

/-- The reports of CLAIMs queue a CLAIM at most, and none in SOLO. -/
theorem sends_claimReports (rs : List Report) (claims : ∀ r ∈ rs, r.kind = .claim) (s : State) :
    Sends [.claim] s.lp (deliverReports rs s).lp ∧ (s.lp.mode = .solo → Sends [] s.lp (deliverReports rs s).lp) := by
  induction rs generalizing s with
  | nil => exact ⟨.refl _ _, fun _ => .refl _ _⟩
  | cons r rs ih =>
    have step : deliverReport s r = fcClaimReport r s := by
      simp only [deliverReport, claims r List.mem_cons_self]
    obtain ⟨one, oneSolo⟩ := sends_fcClaimReport r s
    obtain ⟨rest, restSolo⟩ := ih (fun x mem => claims x (List.mem_cons_of_mem r mem)) (fcClaimReport r s)
    have unfolded : deliverReports (r :: rs) s = deliverReports rs (fcClaimReport r s) := by
      simp only [deliverReports, List.foldl_cons, step]
    rw [unfolded]
    refine ⟨one.trans rest, fun solo => (oneSolo solo).trans (restSolo ?_)⟩
    have kept := settled_deliverReports [r] s
    rw [show deliverReports [r] s = fcClaimReport r s from step] at kept
    rw [mode_of_settled kept]
    exact solo

/-- The change of the line mode queues a CLAIM at most, and none where the mode it leaves is SOLO. -/
theorem sends_lineChanged (old : LinePort) (s : State) :
    Sends [.claim] s.lp (lineChanged old s).lp ∧ (s.lp.mode = .solo → Sends [] s.lp (lineChanged old s).lp) := by
  unfold lineChanged
  extract_lets r a
  have soloMode : s.lp.enterSolo.1.mode = s.lp.mode := by
    unfold LinePort.enterSolo LinePort.removeUnsent
    split <;> rfl
  have entered : (Sends [.claim] s.lp a.lp ∧ (s.lp.mode = .solo → Sends [] s.lp a.lp)) ∧ a.lp.mode = s.lp.mode := by
    simp only [a]
    split
    · obtain ⟨told, toldSolo⟩ := sends_claimReports r.2 (enterSolo_reports s.lp) { s with lp := r.1 }
      refine ⟨⟨(sends_enterSolo _ s.lp).trans told, fun solo =>
        (sends_enterSolo _ s.lp).trans (toldSolo (soloMode.trans solo))⟩, ?_⟩
      exact (mode_of_settled (settled_deliverReports r.2 { s with lp := r.1 })).trans soloMode
    · exact ⟨⟨.refl _ _, fun _ => .refl _ _⟩, rfl⟩
  obtain ⟨⟨any, none⟩, mode⟩ := entered
  split
  · obtain ⟨heard, heardSolo⟩ := sends_fcLineChange a
    exact ⟨any.trans heard, fun solo => (none solo).trans (heardSolo (mode.trans solo))⟩
  · exact ⟨any, none⟩

theorem sends_deliverReport (s : State) (r : Report) : Sends [.claim, .release] s.lp (deliverReport s r).lp := by
  unfold deliverReport
  split
  · exact (sends_fcClaimReport r s).1.mono (by decide)
  · exact (sends_fcReleaseReport s).mono (by decide)
  · exact (sends_pmReport r s).mono (by decide)

theorem sends_deliverReports (rs : List Report) (s : State) : Sends [.claim, .release] s.lp (deliverReports rs s).lp := by
  induction rs generalizing s with
  | nil => exact .refl _ _
  | cons r rs ih => exact (sends_deliverReport s r).trans (ih _)

/-- After an attempt that fails none is under way. -/
theorem failAttempt_idle (s : State) : (failAttempt s).lp.tx = none :=
  (((sends_lineChanged s.lp { s with lp := s.lp.withdraw.1 }).1.mono (by decide)).trans
    (sends_deliverReports s.lp.withdraw.2 _)).idle (withdraw_shape s.lp).2.2

end Sys2Proof.Machine
end

