-- ==== Sys2Proof/Proofs/Attempts.lean ====
section
/-! PROOFS. Start bits, bytes and glitches as the reception and the attempt under way take them; and how an attempt
ends: withdrawn, failed for good, or complete. -/

namespace Sys2Proof.Machine

/-! ## Start bits and bytes (R1, R2, R14, R18) -/

/-- R2: an open reception whose delimiter is complete closes before a start bit or a glitch is taken. -/
def closeFirst (s : State) : State :=
  match s.lp.rx, s.lp.idleSince with
  | some r, some i => if i + delimiter ≤ s.now then closeReception r s else s
  | _, _ => s

theorem closeFirst_still {s : State}
    (still : s.lp.rx = none ∨ ∃ i, s.lp.idleSince = some i ∧ s.now < i + delimiter) : closeFirst s = s := by
  unfold closeFirst
  split
  · rename_i r i opened since
    rcases still with none | ⟨j, last, before⟩
    · exact absurd (opened.symm.trans none) (by simp)
    · obtain rfl := Option.some.inj (since.symm.trans last)
      exact if_neg (Nat.not_le.2 before)
  · rfl

theorem receives_of_outside {s : State} (on : s.receiving = true) (outside : s.lp.edge = none) :
    (s.receiving && !s.lp.inByte) = true := by
  rw [on, LinePort.inByte, outside]; rfl

/-- A start bit outside a byte, where no delimiter has completed an open reception before it. -/
theorem exec_startBit {t : Time} {s : State} (on : s.receiving = true) (outside : s.lp.edge = none)
    (still : s.lp.rx = none ∨ ∃ i, s.lp.idleSince = some i ∧ (s.advance t).now < i + delimiter) :
    exec (.startBitEdge t none) s =
      .next { s.advance t with lp := s.lp.startBit (s.advance t).now } := by
  have stays : closeFirst (s.advance t) = s.advance t := closeFirst_still still
  refine congrArg Host.Outcome.next ((if_pos (receives_of_outside on outside)).trans ?_)
  show { closeFirst (s.advance t) with
    lp := (closeFirst (s.advance t)).lp.startBit (closeFirst (s.advance t)).now } = _
  rw [stays]
  rfl

/-- The same of a glitch. -/
theorem exec_glitch {t d : Time} {s : State} (on : s.receiving = true) (outside : s.lp.edge = none)
    (still : s.lp.rx = none ∨ ∃ i, s.lp.idleSince = some i ∧ (s.advance t).now < i + delimiter) :
    exec (.startBitEdge t (some d)) s =
      .next { s.advance t with lp := s.lp.glitch (s.advance t).now d } := by
  have stays : closeFirst (s.advance t) = s.advance t := closeFirst_still still
  refine congrArg Host.Outcome.next ((if_pos (receives_of_outside on outside)).trans ?_)
  show { closeFirst (s.advance t) with
    lp := (closeFirst (s.advance t)).lp.glitch (closeFirst (s.advance t)).now d } = _
  rw [stays]
  rfl

theorem startBit_opens {l : LinePort} {i n : Time} (none : l.rx = none) (since : l.idleSince = some i)
    (quiet : i + delimiter ≤ n) : l.startBit n = { l with
      rx := some { bytes := [], count := 1, faulted := false, overlong := false, own := false, lastStop := n }
      edge := some n, armed := true, idleSince := Option.none, recessiveSince := Option.none
      dominantSince := some n } := by
  have armed : l.armedAt n = true := by
    simp only [LinePort.armedAt, LinePort.recessive, since, Option.map_some, Bool.or_eq_true, decide_eq_true_eq]
    exact .inr (Nat.le_sub_of_add_le (Nat.add_comm i delimiter ▸ quiet))
  simp only [LinePort.startBit, none, armed, if_true]

theorem startBit_continues {l : LinePort} {r : Reception} {i n : Time} (opened : l.rx = some r)
    (armed : l.armed = true) (since : l.idleSince = some i) : l.startBit n = { l with
      rx := some { r with count := r.count + 1, faulted := r.faulted || decide (faultGap < n - i), own := false }
      edge := some n, armed := true, idleSince := none, recessiveSince := none, dominantSince := some n } := by
  have still : l.armedAt n = true := by simp only [LinePort.armedAt, armed, Bool.true_or]
  simp only [LinePort.startBit, opened, still, LinePort.recessive, since, Option.map_some]

theorem exec_byteReceived {t e : Time} {b : Byte} {x : Bool} {s : State} (on : s.receiving = true)
    (inside : s.lp.edge = some e) : exec (.byteReceived t b x) s = .next
      (if midBit e 9 ≤ (s.advance t).now then
        if s.lp.belies e b x then failAttempt { s.advance t with lp := s.lp.takeByte e b x }
        else { s.advance t with lp := s.lp.takeByte e b x }
      else s.advance t) := by
  have on' : (s.advance t).receiving = true := on
  refine congrArg Host.Outcome.next ?_
  simp only [advance_lp, inside, on', Bool.true_and, decide_eq_true_eq]
  rfl

/-- R1: a byte taken, with the attempt under way aside. -/
def LinePort.withByte (l : LinePort) (e : Time) (b : Byte) (x : Bool) : LinePort :=
  { l with
    rx := l.rx.map fun r => { r with
      bytes := if r.bytes.length < 15 then r.bytes ++ [b] else r.bytes
      overlong := r.overlong || decide (15 ≤ r.bytes.length)
      faulted := r.faulted || !x, lastStop := e + 10 * bitTime }
    edge := none, idleSince := if x then some (e + 10 * bitTime) else none
    recessiveSince := if x then some (recessiveFrom e b) else none
    dominantSince := if x then none else some (dominantFrom e b)
    stopBitEnd := some (e + 10 * bitTime) }

theorem takeByte_eq (l : LinePort) (e : Time) (b : Byte) (x : Bool) :
    l.takeByte e b x = { l.withByte e b x with tx := l.tx.map fun y => y.readBack e b x } := rfl

theorem hears_iff {y : Tx} {e : Time} {b : Byte} {x : Bool} : y.hears e b x = true ↔
    x = true ∧ y.bytes[y.read]? = some b ∧ (midBit e 0 - y.start) / bitTime = 10 * y.read := by
  simp only [Tx.hears, Bool.and_eq_true, beq_iff_eq, and_assoc]

theorem midBit_zero (e : Time) : midBit e 0 = e + halfBit := by
  simp only [midBit, Nat.zero_mul, Nat.add_zero]

theorem belies_eq {l : LinePort} {y : Tx} (sending : l.tx = some y) (e : Time) (b : Byte) (x : Bool) :
    l.belies e b x = (y.read != y.bytes.length && !y.hears e b x) := by
  simp only [LinePort.belies, sending]

/-- Once all its bytes are read back no byte is one that the attempt still waits for. -/
theorem hears_of_read {y : Tx} (all : y.read = y.bytes.length) (e : Time) (b : Byte) (x : Bool) :
    y.hears e b x = false := by
  refine Bool.eq_false_iff.2 fun heard => ?_
  obtain ⟨-, driven, -⟩ := hears_iff.1 heard
  rw [List.getElem?_eq_none (Nat.le_of_eq all.symm)] at driven
  exact absurd driven (by simp)

/-- A failed attempt changes nothing of what the line port reads of the line. -/
theorem withdraw_reads (l : LinePort) : l.withdraw.1.rx = l.rx ∧ l.withdraw.1.edge = l.edge ∧
    l.withdraw.1.idleSince = l.idleSince := by
  unfold LinePort.withdraw
  split
  · exact ⟨rfl, rfl, rfl⟩
  · extract_lets
    split
    · split_ifs <;> exact ⟨rfl, rfl, rfl⟩
    · exact ⟨rfl, rfl, rfl⟩
    · exact ⟨rfl, rfl, rfl⟩

theorem failAttempt_reads (s : State) : (failAttempt s).lp.rx = s.lp.rx ∧ (failAttempt s).lp.edge = s.lp.edge ∧
    (failAttempt s).lp.idleSince = s.lp.idleSince := by
  have kept := (apart_failAttempt s).lp_settled
  obtain ⟨rx, edge, idleSince⟩ := withdraw_reads s.lp
  exact ⟨(congrArg LinePort.rx kept :).trans rx, (congrArg LinePort.edge kept :).trans edge,
    (congrArg LinePort.idleSince kept :).trans idleSince⟩

/-- Settles O25. -/
theorem bytesJoinTheReception : Obligations.BytesJoinTheReception := by
  refine ⟨fun t i s a clock on outside none since quiet => ?_,
    fun t i r s a clock on outside opened armed since _ soon => ?_,
    fun t e b x s a clock on inside => ⟨fun early => ?_, fun late c joined => ?_⟩,
    fun t d s a clock on outside still => ?_⟩
  · subst clock
    rw [exec_startBit on outside (.inl none), startBit_opens none since (by rw [delimiter]; exact quiet)]
  · subst clock
    rw [exec_startBit on outside (.inr ⟨i, since, by rw [delimiter]; exact soon⟩),
      startBit_continues opened armed since]
    rfl
  · subst clock
    rw [exec_byteReceived on inside, if_neg (by rw [midBit]; exact Nat.not_le.2 early)]
  · subst clock
    rw [exec_byteReceived on inside, if_pos (by rw [midBit]; exact late)]
    have byte : c = s.lp.withByte e b x := joined
    have taken := takeByte_eq s.lp e b x
    refine ⟨fun idle => ?_, fun y sending all => ?_, fun y sending high driven place => ?_,
      fun y sending more wrong => ?_⟩
    · have quiet : s.lp.belies e b x = false := by simp only [LinePort.belies, idle]
      rw [quiet, if_neg Bool.false_ne_true, taken, byte, idle]
      simp only [LinePort.withByte, idle, Option.map_none]
    · have quiet : s.lp.belies e b x = false := by rw [belies_eq sending, all, bne_self_eq_false, Bool.false_and]
      rw [quiet, if_neg Bool.false_ne_true, taken, byte, sending]
      simp only [LinePort.withByte, sending, Option.map_some, Tx.readBack, hears_of_read all,
        if_neg Bool.false_ne_true]
    · have heard : y.hears e b x = true := hears_iff.2 ⟨high, driven, by rw [midBit_zero]; exact place⟩
      have quiet : s.lp.belies e b x = false := by rw [belies_eq sending, heard, Bool.not_true, Bool.and_false]
      rw [quiet, if_neg Bool.false_ne_true, taken, byte, sending]
      simp only [Option.map_some, Tx.readBack, heard, if_true]
    · have deaf : y.hears e b x = false := by
        refine Bool.eq_false_iff.2 fun heard => ?_
        obtain ⟨high, driven, place⟩ := hears_iff.1 heard
        rw [midBit_zero] at place
        rcases wrong with low | other | elsewhere
        · exact absurd (high.symm.trans low) (by decide)
        · exact other driven
        · exact elsewhere place
      have fails : s.lp.belies e b x = true := by
        rw [belies_eq sending, deaf, bne_iff_ne.2 (Nat.ne_of_lt more)]; rfl
      rw [if_pos fails, byte]
      obtain ⟨rx, edge, idleSince⟩ := failAttempt_reads { s.advance t with lp := s.lp.takeByte e b x }
      exact ⟨_, rfl, failAttempt_idle _, rx, edge, idleSince⟩
  · subst clock
    exact ⟨_, exec_glitch on outside (still.imp_right fun ⟨i, since, soon⟩ =>
      ⟨i, since, by rw [delimiter]; exact soon⟩), rfl⟩

/-! ## The line mode and the reports of a CLAIM (R12, R16, R17) -/

theorem outside_claimReports (rs : List Report) (claims : ∀ r ∈ rs, r.kind = .claim) (s : State) :
    (deliverReports rs s).outside = s.outside := by
  induction rs generalizing s with
  | nil => rfl
  | cons r rs ih =>
    have step : deliverReport s r = fcClaimReport r s := by
      simp only [deliverReport, claims r List.mem_cons_self]
    have unfolded : deliverReports (r :: rs) s = deliverReports rs (fcClaimReport r s) := by
      simp only [deliverReports, List.foldl_cons, step]
    rw [unfolded, ih (fun x mem => claims x (List.mem_cons_of_mem r mem)), outside_fcClaimReport]

/-- A change of the line mode concerns the floor controller and the transmit queue alone. -/
theorem outside_lineChanged (old : LinePort) (s : State) : (lineChanged old s).outside = s.outside := by
  unfold lineChanged
  extract_lets r a
  have settled : r.1.settled = s.lp.settled := by
    simp only [r, LinePort.enterSolo, LinePort.removeUnsent]
    split <;> rfl
  have entered : a.outside = s.outside := by
    simp only [a]
    split
    · rw [outside_claimReports r.2 (enterSolo_reports s.lp)]
      simp only [State.outside, settled]
    · rfl
  split
  · rw [outside_fcLineChange, entered]
  · exact entered

/-- Where neither the mode nor LINE_HELD has changed nothing follows. -/
theorem lineChanged_same {old : LinePort} {s : State} (mode : old.mode = s.lp.mode)
    (held : old.lineHeld = s.lp.lineHeld) : lineChanged old s = s := by
  have calm : ¬(old.mode = .normal ∧ s.lp.mode = .solo) := fun ⟨normal, solo⟩ =>
    absurd (normal.symm.trans (mode.trans solo)) (by decide)
  have still : ¬(old.mode ≠ s.lp.mode ∨ old.lineHeld ≠ s.lp.lineHeld) := fun h => h.elim (· mode) (· held)
  unfold lineChanged
  extract_lets r a
  rw [show a = s from if_neg calm, if_neg still]

/-- A report of a CLAIM that the floor controller does not await, or in SOLO, queues none. -/
theorem fcClaimReport_claimless {r : Report} {s : State}
    (unclaimed : r.reassert = true ∨ s.fc.state ≠ .claiming ∨ s.lp.mode = .solo) :
    Sends [] s.lp (fcClaimReport r s).lp := by
  rcases unclaimed with again | away | solo
  · rw [fcClaimReport, again, Bool.true_or, if_pos rfl]
    exact .refl _ _
  · rw [fcClaimReport, bne_iff_ne.2 away, Bool.or_true, if_pos rfl]
    exact .refl _ _
  · exact (sends_fcClaimReport r s).2 solo

theorem pm_busyTrigger (c : PromptClass) (p : Params) (s : State) : (busyTrigger c p s).pm = s.pm := by
  have same : (busyTrigger c p s).beyond = s.beyond :=
    (beyond_of_outside (outside_trigger c p (activity s))).trans (beyond_activity s)
  exact (congrArg State.pm same :)

theorem pm_dcDiscard (s : State) : (dcDiscard s).pm = s.pm := by
  unfold dcDiscard
  extract_lets held _ a b
  have ended : b.pm = a.pm := by
    simp only [b]
    split
    · exact (congrArg State.pm (outside_withdraw .selecting { a with au := a.au.noReminder }) :)
    · rfl
  exact ended

theorem pm_dcResolved (r : AnswerResult) (s : State) : (dcResolved r s).pm = s.pm := by
  unfold dcResolved
  split
  · split
    · rfl
    · exact pm_dcDiscard s
  · rfl

theorem resolveNoAnswer_inFlight (r : Request) (s : State) : (resolveNoAnswer r s).pm.inFlight = none := by
  unfold resolveNoAnswer
  rw [pm_dcResolved, pm_busyTrigger]
  rfl

/-! ## The end of an attempt (R14, R15, R11) -/

/-- The report of an attempt that fails for good. -/
def Tx.failure (x : Tx) : Report := { kind := x.kind, bytes := x.bytes, reassert := x.reassert, fate := .dropped }

/-- The line port once the frame of an attempt has left the list with it. -/
def LinePort.without (l : LinePort) (x : Tx) : LinePort :=
  { l with tx := none, queue := l.queue.filter fun q => q.kind != x.kind }

theorem without_listed (l : LinePort) (x : Tx) : (l.without x).listed x.kind = false := by
  simp [LinePort.without, LinePort.listed]

theorem withdraw_kept {l : LinePort} {x : Tx} (sending : l.tx = some x)
    (kept : x.place ≠ .intact ∨ x.noRetry = false ∧ l.attemptsOf x.kind < 16) :
    l.withdraw = ({ l with tx := none }, []) := by
  simp only [LinePort.withdraw, sending]
  split
  · rename_i intact
    obtain ⟨again, few⟩ := kept.resolve_left fun h => h intact
    rw [if_neg (by rw [maxAttempts]; exact Nat.not_le.2 few), if_neg (ne_true_of_eq_false again)]
  · rfl
  · rfl

theorem withdraw_overtaken {l : LinePort} {x : Tx} (sending : l.tx = some x) (intact : x.place = .intact)
    (noRetry : x.noRetry = true) (few : l.attemptsOf x.kind < 16) :
    l.withdraw = (l.without x, [x.failure]) := by
  simp only [LinePort.withdraw, sending, intact]
  rw [if_neg (by rw [maxAttempts]; exact Nat.not_le.2 few), if_pos noRetry]
  rfl

theorem withdraw_last {l : LinePort} {x : Tx} (sending : l.tx = some x) (intact : x.place = .intact)
    (many : 16 ≤ l.attemptsOf x.kind) : l.withdraw = ((l.without x).addErrors 4, [x.failure]) := by
  simp only [LinePort.withdraw, sending, intact]
  rw [if_pos (by rw [maxAttempts]; exact many)]
  rfl

theorem deliverReports_one (r : Report) (s : State) : deliverReports [r] s = deliverReport s r := rfl

theorem failAttempt_kept {x : Tx} {s : State} (sending : s.lp.tx = some x)
    (kept : x.place ≠ .intact ∨ x.noRetry = false ∧ s.lp.attemptsOf x.kind < 16) :
    failAttempt s = { s with lp := { s.lp with tx := none } } := by
  unfold failAttempt
  rw [withdraw_kept sending kept]
  exact lineChanged_same rfl rfl

/-- What follows from an attempt that fails for good, as the line port has taken it. -/
theorem failAttempt_overtaken {x : Tx} {s : State} (sending : s.lp.tx = some x) (intact : x.place = .intact)
    (noRetry : x.noRetry = true) (few : s.lp.attemptsOf x.kind < 16) :
    failAttempt s = deliverReport { s with lp := s.lp.without x } x.failure := by
  unfold failAttempt
  rw [withdraw_overtaken sending intact noRetry few]
  exact congrArg (deliverReports [x.failure]) (lineChanged_same rfl rfl)

/-- The state that an attempt's sixteenth failure leaves, before its report. -/
def State.exhausted (s : State) (x : Tx) : State :=
  lineChanged s.lp { s with lp := (s.lp.without x).addErrors 4 }

theorem failAttempt_last {x : Tx} {s : State} (sending : s.lp.tx = some x) (intact : x.place = .intact)
    (many : 16 ≤ s.lp.attemptsOf x.kind) : failAttempt s = deliverReport (s.exhausted x) x.failure := by
  unfold failAttempt
  rw [withdraw_last sending intact many]
  rfl

theorem midBit_before_end (start : Nat) {k n : Nat} (few : k < 10 * n) :
    start + k * bitTime + halfBit < start + 10 * bitTime * n := by
  simp only [bitTime, halfBit]
  omega

/-- An attempt that a bit belies, or that has reached its end without all its bytes read back, fails. -/
theorem exec_failAttempt {t : Time} {i : Instr} {x : Tx} {s : State} (sending : s.lp.tx = some x)
    (cause : i = .attemptWithdrawn t ∧
        (∃ k, k < 10 * x.bytes.length ∧ (s.advance t).now = x.start + k * bitTime + halfBit) ∨
      i = .transmissionComplete t ∧ x.read ≠ x.bytes.length ∧
        x.start + 10 * x.bytes.length * bitTime ≤ (s.advance t).now) :
    exec i s = .next (failAttempt (s.advance t)) := by
  rcases cause with ⟨rfl, k, few, now⟩ | ⟨rfl, unread, past⟩
  · have compared : (s.advance t).lp.compares (s.advance t).now = true := by
      refine (compares_iff _ _).2 ⟨x, sending, ?_, ?_, ?_⟩
      · rw [now, Nat.add_assoc]
        exact Nat.le_add_right _ _
      · rw [now]
        exact midBit_before_end _ few
      · rw [now, Nat.add_assoc, Nat.add_sub_cancel_left, Nat.mul_comm, Nat.mul_add_mod]
        rfl
    exact congrArg Host.Outcome.next (if_pos compared)
  · have ended : x.ends ≤ (s.advance t).now := by
      refine Nat.le_trans (Nat.le_of_eq ?_) past
      simp only [Tx.ends, bitTime]
      omega
    have torn : x.whole (s.advance t).now = false := by
      rw [Tx.whole, beq_eq_false_iff_ne.2 unread, Bool.and_false]
    refine congrArg Host.Outcome.next ?_
    simp only [advance_lp, sending, torn]
    exact (if_neg Bool.false_ne_true).trans (if_pos ended)

/-- A report leaves what the line port counts. -/
theorem deliverReport_counts (s : State) (r : Report) : (deliverReport s r).lp.settled = s.lp.settled :=
  (apart_deliverReport s r).lp_settled

theorem exhausted_settled (s : State) (x : Tx) :
    (s.exhausted x).lp.settled = ((s.lp.without x).addErrors 4).settled :=
  outside_lp_settled (outside_lineChanged s.lp { s with lp := (s.lp.without x).addErrors 4 })

theorem sends_exhausted (s : State) (x : Tx) :
    Sends [.claim] ((s.lp.without x).addErrors 4) (s.exhausted x).lp ∧
      (((s.lp.without x).addErrors 4).mode = .solo → Sends [] ((s.lp.without x).addErrors 4) (s.exhausted x).lp) :=
  sends_lineChanged s.lp { s with lp := (s.lp.without x).addErrors 4 }

/-- R7: an increase of the count never ends SOLO. -/
theorem solo_of_errors {s : State} (law : CountLaw s) (n : Nat) (solo : s.lp.mode = .solo) :
    (s.lp.addErrors n).mode = .solo := by
  obtain ⟨-, -, low⟩ := law
  have degraded : s.lp.degraded = true → (s.lp.addErrors n).degraded = true := by
    intro set
    have high : ¬s.lp.errCount ≤ 8 := fun small => absurd (set.symm.trans (low small)) (by decide)
    simp only [LinePort.addErrors, LinePort.setCount, set]
    have : ¬min 31 (s.lp.errCount + n) ≤ 8 := by omega
    rw [if_neg this, ite_self]
  simp only [LinePort.mode] at solo ⊢
  split at solo
  · rename_i any
    refine if_pos ?_
    simp only [Bool.or_eq_true] at any ⊢
    exact any.imp_left fun h => h.imp_left degraded
  · exact absurd solo (by decide)

/-- R17: a CLAIM that SOLO has overtaken leaves the list with its attempt, and is reported. -/
theorem overtaken_spec (s : State) (x : Tx) {u : State}
    (reported : u = deliverReport { s with lp := s.lp.without x } x.failure) :
    u.lp.errCount = s.lp.errCount ∧ (∀ p ∈ u.lp.queue, p.kind = x.kind → p.attempts = 0) ∧
      (x.kind = .claim → x.reassert = true ∨ s.fc.state ≠ .claiming ∨ s.lp.mode = .solo →
        u.lp.listed .claim = false) := by
  subst reported
  have gone := without_listed s.lp x
  refine ⟨(congrArg LinePort.errCount (deliverReport_counts { s with lp := s.lp.without x } x.failure) :),
    (sends_deliverReport { s with lp := s.lp.without x } x.failure).untried gone, fun claim unclaimed => ?_⟩
  have told : deliverReport { s with lp := s.lp.without x } x.failure =
      fcClaimReport x.failure { s with lp := s.lp.without x } := by
    simp only [deliverReport, Tx.failure, claim]
  rw [told]
  exact (fcClaimReport_claimless (s := { s with lp := s.lp.without x }) unclaimed).listed_false (claim ▸ gone)
    List.not_mem_nil

/-- R15: what the sixteenth failure of an attempt leaves once it is reported. -/
theorem exhausted_spec (s : State) (x : Tx) {u : State}
    (reported : u = deliverReport (s.exhausted x) x.failure) :
    u.lp.errCount = min 31 (s.lp.errCount + 4) ∧
    (∀ p ∈ u.lp.queue, p.kind = x.kind → p.attempts = 0) ∧
    (x.kind ≠ .claim → u.lp.listed x.kind = false) ∧
    (x.kind = .claim → CountLaw s → x.reassert = true ∨ s.fc.state ≠ .claiming ∨ u.lp.mode = .solo →
      u.lp.listed .claim = false) ∧
    (∀ r, x.kind = .request → s.pm.inFlight = some r → requestMark x.bytes = r.mark → u.pm.inFlight = none) ∧
    (x.kind = .request → s.pm.inFlight = none → (s.lp.addErrors 4).mode = s.lp.mode →
      u = { s with lp := { s.lp.addErrors 4 with
        tx := none, queue := s.lp.queue.filter (·.kind != .request) } }) := by
  subst reported
  have gone : ((s.lp.without x).addErrors 4).listed x.kind = false := without_listed s.lp x
  obtain ⟨sent, sentSolo⟩ := sends_exhausted s x
  have counted := (deliverReport_counts (s.exhausted x) x.failure).trans (exhausted_settled s x)
  have tracked : (s.exhausted x).pm = s.pm := (congrArg State.pm (outside_lineChanged s.lp { s with lp := (s.lp.without x).addErrors 4 }) :)
  have unchanged (same : s.lp.mode = (s.lp.addErrors 4).mode) :
      s.exhausted x = { s with lp := (s.lp.without x).addErrors 4 } := lineChanged_same same rfl
  refine ⟨(congrArg LinePort.errCount counted :), ?_, fun other => ?_, fun claim law unclaimed => ?_,
    fun r request flying mark => ?_, fun request none same => ?_⟩
  · exact ((sent.mono (by decide)).trans (sends_deliverReport _ _)).untried gone
  · cases kind : x.kind with
    | claim => exact absurd kind other
    | release =>
      have told : deliverReport (s.exhausted x) x.failure = fcReleaseReport (s.exhausted x) := by
        simp only [deliverReport, Tx.failure, kind]
      rw [told]
      exact (sent.trans (sends_fcReleaseReport _)).listed_false (kind ▸ gone) (by decide)
    | request =>
      exact ((sent.mono (by decide)).trans (sends_deliverReport _ _)).listed_false (kind ▸ gone) (by decide)
  · have told : deliverReport (s.exhausted x) x.failure = fcClaimReport x.failure (s.exhausted x) := by
      simp only [deliverReport, Tx.failure, claim]
    rw [mode_of_settled counted] at unclaimed
    rw [told]
    cases mode : ((s.lp.without x).addErrors 4).mode with
    | solo =>
      have solo : (s.exhausted x).lp.mode = .solo := (mode_of_settled (exhausted_settled s x)).trans mode
      exact ((sentSolo mode).trans (fcClaimReport_claimless (.inr (.inr solo)))).listed_false (claim ▸ gone)
        List.not_mem_nil
    | normal =>
      have normal : s.lp.mode = .normal := by
        cases was : s.lp.mode with
        | normal => rfl
        | solo => exact absurd (mode.symm.trans (solo_of_errors law 4 was)) (by decide)
      rw [unchanged (normal.trans mode.symm)]
      have away : x.failure.reassert = true ∨ s.fc.state ≠ .claiming := by
        rcases unclaimed with again | away | solo
        · exact .inl again
        · exact .inr away
        · exact absurd (mode.symm.trans solo) (by decide)
      exact (fcClaimReport_claimless (s := { s with lp := (s.lp.without x).addErrors 4 })
        (away.imp_right .inl)).listed_false (claim ▸ gone) List.not_mem_nil
  · have told : deliverReport (s.exhausted x) x.failure = resolveNoAnswer r (s.exhausted x) := by
      have carried : requestMark x.failure.bytes = r.mark := mark
      simp only [deliverReport, Tx.failure, request, pmReport, tracked, flying]
      exact if_pos carried
    rw [told]
    exact resolveNoAnswer_inFlight r _
  · rw [unchanged same.symm]
    simp only [deliverReport, Tx.failure, request, pmReport, none]
    simp only [LinePort.without, request]
    rfl

/-- Settles O30. -/
theorem failedAttemptIsRetriedUpToSixteen : Obligations.FailedAttemptIsRetriedUpToSixteen := by
  intro t i x s a clock sending cause
  subst clock
  rw [exec_failAttempt sending cause]
  refine ⟨fun kept => congrArg _ (failAttempt_kept (s := s.advance t) sending kept),
    fun intact noRetry few => ⟨_, rfl, failAttempt_idle _, ?_⟩,
    fun intact many => ⟨_, rfl, failAttempt_idle _, ?_⟩⟩
  · rw [failAttempt_overtaken (s := s.advance t) sending intact noRetry few]
    exact overtaken_spec (s.advance t) x rfl
  · rw [failAttempt_last (s := s.advance t) sending intact many]
    exact exhausted_spec (s.advance t) x rfl

/-- The line port as an attempt that is complete leaves it. -/
def LinePort.completed (l : LinePort) (x : Tx) : LinePort :=
  { l.without x with
    claimOut := match x.kind with
      | .claim => true
      | .release => false
      | .request => l.claimOut
    rx := l.rx.map fun r => { r with own := r.count == x.bytes.length } }

/-- The report of an attempt that is complete. -/
def Tx.success (x : Tx) : Report :=
  { kind := x.kind, bytes := x.bytes, reassert := x.reassert, fate := .sent x.ends }

theorem complete_eq {l : LinePort} {x : Tx} (sending : l.tx = some x) (intact : x.place = .intact) :
    l.complete = (l.completed x, [x.success]) := by
  simp only [LinePort.complete, sending, if_pos intact]
  cases kind : x.kind <;> simp only [LinePort.completed, LinePort.without, Tx.success, kind]

theorem exec_transmissionComplete {t : Time} {x : Tx} {s : State} (sending : s.lp.tx = some x)
    (intact : x.place = .intact) (all : x.read = x.bytes.length) (past : x.ends ≤ (s.advance t).now) :
    exec (.transmissionComplete t) s =
      .next (deliverReport { s.advance t with lp := s.lp.completed x } x.success) := by
  have whole : x.whole (s.advance t).now = true := by
    rw [Tx.whole, all, beq_self_eq_true, Bool.and_true]
    exact decide_eq_true past
  refine congrArg Host.Outcome.next ?_
  simp only [advance_lp, sending]
  rw [if_pos whole, complete_eq sending intact]
  rfl

/-- R141: SENT of the CLAIM that is awaited opens the contest window; another is nothing to the floor controller. -/
theorem fcClaimReport_sent {x : Tx} {s : State} :
    fcClaimReport x.success s = if x.reassert || s.fc.state != .claiming then s
      else { s with fc := { s.fc with state := .contest, contestEnd := some (x.ends + contestTime) } } := rfl

theorem fcReleaseReport_idle {s : State} (idle : s.fc.state = .idle) :
    fcReleaseReport s = { s with fc := { s.fc with releasePending := false } } := by
  simp only [fcReleaseReport, idle, reduceCtorEq, if_false, fcTest]

theorem fcReleaseReport_ending {s : State} (ending : s.fc.state = .ending)
    (routine : ∀ it rest, s.pq.items = it :: rest → classLevel it.cls = .routine) :
    fcReleaseReport s = { s with
      fc := { s.fc with state := .spacing, spacing := some (s.now + spacingTime), releasePending := false } } :=
  (if_pos ending).trans
    (enterSpacing_of_routine (s := { s with fc := { s.fc with releasePending := false } }) routine)

/-- R12, R141, R149, R34: what the owner of a frame does on its SENT. -/
theorem completed_spec (s : State) (x : Tx) {l : LinePort} (left : l = s.lp.completed x) {u : State}
    (reported : u = deliverReport { s with lp := l } x.success) :
    u.lp.tx = none ∧ u.lp.listed x.kind = false ∧ (x.kind = .claim → u.lp.claimOut = true) ∧
      (x.kind = .claim → x.reassert = false → s.fc.state = .claiming →
        u.fc.state = .contest ∧ u.fc.contestEnd = some (x.ends + contestTime) ∧
        u.fc.utterance = s.fc.utterance) ∧
      (x.kind = .claim → x.reassert = true → u.fc = s.fc) ∧
      (x.kind = .release → u.lp.claimOut = false) ∧
      (x.kind = .release → s.fc.state = .idle → u.fc = { s.fc with releasePending := false }) ∧
      (x.kind = .release → s.fc.state = .ending →
        (∀ it rest, s.pq.items = it :: rest → classLevel it.cls = .routine) →
        u.fc = { s.fc with state := .spacing, spacing := some (s.now + spacingTime), releasePending := false }) ∧
      (∀ r, x.kind = .request → s.pm.inFlight = some r → requestMark x.bytes = r.mark →
        u.pm.inFlight = some { r with sent := true }) := by
  have gone : l.listed x.kind = false := left ▸ without_listed s.lp x
  have idle : l.tx = none := left ▸ rfl
  have out := congrArg LinePort.claimOut left
  cases kind : x.kind with
  | claim =>
    have told : u = fcClaimReport x.success { s with lp := l } := by
      simp only [reported, deliverReport, Tx.success, kind]
    have same : u.lp = l := by
      rw [told, fcClaimReport_sent]
      split <;> rfl
    have out : l.claimOut = true := by simpa only [LinePort.completed, kind] using out
    refine ⟨same ▸ idle, same ▸ kind ▸ gone, fun _ => same ▸ out, fun _ first awaited => ?_, fun _ again => ?_,
      nofun, nofun, nofun, nofun⟩
    · have first : (x.reassert || s.fc.state != .claiming) = false := by
        rw [first, awaited]; rfl
      rw [told, fcClaimReport_sent, if_neg (ne_true_of_eq_false first)]
      exact ⟨rfl, rfl, rfl⟩
    · have again : (x.reassert || s.fc.state != .claiming) = true := by
        rw [again, Bool.true_or]
      rw [told, fcClaimReport_sent, if_pos again]
  | release =>
    have told : u = fcReleaseReport { s with lp := l } := by
      simp only [reported, deliverReport, Tx.success, kind]
    have out : l.claimOut = false := by simpa only [LinePort.completed, kind] using out
    have sent := sends_fcReleaseReport { s with lp := l }
    have counted := outside_lp_settled (outside_fcReleaseReport { s with lp := l })
    refine ⟨told ▸ sent.idle idle, told ▸ sent.listed_false (kind ▸ gone) (by decide), nofun, nofun, nofun,
      fun _ => told ▸ (congrArg LinePort.claimOut counted :).trans out, fun _ state => ?_,
      fun _ state routine => ?_, nofun⟩
    · rw [told]
      exact congrArg State.fc (fcReleaseReport_idle (s := { s with lp := l }) state)
    · rw [told]
      exact congrArg State.fc (fcReleaseReport_ending (s := { s with lp := l }) state routine)
  | request =>
    have told : u = pmReport x.success { s with lp := l } := by
      simp only [reported, deliverReport, Tx.success, kind]
    have same : u.lp = l := by
      rw [told, pmReport]
      split
      · split <;> rfl
      · rfl
    refine ⟨same ▸ idle, same ▸ kind ▸ gone, nofun, nofun, nofun, nofun, nofun, nofun,
      fun r _ flying mark => ?_⟩
    rw [told]
    simp only [pmReport, flying]
    exact congrArg (fun v : State => v.pm.inFlight) (if_pos mark)

/-- Settles O31. -/
theorem completedFrameIsReported : Obligations.CompletedFrameIsReported := by
  intro t x s a clock sending intact all past
  subst clock
  have ends : x.ends = x.start + 10 * x.bytes.length * bitTime := by
    rw [Tx.ends, Nat.mul_right_comm]
  have contest : contestTime = 80 * milli := by rw [contestTime]
  have spacing : spacingTime = 600 * milli := by rw [spacingTime]
  refine ⟨_, exec_transmissionComplete sending intact all (ends ▸ past), ?_⟩
  rw [← ends, ← contest, ← spacing]
  exact completed_spec (s.advance t) x rfl rfl

end Sys2Proof.Machine
end

