-- ==== Sys2Proof/Proofs/Receptions.lean ====
section
/-! PROOFS. A reception that closes: what its verdict adds to the error count, and what the block that a good frame is
handed to makes of it. -/

namespace Sys2Proof.Machine

/-! ## The verdict and its count (R4, R7) -/

theorem judge_fragment {r : Reception} (short : r.count ≤ 2) : judge r = .fragment := if_pos short

theorem judge_bad {r : Reception} (long : 2 < r.count) (broken : r.faulted = true ∨ r.overlong = true) :
    judge r = .bad :=
  (if_neg (Nat.not_le.2 long)).trans (if_pos (by simpa only [Bool.or_eq_true] using broken))

/-- The state once a verdict is counted and a change of the line mode with it is taken. -/
def State.judged (s : State) (v : Verdict) : State := lineChanged s.lp { s with lp := countVerdict v s.lp }

theorem judged_outside (s : State) (v : Verdict) :
    (s.judged v).outside = { s with lp := countVerdict v s.lp }.outside := outside_lineChanged _ _

theorem judged_uncounted {s : State} {v : Verdict} (same : countVerdict v s.lp = s.lp) : s.judged v = s := by
  unfold State.judged
  rw [same]
  exact lineChanged_same rfl rfl

theorem takeReception_eq (r : Reception) (s : State) : takeReception r s =
    match judge r with
    | .good k n p => if n = (s.judged (judge r)).ownAddress then latchClash (s.judged (judge r))
      else dispatch k n p r.lastStop (s.judged (judge r))
    | .fragment | .bad | .unknownKind | .wrongRange => s.judged (judge r) := rfl

/-- A verdict that is counted leaves all but the count, and what follows of the mode. -/
theorem judged_spec (s : State) (v : Verdict) :
    (s.judged v).lp.errCount = (countVerdict v s.lp).errCount ∧ (s.judged v).lp.clash = s.lp.clash ∧
      (s.judged v).roster = s.roster ∧ (s.judged v).fc.view = s.fc.view ∧
      (s.judged v).fc.crowded = s.fc.crowded ∧ (s.judged v).pm = s.pm ∧
      (s.judged v).psp.machine = s.psp.machine := by
  have same := judged_outside s v
  have counted := outside_lp_settled same
  refine ⟨(congrArg LinePort.errCount counted :), (congrArg LinePort.clash counted :).trans ?_,
    (congrArg State.roster same :), (congrArg (fun x : State => x.fc.view) same :),
    (congrArg (fun x : State => x.fc.crowded) same :), (congrArg State.pm same :),
    (congrArg PhraseStore.machine (outside_psp_settled same) :)⟩
  cases v <;> rfl

theorem judged_ownAddress (s : State) (v : Verdict) : (s.judged v).ownAddress = s.ownAddress := by
  obtain ⟨-, -, -, -, -, -, machine⟩ := judged_spec s v
  simp only [State.ownAddress, machine]

theorem takeReception_judged {r : Reception} {s : State} (plain : ∀ k n p, judge r ≠ .good k n p) :
    takeReception r s = s.judged (judge r) := by
  rw [takeReception_eq]
  split
  · exact absurd ‹_› (plain _ _ _)
  all_goals rfl

theorem takeReception_good {r : Reception} {s : State} {k : RxKind} {n : Nat} {p : List Byte}
    (good : judge r = .good k n p) (other : n ≠ s.ownAddress) :
    takeReception r s = dispatch k n p r.lastStop (s.judged (.good k n p)) := by
  rw [takeReception_eq, good]
  exact if_neg (by rw [judged_ownAddress]; exact other)

theorem takeReception_own {r : Reception} {s : State} {k : RxKind} {p : List Byte}
    (good : judge r = .good k s.ownAddress p) :
    takeReception r s = latchClash (s.judged (.good k s.ownAddress p)) := by
  rw [takeReception_eq, good]
  exact if_pos (judged_ownAddress s _).symm

/-! ## What the blocks leave of the line port -/

theorem dispatch_settled (k : RxKind) (n : Nat) (p : List Byte) (t : Time) (s : State) :
    (dispatch k n p t s).lp.settled = s.lp.settled := by
  cases k with
  | status =>
    unfold dispatch
    dsimp only
    split
    · exact (based_pmStatus _ _ _).lp_settled
    · rfl
  | claim => exact (congrArg State.lp (outside_fcClaimReceived n (claimLevel p) (claimUnits p) t s) :)
  | release => exact (congrArg State.lp (outside_fcTest { s with fc := s.fc.forget n }) :)
  | request => rfl

theorem latchClash_settled {s : State} (clear : s.lp.clash = false) :
    (latchClash s).lp.settled = { s.lp with clash := true }.settled := by
  obtain ⟨set, -⟩ | ⟨-, latched⟩ := apart_latchClash s
  · exact absurd (clear.symm.trans set) (by decide)
  · exact latched.lp_settled

theorem takeReception_rx (r : Reception) (s : State) : (takeReception r s).lp.rx = s.lp.rx := by
  have judged (v : Verdict) : (s.judged v).lp.rx = s.lp.rx := by
    refine (congrArg LinePort.rx (outside_lp_settled (judged_outside s v)) :).trans ?_
    cases v <;> rfl
  cases verdict : judge r with
  | good k n p =>
    by_cases own : n = s.ownAddress
    · subst own
      rw [takeReception_own verdict]
      obtain ⟨-, same⟩ | ⟨-, latched⟩ := apart_latchClash (s.judged (.good k s.ownAddress p))
      · rw [same, judged]
      · exact (congrArg LinePort.rx latched.lp_settled :).trans (judged _)
    · rw [takeReception_good verdict own]
      exact (congrArg LinePort.rx (dispatch_settled k n p r.lastStop (s.judged (.good k n p))) :).trans (judged _)
  | fragment | bad | unknownKind | wrongRange =>
    rw [takeReception_judged (by simp [verdict]), verdict, judged]

/-- R44: a STATUS of another machine goes to the roster. -/
theorem dispatch_status {n : Nat} {p : List Byte} {t : Time} {s : State} (other : n ≠ s.psp.machine) :
    dispatch .status n p t s = { s with roster := rosterTake n p t s.roster } := if_neg other

/-! ## A claim in the view (R132) -/

/-- The entry a claim makes. -/
def claimEntry (n : Nat) (l : Level) (k : Nat) (t : Time) : ViewEntry :=
  { addr := n, level := l, arrival := t, expiry := t + k * floorUnit + claimGrace, speaking := false }

theorem findKey_isSome_iff {n : Nat} {es : List ViewEntry} :
    (findKey ViewEntry.addr n es).isSome = true ↔ ∃ e ∈ es, e.addr = n := by
  simp only [findKey, List.find?_isSome, beq_iff_eq]

theorem store_of_place {fc : Floor} {n : Nat} (l : Level) (k : Nat) (t : Time)
    (place : (∃ e ∈ fc.view, e.addr = n) ∨ fc.view.length < 8) :
    (fc.store n l k t).crowded = fc.crowded ∧
      (fc.store n l k t).view = putBy ViewEntry.addr (claimEntry n l k t) fc.view := by
  have stores : ((findKey ViewEntry.addr n fc.view).isSome || decide (fc.view.length < Config.viewCapacity)) = true := by
    rw [Bool.or_eq_true, decide_eq_true_eq, findKey_isSome_iff]
    exact place
  unfold Floor.store
  extract_lets
  rw [if_pos stores]
  exact ⟨rfl, rfl⟩

theorem store_of_full {fc : Floor} {n : Nat} (l : Level) (k : Nat) (t : Time)
    (new : ∀ e ∈ fc.view, e.addr ≠ n) (full : 8 ≤ fc.view.length) :
    (fc.store n l k t).view = fc.view ∧
      (fc.store n l k t).crowded = some (max (fc.crowded.getD 0) (t + k * floorUnit + claimGrace)) := by
  have stores : ¬((findKey ViewEntry.addr n fc.view).isSome || decide (fc.view.length < Config.viewCapacity)) = true := by
    rw [Bool.or_eq_true, decide_eq_true_eq, findKey_isSome_iff]
    rintro (⟨e, mem, addr⟩ | room)
    · exact new e mem addr
    · exact absurd full (Nat.not_le.2 room)
  unfold Floor.store
  extract_lets
  rw [if_neg stores]
  cases crowded : fc.crowded with
  | none => exact ⟨rfl, congrArg some (Nat.zero_max _).symm⟩
  | some c => exact ⟨rfl, rfl⟩

/-! ## CLASH (R5, R17) -/

/-- Nothing is queued or under way while CLASH is latched. -/
def Kernel.Clashed (k : Kernel) : Prop := k.clash = true → k.queue = [] ∧ k.tx = none

theorem clashed_change {a b : Kernel} (c : Change a b) (h : a.Clashed) : b.Clashed := by
  cases c with
  | transmit queue tx change => exact fun clash => ⟨change.quiet clash (h clash).1, change.tx_none (h clash).2⟩
  | begin p x _ clear => exact fun clash => absurd (clear.symm.trans clash) (by decide)
  | latch | reset => exact fun _ => ⟨rfl, rfl⟩
  | leave | place | update | phase | utter | play | work | tick => exact h

/-- R17: CLASH that latches empties the transmit queue and ends the attempt under way. -/
theorem latchClash_silent {s : State} (clear : s.lp.clash = false) :
    (latchClash s).lp.queue = [] ∧ (latchClash s).lp.tx = none := by
  have run : Changes { s with lp := s.lp.latchClash.1 }.kernel (latchClash s).kernel := by
    unfold latchClash
    rw [if_neg (ne_true_of_eq_false clear)]
    exact ((changes_fcClash _).trans (runs_deliverReports _ _).changes).trans (changes_fcLineChange _)
  have silent : (latchClash s).kernel.Clashed :=
    run.keep (fun _ _ => clashed_change) fun _ => ⟨rfl, rfl⟩
  exact silent (congrArg LinePort.clash (latchClash_settled clear) :)

/-! ## What the blocks make of a good frame (R5, R6, R132, R133) -/

/-- R132: a CLAIM of another station renews the claimant's entry or takes a place, or sets CROWDED. -/
theorem claimTaken_spec (n : Nat) (p : List Byte) (t : Time) (s : State) {u : State}
    (taken : u = dispatch .claim n p t (s.judged (.good .claim n p)) := by rfl) :
    u.lp.errCount = s.lp.errCount - 1 ∧ u.roster = s.roster ∧
      ((∃ e ∈ s.fc.view, e.addr = n) ∨ s.fc.view.length < 8 → u.fc.crowded = s.fc.crowded ∧
        u.fc.view = putBy ViewEntry.addr
          { addr := n, level := claimLevel p, arrival := t,
            expiry := t + claimUnits p * (100 * milli) + 800 * milli, speaking := false } s.fc.view) ∧
      ((∀ e ∈ s.fc.view, e.addr ≠ n) → 8 ≤ s.fc.view.length → u.fc.view = s.fc.view ∧
        u.fc.crowded = some (max (s.fc.crowded.getD 0) (t + claimUnits p * (100 * milli) + 800 * milli))) := by
  subst taken
  obtain ⟨count, -, roster, view, crowded, -⟩ := judged_spec s (.good .claim n p)
  have unit : 100 * milli = floorUnit := by rw [milli, floorUnit]
  have grace : 800 * milli = claimGrace := by rw [claimGrace]
  have same := outside_fcClaimReceived n (claimLevel p) (claimUnits p) t (s.judged (.good .claim n p))
  have heardView := (congrArg (fun x : State => x.fc.view) same :)
  have heardCrowded := (congrArg (fun x : State => x.fc.crowded) same :)
  rw [unit, grace]
  refine ⟨(congrArg LinePort.errCount (outside_lp_settled same) :).trans count,
    (congrArg State.roster same :).trans roster, fun place => ?_, fun new full => ?_⟩
  · obtain ⟨still, put⟩ := store_of_place (fc := (s.judged (.good .claim n p)).fc) (claimLevel p) (claimUnits p) t
      (by rw [view]; exact place)
    rw [view] at put
    exact ⟨heardCrowded.trans (still.trans crowded), heardView.trans put⟩
  · obtain ⟨still, set⟩ := store_of_full (fc := (s.judged (.good .claim n p)).fc) (claimLevel p) (claimUnits p) t
      (by rw [view]; exact new) (by rw [view]; exact full)
    rw [crowded] at set
    exact ⟨heardView.trans (still.trans view), heardCrowded.trans set⟩

/-- R133: a RELEASE of another station takes its entry out. -/
theorem releaseTaken_spec (n : Nat) (p : List Byte) (t : Time) (s : State) {u : State}
    (taken : u = dispatch .release n p t (s.judged (.good .release n p)) := by rfl) :
    u.lp.errCount = s.lp.errCount - 1 ∧ u.roster = s.roster ∧ u.fc.view = s.fc.view.filter (·.addr != n) ∧
      u.fc.crowded = s.fc.crowded := by
  subst taken
  obtain ⟨count, -, roster, view, crowded, -⟩ := judged_spec s (.good .release n p)
  have same := outside_fcTest { s.judged (.good .release n p) with
    fc := (s.judged (.good .release n p)).fc.forget n }
  exact ⟨(congrArg LinePort.errCount (outside_lp_settled same) :).trans count,
    (congrArg State.roster same :).trans roster,
    (congrArg (fun x : State => x.fc.view) same :).trans (congrArg (dropKey ViewEntry.addr n) view),
    (congrArg (fun x : State => x.fc.crowded) same :).trans crowded⟩

/-- R5: a good frame of the own address latches CLASH. -/
theorem clashTaken_spec (k : RxKind) (p : List Byte) {s : State} (clear : s.lp.clash = false) {u : State}
    (taken : u = latchClash (s.judged (.good k s.ownAddress p)) := by rfl) :
    u.lp.clash = true ∧ u.lp.mode = .solo ∧ u.lp.queue = [] ∧ u.lp.tx = none ∧
      u.lp.errCount = s.lp.errCount - 1 ∧ u.roster = s.roster ∧ u.fc.view = s.fc.view := by
  subst taken
  obtain ⟨count, clash, roster, view, -⟩ := judged_spec s (.good k s.ownAddress p)
  have clear := clash.trans clear
  obtain ⟨queue, tx⟩ := latchClash_silent clear
  have settled := latchClash_settled clear
  have latched : (latchClash (s.judged (.good k s.ownAddress p))).lp.clash = true :=
    (congrArg LinePort.clash settled :)
  obtain ⟨set, -⟩ | ⟨-, apart⟩ := apart_latchClash (s.judged (.good k s.ownAddress p))
  · exact absurd (clear.symm.trans set) (by decide)
  · exact ⟨latched, by simp [LinePort.mode, latched], queue, tx, (congrArg LinePort.errCount settled :).trans count,
      apart.roster_eq.trans roster, apart.view_eq.trans view⟩

/-! ## The reception closes -/

/-- The state with the delimiter complete and the reception set aside. -/
def State.quieted (s : State) : State := { s with lp := s.lp.quiet s.now }

theorem exec_receptionClose {t i : Time} {r : Reception} {s : State} (on : s.receiving = true)
    (opened : s.lp.rx = some r) (outside : s.lp.edge = none) (since : s.lp.idleSince = some i)
    (late : i + delimiter ≤ (s.advance t).now) :
    exec (.receptionClose t) s = .next (if r.own then (s.advance t).quieted
      else takeReception r (s.advance t).quieted) := by
  have ready : (s.receiving && s.lp.delimited (s.advance t).now) = true := by
    simp only [on, LinePort.delimited, LinePort.inByte, outside, since, Option.isSome_none, Bool.not_false,
      Bool.true_and]
    exact decide_eq_true late
  refine congrArg Host.Outcome.next ((if_pos ready).trans ?_)
  simp only [advance_lp, opened]
  rfl

/-- Settles O26. -/
theorem receptionIsJudged : Obligations.ReceptionIsJudged := by
  intro t i r s a clock on opened outside since late
  subst clock
  refine ⟨_, exec_receptionClose on opened outside since (by rw [delimiter]; exact late), ?_⟩
  have quieted : (s.advance t).quieted = { s.advance t with lp := { s.lp with
      rx := none, armed := true, dominantSince := none
      recessiveSince := some (s.lp.recessiveSince.getD ((s.advance t).now - 4 * bitTime)) } } := by
    simp only [State.quieted, LinePort.quiet, advance_lp, since, Option.getD_some, delimiter]
  have untaken (aside : judge r = .fragment ∨ judge r = .unknownKind) :
      takeReception r (s.advance t).quieted = (s.advance t).quieted := by
    rw [takeReception_judged (by rintro k n p good; simp [good] at aside)]
    rcases aside with verdict | verdict
    · rw [verdict]; exact judged_uncounted rfl
    · rw [verdict]; exact judged_uncounted rfl
  refine ⟨?_, fun aside => ?_, fun other verdict => ?_, judge_fragment, judge_bad, fun other verdict => ?_,
    fun m p other verdict machine address => ?_, fun n p other verdict address => ?_,
    fun n p other verdict address => ?_, fun n p other verdict address => ?_, fun k p other verdict clear => ?_⟩
  · split
    · rfl
    · exact takeReception_rx r _
  · rw [← quieted]
    split
    · rfl
    · exact untaken (aside.resolve_left ‹_›)
  all_goals rw [if_neg (ne_true_of_eq_false other)]
  · obtain ⟨count, -, roster, view, -, pm, -⟩ := judged_spec (s.advance t).quieted (judge r)
    rw [takeReception_judged (by simp [verdict])]
    rw [verdict] at count roster view pm ⊢
    exact ⟨count, roster, view, pm⟩
  · obtain ⟨count, -, roster, -⟩ := judged_spec (s.advance t).quieted (judge r)
    rw [takeReception_judged (by simp [verdict])]
    rw [verdict] at count roster ⊢
    exact ⟨count, roster⟩
  · obtain ⟨count, -, roster, -, -, -, number⟩ := judged_spec (s.advance t).quieted (.good .status m p)
    rw [takeReception_good (s := (s.advance t).quieted) verdict address, dispatch_status (number ▸ machine)]
    exact ⟨count, congrArg (rosterTake m p r.lastStop) roster⟩
  · rw [takeReception_good (s := (s.advance t).quieted) verdict address]
    exact claimTaken_spec n p r.lastStop (s.advance t).quieted
  · rw [takeReception_good (s := (s.advance t).quieted) verdict address]
    exact releaseTaken_spec n p r.lastStop (s.advance t).quieted
  · obtain ⟨count, -, roster, view, -⟩ := judged_spec (s.advance t).quieted (.good .request n p)
    rw [takeReception_good (s := (s.advance t).quieted) verdict address]
    exact ⟨count, roster, view⟩
  · rw [takeReception_own (s := (s.advance t).quieted) verdict]
    exact clashTaken_spec (s := (s.advance t).quieted) k p clear

end Sys2Proof.Machine
end

