-- ==== Sys2Proof/Proofs/InEnding.lean ====
section
/-! PROOFS. What a trigger, a withdrawal and a move of the dialogue do while the floor controller waits in ENDING: a
mark and a notice are nothing to it there, so the prompt queue alone changes. The first part is said for every
state: what the dialogue's moves leave. -/

namespace Sys2Proof.Machine

/-! ## Triggers (R95, R96) -/

theorem fcMark_ending {s : State} (ending : s.fc.state = .ending) (q : PromptQueue) :
    fcMark { s with pq := q } = { s with pq := q } := by
  simp only [fcMark, ending]

theorem fcNotice_ending {s : State} (ending : s.fc.state = .ending) (q : PromptQueue) (l : Level) :
    fcNotice l { s with pq := q } = { s with pq := q } := by
  simp only [fcNotice, ending]

theorem takeHead_ending {s : State} (ending : s.fc.state = .ending) : takeHead s = s :=
  takeHead_of_busy (by rw [ending]; decide)

theorem swappedNow_ending {s : State} (ending : s.fc.state = .ending) (means : Item → Bool) :
    s.swappedNow means = false :=
  Bool.eq_false_iff.2 fun met => absurd (ending.symm.trans (idle_of_swappedNow met)) (by decide)

theorem meetSwapped_ending {s : State} (ending : s.fc.state = .ending) (means : Item → Bool) :
    meetSwapped means s = s := by
  rw [meetSwapped, swappedNow_ending ending, if_neg Bool.false_ne_true]

/-- R96: the prompt queue once a trigger of the class has met the current item. -/
def PromptQueue.met (q : PromptQueue) (c : PromptClass) (supersede : Bool) : PromptQueue :=
  if supersede && q.supersedes c then q.supersede else q

theorem met_false (q : PromptQueue) (c : PromptClass) : q.met c false = q := rfl

theorem met_none {q : PromptQueue} (none : q.current = none) (c : PromptClass) (b : Bool) : q.met c b = q := by
  have nothing : q.supersedes c = false := by rw [PromptQueue.supersedes, none]
  rw [PromptQueue.met, nothing, Bool.and_false, if_neg Bool.false_ne_true]

/-- R95: the item of a trigger, which HUSH may lower. -/
def State.itemOf (s : State) (c : PromptClass) (p : Params) (r : Reach) : Item := newItem c p (s.hushed c r) s.now

/-- R95, R96: the prompt queue with an item placed for a trigger. -/
def PromptQueue.placed (q : PromptQueue) (c : PromptClass) (b : Bool) (it : Item) : PromptQueue :=
  { q.met c b with items := putBy Item.rank it q.items }

/-- R96: the prompt queue with the queued item of a trigger updated. -/
def PromptQueue.updated (q : PromptQueue) (c : PromptClass) (b : Bool) (it : Item) : PromptQueue :=
  { q.met c b with items := updateItem it q.items }

/-- R95: in ENDING a class that is not queued takes its place in the order, where there is room. -/
theorem putTrigger_new {s : State} {c : PromptClass} (p : Params) (r : Reach) (b : Bool)
    (ending : s.fc.state = .ending) (new : s.pq.queued c = false) (room : s.pq.items.length < 8) :
    putTrigger c p r b s = { s with pq := s.pq.placed c b (s.itemOf c p r) } := by
  simp only [putTrigger, new, Bool.false_eq_true, if_false, placeNew_of_room room, if_true, PromptQueue.placed,
    PromptQueue.met]
  split
  · rw [fcMark_ending ending]
    exact fcNotice_ending ending _ _
  · exact fcNotice_ending ending _ _

/-- R96: in ENDING a class that is queued has its item updated. -/
theorem putTrigger_queued {s : State} {c : PromptClass} (p : Params) (r : Reach) (b : Bool)
    (ending : s.fc.state = .ending) (queued : s.pq.queued c = true) :
    putTrigger c p r b s = { s with pq := s.pq.updated c b (s.itemOf c p r) } := by
  unfold putTrigger
  extract_lets it mark _ a placed _ x
  rw [if_pos queued]
  simp only [a, mark, PromptQueue.updated, PromptQueue.met]
  split
  · exact fcMark_ending ending _
  · rfl

theorem placeTrigger_ending {s : State} (ending : s.fc.state = .ending) (c : PromptClass) (p : Params) (r : Reach)
    (b : Bool) : placeTrigger c p r b s = putTrigger c p r b s := by
  rw [placeTrigger, meetSwapped_ending ending]

/-- R93: a trigger by itself, of a class that is not queued. -/
theorem triggerAs_new {s : State} {c : PromptClass} (p : Params) (r : Reach) (b : Bool)
    (ending : s.fc.state = .ending) (new : s.pq.queued c = false) (room : s.pq.items.length < 8) :
    triggerAs c p r b s = { s with pq := s.pq.placed c b (s.itemOf c p r) } := by
  rw [triggerAs, placeTrigger_ending ending, putTrigger_new p r b ending new room]
  exact takeHead_ending ending

theorem trigger_new {s : State} {c : PromptClass} (p : Params) (ending : s.fc.state = .ending)
    (new : s.pq.queued c = false) (room : s.pq.items.length < 8) :
    trigger c p s = { s with pq := s.pq.placed c true (s.itemOf c p (baseReach c)) } :=
  triggerAs_new p _ true ending new room

/-- R110: what is of LOCAL reach stays so. -/
theorem hushed_loc (s : State) (c : PromptClass) : s.hushed c .loc = .loc := ite_self _

theorem itemOf_loc (s : State) (c : PromptClass) (p : Params) : s.itemOf c p .loc = newItem c p .loc s.now := by
  rw [State.itemOf, hushed_loc]

/-! ## What rests in ENDING -/

/-- From `s` to `t` the floor controller, waiting in ENDING, goes on waiting there, and the line port stands. -/
def Rests (s t : State) : Prop := s.fc.state = .ending → t.fc.state = .ending ∧ t.lp = s.lp

theorem Rests.refl (s : State) : Rests s s := fun ending => ⟨ending, rfl⟩

theorem Rests.trans {a b c : State} (h : Rests a b) (g : Rests b c) : Rests a c := fun ending =>
  have ⟨still, lp⟩ := h ending
  have ⟨still', lp'⟩ := g still
  ⟨still', lp'.trans lp⟩

theorem Rests.same {s t : State} (fc : t.fc = s.fc := by rfl) (lp : t.lp = s.lp := by rfl) : Rests s t :=
  fun ending => ⟨fc ▸ ending, lp⟩

theorem rests_fcMark (s : State) : Rests s (fcMark s) := fun ending =>
  have same : fcMark s = s := fcMark_ending ending s.pq
  ⟨same.symm ▸ ending, congrArg State.lp same⟩

theorem rests_fcNotice (l : Level) (s : State) : Rests s (fcNotice l s) := fun ending =>
  have same : fcNotice l s = s := fcNotice_ending ending s.pq l
  ⟨same.symm ▸ ending, congrArg State.lp same⟩

theorem rests_takeHead (s : State) : Rests s (takeHead s) := fun ending =>
  have same := takeHead_ending ending
  ⟨same.symm ▸ ending, congrArg State.lp same⟩

theorem rests_putTrigger (c : PromptClass) (p : Params) (r : Reach) (b : Bool) (s : State) :
    Rests s (putTrigger c p r b s) := by
  unfold putTrigger
  extract_lets it mark _ a placed _ x
  split
  · have updated : Rests s a := .same
    split
    · exact updated.trans (Rests.trans (b := { a with pq := a.pq.supersede }) .same (rests_fcMark _))
    · exact updated
  · have joined : Rests s placed.1 := by
      have frame := placeNew_frame it s
      exact .same (congrArg State.fc frame :) (congrArg State.lp frame :)
    have met : Rests s x := by
      simp only [x]
      split
      · exact joined.trans (Rests.trans (b := { placed.1 with pq := placed.1.pq.supersede }) .same (rests_fcMark _))
      · exact joined
    split
    · exact met.trans (rests_fcNotice _ x)
    · exact met

theorem rests_trigger (c : PromptClass) (p : Params) (s : State) : Rests s (trigger c p s) := fun ending => by
  have same : trigger c p s = takeHead (putTrigger c p (baseReach c) true s) :=
    congrArg takeHead (placeTrigger_ending ending c p (baseReach c) true)
  rw [same]
  exact ((rests_putTrigger c p (baseReach c) true s).trans (rests_takeHead _)) ending

theorem activity_rests (s : State) : Rests s (activity s) := by
  unfold activity
  split
  · exact .same
  · exact .refl s

theorem rests_busyTrigger (c : PromptClass) (p : Params) (s : State) : Rests s (busyTrigger c p s) :=
  (activity_rests s).trans (rests_trigger c p _)

theorem rests_withdraw (k : CondKey) (s : State) : Rests s (withdraw k s) := fun ending => by
  have held : withdraw k s = withdrawHeld (fun _ x => x == k) s := by
    rw [withdraw, withdrawMeant, swappedNow_ending ending, if_neg Bool.false_ne_true]
  rw [held]
  unfold withdrawHeld
  extract_lets _ a
  have left : Rests s a := fun ending => ⟨ending, rfl⟩
  split
  · split
    · exact (left.trans (Rests.trans (b := { a with pq := a.pq.withdraw }) .same (rests_fcMark _))) ending
    · exact left ending
  · exact left ending

theorem rests_dcDiscard (s : State) : Rests s (dcDiscard s) := by
  unfold dcDiscard
  extract_lets held _ a b
  have closed : Rests s a := .same
  have ended : Rests s b := by
    simp only [b]
    split
    · exact closed.trans (rests_withdraw .selecting { a with au := a.au.noReminder })
    · exact closed
  exact ended

theorem rests_dcResolved (r : AnswerResult) (s : State) : Rests s (dcResolved r s) := by
  unfold dcResolved
  split
  · split
    · exact .same
    · exact rests_dcDiscard s
  · exact .refl s

theorem rests_darkFirst (s : State) : Rests s (darkFirst s) := by
  unfold darkFirst
  split
  · unfold goDark
    extract_lets _ a
    have forced : Rests s a := by
      simp only [a, dcForced]
      split
      · exact .same
      · exact rests_dcDiscard { s with au := { s.au with state := .dark, dim := none, dark := none } }
    exact forced
  · exact .refl s

theorem rests_resolveNoAnswer (r : Request) (s : State) : Rests s (resolveNoAnswer r s) :=
  ((rests_darkFirst s).trans (rests_busyTrigger _ _ (darkFirst s).untracked)).trans (rests_dcResolved _ _)

/-! ## The dialogue's moves (R71, R72, R83, R87, R88) -/

/-- R72: the attention unit as the end of a selection leaves it. -/
def State.afterDiscard (s : State) : State :=
  { s with dc := Dialogue.reset, pu := s.pu.closeList,
           au := if s.dc.state.selecting then s.au.noReminder else s.au }

theorem outside_dcDiscard (s : State) : (dcDiscard s).outside = s.afterDiscard.outside := by
  unfold dcDiscard State.afterDiscard
  extract_lets held _ a b
  have ended : b.outside = { a with au := if held then a.au.noReminder else a.au }.outside := by
    simp only [b]
    split
    · exact outside_withdraw .selecting { a with au := a.au.noReminder }
    · rfl
  have renamed (x y : State) (same : x.outside = y.outside) :
      { x with dc := Dialogue.reset }.outside = { y with dc := Dialogue.reset }.outside := by
    have aside (z : State) : { z with dc := Dialogue.reset }.outside = { z.outside with dc := Dialogue.reset } := rfl
    rw [aside, aside, same]
  exact renamed _ _ ended

/-! ## The attention unit's timers (R168, R169, R171) -/

/-- R87, R88: a forced end leaves the dialogue in VIEW. -/
theorem dcForced_of_view {s : State} (view : s.dc.state = .view) : dcForced s = s := if_pos view

theorem dcForced_of_open {s : State} (opened : s.dc.state ≠ .view) : dcForced s = dcDiscard s := if_neg opened

/-- R169: DARK entered. -/
theorem goDark_spec (s : State) : (goDark s).au = { state := .dark, dim := none, dark := none, reprompt := none, count := 0 } ∧
    (goDark s).dc.state = .view ∧ (s.dc.state ≠ .view → (goDark s).dc = Dialogue.reset ∧ (goDark s).pu.listLen = none) ∧
    (s.dc.state = .view → (goDark s).dc = s.dc) ∧
    (goDark s).cp.currentLang = s.cp.defaultLang ∧ (goDark s).pm = s.pm := by
  unfold goDark
  extract_lets _ a
  by_cases view : s.dc.state = .view
  · have same : a = { s with au := { s.au with state := .dark, dim := none, dark := none } } := dcForced_of_view view
    rw [same]
    exact ⟨rfl, view, fun opened => absurd view opened, fun _ => rfl, rfl, rfl⟩
  · have same : a = dcDiscard { s with au := { s.au with state := .dark, dim := none, dark := none } } :=
      dcForced_of_open view
    have left := outside_dcDiscard { s with au := { s.au with state := .dark, dim := none, dark := none } }
    rw [← same] at left
    have dc : a.dc = Dialogue.reset := (congrArg State.dc left :)
    have pu : a.pu = s.pu.closeList := (congrArg State.pu left :)
    have pm : a.pm = s.pm := (congrArg State.pm left :)
    have lang : a.cp.defaultLang = s.cp.defaultLang := (congrArg (fun x : State => x.cp.defaultLang) left :)
    have au : a.au.noReminder = { s.au with state := .dark, dim := none, dark := none }.noReminder := by
      refine (congrArg (fun x : State => x.au.noReminder) left :).trans ?_
      simp only [State.afterDiscard]
      show (if _ then _ else _ : AttentionUnit).noReminder = _
      split <;> rfl
    refine ⟨au, by rw [dc]; rfl, fun _ => ⟨dc, by rw [pu]; rfl⟩, fun closed => absurd closed view, lang, pm⟩

theorem darkDue_of_le {s : State} {e : Time} (lit : s.au.state ≠ .dark) (set : s.au.dark = some e) (late : e ≤ s.now) :
    s.darkDue = true := by
  rw [State.darkDue, bne_iff_ne.2 lit, Bool.true_and]
  exact due_of_le set late

theorem darkFirst_of_due {s : State} (due : s.darkDue = true) : darkFirst s = goDark s := if_pos due

theorem darkFirst_of_undue {s : State} (undue : s.darkDue = false) : darkFirst s = s :=
  if_neg (ne_true_of_eq_false undue)

theorem exec_dimTimeout {t e : Time} {s : State} (lit : s.au.state = .active) (set : s.au.dim = some e)
    (late : e ≤ (s.advance t).now) : exec (.dimTimeout t) s =
      .next { s.advance t with au := { s.au with state := .dim, dim := none } } := by
  have on : (s.au.state == .active && due s.au.dim (s.advance t).now) = true := by
    rw [lit, due_of_le set late]; rfl
  exact congrArg Host.Outcome.next (if_pos on)

/-- The attention unit once its reprompt timer has run out. -/
def State.reminded (s : State) : State :=
  { s with au := { s.au with
      count := s.au.count + 1
      reprompt := if s.au.count + 1 < 2 then s.psp.profile.reprompt.map (s.now + ·) else none } }

theorem reprompt_eq (s : State) :
    reprompt s = trigger .reprompt (.one (repromptList s.dc.state)) s.reminded := rfl

theorem exec_repromptTimeout {t e : Time} {s : State} (opened : s.dc.state.selecting = true)
    (set : s.au.reprompt = some e) (late : e ≤ (s.advance t).now) :
    exec (.repromptTimeout t) s = .next (reprompt (s.advance t)) := by
  have on : (s.dc.state.selecting && due s.au.reprompt (s.advance t).now) = true := by
    rw [opened, due_of_le set late]; rfl
  exact congrArg Host.Outcome.next (if_pos on)

theorem repromptList_of_selecting {d : DialogueState} (opened : d.selecting = true) :
    repromptList d = if d = .browseProgram then 0 else if d = .browseOption then 1 else 2 := by
  cases d with
  | browseProgram | browseOption | confirm => rfl
  | view | awaitAnswer => exact absurd opened (by decide)

/-- Settles O58. -/
theorem attentionTimersRun : Obligations.AttentionTimersRun := by
  refine ⟨⟨fun t e s a clock lit set late => ?_, fun t e s a clock lit set late => ?_⟩,
    fun t e s a clock opened set late => ?_⟩
  · subst clock
    exact exec_dimTimeout lit set late
  · subst clock
    obtain ⟨au, view, closed, -, lang, pm⟩ := goDark_spec (s.advance t)
    refine ⟨_, rfl, ?_⟩
    rw [darkFirst_of_due (darkDue_of_le (s := s.advance t) lit set late)]
    exact ⟨au, view, closed, lang, pm⟩
  · subst clock
    have left := outside_trigger .reprompt (.one (repromptList s.dc.state)) (s.advance t).reminded
    refine ⟨_, exec_repromptTimeout opened set late, (congrArg State.au left :), (congrArg State.dc left :),
      (congrArg State.pm left :), fun ending new room => ?_⟩
    rw [reprompt_eq, trigger_new (s := (s.advance t).reminded) _ ending new room]
    rw [← repromptList_of_selecting opened]
    exact congrArg (fun it => putBy Item.rank it s.pq.items)
      (itemOf_loc (s.advance t).reminded .reprompt (.one (repromptList s.dc.state)))

/-! ## Call timers (R106) -/

/-- R106: the prompt queue with the timer of a series stopped. -/
def State.callStopped (s : State) (r : Series) : State :=
  { s with pq := s.pq.setSeries r { s.pq.series r with timer := none } }

theorem setSeries_items (q : PromptQueue) (r : Series) (x : SeriesState) : (q.setSeries r x).items = q.items := by
  cases r <;> rfl

/-- R168: activity in RUN. -/
theorem activity_running {s : State} (run : s.psp.phase = .run) :
    activity s = { s with au := { s.au.restart s.psp.profile s.now with state := .active } } :=
  if_pos (by rw [State.running, run]; rfl)

theorem exec_callTimerExpire {t e : Time} {r : Series} {s : State} (set : (s.pq.series r).timer = some e)
    (late : e ≤ (s.advance t).now) : exec (.callTimerExpire t r) s = .next (callExpiry r (s.advance t)) :=
  congrArg Host.Outcome.next (if_pos (due_of_le set late))

theorem callParams_callStopped (s : State) (r v : Series) : (s.callStopped r).callParams v = s.callParams v := by
  cases v with
  | fault | actionFirst | actionSecond | payment => rfl
  | unload => exact congrArg (fun d => Params.one (minutesSince d s.now)) (setSeries_doneSince _ _ _)

/-- R106: whether the expiry of a call timer places its class. -/
theorem callExpiry_eq (r : Series) (s : State) : callExpiry r s =
    if s.holds (seriesKey r) && !s.pq.queued (seriesClass r) && !s.pq.isCurrent (seriesClass r) then
      triggerAs (seriesClass r) (s.callParams r) (baseReach (seriesClass r)) false (activity (s.callStopped r))
    else s.callStopped r := by
  rw [← callParams_callStopped s r r]
  have queued : (s.callStopped r).pq.queued = s.pq.queued := by
    funext c
    exact congrArg (List.any · _) (setSeries_items _ _ _)
  have current : (s.callStopped r).pq.isCurrent = s.pq.isCurrent := by
    funext c
    simp only [PromptQueue.isCurrent, State.callStopped, setSeries_current]
  have holds : (s.callStopped r).holds = s.holds := rfl
  rw [← queued, ← current, ← holds]
  rfl

theorem itemOf_seriesClass (s : State) (r : Series) (p : Params) (x : Reach) : s.itemOf (seriesClass r) p x =
    { cls := seriesClass r, params := p, machines := none, reach := s.hushed (seriesClass r) x, expiry := none,
      key := seriesKey r, enqueued := s.now } := by
  cases r <;> rfl

/-- R168: in ENDING a call timer that places its class does so in its place of the order. -/
theorem callExpiry_places {r : Series} {s : State} (holds : s.holds (seriesKey r) = true)
    (new : s.pq.queued (seriesClass r) = false) (other : s.pq.isCurrent (seriesClass r) = false)
    (ending : s.fc.state = .ending) (room : s.pq.items.length < 8) (run : s.psp.phase = .run) :
    (callExpiry r s).pq = { (s.callStopped r).pq with
      items := putBy Item.rank (s.itemOf (seriesClass r) (s.callParams r) (baseReach (seriesClass r))) s.pq.items } ∧
    (callExpiry r s).au.state = .active := by
  have places : (s.holds (seriesKey r) && !s.pq.queued (seriesClass r) && !s.pq.isCurrent (seriesClass r)) = true := by
    rw [holds, new, other]; rfl
  have items : (s.callStopped r).pq.items = s.pq.items := setSeries_items _ _ _
  have hush : (s.callStopped r).pq.hush = s.pq.hush := setSeries_hush _ _ _
  have item (p : Params) (x : Reach) : (activity (s.callStopped r)).itemOf (seriesClass r) p x =
      s.itemOf (seriesClass r) p x := by
    rw [activity_running (s := s.callStopped r) run]
    simp only [State.itemOf, State.hushed, hush]
    rfl
  have active := activity_running (s := s.callStopped r) run
  rw [callExpiry_eq, if_pos places, triggerAs_new]
  · rw [item, active]
    refine ⟨?_, rfl⟩
    simp only [PromptQueue.placed, met_false, items]
  · rw [active]
    exact ending
  · rw [active]
    exact (congrArg (List.any · _) items).trans new
  · rw [active]
    exact (congrArg List.length items).trans_lt room

/-- Settles O45. -/
theorem callTimerPlacesItsClass : Obligations.CallTimerPlacesItsClass := by
  intro t e r s a clock set late
  subst clock
  rw [exec_callTimerExpire set late]
  refine ⟨fun idle => ?_, fun holds new other ending room run => ?_⟩
  · have stays : ¬((s.advance t).holds (seriesKey r) && !(s.advance t).pq.queued (seriesClass r) &&
        !(s.advance t).pq.isCurrent (seriesClass r)) = true := by
      show ¬(s.holds (seriesKey r) && !s.pq.queued (seriesClass r) && !s.pq.isCurrent (seriesClass r)) = true
      rcases idle with ended | queued | current
      · simp [ended]
      · simp [queued]
      · simp [current]
    rw [callExpiry_eq, if_neg stays]
    rfl
  · obtain ⟨pq, au⟩ := callExpiry_places (s := s.advance t) holds new other ending room run
    rw [itemOf_seriesClass] at pq
    exact ⟨_, rfl, pq, au⟩

end Sys2Proof.Machine
end

