-- ==== Sys2Proof/Proofs/Resolutions.lean ====
section
/-! PROOFS. How a request in flight is resolved without an answer: by its deadline, and by the partner's loss. -/

namespace Sys2Proof.Machine

/-! ## The dialogue after a resolution (R83, R85) -/

theorem dcResolved_elsewhere {r : AnswerResult} {s : State} (away : s.dc.state ≠ .awaitAnswer) :
    dcResolved r s = s := if_neg away

/-- R83: a refusal leads back to CONFIRM where it came from there and the partner can take a selection. -/
theorem dcResolved_back {r : AnswerResult} {s : State} (awaited : s.dc.state = .awaitAnswer)
    (refused : r ≠ .accepted) (ret : s.dc.ret = some .confirm) (selects : s.selectable = true) :
    dcResolved r s = selectingBegins { s with dc := { s.dc with state := .confirm, ret := none } } := by
  have back : (r != .accepted && s.dc.ret == some .confirm && s.selectable) = true := by
    rw [bne_iff_ne.2 refused, ret, selects]; rfl
  exact (if_pos awaited).trans (if_pos back)

/-- R83: any other resolution discards. -/
theorem dcResolved_discard {r : AnswerResult} {s : State} (awaited : s.dc.state = .awaitAnswer)
    (past : r = .accepted ∨ s.dc.ret ≠ some .confirm ∨ s.selectable = false) : dcResolved r s = dcDiscard s := by
  have gone : ¬(r != .accepted && s.dc.ret == some .confirm && s.selectable) = true := by
    rcases past with accepted | other | closed
    · simp [accepted]
    · simp [other]
    · simp [closed]
  exact (if_pos awaited).trans (if_neg gone)

/-- R72: with SELECTING not holding a discard moves the dialogue and closes the list, and no more. -/
theorem dcDiscard_unselecting {s : State} (closed : s.dc.state.selecting = false) :
    dcDiscard s = { s with dc := Dialogue.reset, pu := s.pu.closeList } := by
  simp only [dcDiscard, closed, Bool.false_eq_true, if_false]

theorem dcResolved_cases (r : AnswerResult) (s : State) : dcResolved r s = s ∨
    s.dc.state = .awaitAnswer ∧
      (dcResolved r s = selectingBegins { s with dc := { s.dc with state := .confirm, ret := none } } ∨
        dcResolved r s = { s with dc := Dialogue.reset, pu := s.pu.closeList }) := by
  by_cases awaited : s.dc.state = .awaitAnswer
  · refine .inr ⟨awaited, ?_⟩
    unfold dcResolved
    rw [if_pos awaited]
    split
    · exact .inl rfl
    · exact .inr (dcDiscard_unselecting (by rw [awaited]; rfl))
  · exact .inl (dcResolved_elsewhere awaited)

/-- A resolution concerns the dialogue, the panel's list and the reminder alone. -/
theorem dcResolved_leaves (r : AnswerResult) (s : State) : (dcResolved r s).pq = s.pq ∧
    (dcResolved r s).au.state = s.au.state := by
  rcases dcResolved_cases r s with same | ⟨-, same | same⟩
  · rw [same]
    exact ⟨rfl, rfl⟩
  · rw [same]
    exact ⟨rfl, by simp only [selectingBegins, reminder_state]⟩
  · rw [same]
    exact ⟨rfl, rfl⟩

/-! ## DARK of the same moment (R88) -/

theorem pm_darkFirst (s : State) : (darkFirst s).pm = s.pm := by
  unfold darkFirst
  split
  · obtain ⟨-, -, -, -, -, pm⟩ := goDark_spec s
    exact pm
  · rfl

theorem dc_darkFirst (s : State) : (darkFirst s).dc = s.dc ∨ s.darkDue = true ∧ s.dc.state ≠ .view ∧
    (darkFirst s).dc = Dialogue.reset := by
  cases due : s.darkDue with
  | false => exact .inl (by rw [darkFirst_of_undue due])
  | true =>
    obtain ⟨-, -, closed, view, -, -⟩ := goDark_spec s
    rw [darkFirst_of_due due]
    by_cases v : s.dc.state = .view
    · exact .inl (view v)
    · exact .inr ⟨rfl, v, (closed v).1⟩

/-- R169: DARK without a selection open leaves the prompt queue. -/
theorem goDark_pq {s : State} (closed : s.dc.state.selecting = false) : (goDark s).pq = s.pq := by
  unfold goDark
  extract_lets _ a
  have same : a.pq = s.pq := by
    simp only [a, dcForced]
    split
    · rfl
    · exact (congrArg State.pq (dcDiscard_unselecting
        (s := { s with au := { s.au with state := .dark, dim := none, dark := none } }) closed) :)
  exact same

theorem darkFirst_pq {s : State} (calm : s.dc.state.selecting = false ∨ s.darkDue = false) :
    (darkFirst s).pq = s.pq := by
  cases due : s.darkDue with
  | false => rw [darkFirst_of_undue due]
  | true =>
    rw [darkFirst_of_due due]
    exact goDark_pq (calm.resolve_right (by rw [due]; decide))

/-! ## The deadline (R36, R38) -/

theorem dc_busyTrigger (c : PromptClass) (p : Params) (s : State) : (busyTrigger c p s).dc = s.dc := by
  have same : (busyTrigger c p s).beyond = s.beyond :=
    (beyond_of_outside (outside_trigger c p (activity s))).trans (beyond_activity s)
  exact (congrArg State.dc same :)

/-- R92: the trigger of the request tracker is secondary activity. -/
theorem busyTrigger_active {s : State} (run : s.psp.phase = .run) (c : PromptClass) (p : Params) :
    (busyTrigger c p s).au.state = .active := by
  have same := outside_trigger c p (activity s)
  have au : (busyTrigger c p s).au = (activity s).au := (congrArg State.au same :)
  rw [au, activity_running run]

/-- R95: in ENDING the request tracker's prompt takes its place. -/
theorem busyTrigger_items {s : State} {c : PromptClass} (p : Params) (ending : s.fc.state = .ending)
    (new : s.pq.queued c = false) (room : s.pq.items.length < 8) :
    (busyTrigger c p s).pq.items = putBy Item.rank (s.itemOf c p (baseReach c)) s.pq.items := by
  have acted : ∃ x, activity s = { s with au := x } := by
    unfold activity
    split
    · exact ⟨_, rfl⟩
    · exact ⟨s.au, rfl⟩
  obtain ⟨x, same⟩ := acted
  rw [busyTrigger, same, trigger_new (s := { s with au := x }) p ending new room]
  rfl

/-- R36, R38, R88: the resolution NO_ANSWER and what it leaves. -/
theorem resolveNoAnswer_spec (r : Request) (s : State) {u : State} (resolved : u = resolveNoAnswer r s) :
    u.pm = { s.pm with inFlight := none } ∧
    (s.dc.state = .awaitAnswer → s.dc.ret = some .confirm → s.selectable = true → s.darkDue = false →
      u.dc = { s.dc with state := .confirm, ret := none }) ∧
    (s.dc.state = .awaitAnswer → (s.dc.ret ≠ some .confirm ∨ s.selectable = false) → u.dc = Dialogue.reset) ∧
    (s.dc.state ≠ .awaitAnswer → (s.dc.state = .view ∨ s.darkDue = false) → u.dc = s.dc) ∧
    (s.darkDue = true → s.dc.state ≠ .view → u.dc = Dialogue.reset) ∧
    (s.psp.phase = .run → u.au.state = .active) ∧
    (s.fc.state = .ending → u.lp = s.lp) ∧
    (s.fc.state = .ending → s.pq.queued .noAnswer = false → s.pq.items.length < 8 →
      (s.dc.state.selecting = false ∨ s.darkDue = false) →
      u.pq.items = putBy Item.rank (newItem .noAnswer (.one (reqCode r.kind)) .loc s.now) s.pq.items) := by
  subst resolved
  have marks : (darkFirst s).untracked.pm = { s.pm with inFlight := none } := by
    simp only [State.untracked, pm_darkFirst]
  have placed : (busyTrigger .noAnswer (.one (reqCode r.kind)) (darkFirst s).untracked).pm =
      { s.pm with inFlight := none } := (pm_busyTrigger _ _ _).trans marks
  have moved : (busyTrigger .noAnswer (.one (reqCode r.kind)) (darkFirst s).untracked).dc = (darkFirst s).dc :=
    dc_busyTrigger _ _ _
  have able : (busyTrigger .noAnswer (.one (reqCode r.kind)) (darkFirst s).untracked).selectable = s.selectable := by
    simp only [State.selectable, PartnerMonitor.isFresh, placed]
  unfold resolveNoAnswer
  generalize busy : busyTrigger .noAnswer (.one (reqCode r.kind)) (darkFirst s).untracked = b at *
  refine ⟨(pm_dcResolved _ _).trans placed, fun awaited ret selects lit => ?_, fun awaited past => ?_,
    fun away calm => ?_, fun due opened => ?_, fun run => ?_, fun ending => ?_, fun ending new room calm => ?_⟩
  · rw [darkFirst_of_undue lit] at moved
    rw [dcResolved_back (moved ▸ awaited) (by decide) (moved ▸ ret) (able.trans selects)]
    simp only [selectingBegins, moved]
  · rcases dc_darkFirst s with same | ⟨-, -, reset⟩
    · rw [dcResolved_discard]
      · rfl
      · rw [moved, same]; exact awaited
      · rw [moved, same, able]; exact .inr past
    · rw [dcResolved_elsewhere (by rw [moved, reset]; decide), moved, reset]
  · have stays : (darkFirst s).dc = s.dc := by
      rcases dc_darkFirst s with same | ⟨due, opened, -⟩
      · exact same
      · exact absurd (calm.resolve_left opened) (by rw [due]; decide)
    rw [dcResolved_elsewhere (by rw [moved, stays]; exact away), moved, stays]
  · have reset : (darkFirst s).dc = Dialogue.reset := by
      obtain ⟨-, -, closed, -⟩ := goDark_spec s
      rw [darkFirst_of_due due]
      exact (closed opened).1
    rw [dcResolved_elsewhere (by rw [moved, reset]; decide), moved, reset]
  · rw [(dcResolved_leaves _ _).2, ← busy]
    exact busyTrigger_active (s := (darkFirst s).untracked) ((apart_darkFirst s).phase_eq.trans run) _ _
  · have rests := (rests_resolveNoAnswer r s ending).2
    rw [resolveNoAnswer, busy] at rests
    exact rests
  · have waits := (rests_darkFirst s ending).1
    have queue := darkFirst_pq calm
    rw [(dcResolved_leaves _ _).1, ← busy,
      busyTrigger_items (s := (darkFirst s).untracked) _ waits (by rw [untracked_pq, queue]; exact new)
        (by rw [untracked_pq, queue]; exact room), untracked_pq, queue]
    refine congrArg (putBy Item.rank · _) ((itemOf_loc _ .noAnswer _).trans ?_)
    exact congrArg (newItem .noAnswer (.one (reqCode r.kind)) .loc) (apart_darkFirst s).now_eq

theorem exec_requestDeadline {t : Time} {r : Request} {s : State} (flying : s.pm.inFlight = some r)
    (late : r.deadline ≤ (s.advance t).now) : exec (.requestDeadline t) s =
      .next (resolveNoAnswer r { s.advance t with lp := s.lp.remove .request }) := by
  refine congrArg Host.Outcome.next ?_
  simp only [advance_pm, flying]
  exact if_pos late

/-- Settles O33. -/
theorem deadlineResolvesTheRequest : Obligations.DeadlineResolvesTheRequest := by
  intro t r s a clock flying late
  subst clock
  obtain ⟨pm, back, discard, stays, dark, active, lp, items⟩ :=
    resolveNoAnswer_spec r { s.advance t with lp := s.lp.remove .request } rfl
  refine ⟨_, exec_requestDeadline flying late, pm, back, discard, stays, fun e lit set due opened => ?_, active,
    fun ending => ?_, items⟩
  · exact dark (darkDue_of_le (s := s.advance t) lit set due) opened
  · have same := lp ending
    exact ⟨same, (congrArg (LinePort.listed · .request) same).trans (listed_remove_self s.lp .request)⟩

/-! ## The partner's loss (R24, R25, R37, R87) -/

theorem exec_freshnessTimeout {t e : Time} {s : State} (on : s.receiving = true) (set : s.pm.freshTimer = some e)
    (late : e ≤ (s.advance t).now) : exec (.freshnessTimeout t) s = .next (freshnessLost (s.advance t)) := by
  have due : (s.receiving && due s.pm.freshTimer (s.advance t).now) = true := by
    rw [on, due_of_le set late]; rfl
  exact congrArg Host.Outcome.next (if_pos due)

theorem pm_dcForced (s : State) : (dcForced s).pm = s.pm := by
  unfold dcForced
  split
  · rfl
  · exact pm_dcDiscard s

/-- R25: the state with the partner LOST, its report taken and the dialogue in VIEW. -/
def State.bereft (s : State) : State :=
  dcForced (takeReport s.now (lossReport s.pm.record)
    { s with pm := { s.pm with freshTimer := none, freshness := .lost } })

/-- R37: the request in flight and its frame taken out. -/
def State.unrequested (s : State) : State := { s.untracked with lp := s.lp.remove .request }

theorem freshnessLost_fresh {s : State} (fresh : s.pm.freshness = .fresh) : freshnessLost s =
    match s.bereft.pm.inFlight with
    | some _ => dcResolved .none s.bereft.unrequested
    | none => s.bereft := by
  unfold freshnessLost
  simp only [fresh]
  rfl

theorem bereft_spec (s : State) : s.bereft.pm = { s.pm with freshTimer := none, freshness := .lost } ∧
    s.bereft.dc.state = .view := by
  obtain ⟨-, -, pm, -⟩ := takeReport_leaves s.now (lossReport s.pm.record)
    { s with pm := { s.pm with freshTimer := none, freshness := .lost } }
  exact ⟨(pm_dcForced _).trans pm, dcForced_state _⟩

/-- Settles O32. -/
theorem silentPartnerIsLost : Obligations.SilentPartnerIsLost := by
  intro t e s a clock on set late
  subst clock
  rw [exec_freshnessTimeout on set late]
  refine ⟨fun none => ?_, fun fresh => ⟨_, rfl, ?_⟩⟩
  · simp only [freshnessLost, advance_pm, none]
  · have roster := (based_freshnessLost (s.advance t)).roster_eq
    obtain ⟨pm, view⟩ := bereft_spec (s.advance t)
    rw [freshnessLost_fresh (s := s.advance t) fresh] at roster ⊢
    cases flying : (s.advance t).bereft.pm.inFlight with
    | none =>
      rw [flying] at roster
      rw [pm] at flying ⊢
      exact ⟨rfl, rfl, rfl, flying, rfl, view, roster⟩
    | some r =>
      have stays : dcResolved .none (s.advance t).bereft.unrequested = (s.advance t).bereft.unrequested :=
        dcResolved_elsewhere (ne_of_eq_of_ne view (by decide))
      have tracker : (s.advance t).bereft.unrequested.pm =
          { s.pm with freshTimer := none, freshness := .lost, inFlight := none } :=
        congrArg (fun m : PartnerMonitor => { m with inFlight := none }) pm
      rw [flying] at roster
      dsimp only at roster ⊢
      rw [stays] at roster ⊢
      rw [tracker]
      exact ⟨rfl, rfl, rfl, rfl, rfl, view, roster⟩

end Sys2Proof.Machine
end

