-- ==== Sys2Proof/Proofs/Hush.lean ====
section
/-! PROOFS. HUSH is inverted by its own panel event alone (R110): no trigger, mark or notice touches it. Each operation
keeps it; a trigger, and so the wake, is made of them. -/

namespace Sys2Proof.Machine

theorem hush_placeNew (it : Item) (s : State) : (placeNew it s).1.pq.hush = s.pq.hush :=
  (congrArg PromptQueue.hush (placeNew_listing it s) :)

theorem hush_endItem (e : ItemEnd) (s : State) : (endItem e s).pq.hush = s.pq.hush := by
  cases item : s.fc.item with
  | none => simp only [endItem, item]
  | some it =>
    obtain ⟨l, listing, -⟩ := endItem_listing item e
    exact (congrArg PromptQueue.hush listing :)

theorem hush_fcUnheard (s : State) : (fcUnheard s).pq.hush = s.pq.hush := hush_endItem .said s

theorem hush_fcTake (n : Nat) (s : State) : (fcTake n s).pq.hush = s.pq.hush := by
  induction n generalizing s with
  | zero => rfl
  | succ n ih =>
    rcases fcTake_succ n s with same | ⟨it, rest, _, expired | ⟨_, unheard | ⟨x, rendered⟩⟩ | ⟨_, r, begun⟩⟩
    · rw [same]
    · rw [expired, ih, hush_endItem]; rfl
    · rw [unheard, ih, hush_fcUnheard]; rfl
    · rw [rendered]; rfl
    · rw [begun, cpBegin_frame]; rfl

theorem hush_takeHead (s : State) : (takeHead s).pq.hush = s.pq.hush := hush_fcTake _ s

theorem hush_enterSpacing (s : State) : (enterSpacing s).pq.hush = s.pq.hush := by
  unfold enterSpacing
  extract_lets urgent
  split
  · exact hush_takeHead _
  · rfl

theorem hush_enterEnding (s : State) : (enterEnding s).pq.hush = s.pq.hush := by
  unfold enterEnding
  extract_lets _ a b
  have released : b.pq.hush = s.pq.hush := by
    simp only [b]
    split <;> rfl
  split
  · rw [hush_enterSpacing, released]
  · exact released

theorem hush_fcDiscard (s : State) : (fcDiscard s).pq.hush = s.pq.hush := by
  rw [fcDiscard, hush_takeHead, hush_endItem]

theorem hush_fcSwap (s : State) : (fcSwap s).pq.hush = s.pq.hush := by
  unfold fcSwap
  extract_lets _ u
  rw [hush_takeHead]
  exact hush_endItem .returned _

theorem hush_orderCut (e : CutEnd) (s : State) : (orderCut e s).pq.hush = s.pq.hush := by
  unfold orderCut
  split
  · split <;> rfl
  · rw [vpCut_frame]

theorem hush_giveUp (e : ItemEnd) (s : State) : (enterEnding (endItem e (fcRelease s))).pq.hush = s.pq.hush := by
  rw [hush_enterEnding, hush_endItem]
  rfl

theorem hush_fcMark (s : State) : (fcMark s).pq.hush = s.pq.hush := by
  unfold fcMark
  split
  · exact hush_fcDiscard s
  · split
    · exact hush_fcDiscard _
    · exact hush_giveUp .dropped s
  · exact hush_giveUp .dropped s
  · split
    · exact hush_fcDiscard _
    · exact hush_orderCut _ s
  · rfl
  · rfl
  · rfl

theorem hush_putBack (s : State) (it : Item) : (putBack s it).pq.hush = s.pq.hush := by
  unfold putBack
  split
  · rfl
  · exact hush_placeNew _ s

theorem hush_putBacks (l : List Item) (s : State) : (l.foldl putBack s).pq.hush = s.pq.hush := by
  induction l generalizing s with
  | nil => rfl
  | cons it l ih => rw [List.foldl_cons, ih, hush_putBack]

theorem hush_unsay (l : List Said) (q : PromptQueue) : (l.foldl PromptQueue.unsay q).hush = q.hush := by
  induction l generalizing q with
  | nil => rfl
  | cons x l ih => rw [List.foldl_cons, ih]; rfl

theorem hush_fcRetake (s : State) : (fcRetake s).pq.hush = s.pq.hush := hush_endItem _ _

theorem hush_fcReopen (o : SpacingOver) (s : State) : (fcReopen o s).pq.hush = s.pq.hush := by
  unfold fcReopen
  extract_lets
  rw [hush_putBacks, hush_fcRetake]
  exact hush_unsay o.said s.pq

theorem hush_fcUnswap (s : State) : (fcUnswap s).pq.hush = s.pq.hush := by
  unfold fcUnswap
  split
  · extract_lets
    rw [hush_putBacks, hush_fcRetake]
    rfl
  · rfl

theorem hush_fcNotice (l : Level) (s : State) : (fcNotice l s).pq.hush = s.pq.hush := by
  unfold fcNotice
  extract_lets outranked ended
  clear_value outranked ended
  split
  · split
    · exact hush_fcReopen _ s
    · rfl
  · split
    · exact hush_fcSwap s
    · rfl
  · split
    · exact hush_giveUp .returned s
    · rfl
  · split
    · exact hush_giveUp .returned s
    · rfl
  · split
    · split
      · exact hush_orderCut _ s
      · rfl
    · split
      · exact hush_fcReopen _ (vpStop s)
      · rfl
  · split <;> rfl
  · rfl

theorem hush_putTrigger (c : PromptClass) (p : Params) (r : Reach) (b : Bool) (s : State) :
    (putTrigger c p r b s).pq.hush = s.pq.hush := by
  unfold putTrigger
  extract_lets it mark _ a placed _ x
  split
  · split
    · exact hush_fcMark _
    · rfl
  · have joined : placed.1.pq.hush = s.pq.hush := hush_placeNew it s
    have met : x.pq.hush = s.pq.hush := by
      simp only [x]
      split
      · rw [hush_fcMark]; exact joined
      · exact joined
    split
    · rw [hush_fcNotice, met]
    · exact met

theorem hush_trigger (c : PromptClass) (p : Params) (s : State) : (trigger c p s).pq.hush = s.pq.hush := by
  have met (means : Item → Bool) : (meetSwapped means s).pq.hush = s.pq.hush := by
    unfold meetSwapped
    split
    · exact hush_fcUnswap s
    · rfl
  rw [trigger, triggerAs, hush_takeHead, placeTrigger, hush_putTrigger, met]

end Sys2Proof.Machine
end

