-- ==== Sys2Proof/Proofs/PanelEvents.lean ====
section
/-! PROOFS. The panel's events as they are delivered in RUN: awake they go to the dialogue or the prompt queue after a
settle in progress, in DARK they are consumed as the wake. With the knob, the settle, the repeat, the holds of HELP
and of the chord, and the HELP window. -/

namespace Sys2Proof.Machine

/-! ## Activity, the wake and what a trigger leaves (R167 to R171) -/

/-- R167, R171: the state after primary activity in RUN. -/
def State.roused (s : State) : State :=
  { s with au :=
      if s.dc.state.selecting then
        ({ s.au.restart s.psp.profile s.now with state := .active } : AttentionUnit).reminder s.psp.profile s.now
      else { s.au.restart s.psp.profile s.now with state := .active } }

theorem primaryActivity_running {s : State} (run : s.psp.phase = .run) : primaryActivity s = s.roused := by
  unfold primaryActivity
  rw [activity_running run]
  unfold State.roused
  extract_lets
  split <;> rfl

theorem roused_active (s : State) : s.roused.au.state = .active := by
  unfold State.roused
  dsimp only
  split
  · rw [reminder_state]
  · rfl

/-- What a trigger leaves of the blocks that the panel's statements speak of. -/
theorem trigger_leaves (c : PromptClass) (p : Params) (s : State) : (trigger c p s).dc = s.dc ∧
    (trigger c p s).pu = s.pu ∧ (trigger c p s).pm = s.pm ∧ (trigger c p s).au = s.au ∧
    (trigger c p s).cp.currentLang = s.cp.currentLang ∧ (trigger c p s).cp.defaultLang = s.cp.defaultLang :=
  have same := outside_trigger c p s
  ⟨outside_dc same, outside_pu same, outside_pm same, outside_au same, outside_currentLang same,
    outside_defaultLang same⟩

/-- R170: the wake leaves the dialogue, the panel and HUSH. -/
theorem wake_spec {s : State} (run : s.psp.phase = .run) : (wake s).au.state = .active ∧ (wake s).dc = s.dc ∧
    (wake s).pu = s.pu ∧ (wake s).pq.hush = s.pq.hush := by
  have prompted (c : PromptClass) : (trigger c .zero s.roused).au.state = .active ∧
      (trigger c .zero s.roused).dc = s.dc ∧ (trigger c .zero s.roused).pu = s.pu ∧
      (trigger c .zero s.roused).pq.hush = s.pq.hush := by
    obtain ⟨dc, pu, -, au, -⟩ := trigger_leaves c .zero s.roused
    exact ⟨by rw [au, roused_active], dc, pu, hush_trigger c .zero s.roused⟩
  unfold wake
  rw [primaryActivity_running run]
  extract_lets
  split
  · exact prompted .welcome
  · split
    · exact prompted .outOfService
    · exact ⟨roused_active s, rfl, rfl, rfl⟩

/-! ## Delivery (R68, R69) -/

theorem dark_eq_false {s : State} (awake : s.au.state ≠ .dark) : s.dark = false := beq_eq_false_iff_ne.2 awake

theorem dark_eq_true {s : State} (dark : s.au.state = .dark) : s.dark = true := beq_iff_eq.2 dark

theorem settleNow_idle {s : State} (idle : s.pu.settle = none) : settleNow s = s := by
  rw [settleNow, idle]

/-- R60, R69: an event with the part awake and no settle in progress is delivered at once. -/
theorem buttonEvent_awake {s : State} (awake : s.au.state ≠ .dark) (idle : s.pu.settle = none) (e : PanelEvent) :
    buttonEvent e s = deliver e s := by
  rw [buttonEvent, dark_eq_false awake, if_neg Bool.false_ne_true, settleNow_idle idle]

theorem buttonEvent_dark {s : State} (dark : s.au.state = .dark) (e : PanelEvent) : buttonEvent e s = wake s :=
  if_pos (dark_eq_true dark)

theorem makeStep_awake {s : State} (awake : s.au.state ≠ .dark) (up : Bool) :
    makeStep up s = deliver (.step up) { s with pu := s.pu.step up s.now } :=
  if_neg (ne_true_of_eq_false (dark_eq_false awake))

theorem deliver_step {s : State} (run : s.psp.phase = .run) (up : Bool) :
    deliver (.step up) s = dcStep up s.roused := congrArg (dcStep up) (primaryActivity_running run)

theorem deliver_hushToggle {s : State} (run : s.psp.phase = .run) :
    deliver .hushToggle s = pqHush s.roused := congrArg pqHush (primaryActivity_running run)

theorem deliver_languageHold {s : State} (run : s.psp.phase = .run) :
    deliver .languageHold s = languageMove s.roused := congrArg languageMove (primaryActivity_running run)

theorem deliver_help {s : State} (run : s.psp.phase = .run) (n : Nat) :
    deliver (.help n) s = pqHelp n s.roused := congrArg (pqHelp n) (primaryActivity_running run)

/-! ## Steps (R53 to R56, R58, R59) -/

/-- R58, R59: a step in a list of `l` entries. -/
def stepIn (l position : Nat) (up : Bool) : Nat :=
  if up then if position + 1 < l then position + 1 else 0 else if position = 0 then l - 1 else position - 1

theorem step_in {pu : PanelUnit} {l : Nat} (list : pu.listLen = some l) (up : Bool) (n : Time) :
    pu.step up n = { pu with position := stepIn l pu.position up, settle := some (n + settleTime) } := by
  simp only [PanelUnit.step, list]
  rfl

/-- R58, R59: the state once a step has moved the position in its list. -/
def State.stepped (s : State) (l : Nat) (up : Bool) : State :=
  { s with pu := { s.pu with position := stepIn l s.pu.position up, settle := some (s.now + settleTime) } }

/-- R75: in the program list a step moves the position alone. -/
theorem makeStep_browse {s : State} {l : Nat} (run : s.psp.phase = .run) (awake : s.au.state ≠ .dark)
    (browse : s.dc.state = .browseProgram) (list : s.pu.listLen = some l) (up : Bool) :
    makeStep up s = (s.stepped l up).roused := by
  rw [makeStep_awake awake, step_in list]
  refine (deliver_step (s := s.stepped l up) run up).trans ?_
  simp only [dcStep, show (s.stepped l up).roused.dc.state = .browseProgram from browse]

theorem quarterOf_reverse (a b c d : Bool) : quarterOf c d a b = -quarterOf a b c d := by
  revert a b c d
  decide

theorem quarterOf_invalid (a b c d : Bool) : (a = c ↔ b = d) → quarterOf a b c d = 0 := by
  revert a b c d
  decide

theorem exec_knobTransition {t : Time} {x y : Bool} {s : State} (run : s.psp.phase = .run)
    (knob : s.psp.panel = .knob) : exec (.knobTransition t x y) s = .next (knobSample x y (s.advance t)) := by
  have on : (s.running && s.psp.panel == .knob) = true := by
    rw [State.running, run, knob]; rfl
  exact congrArg Host.Outcome.next (if_pos on)

/-- R53: the state with a knob sample taken. -/
def State.sampled (s : State) (x y : Bool) (q : Int) : State :=
  { s with pu := { s.pu with refA := x, refB := y, quarter := q } }

theorem knobSample_between {x y : Bool} {q : Int} {s : State}
    (count : q = s.pu.quarter + quarterOf s.pu.refA s.pu.refB x y) (up : q ≠ 4) (down : q ≠ -4) :
    knobSample x y s = s.sampled x y q := by
  simp only [knobSample, ← count]
  rw [if_neg up, if_neg down, if_neg (not_or.2 ⟨up, down⟩)]
  rfl

theorem knobSample_step {x y : Bool} {q : Int} {s : State}
    (count : q = s.pu.quarter + quarterOf s.pu.refA s.pu.refB x y) (full : q = 4 ∨ q = -4) :
    knobSample x y s = makeStep (decide (q = 4)) (s.sampled x y 0) := by
  simp only [knobSample, ← count]
  rw [if_pos full]
  rcases full with rfl | rfl
  · rfl
  · rfl

/-- Settles O38. -/
theorem knobCountsQuarterSteps : Obligations.KnobCountsQuarterSteps := by
  refine ⟨by decide, quarterOf_reverse, quarterOf_invalid, fun t x y q s a clock run knob count =>
    ⟨fun up down => ?_, fun full browse awake l list => ?_⟩⟩
  · subst clock
    rw [exec_knobTransition run knob, knobSample_between (s := s.advance t) count up down]
    rfl
  · subst clock
    refine ⟨_, exec_knobTransition run knob, ?_⟩
    rw [knobSample_step (s := s.advance t) count full,
      makeStep_browse (s := (s.advance t).sampled x y 0) run awake browse list]
    have settle : settleTime = 300 * milli := by rw [settleTime]
    rw [← settle]
    refine ⟨?_, rfl⟩
    simp only [State.roused, State.stepped, State.sampled, stepIn, decide_eq_true_eq]
    rfl

theorem exec_stepRepeat {t : Time} {r : StepRepeat} {s : State} (run : s.psp.phase = .run)
    (set : s.pu.stepRepeat = some r) (late : r.due ≤ (s.advance t).now) : exec (.stepRepeat t) s =
      .next (makeStep r.up { s.advance t with
        pu := { s.pu with stepRepeat := some { r with due := r.due + nextRepeat } } }) := by
  have on : (s.running && decide (r.due ≤ (s.advance t).now)) = true := by
    rw [State.running, run, decide_eq_true late]; rfl
  refine congrArg Host.Outcome.next ?_
  simp only [advance_pu, set]
  exact if_pos on

theorem exec_settleTimeout {t e : Time} {s : State} (set : s.pu.settle = some e) (late : e ≤ (s.advance t).now) :
    exec (.settleTimeout t) s = .next (settleNow (s.advance t)) :=
  congrArg Host.Outcome.next (if_pos (due_of_le set late))

/-- R59: the snapshot has taken the position. -/
def State.settled (s : State) : State :=
  { s with pu := { s.pu with settle := none, snapshot := s.pu.position } }

theorem settleNow_eq {s : State} {e : Time} (set : s.pu.settle = some e) : settleNow s =
    if s.pu.snapshot != s.pu.position then deliver (.selectionChanged s.pu.position) s.settled else s.settled := by
  simp only [settleNow, set]
  rfl

theorem deliver_selectionChanged (p : Nat) (s : State) :
    ∃ x, deliver (.selectionChanged p) s = dcSelection p { s with au := x } := by
  have roused : ∃ x, primaryActivity s = { s with au := x } := by
    unfold primaryActivity activity
    dsimp only
    split
    · split <;> exact ⟨_, rfl⟩
    · split <;> exact ⟨_, rfl⟩
  obtain ⟨x, same⟩ := roused
  exact ⟨x, congrArg (dcSelection p) same⟩

/-- R78: the program list's selection at a program, with its default options. -/
def State.reprogrammed (s : State) (p : Nat) : State :=
  { s with dc := { s.dc with program := p, options := s.table.defaults p } }

theorem dcSelection_programs {s : State} (browse : s.dc.state = .browseProgram) (p : Nat) :
    dcSelection p s = trigger .programName (.one p) (s.reprogrammed p) := by
  simp only [dcSelection, State.reprogrammed, browse]

/-- Settles O41. -/
theorem stepsMoveThePosition : Obligations.StepsMoveThePosition := by
  refine ⟨fun t r l s a clock run set late awake browse list => ?_, fun t e s a clock set late =>
    ⟨fun same => ?_, fun moved browse => ?_⟩⟩
  · subst clock
    refine ⟨_, exec_stepRepeat run set late, ?_⟩
    rw [makeStep_browse (s := { s.advance t with
      pu := { s.pu with stepRepeat := some { r with due := r.due + nextRepeat } } }) run awake browse list]
    have settle : settleTime = 300 * milli := by rw [settleTime]
    have next : nextRepeat = 200 * milli := by rw [nextRepeat]
    rw [← settle, ← next]
    exact ⟨rfl, rfl, roused_active _⟩
  · subst clock
    rw [exec_settleTimeout set late, settleNow_eq (s := s.advance t) set, if_neg (by simpa using same)]
    simp only [State.settled, advance_pu, ← same]
  · subst clock
    refine ⟨_, exec_settleTimeout set late, ?_⟩
    rw [settleNow_eq (s := s.advance t) set, if_pos (by simpa using moved)]
    obtain ⟨x, heard⟩ := deliver_selectionChanged s.pu.position (s.advance t).settled
    rw [show (s.advance t).pu.position = s.pu.position from rfl, heard,
      dcSelection_programs (s := { (s.advance t).settled with au := x }) browse]
    obtain ⟨dc, pu, -⟩ := trigger_leaves .programName (.one s.pu.position)
      (State.reprogrammed { (s.advance t).settled with au := x } s.pu.position)
    exact ⟨pu, dc⟩

/-! ## The holds of HELP and of the chord (R65, R66, R69, R110, R115) -/

/-- R63 to R65: a key that is down past a limit, with no event made. -/
theorem held_of_late {s : State} {k : Key} {limit : Time} (run : s.psp.phase = .run) (down : (s.pu.key k).down = true)
    (unspent : (s.pu.key k).spent = false) (late : (s.pu.key k).since + limit ≤ s.now) : s.held k limit = true := by
  simp only [State.held, State.running, run, down, unspent, decide_eq_true late]
  rfl

theorem exec_languageHold {t : Time} {s : State} (run : s.psp.phase = .run) (down : s.pu.help.down = true)
    (unspent : s.pu.help.spent = false) (late : s.pu.help.since + longHold ≤ (s.advance t).now) :
    exec (.languageHold t) s =
      .next (buttonEvent .languageHold { s.advance t with pu := (s.pu.spend .help).clearHelp }) :=
  congrArg Host.Outcome.next (if_pos (held_of_late (s := s.advance t) (k := .help) run down unspent late))

/-- R115: the language moved to the next one present. -/
def State.speaking (s : State) : State :=
  { s with cp := { s.cp with currentLang := s.psp.nextLang s.cp.currentLang } }

theorem languageMove_eq (s : State) : languageMove s = trigger .languageName .zero s.speaking := rfl

theorem exec_hushToggle {t e : Time} {s : State} (run : s.psp.phase = .run) (set : s.pu.chordTimer = some e)
    (late : e ≤ (s.advance t).now) : exec (.hushToggle t) s =
      .next (buttonEvent .hushToggle { s.advance t with
        pu := { s.pu with chordTimer := none, chordFired := s.pu.chordFired || !s.dark } }) := by
  have on : (s.running && due s.pu.chordTimer (s.advance t).now) = true := by
    rw [State.running, run, due_of_le set late]; rfl
  exact congrArg Host.Outcome.next (if_pos on)

/-- R110: HUSH that is set lowers the ROUTINE items. -/
theorem pqHush_items (s : State) :
    (s.pq.hush = false → ∀ it ∈ (pqHush s).pq.items, classLevel it.cls = .routine → it.reach = .loc) ∧
      (s.pq.hush = true → (pqHush s).pq.items = s.pq.items) := by
  refine ⟨fun clear it mem level => ?_, fun set => ?_⟩
  · simp only [pqHush, clear, Bool.not_false, if_true, List.mem_map] at mem
    obtain ⟨x, -, rfl⟩ := mem
    split at level
    · rename_i routine
      rw [if_pos routine]
    · exact absurd level ‹_›
  · simp only [pqHush, set, Bool.not_true, Bool.false_eq_true, if_false]

/-- Settles O43. -/
theorem languageMovesAndHushInverts : Obligations.LanguageMovesAndHushInverts := by
  refine ⟨fun t s a clock run down unspent late awake idle => ?_, fun t e s a clock run set late dark => ?_,
    fun t e s a clock run set late awake idle => ?_⟩
  · subst clock
    refine ⟨_, exec_languageHold run down unspent (by rw [longHold]; exact late), ?_⟩
    have calm : ({ s.advance t with pu := (s.pu.spend .help).clearHelp } : State).pu.settle = none := idle
    rw [buttonEvent_awake (s := { s.advance t with pu := (s.pu.spend .help).clearHelp }) awake calm,
      deliver_languageHold (s := { s.advance t with pu := (s.pu.spend .help).clearHelp }) run, languageMove_eq]
    obtain ⟨dc, pu, -, -, current, dflt⟩ := trigger_leaves .languageName .zero
      (State.speaking (State.roused { s.advance t with pu := (s.pu.spend .help).clearHelp }))
    exact ⟨current, dflt, by rw [pu]; rfl, by rw [pu]; rfl, dc⟩
  · subst clock
    refine ⟨_, exec_hushToggle run set late, ?_⟩
    have unfired : (s.pu.chordFired || !s.dark) = s.pu.chordFired := by
      rw [dark_eq_true dark, Bool.not_true, Bool.or_false]
    rw [unfired, buttonEvent_dark (s := { s.advance t with pu := { s.pu with chordTimer := none } }) dark]
    obtain ⟨au, dc, pu, hush⟩ := wake_spec (s := { s.advance t with pu := { s.pu with chordTimer := none } }) run
    exact ⟨hush, pu, au, dc⟩
  · subst clock
    refine ⟨_, exec_hushToggle run set late, ?_⟩
    have fired : (s.pu.chordFired || !s.dark) = true := by
      rw [dark_eq_false awake, Bool.not_false, Bool.or_true]
    rw [fired, buttonEvent_awake (s := { s.advance t with pu := { s.pu with chordTimer := none, chordFired := true } })
        awake idle,
      deliver_hushToggle (s := { s.advance t with pu := { s.pu with chordTimer := none, chordFired := true } }) run]
    obtain ⟨set, clear⟩ := pqHush_items
      (State.roused { s.advance t with pu := { s.pu with chordTimer := none, chordFired := true } })
    exact ⟨rfl, rfl, rfl, rfl, set, clear⟩

/-! ## The HELP window (R65, R111, R112) -/

theorem exec_helpWindowClose {t e : Time} {s : State} (run : s.psp.phase = .run) (set : s.pu.helpWindow = some e)
    (late : e ≤ (s.advance t).now) (up : s.pu.help.down = false) :
    exec (.helpWindowClose t) s = .next (closeHelp (s.advance t)) := by
  have on : (s.running && due s.pu.helpWindow (s.advance t).now && !s.pu.help.down) = true := by
    rw [State.running, run, due_of_le set late, up]; rfl
  exact congrArg Host.Outcome.next (if_pos on)

/-- R65: the state with the HELP window closed, and roused by its event. -/
def State.unhelped (s : State) : State := State.roused { s with pu := s.pu.clearHelp }

theorem closeHelp_eq {s : State} (run : s.psp.phase = .run) (awake : s.au.state ≠ .dark)
    (idle : s.pu.settle = none) : closeHelp s = pqHelp s.pu.helpCount s.unhelped := by
  rw [closeHelp, buttonEvent_awake (s := { s with pu := s.pu.clearHelp }) awake idle]
  exact deliver_help (s := { s with pu := s.pu.clearHelp }) run s.pu.helpCount

/-- R111: HELP_1 sounds the buzz where there is nothing to say again. -/
theorem pqHelp1_buzz {s : State}
    (nothing : s.pq.last = none ∨ ∃ r, s.pq.last = some r ∧ s.holds (classKey r.cls) = false) :
    pqHelp1 s = vpBuzz s := by
  rcases nothing with none | ⟨r, last, ended⟩
  · simp only [pqHelp1, none]
  · simp only [pqHelp1, last, ended, Bool.not_false, if_true]

theorem pqHelp1_holds {s : State} {r : LastCompleted} (last : s.pq.last = some r)
    (holds : s.holds (classKey r.cls) = true) : pqHelp1 s =
      if s.pq.isCurrent r.cls then s else triggerAs r.cls r.params r.reach false s := by
  simp only [pqHelp1, last, holds, Bool.not_true, Bool.false_eq_true, if_false]

theorem triggerAs_leaves (c : PromptClass) (p : Params) (r : Reach) (b : Bool) (s : State) :
    (triggerAs c p r b s).pu = s.pu ∧ (triggerAs c p r b s).dc = s.dc ∧ (triggerAs c p r b s).au = s.au :=
  have same := outside_triggerAs c p r b s
  ⟨outside_pu same, outside_dc same, outside_au same⟩

/-- HELP concerns the prompt queue, or the buzz. -/
theorem pqHelp_leaves (n : Nat) (s : State) :
    (pqHelp n s).pu = s.pu ∧ (pqHelp n s).dc = s.dc ∧ (pqHelp n s).au = s.au := by
  unfold pqHelp
  split
  · unfold pqHelp1
    split
    · exact ⟨rfl, rfl, rfl⟩
    · split_ifs
      · exact ⟨rfl, rfl, rfl⟩
      · exact ⟨rfl, rfl, rfl⟩
      · exact triggerAs_leaves _ _ _ _ s
  · exact triggerAs_leaves _ _ _ _ s
  · exact triggerAs_leaves _ _ _ _ s

theorem describe_eq (s : State) : s.describe =
    { p0 := if s.pm.freshness = .fresh then stateCode s.pm.record.state else 8
      p1 := minutesParam s.pm.record.minutes, p2 := s.pm.record.credits, p3 := dialogueCode s.dc.state } := by
  simp only [State.describe, PartnerMonitor.isFresh, beq_iff_eq]

/-- Settles O44. -/
theorem helpTwiceDescribesTheState : Obligations.HelpTwiceDescribesTheState := by
  intro t e s a clock run set late up awake idle
  subst clock
  rw [exec_helpWindowClose run set late up, closeHelp_eq (s := s.advance t) run awake idle]
  refine ⟨⟨_, rfl, ?_⟩, fun count ending new room => ⟨_, rfl, ?_⟩, fun count ending new room => ⟨_, rfl, ?_⟩,
    fun count => ⟨_, rfl, fun nothing => ?_, fun r last holds => ⟨fun current => ?_, fun other ending new room => ?_⟩⟩⟩
  · obtain ⟨pu, dc, au⟩ := pqHelp_leaves s.pu.helpCount (s.advance t).unhelped
    exact ⟨pu, dc, by rw [show (s.advance t).pu.helpCount = s.pu.helpCount from rfl, au]; exact roused_active _⟩
  · rw [show (s.advance t).pu.helpCount = 2 from count]
    have placed := trigger_new (s := (s.advance t).unhelped) (c := .stateDescription) (s.advance t).unhelped.describe
      ending new room
    rw [show pqHelp 2 (s.advance t).unhelped = _ from placed, describe_eq]
    exact congrArg (putBy Item.rank · s.pq.items) (itemOf_loc (s.advance t).unhelped .stateDescription _)
  · rw [show (s.advance t).pu.helpCount = 3 from count]
    have placed := trigger_new (s := (s.advance t).unhelped) (c := .roomSummary) .zero ending new room
    rw [show pqHelp 3 (s.advance t).unhelped = _ from placed]
    exact congrArg (putBy Item.rank · s.pq.items) (itemOf_loc (s.advance t).unhelped .roomSummary _)
  · rw [show (s.advance t).pu.helpCount = 1 from count,
      show pqHelp 1 (s.advance t).unhelped = _ from pqHelp1_buzz (s := (s.advance t).unhelped) nothing]
    exact ⟨rfl, rfl, rfl⟩
  · rw [show (s.advance t).pu.helpCount = 1 from count,
      show pqHelp 1 (s.advance t).unhelped = _ from pqHelp1_holds (s := (s.advance t).unhelped) last holds,
      if_pos (show (s.advance t).unhelped.pq.isCurrent r.cls = true from current)]
    exact ⟨rfl, rfl, rfl⟩
  · rw [show (s.advance t).pu.helpCount = 1 from count,
      show pqHelp 1 (s.advance t).unhelped = _ from pqHelp1_holds (s := (s.advance t).unhelped) last holds,
      if_neg (ne_true_of_eq_false (show (s.advance t).unhelped.pq.isCurrent r.cls = false from other)),
      triggerAs_new (s := (s.advance t).unhelped) r.params r.reach false ending new room]
    rfl

end Sys2Proof.Machine
end

