-- ==== Sys2Proof/Proofs/Keys.lean ====
section
/-! PROOFS. The keys: when a press or a release is accepted, what each makes of the panel unit, and the dialogue's moves
by SELECT, BACK, the steps, START and the holds. -/

namespace Sys2Proof.Machine

/-! ## What is accepted (R61) -/

/-- R61: the samples that a press or a release needs. -/
theorem debounced_samples (s : State) (k : Key) (d : Time) : s.debounced k d = true ↔
    s.psp.profile.debounceOf k ≤ d ∧ ∃ r, s.psp.runStart = some r ∧ r + s.psp.profile.debounceOf k ≤ s.now ∧
      ∀ e, (if (s.pu.key k).down then some (s.pu.key k).since else (s.pu.key k).freed) = some e →
        e + panelSample + s.psp.profile.debounceOf k ≤ s.now := by
  rw [debounced_iff]
  refine and_congr_right fun _ => ?_
  simp only [State.steadyFrom]
  generalize (if (s.pu.key k).down then some (s.pu.key k).since else (s.pu.key k).freed) = last
  cases s.psp.runStart with
  | none => simp
  | some r =>
    cases last with
    | none => simp
    | some e =>
      have both (x y z n : Nat) : max x y + z ≤ n ↔ x + z ≤ n ∧ y + z ≤ n := by omega
      simp [both]

theorem accepts_eq {s : State} {k : Key} (run : s.psp.phase = .run) (has : hasKey s.psp.panel k = true) (d : Time) :
    s.accepts k d = s.debounced k d := by
  rw [State.accepts, State.running, run, has]; rfl

theorem exec_keyPressAccepted {t d : Time} {k : Key} {s : State} (run : s.psp.phase = .run)
    (has : hasKey s.psp.panel k = true) (steady : (s.advance t).debounced k d = true)
    (up : (s.pu.key k).down = false) : exec (.keyPressAccepted t k d) s = .next (pressKey k (s.advance t)) := by
  have on : ((s.advance t).accepts k d && !(s.pu.key k).down) = true := by
    rw [accepts_eq (s := s.advance t) run has, steady, up]; rfl
  exact congrArg Host.Outcome.next (if_pos on)

theorem exec_keyReleaseAccepted {t d : Time} {k : Key} {s : State} (run : s.psp.phase = .run)
    (has : hasKey s.psp.panel k = true) (steady : (s.advance t).debounced k d = true)
    (down : (s.pu.key k).down = true) : exec (.keyReleaseAccepted t k d) s = .next (releaseKey k (s.advance t)) := by
  have on : ((s.advance t).accepts k d && (s.pu.key k).down) = true := by
    rw [accepts_eq (s := s.advance t) run has, steady, down]; rfl
  exact congrArg Host.Outcome.next (if_pos on)

theorem exec_key_unsteady {t d : Time} {k : Key} {s : State} (unsteady : (s.advance t).debounced k d = false) :
    exec (.keyPressAccepted t k d) s = .next (s.advance t) ∧
      exec (.keyReleaseAccepted t k d) s = .next (s.advance t) := by
  have off : (s.advance t).accepts k d = false := by rw [State.accepts, unsteady, Bool.and_false]
  constructor
  · refine congrArg Host.Outcome.next (if_neg ?_)
    rw [off]
    exact Bool.false_ne_true
  · refine congrArg Host.Outcome.next (if_neg ?_)
    rw [off]
    exact Bool.false_ne_true

/-! ## Presses (R56, R65 to R67, R69) -/

theorem vpClick_frame (s : State) : vpClick s = { s with vp := (vpClick s).vp } := by
  unfold vpClick
  extract_lets buzzing
  split <;> rfl

/-- R161: the click does not look at the panel unit. -/
theorem vpClick_pu (s : State) (p : PanelUnit) : vpClick { s with pu := p } = { vpClick s with pu := p } := by
  cases tone : s.vp.tone with
  | none =>
    simp only [vpClick, tone]
    split <;> rfl
  | some x =>
    simp only [vpClick, tone]
    split <;> rfl

/-- R61: a key gone down. -/
def State.pressed (s : State) (k : Key) (spent : Bool) : State :=
  { s with pu := s.pu.setKey k { s.pu.key k with down := true, since := s.now, spent := spent } }

theorem pressKey_awake {s : State} (awake : s.au.state ≠ .dark) (k : Key) :
    pressKey k s = pressEffect k true (vpClick (s.pressed k false)) := by
  simp only [pressKey, dark_eq_false awake, Bool.not_false, Bool.not_true, if_true]
  rfl

theorem pressKey_dark {s : State} (dark : s.au.state = .dark) (k : Key) :
    pressKey k s = pressEffect k false (wake (s.pressed k true)) := by
  simp only [pressKey, dark_eq_true dark, Bool.not_false, Bool.not_true, Bool.false_eq_true, if_false]
  rfl

theorem pressEffect_chord {s : State} (both : s.pu.bothDown = true) (awake : Bool) :
    pressEffect .help awake s = { s with pu := s.pu.chordPress s.now } ∧
      pressEffect .back awake s = { s with pu := s.pu.chordPress s.now } := ⟨if_pos both, if_pos both⟩

theorem pressEffect_help {s : State} (single : s.pu.bothDown = false) :
    pressEffect .help true s = { s with pu := s.pu.helpPress s.now } ∧ pressEffect .help false s = s := by
  refine ⟨(if_neg (ne_true_of_eq_false single)).trans rfl, (if_neg (ne_true_of_eq_false single)).trans rfl⟩

/-- A click and then a change of the panel unit. -/
theorem vpClick_then {s : State} {p q : PanelUnit} (same : p = q) :
    { vpClick s with pu := p } = vpClick { s with pu := q } := by
  rw [same]
  exact (vpClick_pu s q).symm

theorem vpClick_reads (s : State) : (vpClick s).pu = s.pu ∧ (vpClick s).now = s.now ∧ (vpClick s).dc = s.dc ∧
    (vpClick s).pm = s.pm ∧ (vpClick s).au = s.au ∧ (vpClick s).psp = s.psp ∧ (vpClick s).pq = s.pq ∧
    (vpClick s).fc = s.fc := by
  rw [vpClick_frame s]
  exact ⟨rfl, rfl, rfl, rfl, rfl, rfl, rfl, rfl⟩

/-! ## The dialogue's moves (R71 to R82) -/

theorem deliver_select {s : State} (run : s.psp.phase = .run) : deliver .select s = dcSelect s.roused :=
  congrArg dcSelect (primaryActivity_running run)

theorem deliver_back {s : State} (run : s.psp.phase = .run) : deliver .back s = dcBack s.roused :=
  congrArg dcBack (primaryActivity_running run)

theorem deliver_startShort {s : State} (run : s.psp.phase = .run) : deliver .startShort s = dcStartShort s.roused :=
  congrArg dcStartShort (primaryActivity_running run)

theorem deliver_startHold {s : State} (run : s.psp.phase = .run) : deliver .startHold s = dcStartHold s.roused :=
  congrArg dcStartHold (primaryActivity_running run)

theorem deliver_cancelHold {s : State} (run : s.psp.phase = .run) : deliver .cancelHold s = dcCancel s.roused :=
  congrArg dcCancel (primaryActivity_running run)

/-- R75: the program list is opened at the table's default program. -/
theorem dcEnter_spec (s : State) :
    (dcEnter s).dc = { s.dc with state := .browseProgram, program := s.table.first,
                                 options := s.table.defaults s.table.first, cursor := 0 } ∧
      (dcEnter s).pu = s.pu.openList s.table.count s.table.first ∧ (dcEnter s).pm = s.pm ∧
      (dcEnter s).au.state = s.au.state := by
  obtain ⟨dc, pu, pm, au, -⟩ := trigger_leaves .programName (.one s.table.first) (selectingBegins { s with
    dc := { s.dc with state := .browseProgram, program := s.table.first,
                      options := s.table.defaults s.table.first, cursor := 0 }
    pu := s.pu.openList s.table.count s.table.first })
  exact ⟨dc, pu, pm, (congrArg AttentionUnit.state au).trans (reminder_state _ _ _)⟩

/-- R79: the option list is opened at its first option. -/
theorem dcOptions_spec (s : State) : (dcOptions s).dc = { s.dc with state := .browseOption, cursor := 0 } ∧
    (dcOptions s).pu = s.pu.openList (s.optionList.length + 1) 0 ∧ (dcOptions s).pm = s.pm ∧
    (dcOptions s).au = s.au := by
  obtain ⟨dc, pu, pm, au, -⟩ := trigger_leaves .optionState (State.optionParams { s with
      dc := { s.dc with state := .browseOption, cursor := 0 }, pu := s.pu.openList (s.optionList.length + 1) 0 }
      (s.optionList.headD 0))
    { s with
      dc := { s.dc with state := .browseOption, cursor := 0 }, pu := s.pu.openList (s.optionList.length + 1) 0 }
  exact ⟨dc, pu, pm, au⟩

/-- R81: CONFIRM closes the list. -/
theorem dcConfirm_spec (s : State) : (dcConfirm s).dc = { s.dc with state := .confirm } ∧
    (dcConfirm s).pu = s.pu.closeList ∧ (dcConfirm s).pm = s.pm ∧ (dcConfirm s).au = s.au := by
  obtain ⟨dc, pu, pm, au, -⟩ := trigger_leaves .confirmSummary s.summaryParams
    { s with dc := { s.dc with state := .confirm }, pu := s.pu.closeList }
  exact ⟨dc, pu, pm, au⟩

/-- R80, R81: the program list is opened again at the selected program. -/
theorem dcPrograms_spec (s : State) : (dcPrograms s).dc = { s.dc with state := .browseProgram } ∧
    (dcPrograms s).pu = s.pu.openList s.table.count s.dc.program ∧ (dcPrograms s).pm = s.pm ∧
    (dcPrograms s).au = s.au := by
  obtain ⟨dc, pu, pm, au, -⟩ := trigger_leaves .programName (.one s.dc.program)
    { s with dc := { s.dc with state := .browseProgram }, pu := s.pu.openList s.table.count s.dc.program }
  exact ⟨dc, pu, pm, au⟩

/-- R72: a discard leads to VIEW and closes the list. -/
theorem dcDiscard_spec (s : State) : (dcDiscard s).dc = Dialogue.reset ∧ (dcDiscard s).pu = s.pu.closeList ∧
    (dcDiscard s).pm = s.pm ∧ (dcDiscard s).au.state = s.au.state := by
  have same := outside_dcDiscard s
  refine ⟨rfl, (congrArg State.pu same :), (congrArg State.pm same :),
    (congrArg (fun x : State => x.au.state) same :).trans ?_⟩
  simp only [State.afterDiscard]
  split
  · exact noReminder_state s.au
  · rfl

/-- What a state reads for the dialogue, as another does. -/
structure Alike (q s : State) : Prop where
  dc  : q.dc = s.dc
  pm  : q.pm = s.pm
  psp : q.psp = s.psp

section
variable {q s : State} (alike : Alike q s)
include alike

theorem Alike.table : q.table = s.table := by simp only [State.table, alike.pm, alike.psp]
theorem Alike.selectable : q.selectable = s.selectable := by simp only [State.selectable, alike.pm]
theorem Alike.optionList : q.optionList = s.optionList := by simp only [State.optionList, alike.table, alike.dc]

end

theorem alike_roused (s : State) : Alike s.roused s := ⟨rfl, rfl, rfl⟩

theorem Alike.trans {a b c : State} (h : Alike a b) (g : Alike b c) : Alike a c :=
  ⟨h.dc.trans g.dc, h.pm.trans g.pm, h.psp.trans g.psp⟩

theorem alike_vpClick (s : State) : Alike (vpClick s) s := by
  obtain ⟨-, -, dc, pm, -, psp, -⟩ := vpClick_reads s
  exact ⟨dc, pm, psp⟩

/-! ## SELECT (R75, R78 to R81) -/

theorem dcSelect_view {s : State} (view : s.dc.state = .view) (selects : s.selectable = true) :
    dcSelect s = dcEnter s := by
  simp only [dcSelect, view, selects, if_true]

theorem dcSelect_program {s : State} (browse : s.dc.state = .browseProgram) :
    dcSelect s = if s.optionList = [] then dcConfirm s else dcOptions s := by
  simp only [dcSelect, browse, List.isEmpty_iff]

/-- R80: the option under the cursor inverted. -/
def State.toggled (s : State) (n : Nat) : State :=
  { s with dc := { s.dc with options := toggleOption s.dc.options n } }

theorem dcSelect_option {s : State} {n : Nat} (browse : s.dc.state = .browseOption)
    (at' : s.optionList[s.dc.cursor]? = some n) :
    dcSelect s = trigger .optionState ((s.toggled n).optionParams n) (s.toggled n) := by
  simp only [dcSelect, browse, at', State.toggled]

theorem dcSelect_done {s : State} (browse : s.dc.state = .browseOption)
    (at' : s.optionList[s.dc.cursor]? = none) : dcSelect s = dcConfirm s := by
  simp only [dcSelect, browse, at']

theorem dcSelect_confirm {s : State} (confirm : s.dc.state = .confirm) :
    dcSelect s = trigger .confirmSummary s.summaryParams s := by
  simp only [dcSelect, confirm]

/-- SELECT keeps the part as active as it finds it. -/
theorem dcSelect_active (s : State) : (dcSelect s).au.state = s.au.state := by
  have told (c : PromptClass) (p : Params) (x : State) : (trigger c p x).au.state = x.au.state := by
    obtain ⟨-, -, -, au, -⟩ := trigger_leaves c p x
    rw [au]
  unfold dcSelect
  split
  · split
    · exact (dcEnter_spec s).2.2.2
    · rfl
  · split
    · exact told _ _ _
    · exact told _ _ _
  · split
    · exact told _ _ _
    · exact told _ _ _
  · exact told _ _ _
  · rfl

/-- R60, R68: a press of SELECT with the part awake and no settle in progress. -/
theorem pressSelect {s : State} (run : s.psp.phase = .run) (awake : s.au.state ≠ .dark)
    (idle : s.pu.settle = none) :
    pressKey .select s = dcSelect (vpClick (s.pressed .select false)).roused := by
  obtain ⟨pu, -, -, -, au, psp, -⟩ := vpClick_reads (s.pressed .select false)
  rw [pressKey_awake awake]
  refine (buttonEvent_awake (by rw [au]; exact awake) (by rw [pu]; exact idle) .select).trans ?_
  exact deliver_select (by rw [psp]; exact run)

/-! ## The presses of O39 -/

theorem hasKey_plain (p : PanelType) : hasKey p .select = true ∧ hasKey p .back = true ∧ hasKey p .start = true ∧
    hasKey p .help = true := by
  cases p with
  | knob => exact ⟨rfl, rfl, rfl, rfl⟩
  | step => exact ⟨rfl, rfl, rfl, rfl⟩

/-- R65: a press of HELP with BACK up is counted. -/
theorem pressHelp {s : State} (awake : s.au.state ≠ .dark) (single : s.pu.back.down = false) :
    pressKey .help s = vpClick { s with pu := (s.pressed .help false).pu.helpPress s.now } := by
  obtain ⟨pu, now, -⟩ := vpClick_reads (s.pressed .help false)
  have alone : (vpClick (s.pressed .help false)).pu.bothDown = false := by
    rw [pu]
    exact (congrArg (true && ·) single :)
  rw [pressKey_awake awake, (pressEffect_help alone).1]
  refine vpClick_then ?_
  rw [pu, now]
  rfl

/-- R66: the second of HELP and BACK to go down begins the chord or joins it. -/
theorem pressChord {s : State} {k : Key} (awake : s.au.state ≠ .dark)
    (both : (s.pressed k false).pu.bothDown = true) (button : k = .help ∨ k = .back) :
    pressKey k s = vpClick { s with pu := (s.pressed k false).pu.chordPress s.now } := by
  obtain ⟨pu, now, -⟩ := vpClick_reads (s.pressed k false)
  have chord : pressEffect k true (vpClick (s.pressed k false)) =
      { vpClick (s.pressed k false) with
        pu := (vpClick (s.pressed k false)).pu.chordPress (vpClick (s.pressed k false)).now } := by
    rcases button with rfl | rfl
    · exact (pressEffect_chord (by rw [pu]; exact both) true).1
    · exact (pressEffect_chord (by rw [pu]; exact both) true).2
  rw [pressKey_awake awake, chord]
  refine vpClick_then ?_
  rw [pu, now]
  rfl

/-- R69: a press in DARK is consumed as the wake; START makes nothing else of it, and HELP with BACK up neither. -/
theorem pressKey_wakes {s : State} {k : Key} (run : s.psp.phase = .run) (dark : s.au.state = .dark)
    (quiet : k = .start ∨ k = .help ∧ s.pu.back.down = false) : (pressKey k s).au.state = .active ∧
      (pressKey k s).dc = s.dc ∧ (pressKey k s).pu = (s.pressed k true).pu := by
  obtain ⟨au, dc, pu, -⟩ := wake_spec (s := s.pressed k true) run
  have unmoved : pressEffect k false (wake (s.pressed k true)) = wake (s.pressed k true) := by
    rcases quiet with rfl | ⟨rfl, single⟩
    · rfl
    · refine (pressEffect_help ?_).2
      rw [pu]
      exact (congrArg (true && ·) single :)
  rw [pressKey_dark dark, unmoved]
  exact ⟨au, dc, pu⟩

/-- R81: a step out of CONFIRM. -/
def State.reopened (s : State) (up : Bool) : State :=
  { s with
    dc := { s.dc with state := .browseProgram }
    pu := (s.pu.openList s.table.count s.dc.program).step up s.now }

theorem dcStep_confirm {s : State} (confirm : s.dc.state = .confirm) (up : Bool) : dcStep up s = s.reopened up := by
  simp only [dcStep, State.reopened, confirm]

/-- R56: UP's first repeat due. -/
def State.repeating (s : State) : State :=
  { s with pu := { s.pu with stepRepeat := some { up := true, due := s.now + firstRepeat } } }

/-- R58: a step applied to the open list. -/
def State.moved (s : State) (up : Bool) : State := { s with pu := s.pu.step up s.now }

theorem pressUp {s : State} (run : s.psp.phase = .run) (awake : s.au.state ≠ .dark)
    (single : s.pu.down.down = false) :
    pressKey .up s = dcStep true ((vpClick (s.pressed .up false)).repeating.moved true).roused := by
  obtain ⟨pu, -, -, -, au, psp, -⟩ := vpClick_reads (s.pressed .up false)
  have alone : ¬ (vpClick (s.pressed .up false)).pu.down.down = true := by
    rw [pu]
    exact ne_true_of_eq_false single
  have bright : (vpClick (s.pressed .up false)).repeating.au.state ≠ .dark := by
    refine (congrArg AttentionUnit.state au).trans_ne awake
  rw [pressKey_awake awake]
  calc pressEffect .up true (vpClick (s.pressed .up false))
      = makeStep true (vpClick (s.pressed .up false)).repeating := (if_neg alone).trans rfl
    _ = deliver (.step true) ((vpClick (s.pressed .up false)).repeating.moved true) := makeStep_awake bright true
    _ = _ := deliver_step ((congrArg (fun p => p.phase) psp).trans run) true

theorem step_unlisted (pu : PanelUnit) (up : Bool) (n : Time) : (pu.step up n).listLen = pu.listLen := by
  unfold PanelUnit.step
  split
  · rfl
  · rfl

/-- What SELECT finds of a state whose press of SELECT has clicked and roused the part. -/
theorem alike_clicked (s : State) : Alike (vpClick (s.pressed .select false)).roused s :=
  (alike_roused _).trans ((alike_vpClick _).trans ⟨rfl, rfl, rfl⟩)

theorem clicked_pu (s : State) : (vpClick (s.pressed .select false)).roused.pu = (s.pressed .select false).pu :=
  (vpClick_reads _).1

/-- R75, R78 to R81: SELECT by the state of the dialogue. -/
theorem dcSelect_cases {q s : State} (alike : Alike q s) (list : q.pu.listLen = s.pu.listLen)
    (place : q.pu.position = s.pu.position) :
    (s.dc.state = .browseProgram → s.optionList ≠ [] →
      (dcSelect q).dc = { s.dc with state := .browseOption, cursor := 0 } ∧
      (dcSelect q).pu.listLen = some (s.optionList.length + 1) ∧ (dcSelect q).pu.position = 0 ∧
      (dcSelect q).pu.snapshot = 0 ∧ (dcSelect q).pu.settle = none) ∧
    (s.dc.state = .browseProgram → s.optionList = [] →
      (dcSelect q).dc = { s.dc with state := .confirm } ∧ (dcSelect q).pu.listLen = none) ∧
    (∀ n, s.dc.state = .browseOption → s.optionList[s.dc.cursor]? = some n →
      (dcSelect q).dc = { s.dc with options := toggleOption s.dc.options n } ∧
      (dcSelect q).pu.listLen = s.pu.listLen ∧ (dcSelect q).pu.position = s.pu.position) ∧
    (s.dc.state = .browseOption → s.optionList[s.dc.cursor]? = none →
      (dcSelect q).dc = { s.dc with state := .confirm } ∧ (dcSelect q).pu.listLen = none) ∧
    (s.dc.state = .confirm → (dcSelect q).dc = s.dc ∧ (dcSelect q).pu.listLen = s.pu.listLen) := by
  have closed : (dcConfirm q).dc = { s.dc with state := .confirm } ∧ (dcConfirm q).pu.listLen = none := by
    obtain ⟨dc, pu, -⟩ := dcConfirm_spec q
    rw [dc, pu, alike.dc]
    exact ⟨rfl, rfl⟩
  refine ⟨fun browse some => ?_, fun browse none => ?_, fun n browse at' => ?_, fun browse done => ?_,
    fun confirm => ?_⟩
  · rw [dcSelect_program (by rw [alike.dc, browse]), if_neg (by rw [alike.optionList]; exact some)]
    obtain ⟨dc, pu, -⟩ := dcOptions_spec q
    rw [dc, pu, alike.dc, alike.optionList]
    exact ⟨rfl, rfl, Nat.zero_min _, Nat.zero_min _, rfl⟩
  · rw [dcSelect_program (by rw [alike.dc, browse]), if_pos (by rw [alike.optionList]; exact none)]
    exact closed
  · rw [dcSelect_option (n := n) (by rw [alike.dc, browse]) (by rw [alike.optionList, alike.dc]; exact at')]
    obtain ⟨dc, pu, -⟩ := trigger_leaves .optionState ((q.toggled n).optionParams n) (q.toggled n)
    rw [dc, pu]
    refine ⟨?_, list, place⟩
    simp only [State.toggled, alike.dc]
  · rw [dcSelect_done (by rw [alike.dc, browse]) (by rw [alike.optionList, alike.dc]; exact done)]
    exact closed
  · rw [dcSelect_confirm (by rw [alike.dc, confirm])]
    obtain ⟨dc, pu, -⟩ := trigger_leaves .confirmSummary q.summaryParams q
    rw [dc, pu]
    exact ⟨alike.dc, list⟩

/-- R58, R59, R81: UP out of CONFIRM. -/
theorem upped_confirm {s : State} (confirm : s.dc.state = .confirm) :
    let u := dcStep true ((vpClick (s.pressed .up false)).repeating.moved true).roused
    u.au.state = .active ∧ u.dc = { s.dc with state := .browseProgram } ∧ u.pu.listLen = some s.table.count ∧
      u.pu.snapshot = min s.dc.program (s.table.count - 1) ∧
      u.pu.position = stepIn s.table.count (min s.dc.program (s.table.count - 1)) true ∧
      u.pu.settle = some (s.now + settleTime) ∧ u.pq.items = s.pq.items := by
  intro u
  obtain ⟨-, now, dc, pm, -, psp, pq, -⟩ := vpClick_reads (s.pressed .up false)
  have alike : Alike ((vpClick (s.pressed .up false)).repeating.moved true).roused s := ⟨dc, pm, psp⟩
  have same : u = ((vpClick (s.pressed .up false)).repeating.moved true).roused.reopened true :=
    dcStep_confirm (by rw [alike.dc, confirm]) true
  have list : u.pu = (((vpClick (s.pressed .up false)).repeating.moved true).roused.pu.openList s.table.count
      s.dc.program).step true s.now := by
    rw [same]
    simp only [State.reopened, alike.table, alike.dc]
    exact congrArg (PanelUnit.step _ true) now
  have selects := step_in (pu := ((vpClick (s.pressed .up false)).repeating.moved true).roused.pu.openList s.table.count
    s.dc.program) rfl true s.now
  refine ⟨?_, ?_, ?_, ?_, ?_, ?_, ?_⟩
  · rw [same]
    exact roused_active _
  · rw [same]
    simp only [State.reopened, alike.dc]
  · rw [list, selects]
    rfl
  · rw [list, selects]
    rfl
  · rw [list, selects]
    rfl
  · rw [list, selects]
  · rw [same]
    exact congrArg PromptQueue.items pq

/-- Settles O39. -/
theorem pressOpensTheProgramList : Obligations.PressOpensTheProgramList := by
  intro t d s a clock run
  subst clock
  obtain ⟨hasSelect, hasBack, hasStart, hasHelp⟩ := hasKey_plain s.psp.panel
  refine ⟨fun k => debounced_samples (s.advance t) k d, fun k unsteady => exec_key_unsteady unsteady,
    fun steady up single => ⟨fun awake => ?_, fun dark => ?_⟩,
    fun pu begun awake => ⟨fun steady up other => ?_, fun steady up other => ?_⟩,
    fun steady up awake => ?_, fun steady up dark => ?_, fun steady up awake view selects idle => ?_,
    fun steady up awake idle => ?_, fun pos panel steady up single awake confirm place => ?_⟩
  · rw [exec_keyPressAccepted run hasHelp steady up, pressHelp (s := s.advance t) awake single]
    have window : helpTime = 700 * milli := by rw [helpTime]
    rw [← window]
    rfl
  · obtain ⟨au, -, pu⟩ := pressKey_wakes (s := s.advance t) run dark (.inr ⟨rfl, single⟩)
    exact ⟨_, exec_keyPressAccepted run hasHelp steady up, au, pu⟩
  · subst begun
    rw [exec_keyPressAccepted run hasHelp steady up,
      pressChord (s := s.advance t) (k := .help) awake (Bool.and_eq_true_iff.2 ⟨rfl, other⟩) (.inl rfl)]
    have timer : chordTime = 3000 * milli := by rw [chordTime]
    rw [← timer]
    rfl
  · subst begun
    rw [exec_keyPressAccepted run hasBack steady up,
      pressChord (s := s.advance t) (k := .back) awake (Bool.and_eq_true_iff.2 ⟨other, rfl⟩) (.inr rfl)]
    have timer : chordTime = 3000 * milli := by rw [chordTime]
    rw [← timer]
    rfl
  · rw [exec_keyPressAccepted run hasStart steady up, pressKey_awake (s := s.advance t) awake .start]
    rfl
  · exact ⟨_, exec_keyPressAccepted run hasStart steady up,
      pressKey_wakes (s := s.advance t) run dark (.inl rfl)⟩
  · refine ⟨_, exec_keyPressAccepted run hasSelect steady up, ?_⟩
    have alike := alike_clicked (s.advance t)
    rw [pressSelect (s := s.advance t) run awake idle,
      dcSelect_view (by rw [alike.dc]; exact view) (by rw [alike.selectable]; exact selects)]
    obtain ⟨dc, pu, -, au⟩ := dcEnter_spec (vpClick ((s.advance t).pressed .select false)).roused
    rw [dc, pu, au, alike.dc, alike.table]
    exact ⟨rfl, rfl, rfl, rfl, rfl, roused_active _⟩
  · refine ⟨_, exec_keyPressAccepted run hasSelect steady up, ?_⟩
    rw [pressSelect (s := s.advance t) run awake idle]
    have pu := clicked_pu (s.advance t)
    exact ⟨(dcSelect_active _).trans (roused_active _),
      dcSelect_cases (s := s.advance t) (alike_clicked _) (congrArg PanelUnit.listLen pu :)
        (congrArg PanelUnit.position pu :)⟩
  · subst place
    refine ⟨_, exec_keyPressAccepted run (by rw [panel]; rfl) steady up, ?_⟩
    rw [pressUp (s := s.advance t) run awake single]
    have settle : settleTime = 300 * milli := by rw [settleTime]
    rw [← settle]
    exact upped_confirm (s := s.advance t) confirm

/-! ## Releases (R56, R63, R64) -/

/-- R61: a key let go. -/
def State.released (s : State) (k : Key) : State :=
  { s with pu := s.pu.setKey k { s.pu.key k with down := false, freed := some s.now } }

theorem alike_released (s : State) (k : Key) : Alike (s.released k).roused s := ⟨rfl, rfl, rfl⟩

/-- R63: the release of BACK outside a chord, before its hold limit. -/
theorem releaseBack_short {s : State} {was : KeyState} (alone : s.pu.chord = false) (unspent : was.spent = false)
    (early : s.now ≤ was.since + longHold) : releaseBack was s = buttonEvent .back s := by
  have still : s.pu.chordRelease = s.pu := if_neg (ne_true_of_eq_false alone)
  have made : (!was.spent && decide (s.now ≤ was.since + longHold)) = true := by
    rw [unspent, decide_eq_true early]; rfl
  unfold releaseBack
  rw [still]
  exact if_pos made

/-- R64: the release of START before its hold limit. -/
theorem releaseStart_short {s : State} {was : KeyState} (unspent : was.spent = false)
    (early : s.now ≤ was.since + startHoldTime) : releaseStart was s = buttonEvent .startShort s := by
  have made : (!was.spent && decide (s.now ≤ was.since + startHoldTime)) = true := by
    rw [unspent, decide_eq_true early]; rfl
  exact if_pos made

section
variable {s : State} (run : s.psp.phase = .run) (awake : s.au.state ≠ .dark) (idle : s.pu.settle = none)
include run awake idle

theorem releaseKey_back (alone : s.pu.chord = false) (unspent : s.pu.back.spent = false)
    (early : s.now ≤ s.pu.back.since + longHold) : releaseKey .back s = dcBack (s.released .back).roused := by
  calc releaseKey .back s
      = buttonEvent .back (s.released .back) := releaseBack_short (s := s.released .back) alone unspent early
    _ = deliver .back (s.released .back) := buttonEvent_awake (s := s.released .back) awake idle .back
    _ = dcBack (s.released .back).roused := deliver_back (s := s.released .back) run

theorem releaseKey_start (unspent : s.pu.start.spent = false) (early : s.now ≤ s.pu.start.since + startHoldTime) :
    releaseKey .start s = dcStartShort (s.released .start).roused := by
  calc releaseKey .start s
      = buttonEvent .startShort (s.released .start) := releaseStart_short (s := s.released .start) unspent early
    _ = deliver .startShort (s.released .start) := buttonEvent_awake (s := s.released .start) awake idle .startShort
    _ = dcStartShort (s.released .start).roused := deliver_startShort (s := s.released .start) run

end

theorem dcBack_discard {s : State} (browse : s.dc.state = .browseProgram) : dcBack s = dcDiscard s := by
  simp only [dcBack, browse]

theorem dcBack_programs {s : State}
    (back : s.dc.state = .browseOption ∨ s.dc.state = .confirm ∧ s.optionList = []) : dcBack s = dcPrograms s := by
  rcases back with option | ⟨confirm, none⟩
  · simp only [dcBack, option]
  · simp only [dcBack, confirm, none, List.isEmpty_nil, if_true]

theorem dcBack_options {s : State} (confirm : s.dc.state = .confirm) (some : s.optionList ≠ []) :
    dcBack s = dcOptions s := by
  simp only [dcBack, confirm, List.isEmpty_iff, if_neg some]

/-- R80 to R82: BACK leaves the keys and the attention state. -/
theorem dcBack_leaves (s : State) : (dcBack s).pu.back = s.pu.back ∧ (dcBack s).au.state = s.au.state := by
  have programs : (dcPrograms s).pu.back = s.pu.back ∧ (dcPrograms s).au.state = s.au.state := by
    obtain ⟨-, pu, -, au⟩ := dcPrograms_spec s
    exact ⟨(congrArg PanelUnit.back pu :), congrArg AttentionUnit.state au⟩
  unfold dcBack
  split
  · obtain ⟨-, pu, -, au⟩ := dcDiscard_spec s
    exact ⟨(congrArg PanelUnit.back pu :), au⟩
  · exact programs
  · split
    · exact programs
    · obtain ⟨-, pu, -, au⟩ := dcOptions_spec s
      exact ⟨(congrArg PanelUnit.back pu :), congrArg AttentionUnit.state au⟩
  · exact ⟨rfl, rfl⟩
  · exact ⟨rfl, rfl⟩

theorem dcStartShort_confirm {s : State} (confirm : s.dc.state = .confirm) :
    dcStartShort s = trigger .holdStartHint .zero s := by
  simp only [dcStartShort, confirm]

theorem dcStartShort_view {s : State} (view : s.dc.state = .view) (selects : s.selectable = true) :
    dcStartShort s = dcEnter s := by
  simp only [dcStartShort, view, selects, if_true]

theorem releaseStep_of (pu : PanelUnit) (up : Bool) {x : StepRepeat} (set : pu.stepRepeat = some x) :
    (pu.releaseStep up).stepRepeat = if x.up = up then none else some x := by
  simp only [PanelUnit.releaseStep, set]
  split
  · rfl
  · exact set

theorem releaseStep_keys (pu : PanelUnit) (up : Bool) :
    (pu.releaseStep up).up = pu.up ∧ (pu.releaseStep up).down = pu.down := by
  unfold PanelUnit.releaseStep
  split
  · split
    · exact ⟨rfl, rfl⟩
    · exact ⟨rfl, rfl⟩
  · exact ⟨rfl, rfl⟩

/-- Settles O40. -/
theorem releaseMakesTheShortEvent : Obligations.ReleaseMakesTheShortEvent := by
  intro t d s a clock run
  subst clock
  obtain ⟨-, hasBack, hasStart, -⟩ := hasKey_plain s.psp.panel
  have alikeBack := alike_released (s.advance t) .back
  have alikeStart := alike_released (s.advance t) .start
  refine ⟨fun steady down unspent early alone awake browse idle => ?_,
    fun pos steady down unspent early alone awake idle place => ?_,
    fun steady down unspent early awake confirm idle => ?_,
    fun steady down unspent early awake view selects idle => ?_,
    fun steady panel down => ?_, fun steady panel down => ?_⟩
  · refine ⟨_, exec_keyReleaseAccepted run hasBack steady down, ?_⟩
    rw [releaseKey_back (s := s.advance t) run awake idle alone unspent (by rw [longHold]; exact le_of_lt early),
      dcBack_discard (by rw [alikeBack.dc]; exact browse)]
    obtain ⟨dc, pu, -, au⟩ := dcDiscard_spec ((s.advance t).released .back).roused
    rw [dc, pu, au]
    exact ⟨rfl, rfl, rfl, roused_active _⟩
  · subst place
    refine ⟨_, exec_keyReleaseAccepted run hasBack steady down, ?_⟩
    rw [releaseKey_back (s := s.advance t) run awake idle alone unspent (by rw [longHold]; exact le_of_lt early)]
    obtain ⟨key, au⟩ := dcBack_leaves ((s.advance t).released .back).roused
    refine ⟨by rw [key]; rfl, au.trans (roused_active _), fun back => ?_, fun confirm some => ?_⟩
    · rw [dcBack_programs (by rw [alikeBack.dc, alikeBack.optionList]; exact back)]
      obtain ⟨dc, pu, -⟩ := dcPrograms_spec ((s.advance t).released .back).roused
      rw [dc, pu, alikeBack.dc, alikeBack.table]
      exact ⟨rfl, rfl, rfl, rfl, rfl⟩
    · rw [dcBack_options (by rw [alikeBack.dc]; exact confirm) (by rw [alikeBack.optionList]; exact some)]
      obtain ⟨dc, pu, -⟩ := dcOptions_spec ((s.advance t).released .back).roused
      rw [dc, pu, alikeBack.dc, alikeBack.optionList]
      exact ⟨rfl, rfl, Nat.zero_min _, Nat.zero_min _⟩
  · refine ⟨_, exec_keyReleaseAccepted run hasStart steady down, ?_⟩
    rw [releaseKey_start (s := s.advance t) run awake idle unspent (by rw [startHoldTime]; exact le_of_lt early),
      dcStartShort_confirm (by rw [alikeStart.dc]; exact confirm)]
    obtain ⟨dc, pu, pm, au, -⟩ := trigger_leaves .holdStartHint .zero ((s.advance t).released .start).roused
    refine ⟨dc, by rw [pu]; rfl, pm, by rw [au, roused_active], fun ending new room => ?_⟩
    rw [trigger_new (s := ((s.advance t).released .start).roused) .zero ending new room]
    exact congrArg (putBy Item.rank · s.pq.items) (itemOf_loc _ _ _)
  · refine ⟨_, exec_keyReleaseAccepted run hasStart steady down, ?_⟩
    rw [releaseKey_start (s := s.advance t) run awake idle unspent (by rw [startHoldTime]; exact le_of_lt early),
      dcStartShort_view (by rw [alikeStart.dc]; exact view) (by rw [alikeStart.selectable]; exact selects)]
    obtain ⟨dc, pu, pm, au⟩ := dcEnter_spec ((s.advance t).released .start).roused
    rw [dc, pu, pm, au, alikeStart.dc, alikeStart.table]
    exact ⟨rfl, rfl, rfl, rfl, roused_active _⟩
  · refine ⟨_, exec_keyReleaseAccepted run (by rw [panel]; rfl) steady down, ?_⟩
    have repeats (x : StepRepeat) (set : s.pu.stepRepeat = some x) :=
      releaseStep_of ((s.advance t).released .up).pu true (x := x) set
    exact ⟨(releaseStep_keys _ true).1, repeats, rfl, rfl⟩
  · refine ⟨_, exec_keyReleaseAccepted run (by rw [panel]; rfl) steady down, ?_⟩
    refine ⟨(releaseStep_keys _ false).2, fun x set => ?_, rfl, rfl⟩
    refine (releaseStep_of ((s.advance t).released .down).pu false (x := x) set).trans ?_
    cases x.up with
    | true => rfl
    | false => rfl

/-! ## The holds of START and BACK (R33, R63, R64, R76, R77) -/

/-- R33: the frame of an ask. -/
def State.askFrame (s : State) (k : ReqKind) (program : Nat) (options : BitVec 8) : List Byte :=
  buildFrame .request s.ownAddress (requestPayload k (!s.pm.lastMark) program options)

/-- R32, R33: the state once an ask is taken. -/
def State.asked (s : State) (k : ReqKind) (program : Nat) (options : BitVec 8) : State :=
  { s with
    lp := (s.lp.queueRequest (s.askFrame k program options)).1
    pm := { s.pm with
      lastMark := !s.pm.lastMark
      inFlight := some { kind := k, mark := !s.pm.lastMark, program := program, options := options,
                         deadline := s.now + requestTime, sent := false } } }

/-- R77: the state that awaits the answer. -/
def State.awaiting (s : State) (ret : ReturnState) : State :=
  { s with dc := { s.dc with state := .awaitAnswer, ret := some ret } }

section
variable {s : State} (fresh : s.pm.freshness = .fresh) (clear : s.lp.clash = false) (free : s.pm.inFlight = none)
include fresh clear free

/-- R33: an ask with no request in flight, the partner FRESH and CLASH clear is taken. -/
theorem pmAsk_taken (k : ReqKind) (program : Nat) (options : BitVec 8) :
    pmAsk k program options s = (s.asked k program options, .taken) := by
  have queued (f : List Byte) : (s.lp.queueRequest f).2 = true := by
    simp only [LinePort.queueRequest, clear, Bool.false_eq_true, if_false]
  have none : ¬ s.pm.inFlight.isSome = true := by rw [free]; exact Bool.false_ne_true
  have willing : ¬ (!s.pm.isFresh || s.lp.clash) = true := by
    rw [PartnerMonitor.isFresh, fresh, clear]
    exact Bool.false_ne_true
  exact (if_neg none).trans ((if_neg willing).trans (if_pos (queued _)))

/-- R77: CONFIRM asks and awaits the answer, with SELECTING ended. -/
theorem dcAsk_confirm (confirm : s.dc.state = .confirm) (k : ReqKind) (program : Nat) (options : BitVec 8) :
    dcAsk k program options s = selectingEnds ((s.asked k program options).awaiting .confirm) := by
  simp only [dcAsk, pmAsk_taken fresh clear free, confirm]
  rfl

/-- R76, R77: VIEW asks and awaits the answer. -/
theorem dcAsk_view (view : s.dc.state = .view) (k : ReqKind) (program : Nat) (options : BitVec 8) :
    dcAsk k program options s = (s.asked k program options).awaiting .view := by
  simp only [dcAsk, pmAsk_taken fresh clear free, view]
  rfl

end

/-- R77: what the end of SELECTING leaves. -/
theorem selectingEnds_leaves (s : State) :
    (selectingEnds s).pm = s.pm ∧ (selectingEnds s).dc = s.dc ∧ (selectingEnds s).pu = s.pu :=
  have same := outside_withdraw .selecting { s with au := s.au.noReminder }
  ⟨(congrArg State.pm same :), (congrArg State.dc same :), (congrArg State.pu same :)⟩

/-- R63, R64: a press that has made its event. -/
def State.spending (s : State) (k : Key) : State := { s with pu := s.pu.spend k }

theorem alike_spending (s : State) (k : Key) : Alike (s.spending k).roused s := ⟨rfl, rfl, rfl⟩

section
variable {t : Time} {s : State} (run : s.psp.phase = .run) (awake : s.au.state ≠ .dark) (idle : s.pu.settle = none)
include run awake idle

theorem exec_startHold (down : s.pu.start.down = true) (unspent : s.pu.start.spent = false)
    (late : s.pu.start.since + startHoldTime ≤ (s.advance t).now) :
    exec (.startHold t) s = .next (dcStartHold ((s.advance t).spending .start).roused) := by
  refine congrArg Host.Outcome.next
    ((if_pos (held_of_late (s := s.advance t) (k := .start) run down unspent late)).trans ?_)
  exact (buttonEvent_awake (s := (s.advance t).spending .start) awake idle .startHold).trans
    (deliver_startHold (s := (s.advance t).spending .start) run)

theorem exec_cancelHold (down : s.pu.back.down = true) (unspent : s.pu.back.spent = false)
    (late : s.pu.back.since + longHold ≤ (s.advance t).now) :
    exec (.cancelHold t) s = .next (dcCancel ((s.advance t).spending .back).roused) := by
  refine congrArg Host.Outcome.next
    ((if_pos (held_of_late (s := s.advance t) (k := .back) run down unspent late)).trans ?_)
  exact (buttonEvent_awake (s := (s.advance t).spending .back) awake idle .cancelHold).trans
    (deliver_cancelHold (s := (s.advance t).spending .back) run)

end

theorem dcStartHold_confirm {s : State} (confirm : s.dc.state = .confirm) :
    dcStartHold s = dcAsk .start s.dc.program s.dc.options s := by
  simp only [dcStartHold, confirm]

theorem dcCancelInView_running {s : State} (fresh : s.pm.freshness = .fresh) (running : s.pm.record.state = .running) :
    dcCancelInView s = dcAsk .cancel 0 0 s := by
  rw [dcCancelInView, PartnerMonitor.isFresh, fresh, running]
  rfl

theorem dcCancelInView_free {s : State} (fresh : s.pm.freshness = .fresh) (free : s.pm.record.state = .free) :
    dcCancelInView s = vpBuzz s := by
  rw [dcCancelInView, PartnerMonitor.isFresh, fresh, free]
  rfl

/-- Settles O42. -/
theorem holdsAskForRequests : Obligations.HoldsAskForRequests := by
  have due : requestTime = 3000 * milli := by rw [requestTime, second, milli]
  refine ⟨fun t s a clock run down unspent late awake idle confirm fresh clear free => ?_,
    fun t s a clock run down unspent late awake idle view fresh running clear free => ?_,
    fun t s a clock run down unspent late awake idle browse fresh free => ?_⟩
  · subst clock
    have alike := alike_spending (s.advance t) .start
    refine ⟨_, exec_startHold run awake idle down unspent (by rw [startHoldTime]; exact late), ?_⟩
    rw [dcStartHold_confirm (by rw [alike.dc]; exact confirm),
      dcAsk_confirm (s := ((s.advance t).spending .start).roused) (by rw [alike.pm]; exact fresh) clear
        (by rw [alike.pm]; exact free) (by rw [alike.dc]; exact confirm), ← due]
    obtain ⟨pm, dc, pu⟩ := selectingEnds_leaves ((((s.advance t).spending .start).roused.asked .start
      ((s.advance t).spending .start).roused.dc.program
      ((s.advance t).spending .start).roused.dc.options).awaiting .confirm)
    exact ⟨pm, dc, by rw [pu]; rfl⟩
  · subst clock
    have alike := alike_spending (s.advance t) .back
    refine ⟨_, exec_cancelHold run awake idle down unspent (by rw [longHold]; exact late), ?_⟩
    have asks : dcCancel ((s.advance t).spending .back).roused =
        dcAsk .cancel 0 0 ((s.advance t).spending .back).roused := by
      rw [← dcCancelInView_running (by rw [alike.pm]; exact fresh) (by rw [alike.pm]; exact running)]
      simp only [dcCancel, alike.dc, advance_dc, view]
    rw [asks, dcAsk_view (s := ((s.advance t).spending .back).roused) (by rw [alike.pm]; exact fresh) clear
      (by rw [alike.pm]; exact free) (by rw [alike.dc]; exact view), ← due]
    exact ⟨rfl, rfl, rfl⟩
  · subst clock
    have alike := alike_spending (s.advance t) .back
    refine ⟨_, exec_cancelHold run awake idle down unspent (by rw [longHold]; exact late), ?_⟩
    obtain ⟨dc, pu, pm, -⟩ := dcDiscard_spec ((s.advance t).spending .back).roused
    have buzzes : dcCancel ((s.advance t).spending .back).roused =
        vpBuzz (dcDiscard ((s.advance t).spending .back).roused) := by
      rw [← dcCancelInView_free (by rw [pm, alike.pm]; exact fresh) (by rw [pm, alike.pm]; exact free)]
      simp only [dcCancel, alike.dc, advance_dc, browse]
    rw [buzzes]
    exact ⟨dc, (congrArg PanelUnit.listLen pu :), pm, rfl⟩

end Sys2Proof.Machine
end

