-- ==== Sys2Proof/Proofs/Reports.lean ====
section
/-! PROOFS. A machine report (R28 to R31): which entries it has, in which order, and that none stands twice. -/

namespace Sys2Proof.Machine

/-! ## The entries (R28 to R30) -/

theorem mem_clearedEnds {old new : Record} {e : ReportEntry} : e ∈ clearedEnds old new ↔
    ∃ k ∈ machineConditions, (old.shows k = true ∧ new.shows k = false) ∧ e = .cleared k := by
  simp only [clearedEnds, List.mem_map, List.mem_filter, Bool.and_eq_true, Bool.not_eq_true', and_assoc,
    @eq_comm _ _ e]

theorem mem_stateEvent {old new : MachineState} {e : ReportEntry} : e ∈ stateEvent old new ↔
    e = .started ∧ (old = .awaitPayment ∨ old = .ready ∨ old = .free) ∧ new = .running ∨
    e = .paused ∧ old = .running ∧ new = .paused ∨ e = .resumed ∧ old = .paused ∧ new = .running ∨
    e = .cycleDone ∧ old = .running ∧ new = .done ∨
    e = .outOfService ∧ old ≠ .outOfService ∧ new = .outOfService := by
  cases old <;> cases new <;> simp [stateEvent]

theorem mem_timeCallOf {old new : Option Nat} {e : ReportEntry} : e ∈ timeCallOf old new ↔
    ∃ m n, e = .timeCall m ∧ new = some m ∧ m ≤ 5 ∧ old = some n ∧ 6 ≤ n := by
  cases old with
  | none => simp [timeCallOf]
  | some n =>
    cases new with
    | none => simp [timeCallOf]
    | some m =>
      simp only [timeCallOf, List.mem_ite_nil_right, List.mem_singleton, Option.some.injEq]
      constructor
      · rintro ⟨⟨high, low⟩, rfl⟩
        exact ⟨m, n, rfl, rfl, low, rfl, high⟩
      · rintro ⟨_, _, rfl, rfl, low, rfl, high⟩
        exact ⟨⟨high, low⟩, rfl⟩

theorem mem_progressEvents {old new : Record} {e : ReportEntry} : e ∈ progressEvents old new ↔
    ((((new.state = .awaitPayment ∧ (old.state ≠ .awaitPayment ∨ new.credits ≠ old.credits)) ∧
        e = .paymentDue new.credits ∨
      (new.action ≠ 0 ∧ new.action ≠ old.action) ∧ e = .action new.action) ∨
      (new.fault ≠ 0 ∧ new.fault ≠ old.fault) ∧ e = .fault new.fault) ∨
      (old.state = .running ∧ new.state = .running ∧ new.phase ≠ old.phase) ∧ e = .phase new.phase) ∨
      (old.state = .running ∧ new.state = .running) ∧
        ∃ m n, e = .timeCall m ∧ new.minutes = some m ∧ m ≤ 5 ∧ old.minutes = some n ∧ 6 ≤ n := by
  simp only [progressEvents, List.mem_append, List.mem_ite_nil_right, List.mem_singleton, mem_timeCallOf]

theorem mem_machineReport {old new : Record} {e : ReportEntry} : e ∈ machineReport old new ↔
    (e ∈ clearedEnds old new ∨ e ∈ stateEvent old.state new.state) ∨ e ∈ progressEvents old new := by
  simp only [machineReport, List.mem_append]

/-! ## Their order (R31) -/

/-- The entries stand in strictly rising places, from `a` to `b`. -/
def Rising (a b : Nat) (l : List ReportEntry) : Prop :=
  l.Pairwise (fun d e => d.place < e.place) ∧ ∀ e ∈ l, a ≤ e.place ∧ e.place ≤ b

theorem rising_nil (a b : Nat) : Rising a b [] := ⟨.nil, by simp⟩

theorem rising_one {n : Nat} {e : ReportEntry} (place : e.place = n) : Rising n n [e] :=
  ⟨List.pairwise_singleton _ _, by simp [place]⟩

theorem rising_ite {n : Nat} {e : ReportEntry} {p : Prop} [Decidable p] (place : e.place = n) :
    Rising n n (if p then [e] else []) := by
  split
  · exact rising_one place
  · exact rising_nil n n

theorem rising_append {a b d : Nat} {l m : List ReportEntry} (hl : Rising a b l) (hm : Rising (b + 1) d m)
    (low : a ≤ b) (high : b ≤ d) : Rising a d (l ++ m) := by
  obtain ⟨ordered, within⟩ := hl
  obtain ⟨ordered', within'⟩ := hm
  refine ⟨List.pairwise_append.2 ⟨ordered, ordered', fun x hx y hy => ?_⟩, fun e he => ?_⟩
  · exact Nat.lt_of_le_of_lt (within x hx).2 (within' y hy).1
  · rcases List.mem_append.1 he with h | h
    · exact ⟨(within e h).1, (within e h).2.trans high⟩
    · exact ⟨low.trans ((Nat.le_succ b).trans (within' e h).1), (within' e h).2⟩

theorem rising_progressEvents (old new : Record) : Rising 2 6 (progressEvents old new) := by
  have call : Rising 6 6 (if old.state = .running ∧ new.state = .running then timeCallOf old.minutes new.minutes
      else []) := by
    split
    · unfold timeCallOf
      split
      · exact rising_ite rfl
      · exact rising_nil 6 6
    · exact rising_nil 6 6
  unfold progressEvents
  have payment := rising_ite (p := new.state = .awaitPayment ∧ (old.state ≠ .awaitPayment ∨
    new.credits ≠ old.credits)) (e := .paymentDue new.credits) (n := 2) rfl
  have action := rising_append payment (rising_ite (p := new.action ≠ 0 ∧ new.action ≠ old.action)
    (e := .action new.action) (n := 3) rfl) (by decide) (by decide)
  have fault := rising_append action (rising_ite (p := new.fault ≠ 0 ∧ new.fault ≠ old.fault)
    (e := .fault new.fault) (n := 4) rfl) (by decide) (by decide)
  have phase := rising_append fault (rising_ite (p := old.state = .running ∧ new.state = .running ∧
    new.phase ≠ old.phase) (e := .phase new.phase) (n := 5) rfl) (by decide) (by decide)
  exact rising_append phase call (by decide) (by decide)

theorem stateEvent_short (old new : MachineState) : stateEvent old new = [] ∨ ∃ e, stateEvent old new = [e] := by
  cases old <;> cases new <;> simp [stateEvent]

theorem rising_stateEvent (old new : MachineState) : Rising 1 1 (stateEvent old new) := by
  have place (e : ReportEntry) (mem : e ∈ stateEvent old new) : e.place = 1 := by
    rcases mem_stateEvent.1 mem with ⟨rfl, -⟩ | ⟨rfl, -⟩ | ⟨rfl, -⟩ | ⟨rfl, -⟩ | ⟨rfl, -⟩ <;> rfl
  rcases stateEvent_short old new with none | ⟨e, one⟩
  · rw [none]
    exact rising_nil 1 1
  · rw [one]
    exact rising_one (place e (by rw [one]; exact List.mem_singleton_self e))

theorem place_clearedEnds {old new : Record} {e : ReportEntry} (mem : e ∈ clearedEnds old new) : e.place = 0 := by
  obtain ⟨k, -, -, rfl⟩ := mem_clearedEnds.1 mem
  rfl

theorem nodup_clearedEnds (old new : Record) : (clearedEnds old new).Nodup := by
  refine List.Nodup.map (fun j k same => ReportEntry.cleared.inj same) (List.Nodup.filter _ ?_)
  decide

/-- R31: the report is its ends, all in one place, and then the events in places that rise. -/
theorem machineReport_split (old new : Record) : ∃ l, machineReport old new = clearedEnds old new ++ l ∧
    Rising 1 6 l :=
  ⟨_, List.append_assoc _ _ _, rising_append (rising_stateEvent _ _) (rising_progressEvents _ _) (by decide)
    (by decide)⟩

theorem machineReport_ordered (old new : Record) :
    (machineReport old new).Pairwise (fun d e => d.place ≤ e.place) := by
  obtain ⟨l, split, ordered, -⟩ := machineReport_split old new
  have first {d e : ReportEntry} (mem : d ∈ clearedEnds old new) : d.place ≤ e.place :=
    (place_clearedEnds mem).trans_le (Nat.zero_le _)
  rw [split]
  exact List.pairwise_append.2 ⟨(nodup_clearedEnds old new).imp_of_mem fun mem _ _ => first mem,
    ordered.imp Nat.le_of_lt, fun _ mem _ _ => first mem⟩

theorem machineReport_nodup (old new : Record) : (machineReport old new).Nodup := by
  obtain ⟨l, split, ordered, within⟩ := machineReport_split old new
  rw [split]
  refine List.pairwise_append.2 ⟨nodup_clearedEnds old new, ordered.imp ?_, fun d hd e he same => ?_⟩
  · rintro d e less rfl
    exact absurd less (Nat.lt_irrefl _)
  · have first := place_clearedEnds hd
    rw [same] at first
    exact absurd (within e he).1 (by rw [first]; decide)

/-! ## Which entry stands in it -/

section
variable {old new : Record}

theorem cleared_mem {k : CondKey} : .cleared k ∈ machineReport old new ↔
    k ∈ machineConditions ∧ old.shows k = true ∧ new.shows k = false := by
  simp [mem_machineReport, mem_clearedEnds, mem_stateEvent, mem_progressEvents]

theorem stateEntry_mem {e : ReportEntry} (state : e.place = 1) :
    e ∈ machineReport old new ↔ e ∈ stateEvent old.state new.state := by
  refine mem_machineReport.trans ⟨?_, fun mem => .inl (.inr mem)⟩
  rintro ((mem | mem) | mem)
  · exact absurd (state.symm.trans (place_clearedEnds mem)) (by decide)
  · exact mem
  · have late := ((rising_progressEvents old new).2 e mem).1
    rw [state] at late
    exact absurd late (by decide)

theorem progress_mem {e : ReportEntry} (late : 2 ≤ e.place) :
    e ∈ machineReport old new ↔ e ∈ progressEvents old new := by
  refine mem_machineReport.trans ⟨?_, .inr⟩
  rintro ((mem | mem) | mem)
  · rw [place_clearedEnds mem] at late
    exact absurd late (by decide)
  · have early := ((rising_stateEvent old.state new.state).2 e mem).2
    exact absurd (late.trans early) (by decide)
  · exact mem

/-- R28 to R31: the entries that a machine report can have. -/
theorem machineReport_kinds {e : ReportEntry} (mem : e ∈ machineReport old new) :
    (∃ k ∈ machineConditions, e = .cleared k) ∨ e = .started ∨ e = .paused ∨ e = .resumed ∨ e = .cycleDone ∨
      e = .outOfService ∨ (∃ c, e = .paymentDue c) ∨ (∃ c, e = .action c) ∨ (∃ c, e = .fault c) ∨
      (∃ p, e = .phase p) ∨ ∃ m, e = .timeCall m := by
  rcases mem_machineReport.1 mem with (ended | event) | progress
  · obtain ⟨k, machine, -, rfl⟩ := mem_clearedEnds.1 ended
    exact .inl ⟨k, machine, rfl⟩
  · rcases mem_stateEvent.1 event with ⟨rfl, -⟩ | ⟨rfl, -⟩ | ⟨rfl, -⟩ | ⟨rfl, -⟩ | ⟨rfl, -⟩ <;> simp
  · rcases mem_progressEvents.1 progress with (((⟨-, rfl⟩ | ⟨-, rfl⟩) | ⟨-, rfl⟩) | ⟨-, rfl⟩) | ⟨-, m, -, rfl, -⟩ <;>
      simp

end

end Sys2Proof.Machine
end

