-- ==== Sys2Proof/Proofs/Statuses.lean ====
section
/-! PROOFS. A partner STATUS (R19, R22, R24, R27): the record it makes, its report, and its answer offered to the
request in flight. -/

namespace Sys2Proof.Machine

/-! ## The parts of the taking -/

/-- R19, R22: the record after a STATUS; the kind is that of the baseline. -/
def State.recordAfter (s : State) (got : Record) : Record :=
  if s.pm.freshness = .fresh then { got with kind := s.pm.record.kind } else got

/-- R27 to R31: the report of a STATUS. -/
def State.reportOf (s : State) (got : Record) : List ReportEntry :=
  if s.pm.freshness = .fresh then machineReport s.pm.record (s.recordAfter got)
  else baselineReport (s.pm.freshness == .lost) got

/-- R88: the state that a STATUS meets: after a DARK of the moment where it answers the request in flight. -/
def State.timely (s : State) (got : Record) : State :=
  if s.pm.inFlight.any (·.answered got) then darkFirst s else s

/-- R19, R24: the record taken, the partner FRESH and its timer begun anew. -/
def State.refreshed (s : State) (rec : Record) (arrival : Time) : State :=
  { s with pm := { s.pm with record := rec, freshness := .fresh, freshTimer := some (arrival + freshTime) } }

/-- R19, R31: the state that the report is taken in. -/
def State.recorded (s : State) (got : Record) (arrival : Time) : State :=
  (s.timely got).refreshed (s.recordAfter got) arrival

/-- R31, R86: the report taken by the prompt queue and then by the dialogue. -/
def State.reported (s : State) (got : Record) (arrival : Time) : State :=
  dcReport (takeReport arrival (s.reportOf got) (s.recorded got arrival))

theorem timely_pm (s : State) (got : Record) : (s.timely got).pm = s.pm := by
  unfold State.timely
  split
  · exact pm_darkFirst s
  · rfl

theorem pmStatus_eq (p : List Byte) (arrival : Time) (s : State) :
    pmStatus p arrival s = offerAnswer (s.reported (recordOf p) arrival) := by
  have same := timely_pm s (recordOf p)
  simp only [pmStatus, ← State.timely.eq_1, same, State.reported, State.reportOf, State.recorded, State.refreshed,
    State.recordAfter]
  cases s.pm.freshness with
  | fresh => rfl
  | none => rfl
  | lost => rfl

/-! ## The record and the dialogue (R19, R24, R86) -/

theorem pm_dcReport (s : State) : (dcReport s).pm = s.pm := by
  unfold dcReport
  split
  · exact pm_dcDiscard s
  · rfl

/-- R86: a report ends a selection that the machine can no longer take. -/
theorem dc_dcReport (s : State) :
    (dcReport s).dc = if s.dc.state.selecting && !s.selectable then Dialogue.reset else s.dc := by
  unfold dcReport
  split
  · rfl
  · rfl

theorem dcReport_unselecting {s : State} (closed : s.dc.state.selecting = false) : dcReport s = s := by
  rw [dcReport, closed, Bool.false_and, if_neg Bool.false_ne_true]

/-- A record with which the machine can take a selection. -/
def Record.willing (r : Record) : Bool := r.state == .free || r.state == .ready

section
variable (s : State) (got : Record) (arrival : Time)

theorem recorded_pm : (s.recorded got arrival).pm =
    { s.pm with record := s.recordAfter got, freshness := .fresh, freshTimer := some (arrival + freshTime) } := by
  simp only [State.recorded, State.refreshed, timely_pm]

theorem reported_pm : (s.reported got arrival).pm =
    { s.pm with record := s.recordAfter got, freshness := .fresh, freshTimer := some (arrival + freshTime) } := by
  obtain ⟨-, -, pm, -⟩ := takeReport_leaves arrival (s.reportOf got) (s.recorded got arrival)
  rw [State.reported, pm_dcReport, pm, recorded_pm]

theorem reported_selectable : (s.reported got arrival).selectable = (s.recordAfter got).willing := by
  rw [State.selectable, reported_pm]
  rfl

theorem reported_dc : (s.reported got arrival).dc =
    if (s.timely got).dc.state.selecting && !(s.recordAfter got).willing then Dialogue.reset else (s.timely got).dc := by
  obtain ⟨-, dc, pm, -⟩ := takeReport_leaves arrival (s.reportOf got) (s.recorded got arrival)
  have taken : (takeReport arrival (s.reportOf got) (s.recorded got arrival)).selectable = (s.recordAfter got).willing := by
    rw [State.selectable, pm, recorded_pm]
    rfl
  rw [State.reported, dc_dcReport, dc, taken]
  rfl

theorem answered_recordAfter (q : Request) : q.answered (s.recordAfter got) = q.answered got := by
  unfold State.recordAfter
  split
  · rfl
  · rfl

end

theorem timely_idle {s : State} (idle : s.pm.inFlight = none) (got : Record) : s.timely got = s := by
  rw [State.timely, idle]
  rfl

theorem timely_unanswered {s : State} {q : Request} {got : Record} (flying : s.pm.inFlight = some q)
    (other : q.answered got = false) : s.timely got = s := by
  have none : ¬ s.pm.inFlight.any (·.answered got) = true := by
    rw [flying]
    exact ne_true_of_eq_false other
  exact if_neg none

theorem timely_answered {s : State} {q : Request} {got : Record} (flying : s.pm.inFlight = some q)
    (meant : q.answered got = true) : s.timely got = darkFirst s := by
  have any : s.pm.inFlight.any (·.answered got) = true := by
    rw [flying]
    exact meant
  exact if_pos any

/-! ## The answer offered (R35, R38) -/

section
variable {s : State} {q : Request} {got : Record} {arrival : Time}

theorem offerAnswer_idle (idle : s.pm.inFlight = none) :
    offerAnswer (s.reported got arrival) = s.reported got arrival := by
  have none : (s.reported got arrival).pm.inFlight = none := by rw [reported_pm]; exact idle
  simp only [offerAnswer, none]

theorem offerAnswer_unanswered (flying : s.pm.inFlight = some q) (other : q.answered got = false) :
    offerAnswer (s.reported got arrival) = s.reported got arrival := by
  have some' : (s.reported got arrival).pm.inFlight = some q := by rw [reported_pm]; exact flying
  have rec' : (s.reported got arrival).pm.record = s.recordAfter got := by rw [reported_pm]
  simp only [offerAnswer, some', rec', answered_recordAfter, other, Bool.false_eq_true, if_false]

theorem offerAnswer_answered (flying : s.pm.inFlight = some q) (meant : q.answered got = true) :
    offerAnswer (s.reported got arrival) = resolveAnswered q (s.recordAfter got).ansResult (s.reported got arrival) := by
  have some' : (s.reported got arrival).pm.inFlight = some q := by rw [reported_pm]; exact flying
  have rec' : (s.reported got arrival).pm.record = s.recordAfter got := by rw [reported_pm]
  simp only [offerAnswer, some', rec', answered_recordAfter, meant, if_true]

end

/-- R35: the tracker emptied and the answer's prompt placed. -/
def State.replied (s : State) (q : Request) (result : AnswerResult) : State :=
  if result = .accepted then if q.kind = .cancel then busyTrigger .cancelled .zero s.untracked else s.untracked
  else busyTrigger .requestRefused (.two (reqCode q.kind) (resultCode result)) s.untracked

theorem resolveAnswered_eq (q : Request) (result : AnswerResult) (s : State) :
    resolveAnswered q result s = dcResolved result (s.replied q result) := rfl

theorem replied_leaves (s : State) (q : Request) (result : AnswerResult) :
    (s.replied q result).dc = s.dc ∧ (s.replied q result).pm = { s.pm with inFlight := none } := by
  unfold State.replied
  split
  · split
    · exact ⟨dc_busyTrigger _ _ _, pm_busyTrigger _ _ _⟩
    · exact ⟨rfl, rfl⟩
  · exact ⟨dc_busyTrigger _ _ _, pm_busyTrigger _ _ _⟩

theorem willing_iff {r : Record} : r.willing = true ↔ r.state = .free ∨ r.state = .ready := by
  simp only [Record.willing, Bool.or_eq_true, beq_iff_eq]

/-- R86: an awaited answer is no selection, and VIEW is none. -/
theorem reported_dc_closed {s : State} (got : Record) (arrival : Time)
    (closed : (s.timely got).dc.state.selecting = false) : (s.reported got arrival).dc = (s.timely got).dc := by
  rw [reported_dc, closed, Bool.false_and, if_neg Bool.false_ne_true]

/-- R35, R38, R83, R88: the request in flight resolved by an answer. -/
theorem resolveAnswered_spec {s : State} {q : Request} {got : Record} (meant : q.answered got = true)
    (flying : s.pm.inFlight = some q) (arrival : Time) {new : Record} (record : new = s.recordAfter got) {u : State}
    (resolved : u = resolveAnswered q new.ansResult (s.reported got arrival)) :
    u.pm.inFlight = none ∧
    (s.dc.state = .awaitAnswer → new.ansResult ≠ .accepted → s.dc.ret = some .confirm →
      (new.state = .free ∨ new.state = .ready) → s.darkDue = false →
      u.dc = { s.dc with state := .confirm, ret := none }) ∧
    (s.darkDue = true → s.dc.state ≠ .view → u.dc = Dialogue.reset) ∧
    (s.dc.state = .awaitAnswer → (new.ansResult = .accepted ∨ s.dc.ret ≠ some .confirm ∨
      new.state ≠ .free ∧ new.state ≠ .ready) → u.dc = Dialogue.reset) ∧
    (s.dc.state = .view → u.dc = s.dc) := by
  subst record
  rw [resolveAnswered_eq] at resolved
  obtain ⟨dc, pm⟩ := replied_leaves (s.reported got arrival) q (s.recordAfter got).ansResult
  have able : ((s.reported got arrival).replied q (s.recordAfter got).ansResult).selectable =
      (s.recordAfter got).willing := by
    rw [← reported_selectable s got arrival]
    simp only [State.selectable, PartnerMonitor.isFresh, pm]
  have timely := timely_answered flying meant
  generalize (s.reported got arrival).replied q (s.recordAfter got).ansResult = b at *
  have met (closed : (darkFirst s).dc.state.selecting = false) : b.dc = (darkFirst s).dc := by
    rw [dc, reported_dc_closed got arrival (by rw [timely]; exact closed), timely]
  have dark (reset : (darkFirst s).dc = Dialogue.reset) : u.dc = Dialogue.reset := by
    have view := met (by rw [reset]; rfl)
    rw [resolved, dcResolved_elsewhere (by rw [view, reset]; decide), view, reset]
  refine ⟨by rw [resolved, pm_dcResolved, pm], fun awaited refused ret selects lit => ?_, fun due opened => ?_,
    fun awaited past => ?_, fun view => ?_⟩
  · have same := met (by rw [darkFirst_of_undue lit, awaited]; rfl)
    rw [darkFirst_of_undue lit] at same
    rw [resolved, dcResolved_back (same ▸ awaited) refused (same ▸ ret) (able.trans (willing_iff.2 selects))]
    simp only [selectingBegins, same]
  · obtain ⟨-, -, closed, -⟩ := goDark_spec s
    exact dark (by rw [darkFirst_of_due due]; exact (closed opened).1)
  · rcases dc_darkFirst s with same | ⟨-, -, reset⟩
    · have still := met (by rw [same, awaited]; rfl)
      rw [same] at still
      rw [resolved, dcResolved_discard (still ▸ awaited)]
      · rfl
      · refine past.imp_right (Or.imp (fun other => still ▸ other) fun shut => ?_)
        rw [able, Bool.eq_false_iff]
        exact fun opened => (willing_iff.1 opened).elim shut.1 shut.2
    · exact dark reset
  · rcases dc_darkFirst s with same | ⟨-, opened, -⟩
    · have still := met (by rw [same, view]; rfl)
      rw [same] at still
      rw [resolved, dcResolved_elsewhere (by rw [still, view]; decide), still]
    · exact absurd view opened

end Sys2Proof.Machine
end

