-- ==== Sys2Proof/Proofs/Entries.lean ====
section
/-! PROOFS. The entries of a report as the prompt queue takes them while the floor controller waits in ENDING with no
current item (R92, R95, R96, R99, R103, R107, R108): series first, then what leaves the queue, then the triggers. -/

namespace Sys2Proof.Machine

/-! ## The queue in class order (R94, R96) -/

theorem ofNat_rank (c : PromptClass) : PromptClass.ofNat (rank c) = c := by cases c <;> rfl

theorem rank_inj {c d : PromptClass} (same : rank c = rank d) : c = d := by
  rw [← ofNat_rank c, same, ofNat_rank]

/-- The items stand in class order. -/
def InOrder (items : List Item) : Prop := items.Pairwise fun a b => a.rank < b.rank

/-- R96: in class order an item updated in its place is the item put there. -/
theorem updateItem_eq {it : Item} {items : List Item} (ordered : InOrder items)
    (queued : ∃ q ∈ items, q.cls = it.cls) : updateItem it items = putBy Item.rank it items := by
  induction items with
  | nil => simp at queued
  | cons q qs ih =>
    obtain ⟨first, rest⟩ := List.pairwise_cons.1 ordered
    unfold putBy
    by_cases same : q.cls = it.cls
    · have others : ∀ x ∈ qs, (if x.cls = it.cls then it else x) = x := fun x mem =>
        if_neg fun also => absurd (first x mem) (by simp [Item.rank, same, also])
      have level : it.rank = q.rank := by rw [Item.rank, Item.rank, same]
      rw [if_neg (by rw [level]; exact Nat.lt_irrefl _), if_pos level]
      simp only [updateItem, List.map_cons, same, if_true, List.map_congr_left others, List.map_id']
    · have later : ∃ x ∈ qs, x.cls = it.cls := by
        obtain ⟨x, mem, cls⟩ := queued
        rcases List.mem_cons.1 mem with rfl | mem
        · exact absurd cls same
        · exact ⟨x, mem, cls⟩
      obtain ⟨x, mem, cls⟩ := later
      have below : q.rank < it.rank := by
        have level : x.rank = it.rank := by rw [Item.rank, Item.rank, cls]
        exact level ▸ first x mem
      rw [if_neg (Nat.not_lt.2 below.le), if_neg below.ne', ← ih rest ⟨x, mem, cls⟩]
      simp only [updateItem, List.map_cons, if_neg same]

/-! ## A trigger of a report (R92, R95, R96) -/

/-- The state with other items in the prompt queue. -/
def State.requeued (s : State) (items : List Item) : State := { s with pq := { s.pq with items := items } }

theorem reportTrigger_ending {s : State} {c : PromptClass} (p : Params) (ending : s.fc.state = .ending)
    (free : s.pq.current = none) (ordered : InOrder s.pq.items) (room : s.pq.items.length < 8) :
    reportTrigger c p s = (activity s).requeued (putBy Item.rank (s.itemOf c p (baseReach c)) s.pq.items) := by
  have acted : ∃ x, activity s = { s with au := x } := by
    unfold activity
    split
    · exact ⟨_, rfl⟩
    · exact ⟨s.au, rfl⟩
  obtain ⟨x, same⟩ := acted
  rw [reportTrigger, same, placeTrigger_ending (s := { s with au := x }) ending]
  cases queued : s.pq.queued c with
  | false =>
    rw [putTrigger_new (s := { s with au := x }) p _ true ending queued room, PromptQueue.placed, met_none free]
    rfl
  | true =>
    have known : ∃ q ∈ s.pq.items, q.cls = c := by
      simpa only [PromptQueue.queued, List.any_eq_true, beq_iff_eq] using queued
    rw [putTrigger_queued (s := { s with au := x }) p _ true ending queued, PromptQueue.updated, met_none free,
      updateItem_eq ordered known]
    rfl

/-- R92: the triggers of an entry, each as secondary activity. -/
def reportTriggers (ts : List (PromptClass × Params)) (s : State) : State :=
  ts.foldl (fun u x => reportTrigger x.1 x.2 u) s

/-- R95: the items with those of the triggers put among them. -/
def State.putAll (s : State) (ts : List (PromptClass × Params)) (items : List Item) : List Item :=
  ts.foldl (fun q x => putBy Item.rank (s.itemOf x.1 x.2 (baseReach x.1)) q) items

/-- What the triggers of an entry make of a state in ENDING with no current item. -/
theorem reportTriggers_ending (ts : List (PromptClass × Params)) {s : State} (ending : s.fc.state = .ending)
    (free : s.pq.current = none) (ordered : InOrder s.pq.items) (room : s.pq.items.length + ts.length ≤ 8) :
    ∃ x, reportTriggers ts s = { s.requeued (s.putAll ts s.pq.items) with au := x } ∧
      (ts = [] → x = s.au) ∧ (ts ≠ [] → s.psp.phase = .run → x.state = .active) := by
  induction ts generalizing s with
  | nil => exact ⟨s.au, rfl, fun _ => rfl, fun some => absurd rfl some⟩
  | cons z ts ih =>
    have acted : activity s = { s with au := (activity s).au } := by
      unfold activity
      split
      · rfl
      · rfl
    have put := reportTrigger_ending (c := z.1) z.2 ending free ordered
      (by rw [List.length_cons] at room; omega)
    have longer := length_putBy Item.rank (s.itemOf z.1 z.2 (baseReach z.1)) s.pq.items
    obtain ⟨x, same, none, active⟩ := ih (s := { s.requeued (putBy Item.rank (s.itemOf z.1 z.2 (baseReach z.1))
      s.pq.items) with au := (activity s).au }) ending free (sorted_putBy _ _ _ ordered)
      (by rw [List.length_cons] at room; exact (Nat.add_le_add_right longer _).trans (by omega))
    refine ⟨x, ?_, nofun, fun _ run => ?_⟩
    · rw [acted] at put
      exact (congrArg (reportTriggers ts) put).trans same
    · by_cases last : ts = []
      · rw [none last]
        exact congrArg (fun u : State => u.au.state) (activity_running run)
      · exact active last run

/-! ## Series and withdrawals (R99, R103, R107, R108) -/

/-- R103: what the start of a condition's series makes of each. -/
theorem startSeries_series (k : CondKey) (arrival : Time) (q : PromptQueue) (v : Series) :
    (startSeries k arrival q).series v =
      if seriesKey v = k then
        if v = .actionSecond then .stopped else { timer := some (arrival + seriesInterval v), count := 1 }
      else q.series v := by
  cases k <;> cases v <;> rfl

theorem startSeries_doneSince (k : CondKey) (arrival : Time) (q : PromptQueue) :
    (startSeries k arrival q).doneSince = if k = .done then some arrival else q.doneSince := by
  cases k <;> rfl

theorem startSeries_items (k : CondKey) (arrival : Time) (q : PromptQueue) :
    (startSeries k arrival q).items = q.items := by
  cases k <;> rfl

/-- R108: what the end of a condition makes of each series. -/
theorem stopSeries_series (k : CondKey) (q : PromptQueue) (v : Series) :
    (stopSeries k q).series v = if seriesKey v = k then .stopped else q.series v := by
  cases k <;> cases v <;> rfl

theorem stopSeries_doneSince (k : CondKey) (q : PromptQueue) :
    (stopSeries k q).doneSince = if k = .done then none else q.doneSince := by
  cases k <;> rfl

theorem stopSeries_leaves (k : CondKey) (q : PromptQueue) : (stopSeries k q).items = q.items ∧
    (stopSeries k q).current = q.current ∧ (stopSeries k q).hush = q.hush := by
  cases k <;> exact ⟨rfl, rfl, rfl⟩

/-- R99: what is left of the items, with those of a condition or of a class struck in the floor controller's notes. -/
def State.rid (s : State) (means : PromptClass → CondKey → Bool) : State :=
  { s with
    pq := { s.pq with items := s.pq.items.filter fun it => !means it.cls it.key }
    fc := s.fc.strike means }

theorem withdrawMeant_ending {s : State} (ending : s.fc.state = .ending) (free : s.pq.current = none)
    (means : PromptClass → CondKey → Bool) : withdrawMeant means s = s.rid means := by
  rw [withdrawMeant, swappedNow_ending ending, if_neg Bool.false_ne_true]
  simp only [withdrawHeld, free, State.rid]

theorem endCondition_ending {s : State} (ending : s.fc.state = .ending) (free : s.pq.current = none) (k : CondKey) :
    endCondition k s = State.rid { s with pq := stopSeries k s.pq } fun _ x => x == k :=
  withdrawMeant_ending (s := { s with pq := stopSeries k s.pq }) ending ((stopSeries_leaves k s.pq).2.1.trans free)
    fun _ x => x == k

/-! ## An entry of a machine report -/

/-- What an entry does before its triggers. -/
def entryBegins (arrival : Time) (s : State) (e : ReportEntry) : State :=
  match e with
  | .partnerBack => withdraw .lost s
  | .baseline k => { s with pq := startSeries k arrival s.pq }
  | .cleared k | .lossEnd k => endCondition k s
  | _ => beginSeries e arrival s

theorem takeEntry_eq (arrival : Time) (s : State) (e : ReportEntry) : takeEntry arrival s e =
    reportTriggers (e.triggers s.pm.record s.psp.profile.phaseAnnounce) (entryBegins arrival s e) := by
  cases e with
  | cleared k =>
    simp only [takeEntry, entryBegins, ReportEntry.triggers]
    split
    · rfl
    · rfl
  | phase p =>
    simp only [takeEntry, entryBegins, ReportEntry.triggers]
    split
    · rfl
    · rfl
  | _ => rfl

/-- What an entry of a machine report has made of a state in ENDING with no current item, before its triggers. -/
structure Readied (arrival : Time) (e : ReportEntry) (s u : State) : Prop where
  frame     : u = { s with pq := u.pq, fc := u.fc }
  ending    : u.fc.state = .ending
  free      : u.pq.current = none
  hush      : u.pq.hush = s.pq.hush
  items     : u.pq.items = e.clears s.pq.items
  series    : ∀ v, u.pq.series v = if e.resets v then .stopped else s.pq.series v
  doneSince : u.pq.doneSince = if e = .cycleDone then some arrival else if e = .cleared .done then none
                else s.pq.doneSince

section
variable {arrival : Time} {s : State} (ending : s.fc.state = .ending) (free : s.pq.current = none)
include ending free

theorem readied_cleared (k : CondKey) : Readied arrival (.cleared k) s (entryBegins arrival s (.cleared k)) := by
  have same : entryBegins arrival s (.cleared k) = State.rid { s with pq := stopSeries k s.pq } fun _ x => x == k :=
    endCondition_ending ending free k
  obtain ⟨items, current, hush⟩ := stopSeries_leaves k s.pq
  rw [same]
  refine ⟨rfl, ending, current.trans free, hush, ?_, fun v => ?_, ?_⟩
  · exact congrArg (List.filter fun it : Item => !(it.key == k)) items
  · refine (stopSeries_series k s.pq v).trans ?_
    simp only [ReportEntry.resets, beq_iff_eq]
  · refine (stopSeries_doneSince k s.pq).trans ?_
    simp only [reduceCtorEq, if_false, ReportEntry.cleared.injEq]

theorem readied_action (c : Nat) : Readied arrival (.action c) s (entryBegins arrival s (.action c)) := by
  have same : entryBegins arrival s (.action c) =
      State.rid { s with pq := { s.pq with actionFirst := .stopped, actionSecond := .stopped } }
        fun x _ => x == .actionCall :=
    withdrawMeant_ending (s := { s with pq := { s.pq with actionFirst := .stopped, actionSecond := .stopped } })
      ending free fun x _ => x == .actionCall
  rw [same]
  exact ⟨rfl, ending, free, rfl, rfl, fun v => by cases v <;> rfl, rfl⟩

/-- R31, R107, R108: an entry of a machine report in ENDING with no current item. -/
theorem readied_entryBegins {old new : Record} {e : ReportEntry} (mem : e ∈ machineReport old new) :
    Readied arrival e s (entryBegins arrival s e) := by
  rcases machineReport_kinds mem with ⟨k, -, rfl⟩ | rfl | rfl | rfl | rfl | rfl | ⟨c, rfl⟩ | ⟨c, rfl⟩ | ⟨c, rfl⟩ |
    ⟨p, rfl⟩ | ⟨m, rfl⟩
  · exact readied_cleared ending free k
  · exact ⟨rfl, ending, free, rfl, rfl, fun _ => rfl, rfl⟩
  · exact ⟨rfl, ending, free, rfl, rfl, fun _ => rfl, rfl⟩
  · exact ⟨rfl, ending, free, rfl, rfl, fun _ => rfl, rfl⟩
  · exact ⟨rfl, ending, free, rfl, rfl, fun v => by cases v <;> rfl, rfl⟩
  · exact ⟨rfl, ending, free, rfl, rfl, fun _ => rfl, rfl⟩
  · exact ⟨rfl, ending, free, rfl, rfl, fun v => by cases v <;> rfl, rfl⟩
  · exact readied_action ending free c
  · exact ⟨rfl, ending, free, rfl, rfl, fun v => by cases v <;> rfl, rfl⟩
  · exact ⟨rfl, ending, free, rfl, rfl, fun _ => rfl, rfl⟩
  · exact ⟨rfl, ending, free, rfl, rfl, fun _ => rfl, rfl⟩

end

theorem clears_sublist (e : ReportEntry) (items : List Item) : (e.clears items).Sublist items := by
  unfold ReportEntry.clears
  split
  · exact List.filter_sublist
  · exact List.filter_sublist
  · exact .refl items

/-- What an entry of a machine report has made of a state in ENDING with no current item. -/
structure Taken (arrival : Time) (e : ReportEntry) (s u : State) : Prop where
  ending    : u.fc.state = .ending
  free      : u.pq.current = none
  hush      : u.pq.hush = s.pq.hush
  now       : u.now = s.now
  items     : u.pq.items =
                s.putAll (e.triggers s.pm.record s.psp.profile.phaseAnnounce) (e.clears s.pq.items)
  series    : ∀ v, u.pq.series v = if e.resets v then .stopped else s.pq.series v
  doneSince : u.pq.doneSince = if e = .cycleDone then some arrival else if e = .cleared .done then none
                else s.pq.doneSince
  active    : e.triggers s.pm.record s.psp.profile.phaseAnnounce ≠ [] → s.psp.phase = .run → u.au.state = .active

theorem itemOf_congr {s u : State} (hush : u.pq.hush = s.pq.hush) (now : u.now = s.now) : u.itemOf = s.itemOf := by
  funext c p r
  simp only [State.itemOf, State.hushed, hush, now]

theorem putAll_congr {s u : State} (hush : u.pq.hush = s.pq.hush) (now : u.now = s.now) : u.putAll = s.putAll := by
  funext ts items
  simp only [State.putAll, itemOf_congr hush now]

theorem taken_takeEntry {old new : Record} {arrival : Time} {s : State} {e : ReportEntry}
    (mem : e ∈ machineReport old new) (ending : s.fc.state = .ending) (free : s.pq.current = none)
    (ordered : InOrder s.pq.items)
    (room : s.pq.items.length + (e.triggers s.pm.record s.psp.profile.phaseAnnounce).length ≤ 8) :
    Taken arrival e s (takeEntry arrival s e) := by
  have ready := readied_entryBegins (arrival := arrival) ending free mem
  rw [takeEntry_eq]
  generalize entryBegins arrival s e = v at ready ⊢
  have fewer := clears_sublist e s.pq.items
  obtain ⟨x, same, -, active⟩ := reportTriggers_ending (e.triggers s.pm.record s.psp.profile.phaseAnnounce)
    ready.ending ready.free (by rw [ready.items]; exact ordered.sublist fewer)
    (by rw [ready.items]; exact (Nat.add_le_add_right fewer.length_le _).trans room)
  have now : v.now = s.now := by rw [ready.frame]
  rw [same]
  refine ⟨ready.ending, ready.free, ready.hush, now, ?_, ready.series, ready.doneSince, fun some run => ?_⟩
  · rw [← putAll_congr ready.hush now, ← ready.items]
    rfl
  · exact active some (by rw [ready.frame]; exact run)

end Sys2Proof.Machine
end

