-- ==== Sys2Proof/Proofs/LongReports.lean ====
section
/-! PROOFS. A whole machine report taken in ENDING with no current item: its triggers are at most 8, and none that is
queued leaves again by a later entry or by the end of a selection. -/

namespace Sys2Proof.Machine

/-! ## How many triggers a report has -/

/-- R92: the triggers of a report. -/
def triggersOf (r : Record) (b : Bool) (es : List ReportEntry) : List (PromptClass × Params) :=
  es.flatMap (ReportEntry.triggers r b)

theorem triggersOf_append (r : Record) (b : Bool) (l m : List ReportEntry) :
    triggersOf r b (l ++ m) = triggersOf r b l ++ triggersOf r b m := List.flatMap_append

theorem triggers_le_two (r : Record) (b : Bool) (e : ReportEntry) : (e.triggers r b).length ≤ 2 := by
  cases e with
  | cleared k => simp only [ReportEntry.triggers]; split <;> simp
  | phase p => simp only [ReportEntry.triggers]; split <;> simp
  | _ => simp [ReportEntry.triggers]

theorem triggers_le_one {r : Record} {b : Bool} {e : ReportEntry} (other : e ≠ .cycleDone) :
    (e.triggers r b).length ≤ 1 := by
  cases e with
  | cleared k => simp only [ReportEntry.triggers]; split <;> simp
  | phase p => simp only [ReportEntry.triggers]; split <;> simp
  | cycleDone => exact absurd rfl other
  | _ => simp [ReportEntry.triggers]

/-- Of the ends of conditions only that of FAULT triggers. -/
theorem triggersOf_clearedEnds (r : Record) (b : Bool) (old new : Record) :
    (triggersOf r b (clearedEnds old new)).length ≤ 1 := by
  have fewer : (clearedEnds old new).Sublist (machineConditions.map .cleared) := List.filter_sublist.map _
  exact (fewer.flatMap (ReportEntry.triggers r b)).length_le.trans (le_of_eq rfl)

theorem triggersOf_stateEvent (r : Record) (b : Bool) (old new : MachineState) :
    (triggersOf r b (stateEvent old new)).length ≤ 2 := by
  rcases stateEvent_short old new with none | ⟨e, one⟩
  · simp [none, triggersOf]
  · simpa [one, triggersOf] using triggers_le_two r b e

theorem triggersOf_ite {r : Record} {b : Bool} {e : ReportEntry} {p : Prop} [Decidable p] (other : e ≠ .cycleDone) :
    (triggersOf r b (if p then [e] else [])).length ≤ 1 := by
  split
  · simpa [triggersOf] using triggers_le_one other
  · simp [triggersOf]

theorem triggersOf_progressEvents (r : Record) (b : Bool) (old new : Record) :
    (triggersOf r b (progressEvents old new)).length ≤ 5 := by
  have call : (triggersOf r b (if old.state = .running ∧ new.state = .running
      then timeCallOf old.minutes new.minutes else [])).length ≤ 1 := by
    split
    · unfold timeCallOf
      split
      · exact triggersOf_ite nofun
      · simp [triggersOf]
    · simp [triggersOf]
  simp only [progressEvents, triggersOf_append, List.length_append]
  have payment := triggersOf_ite (r := r) (b := b) (p := new.state = .awaitPayment ∧ (old.state ≠ .awaitPayment ∨
    new.credits ≠ old.credits)) (e := .paymentDue new.credits) nofun
  have action := triggersOf_ite (r := r) (b := b) (p := new.action ≠ 0 ∧ new.action ≠ old.action)
    (e := .action new.action) nofun
  have fault := triggersOf_ite (r := r) (b := b) (p := new.fault ≠ 0 ∧ new.fault ≠ old.fault)
    (e := .fault new.fault) nofun
  have phase := triggersOf_ite (r := r) (b := b) (p := old.state = .running ∧ new.state = .running ∧
    new.phase ≠ old.phase) (e := .phase new.phase) nofun
  omega

theorem triggersOf_machineReport (r : Record) (b : Bool) (old new : Record) :
    (triggersOf r b (machineReport old new)).length ≤ 8 := by
  simp only [machineReport, triggersOf_append, List.length_append]
  exact Nat.add_le_add (Nat.add_le_add (triggersOf_clearedEnds r b old new) (triggersOf_stateEvent r b _ _))
    (triggersOf_progressEvents r b old new)

/-! ## What is queued stays (R99, R107) -/

/-- R95: every item carries the condition key of its class. -/
def Keyed (items : List Item) : Prop := ∀ it ∈ items, it.key = classKey it.cls

/-- An item of the class stands among these. -/
def Holds (items : List Item) (c : PromptClass) : Prop := ∃ it ∈ items, it.cls = c

theorem queued_iff {q : PromptQueue} {c : PromptClass} : q.queued c = true ↔ Holds q.items c := by
  simp only [PromptQueue.queued, List.any_eq_true, beq_iff_eq, Holds]

/-- A class that none of the entries removes from the queue. -/
def Spared (c : PromptClass) (es : List ReportEntry) : Prop :=
  c ≠ .actionCall ∧ ∀ k, .cleared k ∈ es → classKey c ≠ k

theorem clears_holds {e : ReportEntry} {c : PromptClass} {items : List Item} (spared : Spared c [e])
    (keyed : Keyed items) (held : Holds items c) : Holds (e.clears items) c := by
  obtain ⟨it, mem, cls⟩ := held
  refine ⟨it, ?_, cls⟩
  unfold ReportEntry.clears
  split
  · rename_i k
    refine List.mem_filter.2 ⟨mem, bne_iff_ne.2 ?_⟩
    rw [keyed it mem, cls]
    exact spared.2 k (List.mem_singleton_self _)
  · exact List.mem_filter.2 ⟨mem, bne_iff_ne.2 (by rw [cls]; exact spared.1)⟩
  · exact mem

theorem putBy_holds {it : Item} {items : List Item} (ordered : InOrder items) (c : PromptClass) :
    Holds (putBy Item.rank it items) c ↔ it.cls = c ∨ Holds items c := by
  constructor
  · rintro ⟨x, mem, cls⟩
    rcases (mem_putBy Item.rank it ordered x).1 mem with rfl | ⟨old, -⟩
    · exact .inl cls
    · exact .inr ⟨x, old, cls⟩
  · intro held
    by_cases same : it.cls = c
    · exact ⟨it, (mem_putBy Item.rank it ordered it).2 (.inl rfl), same⟩
    · obtain ⟨x, mem, cls⟩ := held.resolve_left same
      refine ⟨x, (mem_putBy Item.rank it ordered x).2 (.inr ⟨mem, fun level => same ?_⟩), cls⟩
      exact (rank_inj level).symm.trans cls

theorem putBy_keyed {it : Item} {items : List Item} (ordered : InOrder items) (key : it.key = classKey it.cls)
    (keyed : Keyed items) : Keyed (putBy Item.rank it items) := fun x mem => by
  rcases (mem_putBy Item.rank it ordered x).1 mem with rfl | ⟨old, -⟩
  · exact key
  · exact keyed x old

/-- R95: the triggers of an entry keep the queue in order and keyed, and put their classes into it. -/
theorem putAll_spec (s : State) (ts : List (PromptClass × Params)) {items : List Item} (ordered : InOrder items)
    (keyed : Keyed items) : InOrder (s.putAll ts items) ∧ Keyed (s.putAll ts items) ∧
      (s.putAll ts items).length ≤ items.length + ts.length ∧
      ∀ c, Holds items c ∨ (∃ x ∈ ts, x.1 = c) → Holds (s.putAll ts items) c := by
  induction ts generalizing items with
  | nil => exact ⟨ordered, keyed, le_rfl, fun c held => held.resolve_right (by simp)⟩
  | cons z ts ih =>
    obtain ⟨order, keys, short, holds⟩ := ih
      (sorted_putBy Item.rank (s.itemOf z.1 z.2 (baseReach z.1)) items ordered) (putBy_keyed ordered rfl keyed)
    have longer := length_putBy Item.rank (s.itemOf z.1 z.2 (baseReach z.1)) items
    refine ⟨order, keys, ?_, fun c held => holds c ?_⟩
    · rw [List.length_cons]
      exact short.trans (by omega)
    · rw [putBy_holds ordered]
      rcases held with old | ⟨x, mem, cls⟩
      · exact .inl (.inr old)
      · rcases List.mem_cons.1 mem with rfl | later
        · exact .inl (.inl cls)
        · exact .inr ⟨x, later, cls⟩

/-- R90 to R92: the classes that an entry of a machine report triggers. -/
theorem triggers_class {old new : Record} {e : ReportEntry} (entry : e ∈ machineReport old new) {r : Record} {b : Bool}
    {x : PromptClass × Params} (mem : x ∈ e.triggers r b) :
    x.1 ≠ .actionCall ∧ classKey x.1 ≠ .selecting ∧ (e.place = 0 → classKey x.1 = .none) := by
  rcases machineReport_kinds entry with ⟨k, -, rfl⟩ | rfl | rfl | rfl | rfl | rfl | ⟨c, rfl⟩ | ⟨c, rfl⟩ | ⟨c, rfl⟩ |
    ⟨p, rfl⟩ | ⟨m, rfl⟩
  · simp only [ReportEntry.triggers, List.mem_ite_nil_right, List.mem_singleton] at mem
    rw [mem.2]
    exact ⟨nofun, nofun, fun _ => rfl⟩
  · rw [List.mem_singleton.1 mem]
    exact ⟨nofun, nofun, fun _ => rfl⟩
  · rw [List.mem_singleton.1 mem]
    exact ⟨nofun, nofun, fun _ => rfl⟩
  · rw [List.mem_singleton.1 mem]
    exact ⟨nofun, nofun, fun _ => rfl⟩
  · simp only [ReportEntry.triggers, List.mem_cons, List.not_mem_nil, or_false] at mem
    rcases mem with rfl | rfl
    · exact ⟨nofun, nofun, nofun⟩
    · exact ⟨nofun, nofun, nofun⟩
  · rw [List.mem_singleton.1 mem]
    exact ⟨nofun, nofun, fun _ => rfl⟩
  · rw [List.mem_singleton.1 mem]
    exact ⟨nofun, nofun, nofun⟩
  · rw [List.mem_singleton.1 mem]
    exact ⟨nofun, nofun, nofun⟩
  · rw [List.mem_singleton.1 mem]
    exact ⟨nofun, nofun, nofun⟩
  · simp only [ReportEntry.triggers] at mem
    split at mem
    · rw [List.mem_singleton.1 mem]
      exact ⟨nofun, nofun, fun _ => rfl⟩
    · simp at mem
  · rw [List.mem_singleton.1 mem]
    exact ⟨nofun, nofun, fun _ => rfl⟩

/-- R31: what an entry triggers is spared by the entries that follow it. -/
theorem spared_later {old new : Record} {e : ReportEntry} {es : List ReportEntry}
    (sub : ∀ d ∈ e :: es, d ∈ machineReport old new) (ordered : (e :: es).Pairwise (fun d e => d.place ≤ e.place))
    {r : Record} {b : Bool} {x : PromptClass × Params} (mem : x ∈ e.triggers r b) : Spared x.1 es := by
  obtain ⟨call, -, ended⟩ := triggers_class (sub e List.mem_cons_self) mem
  refine ⟨call, fun k later key => ?_⟩
  have first : e.place = 0 := Nat.le_zero.1 ((List.pairwise_cons.1 ordered).1 _ later)
  have machine := (cleared_mem.1 (sub _ (List.mem_cons_of_mem e later))).1
  rw [← key, ended first] at machine
  exact absurd machine (by decide)

theorem takeEntry_leaves (arrival : Time) (s : State) (e : ReportEntry) :
    (takeEntry arrival s e).pm = s.pm ∧ (takeEntry arrival s e).psp.profile = s.psp.profile :=
  have same := beyond_takeEntry arrival s e
  ⟨(congrArg State.pm same :), (congrArg (fun x : State => x.psp.profile) same :)⟩

/-- What the entries of a report, taken in their order, have put into the queue of a state in ENDING. -/
structure Gathered (r : Record) (b : Bool) (es : List ReportEntry) (s u : State) : Prop where
  ending : u.fc.state = .ending
  free   : u.pq.current = none
  keyed  : Keyed u.pq.items
  kept   : ∀ c, Spared c es → Holds s.pq.items c → Holds u.pq.items c
  put    : ∀ e ∈ es, ∀ x ∈ e.triggers r b, Holds u.pq.items x.1

theorem gathered_takeEntries {old new r : Record} {b : Bool} {arrival : Time} (es : List ReportEntry) {s : State}
    (sub : ∀ e ∈ es, e ∈ machineReport old new) (rising : es.Pairwise (fun d e => d.place ≤ e.place))
    (record : s.pm.record = r) (flag : s.psp.profile.phaseAnnounce = b) (ending : s.fc.state = .ending)
    (free : s.pq.current = none) (ordered : InOrder s.pq.items) (keyed : Keyed s.pq.items)
    (room : s.pq.items.length + (triggersOf r b es).length ≤ 8) :
    Gathered r b es s (es.foldl (takeEntry arrival) s) := by
  induction es generalizing s with
  | nil => exact ⟨ending, free, keyed, fun _ _ held => held, by simp⟩
  | cons e es ih =>
    have entry := sub e List.mem_cons_self
    have split : (triggersOf r b (e :: es)).length = (e.triggers r b).length + (triggersOf r b es).length :=
      List.length_append
    rw [split] at room
    have taken : Taken arrival e s (takeEntry arrival s e) :=
      taken_takeEntry entry ending free ordered (by rw [record, flag]; omega)
    obtain ⟨pm, profile⟩ := takeEntry_leaves arrival s e
    have fewer := clears_sublist e s.pq.items
    obtain ⟨order, keys, short, holds⟩ := putAll_spec s (e.triggers r b) (ordered.sublist fewer)
      (fun it mem => keyed it (fewer.subset mem))
    have items := taken.items
    rw [record, flag] at items
    rw [← items] at order keys short holds
    have rest := ih (fun d mem => sub d (List.mem_cons_of_mem e mem)) (List.pairwise_cons.1 rising).2
      (by rw [pm, record]) (by rw [profile, flag]) taken.ending taken.free order keys
      (by have := fewer.length_le; omega)
    refine ⟨rest.ending, rest.free, rest.keyed, fun c spared held => ?_, fun d mem x trigger => ?_⟩
    · obtain ⟨call, others⟩ := spared
      refine rest.kept c ⟨call, fun k later => others k (List.mem_cons_of_mem e later)⟩ (holds c (.inl ?_))
      refine clears_holds ⟨call, fun k now => others k ?_⟩ keyed held
      rw [List.mem_singleton.1 now]
      exact List.mem_cons_self
    · rcases List.mem_cons.1 mem with rfl | later
      · exact rest.kept x.1 (spared_later sub rising trigger) (holds x.1 (.inr ⟨x, trigger, rfl⟩))
      · exact rest.put d later x trigger

/-! ## The dialogue after the report (R86) -/

/-- R72, R99: in ENDING the end of a selection takes the items of SELECTING out of the queue, and no others. -/
theorem dcReport_holds {s : State} {c : PromptClass} (ending : s.fc.state = .ending) (free : s.pq.current = none)
    (keyed : Keyed s.pq.items) (other : classKey c ≠ .selecting) (held : Holds s.pq.items c) :
    Holds (dcReport s).pq.items c := by
  unfold dcReport
  split
  · unfold dcDiscard
    extract_lets selecting _ a b
    have kept : Holds b.pq.items c := by
      simp only [b]
      split
      · have ends : selectingEnds a = State.rid { a with au := a.au.noReminder } fun _ k => k == .selecting :=
          withdrawMeant_ending (s := { a with au := a.au.noReminder }) ending free fun _ k => k == .selecting
        obtain ⟨it, mem, cls⟩ := held
        rw [ends]
        refine ⟨it, List.mem_filter.2 ⟨mem, ?_⟩, cls⟩
        rw [keyed it mem, cls]
        exact Bool.not_eq_true' _ ▸ beq_eq_false_iff_ne.2 other
      · exact held
    exact kept
  · exact held

end Sys2Proof.Machine
end

