-- ==== Sys2Proof/Proofs/PartnerStatus.lean ====
section
/-! PROOFS. A partner STATUS received while the floor controller waits in ENDING (R92 to R108), and the whole of O34. -/

namespace Sys2Proof.Machine

/-! ## The verdict in ENDING (R4, R7, R16) -/

/-- R7, R16: a good frame does not lead into SOLO. -/
theorem goodFrame_mode {s : State} (law : CountLaw s) (solo : s.lp.goodFrame.mode = .solo) : s.lp.mode = .solo := by
  obtain ⟨-, high, -⟩ := law
  have kept : s.lp.goodFrame.degraded = true → s.lp.degraded = true := by
    simp only [LinePort.goodFrame, LinePort.setCount]
    split
    · exact fun _ => high (by omega)
    · split
      · exact fun set => absurd set Bool.false_ne_true
      · exact id
  have some' : (s.lp.goodFrame.degraded || s.lp.lineHeld || s.lp.clash) = true := by
    by_contra none
    exact absurd (solo.symm.trans (if_neg none)) (by decide)
  refine if_pos ?_
  simp only [Bool.or_eq_true] at some' ⊢
  exact some'.imp_left (Or.imp_left kept)

/-- In ENDING a good frame is counted, and the floor controller goes on waiting. -/
theorem judged_ending {s : State} (ending : s.fc.state = .ending) (law : CountLaw s) (k : RxKind) (n : Nat)
    (p : List Byte) : s.judged (.good k n p) = { s with lp := s.lp.goodFrame } := by
  have calm : ¬ (s.lp.mode = .normal ∧ s.lp.goodFrame.mode = .solo) := fun ⟨normal, solo⟩ =>
    absurd (normal.symm.trans (goodFrame_mode law solo)) (by decide)
  have waits : fcTest { s with lp := s.lp.goodFrame } = { s with lp := s.lp.goodFrame } := by
    simp only [fcTest, ending]
  unfold State.judged lineChanged
  extract_lets _ t
  have counted : t = { s with lp := s.lp.goodFrame } := if_neg calm
  rw [counted]
  split
  · rename_i changed
    refine (if_neg fun ⟨_, solo⟩ => ?_).trans waits
    have same : s.lp.mode = s.lp.goodFrame.mode := (goodFrame_mode law solo).trans solo.symm
    exact changed.elim (fun moved => moved same) fun held => held rfl
  · rfl

/-! ## The report in ENDING -/

theorem reported_eq {s : State} {got : Record} {arrival : Time} (closed : (s.timely got).dc.state.selecting = false)
    (ending : ((s.reportOf got).foldl (takeEntry arrival) (s.recorded got arrival)).fc.state = .ending) :
    s.reported got arrival = (s.reportOf got).foldl (takeEntry arrival) (s.recorded got arrival) := by
  have same := beyond_takeEntries arrival (s.reportOf got) (s.recorded got arrival)
  have dc : ((s.reportOf got).foldl (takeEntry arrival) (s.recorded got arrival)).dc = (s.timely got).dc :=
    (congrArg State.dc same :)
  rw [State.reported, takeReport, takeHead_ending ending]
  exact dcReport_unselecting (by rw [dc]; exact closed)

theorem recorded_idle {s : State} (idle : s.pm.inFlight = none) (got : Record) (arrival : Time) :
    s.recorded got arrival = s.refreshed (s.recordAfter got) arrival := by
  rw [State.recorded, timely_idle idle]

/-- R92 to R108: a report of one entry. -/
theorem reported_entry {s : State} {got : Record} {arrival : Time} {e : ReportEntry} (fresh : s.pm.freshness = .fresh)
    (one : machineReport s.pm.record (s.recordAfter got) = [e]) (idle : s.pm.inFlight = none)
    (closed : s.dc.state.selecting = false) (ending : s.fc.state = .ending) (free : s.pq.current = none)
    (ordered : InOrder s.pq.items) (room : s.pq.items.length ≤ 6) :
    Taken arrival e (s.refreshed (s.recordAfter got) arrival) (s.reported got arrival) := by
  have report : s.reportOf got = [e] := (if_pos fresh).trans one
  have entry : e ∈ machineReport s.pm.record (s.recordAfter got) := by rw [one]; exact List.mem_singleton_self e
  have short := triggers_le_two (s.recordAfter got) s.psp.profile.phaseAnnounce e
  have taken : Taken arrival e (s.refreshed (s.recordAfter got) arrival)
      (takeEntry arrival (s.refreshed (s.recordAfter got) arrival) e) :=
    taken_takeEntry entry ending free ordered (Nat.add_le_add room short)
  have same : s.reported got arrival = takeEntry arrival (s.refreshed (s.recordAfter got) arrival) e := by
    have folded : (s.reportOf got).foldl (takeEntry arrival) (s.recorded got arrival) =
        takeEntry arrival (s.refreshed (s.recordAfter got) arrival) e := by
      rw [report, recorded_idle idle]
      rfl
    rw [← folded] at taken ⊢
    exact reported_eq (by rw [timely_idle idle]; exact closed) taken.ending
  rw [same]
  exact taken

/-- R92, R95: of a longer report, with the queue empty, each class that is triggered is queued. -/
theorem reported_holds {s : State} {got : Record} {arrival : Time} (fresh : s.pm.freshness = .fresh)
    (idle : s.pm.inFlight = none) (ending : s.fc.state = .ending) (free : s.pq.current = none)
    (empty : s.pq.items = []) {e : ReportEntry} (mem : e ∈ machineReport s.pm.record (s.recordAfter got))
    {x : PromptClass × Params} (trigger : x ∈ e.triggers (s.recordAfter got) s.psp.profile.phaseAnnounce) :
    (s.reported got arrival).pq.queued x.1 = true := by
  have gathered : Gathered (s.recordAfter got) s.psp.profile.phaseAnnounce
      (machineReport s.pm.record (s.recordAfter got)) (s.refreshed (s.recordAfter got) arrival)
      ((machineReport s.pm.record (s.recordAfter got)).foldl (takeEntry arrival)
        (s.refreshed (s.recordAfter got) arrival)) := by
    refine gathered_takeEntries _ (fun _ entry => entry) (machineReport_ordered _ _) rfl rfl ending free ?_ ?_ ?_
    · exact empty ▸ List.Pairwise.nil
    · exact fun it mem => absurd (empty ▸ mem) List.not_mem_nil
    · have few := triggersOf_machineReport (s.recordAfter got) s.psp.profile.phaseAnnounce s.pm.record
        (s.recordAfter got)
      rw [show (s.refreshed (s.recordAfter got) arrival).pq.items = [] from empty]
      simpa using few
  have report : s.reportOf got = machineReport s.pm.record (s.recordAfter got) := if_pos fresh
  rw [queued_iff, State.reported, takeReport, report, recorded_idle idle, takeHead_ending gathered.ending]
  exact dcReport_holds gathered.ending gathered.free gathered.keyed (triggers_class mem trigger).2.1
    (gathered.put e mem x trigger)

/-! ## The baseline (R27, R103) -/

/-- R103: the series of several conditions started. -/
def startAll (ks : List CondKey) (arrival : Time) (q : PromptQueue) : PromptQueue :=
  ks.foldl (fun q k => startSeries k arrival q) q

theorem takeBaselines_eq (ks : List CondKey) (arrival : Time) (s : State) :
    (ks.map .baseline).foldl (takeEntry arrival) s = { s with pq := startAll ks arrival s.pq } := by
  induction ks generalizing s with
  | nil => rfl
  | cons k ks ih => exact ih { s with pq := startSeries k arrival s.pq }

theorem startAll_spec (ks : List CondKey) (arrival : Time) (q : PromptQueue) :
    (startAll ks arrival q).items = q.items ∧
      (startAll ks arrival q).doneSince = (if .done ∈ ks then some arrival else q.doneSince) ∧
      ∀ v, (startAll ks arrival q).series v =
        if seriesKey v ∈ ks then
          if v = .actionSecond then .stopped else { timer := some (arrival + seriesInterval v), count := 1 }
        else q.series v := by
  induction ks generalizing q with
  | nil => exact ⟨rfl, rfl, fun _ => rfl⟩
  | cons k ks ih =>
    obtain ⟨items, done, series⟩ := ih (startSeries k arrival q)
    refine ⟨items.trans (startSeries_items k arrival q), done.trans ?_, fun v => (series v).trans ?_⟩
    · rw [startSeries_doneSince]
      by_cases now : k = .done
      · simp [now]
      · simp [now, Ne.symm now]
    · rw [startSeries_series]
      by_cases now : seriesKey v = k
      · simp [now]
      · simp [now]

theorem shown_iff (r : Record) (k : CondKey) (machine : k ∈ machineConditions) :
    k ∈ machineConditions.filter r.shows ↔ r.shows k = true := by
  simp only [List.mem_filter, machine, true_and]

/-- R27, R103: the report of a baseline in ENDING. -/
theorem reported_baseline {s : State} {got : Record} {arrival : Time} (stale : s.pm.freshness ≠ .fresh)
    (idle : s.pm.inFlight = none) (closed : s.dc.state.selecting = false) (ending : s.fc.state = .ending)
    (free : s.pq.current = none) {u : State} (same : u = s.reported got arrival) :
    u.pq.items = (if s.pm.freshness = .lost then s.pq.items.filter (·.key != .lost) else s.pq.items) ∧
    (∀ v, u.pq.series v = if got.shows (seriesKey v) then
      if v = .actionSecond then .stopped else { timer := some (arrival + seriesInterval v), count := 1 }
      else s.pq.series v) ∧
    u.pq.doneSince = (if got.state = .done then some arrival else s.pq.doneSince) ∧ u.au = s.au := by
  have record : s.recordAfter got = got := if_neg stale
  have back : ∃ b : State, (if s.pm.freshness == .lost then [ReportEntry.partnerBack] else []).foldl
      (takeEntry arrival) (s.refreshed got arrival) = b ∧ b.fc.state = .ending ∧ b.au = s.au ∧
      b.pq = { s.pq with items := if s.pm.freshness = .lost then s.pq.items.filter (·.key != .lost)
                          else s.pq.items } := by
    refine ⟨_, rfl, ?_⟩
    by_cases lost : s.pm.freshness = .lost
    · have out : withdraw .lost (s.refreshed got arrival) = (s.refreshed got arrival).rid fun _ k => k == .lost :=
        withdrawMeant_ending (s := s.refreshed got arrival) ending free fun _ k => k == .lost
      rw [if_pos (beq_iff_eq.2 lost), if_pos lost]
      refine ⟨?_, ?_, ?_⟩
      · exact (congrArg (fun x : State => x.fc.state) out).trans ending
      · exact (congrArg State.au out :)
      · exact (congrArg State.pq out :)
    · rw [if_neg (fun is => lost (beq_iff_eq.1 is)), if_neg lost]
      exact ⟨ending, rfl, rfl⟩
  obtain ⟨b, withdrawn, waits, au, pq⟩ := back
  have folded : (s.reportOf got).foldl (takeEntry arrival) (s.recorded got arrival) =
      { b with pq := startAll (machineConditions.filter got.shows) arrival b.pq } := by
    rw [recorded_idle idle, record, State.reportOf, if_neg stale, baselineReport, List.foldl_append, withdrawn,
      takeBaselines_eq]
  have result : u = { b with pq := startAll (machineConditions.filter got.shows) arrival b.pq } := by
    rw [same, ← folded]
    exact reported_eq (by rw [timely_idle idle]; exact closed) (by rw [folded]; exact waits)
  obtain ⟨items, done, series⟩ := startAll_spec (machineConditions.filter got.shows) arrival b.pq
  rw [result]
  refine ⟨items.trans (by rw [pq]), fun v => (series v).trans ?_, done.trans ?_, au⟩
  · have machine : seriesKey v ∈ machineConditions := by cases v <;> decide
    simp only [shown_iff got _ machine, pq]
    rfl
  · have shows : got.shows .done = true ↔ got.state = .done := beq_iff_eq
    simp only [shown_iff got .done (by decide), shows, pq]

/-! ## The answer's prompt (R35, R92, R95) -/

/-- R35, R88: in ENDING, with nothing to report and no selection open, the answer's prompt is all that is placed. -/
theorem answered_items {s : State} {q : Request} {got : Record} {arrival : Time} (fresh : s.pm.freshness = .fresh)
    (flying : s.pm.inFlight = some q) (meant : q.answered got = true)
    (quiet : machineReport s.pm.record (s.recordAfter got) = []) (closed : s.dc.state.selecting = false)
    (ending : s.fc.state = .ending) (room : s.pq.items.length < 8) (result : AnswerResult) {u : State}
    (resolved : u = resolveAnswered q result (s.reported got arrival)) :
    (result ≠ .accepted → s.pq.queued .requestRefused = false → u.pq.items = putBy Item.rank
      (newItem .requestRefused (.two (reqCode q.kind) (resultCode result)) .loc s.now) s.pq.items) ∧
    (result = .accepted → q.kind = .cancel → s.pq.queued .cancelled = false → u.pq.items = putBy Item.rank
      (newItem .cancelled .zero .loc s.now) s.pq.items) ∧
    (result = .accepted → q.kind ≠ .cancel → u.pq.items = s.pq.items) := by
  have timely := timely_answered flying meant
  have queue : (darkFirst s).pq = s.pq := darkFirst_pq (.inl closed)
  have waits : (s.recorded got arrival).fc.state = .ending := by
    rw [State.recorded, timely]
    exact (rests_darkFirst s ending).1
  have report : s.reportOf got = [] := (if_pos fresh).trans quiet
  have shut : (s.timely got).dc.state.selecting = false := by
    rw [timely]
    rcases dc_darkFirst s with same | ⟨-, -, reset⟩
    · rw [same]; exact closed
    · rw [reset]; rfl
  have same : s.reported got arrival = s.recorded got arrival := by
    refine (reported_eq shut ?_).trans ?_
    · rw [report]; exact waits
    · rw [report]; rfl
  have pq : (s.recorded got arrival).untracked.pq = s.pq := by
    rw [untracked_pq, ← queue, ← timely]
    rfl
  have now : (s.recorded got arrival).untracked.now = s.now := by
    refine Eq.trans ?_ (apart_darkFirst s).now_eq
    rw [← timely]
    rfl
  have placed (c : PromptClass) (p : Params) (low : baseReach c = .loc) (new : s.pq.queued c = false) :
      (busyTrigger c p (s.recorded got arrival).untracked).pq.items =
        putBy Item.rank (newItem c p .loc s.now) s.pq.items := by
    rw [busyTrigger_items (s := (s.recorded got arrival).untracked) p waits (by rw [pq]; exact new) (by rw [pq]; exact room), low, itemOf_loc, now, pq]
  rw [resolved, resolveAnswered_eq, (dcResolved_leaves _ _).1, same]
  refine ⟨fun refused new => ?_, fun accepted cancel new => ?_, fun accepted other => ?_⟩
  · rw [State.replied, if_neg refused]
    exact placed _ _ rfl new
  · rw [State.replied, if_pos accepted, if_pos cancel]
    exact placed _ _ rfl new
  · rw [State.replied, if_pos accepted, if_neg other, pq]

/-! ## The STATUS received -/

/-- What the count of a partner STATUS leaves as it was; in ENDING the floor controller and the queue too. -/
structure Credited (a u : State) : Prop where
  pm     : u.pm = a.pm
  dc     : u.dc = a.dc
  au     : u.au = a.au
  now    : u.now = a.now
  roster : u.roster = a.roster
  calm   : a.fc.state = .ending → CountLaw a → u.fc = a.fc ∧ u.pq = a.pq ∧ u.psp = a.psp

theorem credited_judged (a : State) (k : RxKind) (n : Nat) (p : List Byte) :
    Credited a (a.quieted.judged (.good k n p)) := by
  have same := judged_outside a.quieted (.good k n p)
  refine ⟨(congrArg State.pm same :), (congrArg State.dc same :), (congrArg State.au same :),
    (congrArg State.now same :), (congrArg State.roster same :), fun ending law => ?_⟩
  rw [judged_ending (s := a.quieted) ending law]
  exact ⟨rfl, rfl, rfl⟩

theorem exec_partnerStatus {t i : Time} {r : Reception} {p : List Byte} {s : State} (on : s.receiving = true)
    (opened : s.lp.rx = some r) (other : r.own = false) (outside : s.lp.edge = none) (since : s.lp.idleSince = some i)
    (late : i + delimiter ≤ (s.advance t).now) (verdict : judge r = .good .status s.psp.machine p) :
    exec (.receptionClose t) s = .next (pmStatus p r.lastStop
      ((s.advance t).quieted.judged (.good .status s.psp.machine p))) := by
  have address : s.psp.machine ≠ (s.advance t).quieted.ownAddress := by
    show s.psp.machine ≠ 32 + s.psp.machine
    omega
  obtain ⟨-, -, -, -, -, -, machine⟩ := judged_spec (s.advance t).quieted (.good .status s.psp.machine p)
  rw [exec_receptionClose on opened outside since late, if_neg (ne_true_of_eq_false other),
    takeReception_good verdict address]
  exact congrArg Host.Outcome.next (if_pos machine.symm)

theorem answered_iff {q : Request} {r : Record} : q.answered r = true ↔
    q.sent = true ∧ r.ansKind = some q.kind ∧ r.ansMark = q.mark ∧ r.ansResult ≠ .none := by
  simp only [Request.answered, Bool.and_eq_true, beq_iff_eq, bne_iff_ne, and_assoc]

/-- R35: the answer offered concerns the tracker alone of the partner monitor. -/
theorem offerAnswer_pm (s : State) :
    (offerAnswer s).pm = { s.pm with inFlight := (offerAnswer s).pm.inFlight } := by
  unfold offerAnswer
  split
  · split
    · rw [resolveAnswered_eq, pm_dcResolved, (replied_leaves _ _ _).2]
    · rfl
  · rfl

section
variable {a J : State} (counted : Credited a J) {got : Record} {arrival : Time}
include counted

theorem credited_recordAfter : J.recordAfter got = a.recordAfter got := by
  rw [State.recordAfter, State.recordAfter, counted.pm]

theorem credited_darkDue : J.darkDue = a.darkDue := by
  rw [State.darkDue, State.darkDue, counted.au, counted.now]

/-- R92 to R108: the clause of O34 on a report of one entry. -/
theorem statusTaken_entry {e : ReportEntry} {new : Record} (record : new = a.recordAfter got)
    (fresh : a.pm.freshness = .fresh) (one : machineReport a.pm.record new = [e]) (idle : a.pm.inFlight = none)
    (closed : a.dc.state.selecting = false) (ending : a.fc.state = .ending) (free : a.pq.current = none)
    (queue : QueueLaw a) (law : CountLaw a) (room : a.pq.items.length ≤ 6) {u : State}
    (result : u = J.reported got arrival) :
    u.pq.items = a.putAll (e.triggers new a.psp.profile.phaseAnnounce) (e.clears a.pq.items) ∧
    (∀ v, u.pq.series v = if e.resets v then .stopped else a.pq.series v) ∧
    u.pq.doneSince = (if e = .cycleDone then some arrival else if e = .cleared .done then none else a.pq.doneSince) ∧
    (e.triggers new a.psp.profile.phaseAnnounce ≠ [] → a.psp.phase = .run → u.au.state = .active) := by
  obtain ⟨fc, pq, psp⟩ := counted.calm ending law
  rw [← credited_recordAfter counted] at record
  subst record result
  have taken := reported_entry (s := J) (arrival := arrival) (by rw [counted.pm]; exact fresh)
    (by rw [counted.pm]; exact one) (by rw [counted.pm]; exact idle) (by rw [counted.dc]; exact closed)
    (by rw [fc]; exact ending) (by rw [pq]; exact free) (by rw [pq]; exact queue.1) (by rw [pq]; exact room)
  obtain ⟨-, -, -, -, items, series, done, active⟩ := taken
  have puts : (J.refreshed (J.recordAfter got) arrival).putAll = a.putAll :=
    putAll_congr (congrArg PromptQueue.hush pq) counted.now
  rw [puts] at items
  simp only [State.refreshed, pq, psp] at items series done active
  exact ⟨items, series, done, active⟩

/-- R92, R95: the clause of O34 on the classes of a longer report. -/
theorem statusTaken_holds {new : Record} (record : new = a.recordAfter got)
    (fresh : a.pm.freshness = .fresh) (ending : a.fc.state = .ending) (free : a.pq.current = none) (law : CountLaw a)
    (idle : a.pm.inFlight = none) (empty : a.pq.items = []) {e : ReportEntry}
    (mem : e ∈ machineReport a.pm.record new) {x : PromptClass × Params}
    (trigger : x ∈ e.triggers new a.psp.profile.phaseAnnounce) : (J.reported got arrival).pq.queued x.1 = true := by
  obtain ⟨fc, pq, psp⟩ := counted.calm ending law
  rw [← credited_recordAfter counted] at record
  subst record
  refine reported_holds (s := J) (by rw [counted.pm]; exact fresh) (by rw [counted.pm]; exact idle)
    (by rw [fc]; exact ending) (by rw [pq]; exact free) (by rw [pq]; exact empty) (e := e)
    (by rw [counted.pm]; exact mem) (by rw [psp]; exact trigger)

/-- R27, R103: the clause of O34 on a baseline. -/
theorem statusTaken_baseline (stale : a.pm.freshness ≠ .fresh) (idle : a.pm.inFlight = none)
    (closed : a.dc.state.selecting = false) (ending : a.fc.state = .ending) (free : a.pq.current = none)
    (law : CountLaw a) {u : State} (result : u = J.reported got arrival) :
    u.pq.items = (if a.pm.freshness = .lost then a.pq.items.filter (·.key != .lost) else a.pq.items) ∧
    (∀ v, u.pq.series v = if got.shows (seriesKey v) then
      if v = .actionSecond then .stopped else { timer := some (arrival + seriesInterval v), count := 1 }
      else a.pq.series v) ∧
    u.pq.doneSince = (if got.state = .done then some arrival else a.pq.doneSince) ∧ u.au = a.au := by
  obtain ⟨fc, pq, -⟩ := counted.calm ending law
  have taken := reported_baseline (s := J) (arrival := arrival) (by rw [counted.pm]; exact stale)
    (by rw [counted.pm]; exact idle) (by rw [counted.dc]; exact closed) (by rw [fc]; exact ending)
    (by rw [pq]; exact free) result
  rw [counted.pm, counted.au, pq] at taken
  exact taken

end

/-- R35, R38, R83, R88: the clauses of O34 on a STATUS that answers the request in flight. -/
theorem statusTaken_answered {a J : State} (counted : Credited a J) {got : Record} {arrival : Time} {q : Request}
    (flying : a.pm.inFlight = some q) {new : Record} (record : new = a.recordAfter got)
    (meant : q.answered new = true) {u : State} (result : u = offerAnswer (J.reported got arrival)) :
    u.pm.inFlight = none ∧
    (a.dc.state = .awaitAnswer → new.ansResult ≠ .accepted → a.dc.ret = some .confirm →
      (new.state = .free ∨ new.state = .ready) → a.darkDue = false →
      u.dc = { a.dc with state := .confirm, ret := none }) ∧
    (a.darkDue = true → a.dc.state ≠ .view → u.dc = Dialogue.reset) ∧
    (a.dc.state = .awaitAnswer → (new.ansResult = .accepted ∨ a.dc.ret ≠ some .confirm ∨
      new.state ≠ .free ∧ new.state ≠ .ready) → u.dc = Dialogue.reset) ∧
    (a.dc.state = .view → u.dc = a.dc) ∧
    (a.pm.freshness = .fresh → machineReport a.pm.record new = [] → a.dc.state.selecting = false →
      a.fc.state = .ending → CountLaw a → a.pq.items.length < 8 →
      (new.ansResult ≠ .accepted → a.pq.queued .requestRefused = false → u.pq.items = putBy Item.rank
        (newItem .requestRefused (.two (reqCode q.kind) (resultCode new.ansResult)) .loc a.now) a.pq.items) ∧
      (new.ansResult = .accepted → q.kind = .cancel → a.pq.queued .cancelled = false → u.pq.items =
        putBy Item.rank (newItem .cancelled .zero .loc a.now) a.pq.items) ∧
      (new.ansResult = .accepted → q.kind ≠ .cancel → u.pq.items = a.pq.items)) := by
  rw [← credited_recordAfter counted] at record
  have ours : q.answered got = true := by rw [← answered_recordAfter J got q, ← record]; exact meant
  have tracked : J.pm.inFlight = some q := by rw [counted.pm]; exact flying
  have resolved : u = resolveAnswered q new.ansResult (J.reported got arrival) := by
    rw [result, record]
    exact offerAnswer_answered tracked ours
  have moved := resolveAnswered_spec ours tracked arrival record resolved
  rw [counted.dc, credited_darkDue counted] at moved
  obtain ⟨tracker, back, dark, past, view⟩ := moved
  refine ⟨tracker, back, dark, past, view, fun fresh quiet closed ending law room => ?_⟩
  obtain ⟨fc, pq, -⟩ := counted.calm ending law
  have placed := answered_items (s := J) (by rw [counted.pm]; exact fresh) tracked ours
    (by rw [counted.pm, ← record]; exact quiet) (by rw [counted.dc]; exact closed) (by rw [fc]; exact ending)
    (by rw [pq]; exact room) new.ansResult resolved
  rw [pq, counted.now] at placed
  exact placed

/-- R19, R22, R24, R86: the clauses of O34 on the partner monitor, and on the dialogue with no request in flight. -/
theorem statusTaken_record {a J : State} (counted : Credited a J) {got : Record} {arrival : Time} {new : Record}
    (record : new = a.recordAfter got) {u : State} (result : u = offerAnswer (J.reported got arrival)) :
    u.pm = { a.pm with record := new, freshness := .fresh, freshTimer := some (arrival + freshTime)
                       inFlight := u.pm.inFlight } ∧
    (a.pm.inFlight = none → u = J.reported got arrival ∧ u.pm.inFlight = none ∧
      u.dc = if a.dc.state.selecting && !new.willing then Dialogue.reset else a.dc) ∧
    ∀ q, a.pm.inFlight = some q → q.answered new = false → u.pm.inFlight = some q ∧
      (a.dc.state.selecting = false → u.dc = a.dc) := by
  rw [← credited_recordAfter counted] at record
  have pm := reported_pm J got arrival
  rw [← record, counted.pm] at pm
  refine ⟨?_, fun idle => ?_, fun q flying other => ?_⟩
  · have offered := offerAnswer_pm (J.reported got arrival)
    rw [← result, pm] at offered
    exact offered
  · have none : J.pm.inFlight = none := by rw [counted.pm]; exact idle
    have same : u = J.reported got arrival := result.trans (offerAnswer_idle none)
    refine ⟨same, ?_, ?_⟩
    · rw [same, pm]
      exact idle
    · rw [same, reported_dc, timely_idle none, ← record, counted.dc]
  · have ours : q.answered got = false := by rw [← answered_recordAfter J got q, ← record]; exact other
    have tracked : J.pm.inFlight = some q := by rw [counted.pm]; exact flying
    have same : u = J.reported got arrival := result.trans (offerAnswer_unanswered tracked ours)
    refine ⟨?_, fun closed => ?_⟩
    · rw [same, pm]
      exact flying
    · have timely := timely_unanswered tracked ours
      rw [same, reported_dc_closed got arrival (by rw [timely, counted.dc]; exact closed), timely, counted.dc]

/-- Settles O34. -/
theorem partnerStatusIsTaken : Obligations.PartnerStatusIsTaken := by
  refine ⟨fun old new => ?_, fun t i r p new s a clock on opened other outside since late verdict record => ?_⟩
  · refine ⟨machineReport_ordered old new, machineReport_nodup old new, fun e mem => ?_,
      cleared_mem.trans (by simp [machineConditions, Record.shows]),
      cleared_mem.trans (by simp [machineConditions, Record.shows]),
      cleared_mem.trans (by simp [machineConditions, Record.shows]),
      cleared_mem.trans (by simp [machineConditions, Record.shows]),
      (stateEntry_mem rfl).trans (by simp [mem_stateEvent]), (stateEntry_mem rfl).trans (by simp [mem_stateEvent]),
      (stateEntry_mem rfl).trans (by simp [mem_stateEvent]), (stateEntry_mem rfl).trans (by simp [mem_stateEvent]),
      (stateEntry_mem rfl).trans (by simp [mem_stateEvent]),
      fun c => (progress_mem (by simp [ReportEntry.place])).trans (by simp [mem_progressEvents, and_comm]),
      fun c => (progress_mem (by simp [ReportEntry.place])).trans (by simp [mem_progressEvents, and_comm]),
      fun c => (progress_mem (by simp [ReportEntry.place])).trans (by simp [mem_progressEvents, and_comm]),
      fun c => (progress_mem (by simp [ReportEntry.place])).trans (by simp [mem_progressEvents, and_comm]),
      fun m => (progress_mem (by simp [ReportEntry.place])).trans (by simp [mem_progressEvents, and_assoc])⟩
    rcases machineReport_kinds mem with ⟨k, machine, rfl⟩ | rfl | rfl | rfl | rfl | rfl | ⟨c, rfl⟩ | ⟨c, rfl⟩ |
      ⟨c, rfl⟩ | ⟨p, rfl⟩ | ⟨m, rfl⟩
    · exact machine
    all_goals trivial
  · subst clock
    have counted := credited_judged (s.advance t) .status s.psp.machine p
    have roster := (based_pmStatus p r.lastStop
      ((s.advance t).quieted.judged (.good .status s.psp.machine p))).roster_eq.trans counted.roster
    refine ⟨_, exec_partnerStatus on opened other outside since (by rw [delimiter]; exact late) verdict, ?_⟩
    rw [pmStatus_eq] at roster ⊢
    generalize result : offerAnswer (((s.advance t).quieted.judged (.good .status s.psp.machine p)).reported
      (recordOf p) r.lastStop) = u at roster ⊢
    obtain ⟨pm, idle, unmeant⟩ := statusTaken_record counted record result.symm
    have span : freshTime = 6 * second := by rw [freshTime]
    rw [← span]
    refine ⟨by rw [pm], by rw [pm], by rw [pm], by rw [pm]; rfl, roster,
      fun e fresh one none closed ending free queue law room => ?_,
      fun fresh ending free queue law none empty e mem x trigger => ?_,
      fun stale none closed ending free law => ?_, fun none => (idle none).2, fun q flying =>
        ⟨fun meant => ?_, fun other => unmeant q flying (Bool.eq_false_iff.2 fun meant => ?_)⟩⟩
    · exact statusTaken_entry counted record fresh one none closed ending free queue law room (idle none).1
    · rw [(idle none).1]
      exact statusTaken_holds counted record fresh ending free law none empty mem trigger
    · have got : new = recordOf p := record.trans (if_neg stale)
      rw [got]
      exact statusTaken_baseline counted stale none closed ending free law (idle none).1
    · obtain ⟨tracker, back, dark, past, view, items⟩ :=
        statusTaken_answered counted flying record (answered_iff.2 meant) result.symm
      exact ⟨tracker, back, fun e lit set due opened =>
        dark (darkDue_of_le (s := s.advance t) lit set due) opened, past, view, items⟩
    · obtain ⟨sent, kind, mark, some'⟩ := answered_iff.1 meant
      rcases other with unsent | unlike | unmarked | none
      · exact absurd (sent.symm.trans unsent) (by decide)
      · exact unlike kind
      · exact unmarked mark
      · exact some' none

end Sys2Proof.Machine
end
